-- ==== Sys2Proof/Word.lean ====
section
/-!
DEFINITION. The word types of the T48: what the manual treats as bits or as a numbered unit.
-/

namespace Sys2Proof

/-- One byte of the register window, of a RAM or of a link block (00_scope.md 5.4). -/
abbrev Byte := BitVec 8

/-- A 7-bit node address, group number or target value (00_scope.md 5.5, R9). -/
abbrev Addr := BitVec 7

/-- The 16-bit count of ticks since reset (00_scope.md 5.3). -/
abbrev Stamp := BitVec 16

/-- A page number, 0..63 (R43). -/
abbrev Page := Fin 64

/-- A job slot number, 0..15 (R112). -/
abbrev Slot := Fin 16

/-- A buffer pool block number, 0..63 (R114). -/
abbrev Block := Fin 64

/-- A count as the byte a register or record presents. -/
def byte (n : Nat) : Byte := BitVec.ofNat 8 n

end Sys2Proof
end

