-- ==== Sys2Proof/Config.lean ====
section
/-!
DEFINITION. What the part fixes: sizes, limits and dividers, each with its rule. The spec leaves no
value of a result open, so there is no free value here (NOTES.md, Assumptions).
-/

namespace Sys2Proof.Config

/-- Page memory, in bytes (R43). -/
def pageMemorySize : Nat := 4096

/-- Bytes of page memory that one page number owns (R43). -/
def pageRegion : Nat := 64

/-- The inbound ring, in bytes (R101). -/
def ringSize : Nat := 1024

/-- Header bytes of an inbound record (R102). -/
def recordHeader : Nat := 6

/-- The buffer pool, in bytes: 64 blocks of 8 (R114). -/
def poolSize : Nat := 512

/-- Bytes of a pool block and of a full link block (R16, R114). -/
def blockSize : Nat := 8

/-- The staging buffer, in bytes (R170). -/
def stagingSize : Nat := 64

/-- The event queue, in records (R153). -/
def eventQueueSize : Nat := 32

/-- The peer table, in entries (R138). -/
def peerTableSize : Nat := 32

/-- The transmit error count at which the node leaves the link (R29). -/
def txErrorLimit : Nat := 8

/-- Ticks the recovery timer is loaded with (R31). -/
def recoveryTicks : Nat := 64

/-- The NAK of a telegram that abandons it (R18). -/
def nakLimit : Nat := 5

/-- The generator polynomial x⁸ + x⁶ + x³ + x² + 1 less its leading term (R10). -/
def crcPolynomial : Byte := 0x4D#8

/-- What the checking register is preset to (R10). -/
def crcPreset : Byte := 0xFF#8

end Sys2Proof.Config
end

