-- ==== Sys2Proof/Syntax.lean ====
section
/-!
DEFINITION. The commands of the block: one constructor per row of spec/opcode_table.json, with the
operands a sender gives.
-/

namespace Sys2Proof

/-- The two levels of the link (R1): dominant is logical 0, recessive logical 1. -/
inductive Level
  | dominant
  | recessive
deriving DecidableEq, Repr

/-- The moments of a telegram's header at which something happens to the node (log entry 8).
Levels are those the node SAMPLED. -/
inductive HeaderPart
  /-- The ninth bit has been sampled as sent: the contender is the initiator (R7). -/
  | arbitrationWon
  /-- All 48 bits have been sampled, the first sent in bit 47 (R9, R11). -/
  | headerBits (bits : BitVec 48)
  /-- The next bit of the header response slot has been sampled (R14, R15). -/
  | slotBit (level : Level)
deriving DecidableEq, Repr

/-- One countdown's share of a tick (R40: the blocks' handling of one tick is not ordered). -/
inductive TickShare
  /-- The Link Engine's recovery timer (R31). -/
  | recovery
  /-- The lease of a page (R69). -/
  | lease (p : Page)
  /-- The freshness countdown of a page (R57). -/
  | freshness (p : Page)
  /-- The deadline of a job slot (R129). -/
  | deadline (j : Slot)
  /-- The retry countdown of a job slot (R125). -/
  | retry (j : Slot)
deriving DecidableEq, Repr

/-- The commands. The first twenty are COMPLETIONS of the command in the slot (R166, R168): the code
and the parameters are those CMD_WRITE took (R165), so they carry no operand (log entry 2). -/
inductive Instr
  | configure
  | setGroups
  | linkStart
  | linkStop
  | pageDefine
  | pageClose
  | pageFetch
  | pageCommit
  | localClaim
  | localRelease
  | breakClaim
  | submit
  | cancel
  | jobQuery
  | jobFetch
  | retire
  | peerRead
  | peerReset
  | inboundDrop
  | badCommand
  | statusRead
  | resultRead
  | resultDataRead
  | paramWrite (value : Byte)
  | dataRead
  | dataWrite (value : Byte)
  | dataPtrWrite (value : Byte)
  | completionRead
  | eventRead
  | inboundRead
  | irqClear (value : Byte)
  | irqEnableWrite (value : Byte)
  /-- A write to an address whose write column is empty (R163). -/
  | ignoredWrite (address : BitVec 4) (value : Byte)
  /-- A write of CONTROL (R173, R175). -/
  | controllerReset (value : Byte)
  | controllerResetEnd
  | resetAsserted
  | powerOnResetSequence
  | powerOnResetEnd
  | enterOnline
  | transmitOpportunity
  | startMarker
  | arbitrationLost
  | header (part : HeaderPart)
  /-- A block's bytes (the first as many as the block has), its check, and the two bits of its slot,
  all as the node sampled them (R16, R17, R19). -/
  | blockSlot (data : Vector Byte 8) (check : Byte) (first second : Level)
  | resendExhaustion
  | bitError
  | lossOfSyncEdges
  | normalEnd
  | stuckDominant
  | recoveryTimerExpiry
  /-- A tick boundary: the shares named first are taken first, in that order; and whether the line has
  then been dominant for more than 16 TB (R31). -/
  | tick (order : List TickShare) (lineStuck : Bool)
  | leaseExpiry (p : Page)
  | pendingExpiry (p : Page)
  | refreshWindowExpiry (p : Page)
  | freshLifetimeExpiry (p : Page)
  | retryCountdownExpiry (j : Slot)
  | deadlineExpiry (j : Slot)
  | cmdWrite (code : Byte)
  | gapMeasurementRestart
deriving DecidableEq, Repr

end Sys2Proof
end

