-- ==== Sys2Proof/WellFormed.lean ====
section
/-!
DEFINITION. Which terms are commands of the table: the operands a row's own words ask for.
-/

namespace Sys2Proof

/-- The addresses whose write column is empty: 5h, 6h, 7h and Ah to Fh (R163). -/
def readOnlyAddress (a : BitVec 4) : Bool :=
  (5 ≤ a.toNat && a.toNat ≤ 7) || 10 ≤ a.toNat

/-- CONTROLLER_RESET is a CONTROL write with the reset bit set; IGNORED_WRITE names a read-only
address; a TICK names each countdown at most once. Every other term is a command as it stands. -/
def Instr.wellFormed : Instr → Bool
  | .controllerReset v => v.getLsbD 0
  | .ignoredWrite a _ => readOnlyAddress a
  | .tick order _ => decide order.Nodup
  | .configure | .setGroups | .linkStart | .linkStop | .pageDefine | .pageClose | .pageFetch
  | .pageCommit | .localClaim | .localRelease | .breakClaim | .submit | .cancel | .jobQuery
  | .jobFetch | .retire | .peerRead | .peerReset | .inboundDrop | .badCommand | .statusRead
  | .resultRead | .resultDataRead | .paramWrite _ | .dataRead | .dataWrite _ | .dataPtrWrite _
  | .completionRead | .eventRead | .inboundRead | .irqClear _ | .irqEnableWrite _
  | .controllerResetEnd | .resetAsserted | .powerOnResetSequence | .powerOnResetEnd | .enterOnline
  | .transmitOpportunity | .startMarker | .arbitrationLost | .header _ | .blockSlot _ _ _ _
  | .resendExhaustion | .bitError | .lossOfSyncEdges | .normalEnd | .stuckDominant
  | .recoveryTimerExpiry | .leaseExpiry _ | .pendingExpiry _ | .refreshWindowExpiry _
  | .freshLifetimeExpiry _ | .retryCountdownExpiry _ | .deadlineExpiry _ | .cmdWrite _
  | .gapMeasurementRestart => true

end Sys2Proof
end

