-- ==== Sys2Proof/Machine/State.lean ====
section
/-!
DEFINITION. The state of the T48, block by block as 00_scope.md 2.1 lists them, and its reset state.
-/

namespace Sys2Proof.Machine

/-- An addressed RAM: (address, byte) pairs, addresses strictly rising, no byte 00h listed. An unlisted
address reads 00h (R60, R178). -/
abbrev Memory := List Host.Cell

/-! ### Node configuration and Link Engine (chapter 2) -/

/-- Rate grade (00_scope.md 5.2). -/
inductive Grade
  | a | b | c | d
deriving DecidableEq, Repr

/-- The node configuration (R37). Durations are in ticks. -/
structure NodeConfig where
  address : Addr
  grade : Grade
  lease : Nat
  busyRetry : Nat
  refreshWindow : Nat
  degradeThreshold : Nat
  unreachableThreshold : Nat
  autoRecover : Bool
  acceptMessages : Bool
deriving DecidableEq, Repr

/-- Link state (R25). -/
inductive LinkState
  | offline | syncing | online | stopping | faulted
deriving DecidableEq, Repr

/-- The cause a LINK_STATE event names (R33). -/
inductive Cause
  | command | bitErrors | stuck | recovery | telegramEnd
deriving DecidableEq, Repr

/-- Fields 1 to 8 of a telegram header (R9). -/
structure Header where
  priority : BitVec 2
  initiator : Addr
  group : Bool
  target : Addr
  operation : BitVec 4
  page : BitVec 6
  offset : BitVec 6
  length : BitVec 7
deriving DecidableEq, Repr

/-- The answer of a target in an individual header slot (R14). -/
inductive Answer
  | ack | busy | refuse
deriving DecidableEq, Repr

/-- The node's place in the telegram in progress, if there is one (R11, R25, R80). -/
inductive Role
  /-- No telegram in progress: the node is idle on the link (R4). -/
  | idle
  /-- A telegram is in progress and its header has not been received yet (R5). -/
  | receiving
  /-- The node only follows the telegram to its end (R11, R20, R21). -/
  | bystander
  /-- The node's own start marker or arbitration field, for the job in a slot (R5, R7). -/
  | contender (j : Slot) (h : Header)
  /-- The node is the initiator of its own telegram (R7). -/
  | initiator (j : Slot) (h : Header)
  /-- The target of an individual telegram, with the answer it gives (R86). -/
  | target (h : Header) (a : Answer)
  /-- A member of a collective telegram; `accepts` is false when it is about to dissent (R86). -/
  | member (h : Header) (accepts : Bool)
deriving DecidableEq, Repr

/-- The interframe gap measurement (R4, R26, R27). -/
inductive Gap
  | notRunning | running | complete
deriving DecidableEq, Repr

/-- The stuck-dominant measurement (R30, R31). -/
inductive Dominance
  | notRunning | running | exceeded
deriving DecidableEq, Repr

/-- The Link Engine's own state, less the configuration, the groups and the tick generator. -/
structure LinkEngine where
  state : LinkState
  role : Role
  /-- The header slot bits sampled in the telegram in progress, first to last (R14, R29). -/
  slot : List Level
  gap : Gap
  dominance : Dominance
  txErrors : Nat
  recoveryTimer : Nat
  cause : Option Cause
deriving DecidableEq, Repr

/-- Tick generator and stamp (R40). Two lists are the model's own: `taken`, the shares of the coming tick
that expiry rows have already taken (log entry 5), and `spared`, the pages whose last countdown a commit has
replaced at this moment, so that a tick at the same moment ends none: an idle step, a row of the link and a tick empty
it (R58, log entry 28). -/
structure TickGenerator where
  phase : BitVec 10
  stamp : Stamp
  taken : List TickShare
  spared : List Page
deriving DecidableEq, Repr

/-! ### Page Directory (chapters 3 and 4) -/

inductive PageMode
  | closed | opened | deferred
deriving DecidableEq, Repr

inductive Access
  | readOnly | writeOnly | readWrite
deriving DecidableEq, Repr

inductive Freshness
  | stale | requested | fresh
deriving DecidableEq, Repr

/-- Claim holder (R62). -/
inductive Holder
  | none | local | node (a : Addr)
deriving DecidableEq, Repr

/-- A page entry (R44, R62). A remote holder with lease remaining 0 carries a pending expiry (R62,
R70; log entry 13). -/
structure PageEntry where
  mode : PageMode
  length : Nat
  access : Access
  allowed : Addr
  claimable : Bool
  lifetime : Nat
  sequence : Byte
  freshness : Freshness
  countdown : Nat
  holder : Holder
  lease : Nat
deriving DecidableEq, Repr

/-- The default entry (R44). -/
def PageEntry.default : PageEntry where
  mode := .closed
  length := 64
  access := .readWrite
  allowed := 0
  claimable := false
  lifetime := 0
  sequence := 0
  freshness := .stale
  countdown := 0
  holder := .none
  lease := 0

/-! ### Responder (chapter 5) -/

/-- Reason codes of the last-response record (R81, R88). -/
inductive Reason
  | empty | badOp | groupOp | noMailbox | range | storeFull | noPage | access | notHolder | claimed
  | refreshing | blockCheck
deriving DecidableEq, Repr

/-- The in-flight marker (R89). -/
inductive Marker
  | clear | page (p : Page) | inbound
deriving DecidableEq, Repr

structure Responder where
  marker : Marker
  /-- The receive staging area: the bytes of the blocks delivered so far, in order (R90). -/
  staging : List Byte
  blockIndex : Nat
  nakCount : Nat
  snapshot : Option (List Byte)
  lastReason : Reason
  lastInitiator : Addr
deriving DecidableEq, Repr

/-! ### Inbound Store (chapter 6) -/

/-- Room held for an accepted MESSAGE, with the header fields of its record (R103). -/
structure Reservation where
  size : Nat
  start : Nat
  header : Header
deriving DecidableEq, Repr

structure InboundStore where
  ring : Memory
  head : Nat
  committedBytes : Nat
  committedRecords : Nat
  reservation : Option Reservation
  readIndex : Nat
deriving DecidableEq, Repr

/-! ### Job Manager and Initiator Engine (chapter 7) -/

/-- The eight operations (R9). -/
inductive Operation
  | read | write | claim | release | readClaim | writeRelease | status | message
deriving DecidableEq, Repr

inductive JobState
  | free | queued | waiting | active | complete
deriving DecidableEq, Repr

/-- Job results (12.5). -/
inductive JobResult
  | none | done | dissent | refused | noResponse | checkFailed | busyExhausted | arbExhausted
  | peerUnreachable | cancelled | expired
deriving DecidableEq, Repr

/-- Last response of a job (R112). -/
inductive LastResponse
  | none | ack | busy | refuse | silence | noDissent | dissent
deriving DecidableEq, Repr

inductive PeerState
  | normal | degraded | unreachable
deriving DecidableEq, Repr

/-- A job slot: its generation, and the job record of R112. -/
structure JobSlot where
  generation : BitVec 4
  state : JobState
  operation : Operation
  group : Bool
  target : Addr
  page : BitVec 6
  offset : BitVec 6
  length : BitVec 7
  priority : BitVec 2
  ordered : Bool
  probe : Bool
  transportLimit : Nat
  busyLimit : Nat
  arbitrationLimit : Nat
  deadline : Nat
  deadlineRemaining : Nat
  attempts : Nat
  transportFailures : Nat
  busyResponses : Nat
  arbitrationLosses : Nat
  retryCountdown : Nat
  peerAtDispatch : Option PeerState
  blocks : List Block
  cancelRequested : Bool
  expiryRequested : Bool
  result : JobResult
  bytesDone : Nat
  lastResponse : LastResponse
  unread : Bool
deriving DecidableEq, Repr

/-- A FREE slot of a given generation. Its other fields hold no job (log entry 24). -/
def JobSlot.free (g : BitVec 4) : JobSlot where
  generation := g
  state := .free
  operation := .read
  group := false
  target := 0
  page := 0
  offset := 0
  length := 0
  priority := 0
  ordered := false
  probe := false
  transportLimit := 0
  busyLimit := 0
  arbitrationLimit := 0
  deadline := 0
  deadlineRemaining := 0
  attempts := 0
  transportFailures := 0
  busyResponses := 0
  arbitrationLosses := 0
  retryCountdown := 0
  peerAtDispatch := none
  blocks := []
  cancelRequested := false
  expiryRequested := false
  result := .none
  bytesDone := 0
  lastResponse := .none
  unread := false

/-- A completion record (R132). -/
structure CompletionRecord where
  tag : Byte
  result : JobResult
  attempts : Nat
  bytesDone : Nat
  busyResponses : Nat
  lastResponse : LastResponse
  stamp : Stamp
deriving DecidableEq, Repr

structure CompletionQueue where
  records : List CompletionRecord
  readIndex : Nat
deriving DecidableEq, Repr

/-- The phases of an attempt (R121). -/
inductive Phase
  | contending | header | headerSlot | data | ended
deriving DecidableEq, Repr

structure InitiatorEngine where
  phase : Phase
  blockIndex : Nat
  resendCount : Nat
  dissent : Bool
deriving DecidableEq, Repr

/-! ### Peer Health Table (chapter 8) -/

/-- Last result of a peer entry (R141). -/
inductive PeerResult
  | none | arbLost | bitError | linkLost | silence | busy | refuse | resendExhausted | normalEnd
deriving DecidableEq, Repr

structure PeerEntry where
  address : Addr
  score : Nat
  state : PeerState
  attempts : Nat
  silences : Nat
  checkFailures : Nat
  busy : Nat
  lastResult : PeerResult
deriving DecidableEq, Repr

/-! ### Event Unit (chapter 9) -/

inductive EventKind
  | pageWritten | claimTaken | claimReleased | claimExpired | refreshRequest | peerState | linkState
deriving DecidableEq, Repr

/-- An event record (R153). -/
structure EventRecord where
  kind : EventKind
  lost : Bool
  writeCount : Nat
  subject : Byte
  node : Byte
  detail : Byte
  stamp : Stamp
deriving DecidableEq, Repr

structure EventUnit where
  records : List EventRecord
  readIndex : Nat
  lostPending : Bool
deriving DecidableEq, Repr

/-! ### Local Port (chapter 10) -/

/-- The reset the part is in, if any (R175, R177). -/
inductive ResetMode
  /-- Outside a reset. -/
  | running
  /-- A controller reset in progress: RESETTING is 1. -/
  | controller
  /-- RESET# is low. -/
  | held
  /-- The power-on reset sequence in progress: RESETTING is 1. -/
  | powerOn
deriving DecidableEq, Repr

/-- Result codes of commands (10.3, 12.5). -/
inductive Result
  | ok | badCommand | badParam | notConfigured | linkState | noSlot | noBuffer | unknownTag
  | jobState | jobUnseen | cancelPending | pageClosed | pageOpen | pageBusy | pageClaimed | conflict
  | notHolder | noEntry | storeEmpty
deriving DecidableEq, Repr

/-- The parameter array (R164). -/
abbrev Params := Vector Byte 8

/-- The taken command: its code and its copy of the parameter array (R165). -/
structure TakenCommand where
  code : Byte
  params : Params
deriving DecidableEq, Repr

/-- The command slot, the staging buffer and the interrupt enables. CMD_BUSY is 1 exactly while a
command is taken (R165, R168; log entry 14). -/
structure LocalPort where
  params : Params
  writeIndex : Nat
  taken : Option TakenCommand
  reject : Bool
  result : Result
  resultData : List Byte
  resultIndex : Nat
  staging : Memory
  dataPtr : Nat
  cmdDone : Bool
  irqEnable : BitVec 4
deriving DecidableEq, Repr

/-! ### The machine -/

structure State where
  /-- The commands that are waiting, first in, first out. -/
  pending : List Instr
  mode : ResetMode
  port : LocalPort
  /-- What the latest read access drove on D0..D7, if anything: the model's own (log entry 10). -/
  lastRead : Option Byte
  cfg : NodeConfig
  groups : BitVec 32
  link : LinkEngine
  ticks : TickGenerator
  pages : Vector PageEntry 64
  pageMem : Memory
  responder : Responder
  inbound : InboundStore
  jobs : Vector JobSlot 16
  pool : Memory
  /-- The four priority lists, each head first (R115). -/
  lists : Vector (List Slot) 4
  /-- The submission order list, oldest first (R115). -/
  submission : List Slot
  completions : CompletionQueue
  initiator : InitiatorEngine
  /-- The peer entries, most recently used first (R139). -/
  peers : List PeerEntry
  events : EventUnit
deriving DecidableEq, Repr

/-- The T48 never stops: no rule names an error state of the whole part (00_scope.md 2.2), so there is
no fault. -/
inductive Fault
deriving DecidableEq, Repr

/-- Why the model refuses a command. -/
inductive Refusal
  /-- Raised by an arm of exec that has no meaning yet; safe. No arm is in that case. -/
  | notModelled (mnemonic : String)
deriving DecidableEq, Repr

/-! ### Reset states, block by block -/

/-- R42. -/
def NodeConfig.reset : NodeConfig where
  address := 0
  grade := .b
  lease := 16
  busyRetry := 2
  refreshWindow := 8
  degradeThreshold := 60
  unreachableThreshold := 20
  autoRecover := false
  acceptMessages := true

/-- R42. -/
def LinkEngine.reset : LinkEngine where
  state := .offline
  role := .idle
  slot := []
  gap := .notRunning
  dominance := .notRunning
  txErrors := 0
  recoveryTimer := 0
  cause := none

/-- R42. -/
def TickGenerator.reset : TickGenerator where
  phase := 0
  stamp := 0
  taken := []
  spared := []

/-- R100. -/
def Responder.reset : Responder where
  marker := .clear
  staging := []
  blockIndex := 0
  nakCount := 0
  snapshot := none
  lastReason := .empty
  lastInitiator := 0

/-- R111. The ring's bytes are not given and never presented (log entry 12). -/
def InboundStore.reset : InboundStore where
  ring := []
  head := 0
  committedBytes := 0
  committedRecords := 0
  reservation := none
  readIndex := 0

/-- R137; `dissent` is not given (log entry 24). -/
def InitiatorEngine.reset : InitiatorEngine where
  phase := .ended
  blockIndex := 0
  resendCount := 0
  dissent := false

/-- R178, R162. -/
def LocalPort.reset : LocalPort where
  params := Vector.replicate 8 0
  writeIndex := 0
  taken := none
  reject := false
  result := .ok
  resultData := []
  resultIndex := 0
  staging := []
  dataPtr := 0
  cmdDone := false
  irqEnable := 0

/-- The machine right after the power-on reset sequence has ended (R177): page memory zero (R60), every
other block in its reset state. Nothing is pending. -/
def State.reset : State where
  pending := []
  mode := .running
  port := .reset
  lastRead := none
  cfg := .reset
  groups := 0
  link := .reset
  ticks := .reset
  pages := Vector.replicate 64 .default
  pageMem := []
  responder := .reset
  inbound := .reset
  jobs := Vector.replicate 16 (.free 0)
  pool := []
  lists := Vector.replicate 4 []
  submission := []
  completions := ⟨[], 0⟩
  initiator := .reset
  peers := []
  events := ⟨[], 0, false⟩

end Sys2Proof.Machine
end

