-- ==== Sys2Proof/Machine/Operands.lean ====
section
/-!
DEFINITION. Encodings and operand forms: the codes of chapter 12, the telegram header and its fields,
the CRC-8, the slots, the parameter bytes of SUBMIT, and the byte layouts of records and snapshots.
-/

namespace Sys2Proof.Machine

/-! ### Codes (12.3, 12.5, 12.7, 12.8) -/

def LinkState.code : LinkState → Byte
  | .offline => 0 | .syncing => 1 | .online => 2 | .stopping => 3 | .faulted => 4

def Cause.code : Cause → Byte
  | .command => 1 | .bitErrors => 2 | .stuck => 3 | .recovery => 4 | .telegramEnd => 5

def Grade.ofCode (b : Byte) : Option Grade :=
  match b.toNat with
  | 0 => some .a | 1 => some .b | 2 => some .c | 3 => some .d | _ => none

/-- CLKIN cycles in one bit period of the grade (R40). The model counts bit periods, not cycles. -/
def Grade.clkinPerBit : Grade → Nat
  | .a => 1600 | .b => 640 | .c => 320 | .d => 128

def PageMode.code : PageMode → Byte
  | .closed => 0 | .opened => 1 | .deferred => 2

/-- The modes PAGE_DEFINE accepts (R46, R180). -/
def PageMode.ofCode (b : Byte) : Option PageMode :=
  match b.toNat with
  | 1 => some .opened | 2 => some .deferred | _ => none

def Access.ofCode (b : Byte) : Option Access :=
  match b.toNat with
  | 1 => some .readOnly | 2 => some .writeOnly | 3 => some .readWrite | _ => none

def Freshness.code : Freshness → Byte
  | .stale => 0 | .requested => 1 | .fresh => 2

/-- The one-byte form of a claim holder (R62). -/
def Holder.code : Holder → Byte
  | .none => 0 | .local => 127 | .node a => a.setWidth 8

def Reason.code : Reason → Byte
  | .empty => 0x00 | .badOp => 0x01 | .groupOp => 0x02 | .noMailbox => 0x03 | .range => 0x04
  | .storeFull => 0x05 | .noPage => 0x06 | .access => 0x07 | .notHolder => 0x08 | .claimed => 0x09
  | .refreshing => 0x0A | .blockCheck => 0x0B

def JobState.code : JobState → Byte
  | .free => 0 | .queued => 1 | .waiting => 2 | .active => 3 | .complete => 4

def JobResult.code : JobResult → Byte
  | .none => 0x00 | .done => 0x01 | .dissent => 0x02 | .refused => 0x03 | .noResponse => 0x04
  | .checkFailed => 0x05 | .busyExhausted => 0x06 | .arbExhausted => 0x07
  | .peerUnreachable => 0x08 | .cancelled => 0x09 | .expired => 0x0A

def LastResponse.code : LastResponse → Byte
  | .none => 0 | .ack => 1 | .busy => 2 | .refuse => 3 | .silence => 4 | .noDissent => 5
  | .dissent => 6

def PeerState.code : PeerState → Byte
  | .normal => 0 | .degraded => 1 | .unreachable => 2

def PeerResult.code : PeerResult → Byte
  | .none => 0 | .arbLost => 1 | .bitError => 2 | .linkLost => 3 | .silence => 4 | .busy => 5
  | .refuse => 6 | .resendExhausted => 7 | .normalEnd => 8

def EventKind.code : EventKind → Byte
  | .pageWritten => 1 | .claimTaken => 2 | .claimReleased => 3 | .claimExpired => 4
  | .refreshRequest => 5 | .peerState => 6 | .linkState => 7

def Result.code : Result → Byte
  | .ok => 0x00 | .badCommand => 0x01 | .badParam => 0x02 | .notConfigured => 0x03
  | .linkState => 0x04 | .noSlot => 0x05 | .noBuffer => 0x06 | .unknownTag => 0x07
  | .jobState => 0x08 | .jobUnseen => 0x09 | .cancelPending => 0x0A | .pageClosed => 0x0B
  | .pageOpen => 0x0C | .pageBusy => 0x0D | .pageClaimed => 0x0E | .conflict => 0x0F
  | .notHolder => 0x10 | .noEntry => 0x11 | .storeEmpty => 0x12

/-- Operation codes on the link and in SUBMIT; 0h and 9h to Fh are undefined (12.2). -/
def Operation.ofCode (c : BitVec 4) : Option Operation :=
  match c.toNat with
  | 1 => some .read | 2 => some .write | 3 => some .claim | 4 => some .release
  | 5 => some .readClaim | 6 => some .writeRelease | 7 => some .status | 8 => some .message
  | _ => none

def Operation.code : Operation → BitVec 4
  | .read => 1 | .write => 2 | .claim => 3 | .release => 4 | .readClaim => 5
  | .writeRelease => 6 | .status => 7 | .message => 8

/-- The codes of the nineteen commands (12.4). -/
def commandCodes : List Byte :=
  [0x01, 0x02, 0x03, 0x04, 0x10, 0x11, 0x12, 0x13, 0x18, 0x19, 0x1A, 0x20, 0x21, 0x22, 0x23, 0x24,
    0x28, 0x29, 0x30]

/-- READ and READ_CLAIM (R45). -/
def Operation.readType : Operation → Bool
  | .read | .readClaim => true
  | _ => false

/-- WRITE and WRITE_RELEASE (R45). -/
def Operation.writeType : Operation → Bool
  | .write | .writeRelease => true
  | _ => false

/-- CLAIM and READ_CLAIM (R45). -/
def Operation.claimType : Operation → Bool
  | .claim | .readClaim => true
  | _ => false

/-- The operations whose data the initiator sends (R13). -/
def Operation.sendsData : Operation → Bool
  | .write | .writeRelease | .message => true
  | _ => false

/-! ### The CRC-8 (R10) -/

/-- One bit fed into the checking register. -/
def crcBit (r : Byte) (bit : Bool) : Byte :=
  if r.msb != bit then (r <<< 1) ^^^ Config.crcPolynomial else r <<< 1

/-- One byte, most significant bit first. -/
def crcByte (r d : Byte) : Byte :=
  [7, 6, 5, 4, 3, 2, 1, 0].foldl (fun r i => crcBit r (d.getLsbD i)) r

/-- The check over bytes in the order in which they are sent. -/
def crc (bytes : List Byte) : Byte :=
  bytes.foldl crcByte Config.crcPreset

/-! ### The header (R9, 12.2) -/

/-- Fields 1 to 8 as the 40 bits sent, the first bit in bit 39. -/
def Header.fields (h : Header) : BitVec 40 :=
  h.priority ++ h.initiator ++ BitVec.ofBool h.group ++ h.target ++ h.operation ++ h.page ++
    h.offset ++ h.length

/-- The five covered bytes, first sent first. -/
def fieldBytes (f : BitVec 40) : List Byte :=
  [f.extractLsb' 32 8, f.extractLsb' 24 8, f.extractLsb' 16 8, f.extractLsb' 8 8, f.extractLsb' 0 8]

/-- The 48 bits of a header with its check, the first sent in bit 47. -/
def Header.bits (h : Header) : BitVec 48 :=
  h.fields ++ crc (fieldBytes h.fields)

/-- The fields of 48 header bits, taken from the bits as sent (R180). -/
def Header.ofBits (b : BitVec 48) : Header where
  priority := b.extractLsb' 46 2
  initiator := b.extractLsb' 39 7
  group := b.getLsbD 38
  target := b.extractLsb' 31 7
  operation := b.extractLsb' 27 4
  page := b.extractLsb' 21 6
  offset := b.extractLsb' 15 6
  length := b.extractLsb' 8 7

/-- The header check of the received bits passes (R10, R11). -/
def headerCheckPasses (b : BitVec 48) : Bool :=
  crc (fieldBytes (b.extractLsb' 8 40)) == b.extractLsb' 0 8

/-- A collective telegram: group form, or individual target value 127 (R12). -/
def Header.collective (h : Header) : Bool :=
  h.group || h.target == 127

/-- How many data bytes follow an accepted header (R13). -/
def Header.dataBytes (h : Header) : Nat :=
  let asGiven := if 1 ≤ h.length.toNat && h.length.toNat ≤ 64 then h.length.toNat else 0
  match Operation.ofCode h.operation with
  | none => 0
  | some .write | some .message => asGiven
  | some .claim | some .release => 0
  | some .status => if h.collective then 0 else 8
  | some .read | some .readClaim | some .writeRelease => if h.collective then 0 else asGiven

/-- The number of blocks (R16). -/
def Header.blocks (h : Header) : Nat :=
  (h.dataBytes + 7) / 8

/-- The bytes of block `k` (R16). -/
def Header.blockLength (h : Header) (k : Nat) : Nat :=
  min 8 (h.dataBytes - 8 * k)

/-- The initiator sends the data: WRITE, WRITE_RELEASE and MESSAGE (R13). -/
def Header.initiatorSends (h : Header) : Bool :=
  (Operation.ofCode h.operation).any Operation.sendsData

/-- The target byte of an inbound record (12.8). -/
def Header.targetByte (h : Header) : Byte :=
  BitVec.ofBool h.group ++ h.target

/-- The kind of an inbound record: INDIVIDUAL 1, GROUP 2, BROADCAST 3 (R102). -/
def Header.recordKind (h : Header) : Byte :=
  if h.group then 2 else if h.target == 127 then 3 else 1

/-- The header a job's attempt sends, from the node address at the start marker (R121). -/
def JobSlot.header (job : JobSlot) (address : Addr) : Header where
  priority := job.priority
  initiator := address
  group := job.group
  target := job.target
  operation := job.operation.code
  page := job.page
  offset := job.offset
  length := job.length

/-- The job's telegram is collective (R12). -/
def JobSlot.collective (job : JobSlot) : Bool :=
  job.group || job.target == 127

/-! ### Slots (R14, R17) -/

/-- What a target drives in the header slot (R14, R86). -/
def Answer.levels : Answer → List Level
  | .ack => [.dominant, .dominant]
  | .busy => [.dominant, .recessive]
  | .refuse => [.recessive, .dominant]

/-- An individual header slot as its initiator reads it; `none` unless both bits are sampled (R14). -/
def slotReading : List Level → LastResponse
  | [.dominant, .dominant] => .ack
  | [.dominant, .recessive] => .busy
  | [.recessive, .dominant] => .refuse
  | [.recessive, .recessive] => .silence
  | _ => .none

/-- A collective header slot, read from its first bit alone (R15). -/
def collectiveReading : List Level → LastResponse
  | .dominant :: _ => .dissent
  | .recessive :: _ => .noDissent
  | [] => .none

/-- What the receiver of an individual block drives in both bits of its slot (R17). -/
def blockAnswer (passes : Bool) : Level :=
  if passes then .dominant else .recessive

/-- What a member of a collective telegram drives in the two bits of a block's slot: dissent in the first bit
when its check fails, nothing when it passes (R19, R91). -/
def memberAnswer (passes : Bool) : Level × Level :=
  (if passes then .recessive else .dominant, .recessive)

/-! ### SUBMIT (R116, 12.4) -/

/-- The job that SUBMIT's parameter bytes describe, before it has a slot; `none` where the operation
code is undefined. Bits no table names are ignored (R180). -/
def submittedJob (p : Params) : Option JobSlot :=
  (Operation.ofCode (p[0].extractLsb' 4 4)).map fun op =>
    { JobSlot.free 0 with
      state := .queued
      operation := op
      arbitrationLimit := (p[0].extractLsb' 0 4).toNat
      group := p[1].getLsbD 7
      target := p[1].extractLsb' 0 7
      ordered := p[2].getLsbD 7
      probe := p[2].getLsbD 6
      page := p[2].extractLsb' 0 6
      priority := p[3].extractLsb' 6 2
      offset := p[3].extractLsb' 0 6
      length := p[4].extractLsb' 0 7
      transportLimit := (p[5].extractLsb' 4 3).toNat
      busyLimit := (p[5].extractLsb' 0 4).toNat
      deadline := (p[6] ++ p[7] : BitVec 16).toNat
      deadlineRemaining := (p[6] ++ p[7] : BitVec 16).toNat }

/-- The conditions on a decoded job that give BAD_PARAM (R116). -/
def JobSlot.illegal (job : JobSlot) (address : Addr) : Bool :=
  job.target == 0 ||
  (!job.group && job.target == address) ||
  (job.group && 31 < job.target.toNat) ||
  (job.collective && job.operation != .write && job.operation != .message) ||
  64 < job.offset.toNat + job.length.toNat ||
  (job.length == 0 && (job.operation.readType || job.operation.writeType)) ||
  (job.probe && job.operation != .status)

/-- Blocks of the pool a job needs (R114). -/
def JobSlot.blocksNeeded (job : JobSlot) : Nat :=
  match job.operation with
  | .read | .write | .readClaim | .writeRelease | .message => (job.length.toNat + 7) / 8
  | .status => 1
  | .claim | .release => 0

/-! ### Records and snapshots (12.6 to 12.8) -/

def CompletionRecord.bytes (r : CompletionRecord) : List Byte :=
  [r.tag, r.result.code, byte r.attempts, byte r.bytesDone, byte r.busyResponses,
    r.lastResponse.code, r.stamp.extractLsb' 8 8, r.stamp.extractLsb' 0 8]

/-- Byte 0 carries the LOST marker in bit 7, the write count in bits 6..3, the kind in bits 2..0. -/
def EventRecord.bytes (r : EventRecord) : List Byte :=
  [BitVec.ofBool r.lost ++ BitVec.ofNat 4 r.writeCount ++ r.kind.code.extractLsb' 0 3, r.subject,
    r.node, r.detail, r.stamp.extractLsb' 8 8, r.stamp.extractLsb' 0 8]

/-- The header of an inbound record (R102). -/
def recordHeaderBytes (h : Header) (stamp : Stamp) : List Byte :=
  [h.recordKind, h.initiator.setWidth 8, h.targetByte, h.length.setWidth 8, stamp.extractLsb' 8 8,
    stamp.extractLsb' 0 8]

/-- The snapshot of JOB_QUERY (R133): flags cancel-requested 7, expiry-requested 6, unread 5. -/
def JobSlot.snapshot (job : JobSlot) : List Byte :=
  [BitVec.ofBool job.cancelRequested ++ BitVec.ofBool job.expiryRequested ++
      BitVec.ofBool job.unread ++ 0#2 ++ job.state.code.extractLsb' 0 3,
    job.result.code, byte job.attempts, byte job.transportFailures, byte job.busyResponses,
    byte job.arbitrationLosses, byte job.retryCountdown, job.lastResponse.code]

/-- The snapshot of PEER_READ (R146). -/
def PeerEntry.snapshot (e : PeerEntry) : List Byte :=
  [e.address.setWidth 8, e.state.code, byte e.score, byte e.attempts, byte e.silences,
    byte e.checkFailures, byte e.busy, e.lastResult.code]

/-- The tag of a job: slot number plus 16 × generation (R113). -/
def jobTag (j : Slot) (g : BitVec 4) : Byte :=
  g ++ BitVec.ofNat 4 j.val

/-- The slot of a tag: the tag modulo 16 (R113). -/
def tagSlot (t : Byte) : Slot :=
  (t.extractLsb' 0 4).toFin

/-- The generation of a tag: the tag divided by 16 (R113). -/
def tagGeneration (t : Byte) : BitVec 4 :=
  t.extractLsb' 4 4

end Sys2Proof.Machine
end

