-- ==== Sys2Proof/Machine/Ops.lean ====
section
/-!
DEFINITION. The named operations over the RAMs, the tables and the queues: what every meaning is made
of. Each says the one place where its state is read or written.
-/

namespace Sys2Proof.Machine

/-! ### The RAMs -/

/-- The byte at an address; an unlisted address reads 00h. -/
def Memory.read : Memory → Nat → Byte
  | [], _ => 0
  | (k, v) :: m, a => if k = a then v else Memory.read m a

/-- Puts a byte where its address belongs; 00h is what an unlisted address reads as, so it is not
listed. -/
def Memory.insert : Memory → Nat → Byte → Memory
  | [], a, b => if b = 0 then [] else [(a, b)]
  | (k, v) :: m, a, b =>
    if a < k then (if b = 0 then (k, v) :: m else (a, b) :: (k, v) :: m)
    else if a = k then (if b = 0 then m else (a, b) :: m)
    else (k, v) :: Memory.insert m a b

/-- One byte written to a RAM of `size` bytes; there is no cell at or past the size (log entry 22). -/
def Memory.write (size : Nat) (m : Memory) (a : Nat) (b : Byte) : Memory :=
  if a < size then m.insert a b else m

/-- Consecutive bytes written from an address on. -/
def Memory.writeBytes (size : Nat) : Memory → Nat → List Byte → Memory
  | m, _, [] => m
  | m, a, b :: bs => Memory.writeBytes size (m.write size a b) (a + 1) bs

/-- Bytes written at consecutive positions counted modulo the size (R106). -/
def Memory.writeRing (size : Nat) : Memory → Nat → List Byte → Memory
  | m, _, [] => m
  | m, a, b :: bs => Memory.writeRing size (m.write size (a % size) b) (a + 1) bs

/-- Consecutive bytes read from an address on. -/
def Memory.readBytes (m : Memory) (a n : Nat) : List Byte :=
  (List.range n).map fun i => m.read (a + i)

/-- The canonical form of a RAM of `size` bytes. -/
def Memory.wf (size : Nat) : Memory → Bool
  | [] => true
  | (k, v) :: m => decide (k < size) && v != 0 && m.all (fun c => decide (k < c.1)) && Memory.wf size m

/-! ### Pages -/

def State.page (s : State) (p : Page) : PageEntry := s.pages[p]

def State.setPage (s : State) (p : Page) (e : PageEntry) : State :=
  { s with pages := s.pages.set p e }

/-- The address in page memory of a page's offset (R43). -/
def pageAddress (p : Page) (offset : Nat) : Nat := p.val * Config.pageRegion + offset

/-- The page is in flight (R51). -/
def State.inFlight (s : State) (p : Page) : Bool := s.responder.marker == .page p

/-- The page number of a parameter byte, if it is below 64. -/
def pageOf (b : Byte) : Option Page :=
  if h : b.toNat < 64 then some ⟨b.toNat, h⟩ else none

/-- Open page count (R44). -/
def State.openPages (s : State) : Nat :=
  (s.pages.toList.filter fun e => e.mode != .closed).length

/-- Claimed page count (R62). -/
def State.claimedPages (s : State) : Nat :=
  (s.pages.toList.filter fun e => e.holder != .none).length

/-! ### Event Unit (R154 to R156) -/

/-- What a block passes to the Event Unit. -/
structure Notice where
  kind : EventKind
  subject : Byte
  node : Byte
  detail : Byte
deriving DecidableEq, Repr

/-- The record is an unread PAGE_WRITTEN record for the notice's page (R154, step 1). -/
def EventRecord.takes (r : EventRecord) (n : Notice) : Bool :=
  n.kind == .pageWritten && r.kind == .pageWritten && r.subject == n.subject

/-- R155. -/
def EventRecord.coalesce (r : EventRecord) (n : Notice) (stamp : Stamp) : EventRecord :=
  { r with
    node := n.node
    detail := n.detail
    writeCount := min 15 (r.writeCount + 1)
    stamp := stamp }

/-- The record a stored notice becomes (R154, step 2). -/
def Notice.record (n : Notice) (lost : Bool) (stamp : Stamp) : EventRecord where
  kind := n.kind
  lost := lost
  writeCount := if n.kind = .pageWritten then 1 else 0
  subject := n.subject
  node := n.node
  detail := n.detail
  stamp := stamp

/-- One notice taken by the Event Unit: coalesced, stored, or discarded. -/
def EventUnit.post (u : EventUnit) (n : Notice) (stamp : Stamp) : EventUnit :=
  if u.records.any (·.takes n) then
    { u with records := u.records.map fun r => if r.takes n then r.coalesce n stamp else r }
  else if u.records.length < Config.eventQueueSize then
    { u with records := u.records ++ [n.record u.lostPending stamp], lostPending := false }
  else
    { u with lostPending := true }

def State.postNotice (s : State) (n : Notice) : State :=
  { s with events := s.events.post n s.ticks.stamp }

/-! ### Link state (R26, R29, R31, R33, R35) -/

/-- The notice of a change of link state (R33). -/
def linkNotice (address : Addr) (new : LinkState) (cause : Cause) : Notice where
  kind := .linkState
  subject := new.code
  node := address.setWidth 8
  detail := cause.code

/-- Every change of link state posts one LINK_STATE event (R33). -/
def State.changeLink (s : State) (l : LinkEngine) (cause : Cause) : State :=
  { s with link := l }.postNotice (linkNotice s.cfg.address l.state cause)

/-- Entry into SYNCING: the count is 0, the gap measurement starts, the recovery timer is stopped (R26,
R32, R34). -/
def State.enterSyncing (s : State) (cause : Cause) : State :=
  s.changeLink
    { s.link with
      state := .syncing
      role := .idle
      slot := []
      gap := .running
      dominance := .running
      txErrors := 0
      recoveryTimer := 0
      cause := some cause } cause

/-- Entry into OFFLINE: the line is released and not watched, the timer is stopped (R25, R35, R36). -/
def State.enterOffline (s : State) (cause : Cause) : State :=
  s.changeLink
    { s.link with
      state := .offline
      role := .idle
      slot := []
      gap := .notRunning
      dominance := .notRunning
      recoveryTimer := 0 } cause

/-- Entry into FAULTED: the line is released, the timer is loaded with 64 ticks (R29, R30, R31). -/
def State.enterFaulted (s : State) (cause : Cause) : State :=
  s.changeLink
    { s.link with
      state := .faulted
      role := .idle
      slot := []
      gap := .notRunning
      dominance := if cause = .stuck then .exceeded else .running
      recoveryTimer := Config.recoveryTicks } cause

/-- The node's part in a telegram has ended: in STOPPING it goes OFFLINE (R36), otherwise it follows
the telegram, or is idle with the gap measured from the last return to recessive (R20). -/
def State.leaveTelegram (s : State) (follow : Role) : State :=
  if s.link.state = .stopping then s.enterOffline .telegramEnd
  else if follow = .idle then
    { s with link := { s.link with role := .idle, slot := [], gap := .running } }
  else { s with link := { s.link with role := follow } }

/-- The node has a part in a telegram (R25). -/
def Role.hasPart : Role → Bool
  | .contender _ _ | .initiator _ _ | .target _ _ | .member _ _ => true
  | .idle | .receiving | .bystander => false

/-! ### Claims (R69 to R71) -/

/-- The claim notices name the page, a node address and a detail (R73). -/
def claimNotice (kind : EventKind) (p : Page) (node : Addr) (detail : Byte) : Notice where
  kind := kind
  subject := byte p.val
  node := node.setWidth 8
  detail := detail

/-- A remote claim expires; the detail is 1 at a tick, 2 deferred over a telegram (R69, R71, 12.7). -/
def State.expireClaim (s : State) (p : Page) (a : Addr) (detail : Byte) : State :=
  (s.setPage p { s.page p with holder := .none, lease := 0 }).postNotice
    (claimNotice .claimExpired p a detail)

/-- A pending expiry is taken when the telegram has ended or is abandoned (R71). -/
def State.resolvePending (s : State) (p : Page) : State :=
  match (s.page p).holder with
  | .node a => if (s.page p).lease = 0 then s.expireClaim p a 2 else s
  | .none | .local => s

/-- The Responder's part in an accepted telegram is abandoned: staging, reservation, snapshot and
marker are discarded and a pending expiry is resolved (R97, R105). -/
def State.abandonAccepted (s : State) : State :=
  let cleared :=
    { s with
      responder := { s.responder with marker := .clear, staging := [], snapshot := none }
      inbound := { s.inbound with
        reservation := if s.responder.marker = .inbound then none else s.inbound.reservation } }
  match s.responder.marker with
  | .page p => cleared.resolvePending p
  | .clear | .inbound => cleared

/-! ### Inbound Store (R101, R106) -/

/-- Position that follows the last committed byte (R101). -/
def InboundStore.tail (i : InboundStore) : Nat := (i.head + i.committedBytes) % Config.ringSize

/-- Bytes held by a reservation. -/
def InboundStore.reservedBytes (i : InboundStore) : Nat := (i.reservation.map Reservation.size).getD 0

/-- Free space (R101). -/
def InboundStore.free (i : InboundStore) : Nat :=
  Config.ringSize - i.committedBytes - i.reservedBytes

/-- Byte `k` of the head record, counted round the ring (R106). -/
def InboundStore.headByte (i : InboundStore) (k : Nat) : Byte :=
  i.ring.read ((i.head + k) % Config.ringSize)

/-- Size of the head record: its header and the payload its length byte gives (R102). -/
def InboundStore.headSize (i : InboundStore) : Nat := Config.recordHeader + (i.headByte 3).toNat

/-- The reservation becomes a committed, stamped record (R104). -/
def InboundStore.commit (i : InboundStore) (payload : List Byte) (stamp : Stamp) : InboundStore :=
  match i.reservation with
  | none => i
  | some r =>
    { i with
      ring := i.ring.writeRing Config.ringSize r.start (recordHeaderBytes r.header stamp ++ payload)
      committedBytes := i.committedBytes + r.size
      committedRecords := i.committedRecords + 1
      reservation := none }

/-- The head record is removed (R108). -/
def InboundStore.drop (i : InboundStore) : InboundStore :=
  { i with
    head := (i.head + i.headSize) % Config.ringSize
    committedBytes := i.committedBytes - i.headSize
    committedRecords := i.committedRecords - 1
    readIndex := 0 }

/-! ### Jobs (R112 to R115, R132) -/

def State.job (s : State) (j : Slot) : JobSlot := s.jobs[j]

def State.setJob (s : State) (j : Slot) (job : JobSlot) : State :=
  { s with jobs := s.jobs.set j job }

/-- The priority list of a priority (R115). -/
def State.list (s : State) (p : BitVec 2) : List Slot := s.lists[p.toFin]

def State.setList (s : State) (p : BitVec 2) (l : List Slot) : State :=
  { s with lists := s.lists.set p.toFin l }

/-- The job leaves its priority list. -/
def State.unlist (s : State) (j : Slot) : State :=
  s.setList (s.job j).priority ((s.list (s.job j).priority).filter (· != j))

def State.freeSlots (s : State) : List Slot :=
  (List.finRange 16).filter fun j => (s.job j).state == .free

/-- Pool blocks that belong to no job (R114). -/
def State.freeBlocks (s : State) : List Block :=
  (List.finRange 64).filter fun b => !s.jobs.toList.any fun job => job.blocks.contains b

/-- Address in the pool of a job's buffer byte `k`: byte k modulo 8 of its block number k divided by 8
(R114). -/
def JobSlot.bufferAddress (job : JobSlot) (k : Nat) : Nat :=
  Config.blockSize * ((job.blocks.map Fin.val).getD (k / 8) 64) + k % 8

/-- `n` bytes of a job's buffer from byte `k` on. -/
def State.bufferBytes (s : State) (job : JobSlot) (k n : Nat) : List Byte :=
  (List.range n).map fun i => s.pool.read (job.bufferAddress (k + i))

/-- Bytes placed in a job's buffer from byte `k` on. -/
def writeBuffer (job : JobSlot) : Memory → Nat → List Byte → Memory
  | m, _, [] => m
  | m, k, b :: bs => writeBuffer job (m.write Config.poolSize (job.bufferAddress k) b) (k + 1) bs

/-- The job a tag names, if the tag is known (R113). -/
def State.knownTag (s : State) (t : Byte) : Option Slot :=
  if (s.job (tagSlot t)).state = .free then none
  else if (s.job (tagSlot t)).generation = tagGeneration t then some (tagSlot t)
  else none

/-- Data bytes a job carried, by its result (R122). -/
def JobSlot.carried (job : JobSlot) : JobResult → Nat
  | .done =>
    match job.operation with
    | .read | .readClaim | .write | .writeRelease | .message => job.length.toNat
    | .status => 8
    | .claim | .release => 0
  | .dissent => job.length.toNat
  | .none | .refused | .noResponse | .checkFailed | .busyExhausted | .arbExhausted
  | .peerUnreachable | .cancelled | .expired => 0

/-- The job record of a job that enters COMPLETE (R132). -/
def JobSlot.completed (job : JobSlot) (r : JobResult) : JobSlot :=
  { job with
    state := .complete
    retryCountdown := 0
    result := r
    bytesDone := job.carried r
    unread := true }

/-- The completion record of a job that enters COMPLETE (R132). -/
def JobSlot.record (job : JobSlot) (j : Slot) (r : JobResult) (stamp : Stamp) : CompletionRecord where
  tag := jobTag j job.generation
  result := r
  attempts := job.attempts
  bytesDone := job.carried r
  busyResponses := job.busyResponses
  lastResponse := job.lastResponse
  stamp := stamp

/-- A job enters COMPLETE: it leaves its lists and one record is posted (R132). -/
def State.completeJob (s : State) (j : Slot) (r : JobResult) : State :=
  let unlisted := s.unlist j
  { unlisted with
    submission := s.submission.filter (· != j)
    jobs := s.jobs.set j ((s.job j).completed r)
    completions := { s.completions with
      records := s.completions.records ++ [(s.job j).record j r s.ticks.stamp] } }

/-- A job becomes QUEUED at the head of its priority list (R123, R128). -/
def State.requeueHead (s : State) (j : Slot) : State :=
  (s.setJob j { s.job j with state := .queued, retryCountdown := 0 }).setList (s.job j).priority
    (j :: s.list (s.job j).priority)

/-- A job becomes QUEUED at the tail of its priority list (R124, R125). -/
def State.requeueTail (s : State) (j : Slot) : State :=
  (s.setJob j { s.job j with state := .queued, retryCountdown := 0 }).setList (s.job j).priority
    (s.list (s.job j).priority ++ [j])

/-! ### Peer Health Table (R138 to R143) -/

def State.peer (s : State) (a : Addr) : Option PeerEntry := s.peers.find? (·.address == a)

/-- The state of a target's entry; `none` for a collective target (R120). -/
def State.peerStateOf (s : State) (job : JobSlot) : Option PeerState :=
  if job.collective then none else (s.peer job.target).map PeerEntry.state

/-- A counter that stops at 255 (R112, R141). -/
def countUp (n : Nat) : Nat := min 255 (n + 1)

/-- A new entry (R138, R140). -/
def PeerEntry.new (a : Addr) : PeerEntry where
  address := a
  score := 100
  state := .normal
  attempts := 0
  silences := 0
  checkFailures := 0
  busy := 0
  lastResult := .none

/-- The entry of an address becomes the most recently used (R139). -/
def movedToFront (peers : List PeerEntry) (e : PeerEntry) : List PeerEntry :=
  e :: peers.filter fun x => x.address != e.address

/-- A QUEUED, WAITING or ACTIVE job has this individual target (R140). -/
def State.referenced (s : State) (a : Addr) : Bool :=
  s.jobs.toList.any fun job =>
    (job.state == .queued || job.state == .waiting || job.state == .active) &&
      !job.collective && job.target == a

/-- Removes the last entry that satisfies `p`: the least recently used such entry (R140). -/
def removeLast (p : PeerEntry → Bool) (peers : List PeerEntry) : List PeerEntry :=
  (peers.reverse.eraseP p).reverse

/-- The table makes sure that an entry exists for a target, evicting where needed (R140). -/
def State.ensurePeer (s : State) (a : Addr) : State :=
  match s.peer a with
  | some e => { s with peers := movedToFront s.peers e }
  | none =>
    let kept :=
      if s.peers.length < Config.peerTableSize then s.peers
      else removeLast (fun e => !s.referenced e.address) s.peers
    { s with peers := PeerEntry.new a :: kept }

/-! ### Completing a command (R166, R168) -/

/-- The step at a command's completion: result, bytes, latch, and the slot is free again (R168). -/
def State.finish (s : State) (r : Result) (data : List Byte) : State :=
  { s with port := { s.port with
      result := r
      resultData := data
      resultIndex := 0
      cmdDone := true
      taken := none } }

/-- Staging bytes 0..n−1 as a command reads them (R172). -/
def State.stagingBytes (s : State) (n : Nat) : List Byte := s.port.staging.readBytes 0 n

/-- A command that fills the staging buffer from byte 0 on sets DATA_PTR to 0 (R171, R172). -/
def State.fillStaging (s : State) (bytes : List Byte) : State :=
  { s with port := { s.port with
      staging := s.port.staging.writeBytes Config.stagingSize 0 bytes
      dataPtr := 0 } }

/-- The completion of the taken command, when its code is this one; the event does not arise in any
other state (R166, log entries 1 and 2). -/
def State.completing (s : State) (code : Byte) (f : Params → State → State) :
    Host.Outcome State Fault Refusal :=
  match s.port.taken with
  | some t => if s.mode = .running ∧ t.code = code then .next (f t.params s) else .next s
  | none => .next s

/-- An event of time or of the link: none arises during a reset (R42, R175, R177; log entry 1). -/
def State.whenRunning (s : State) (f : State → State) : Host.Outcome State Fault Refusal :=
  if s.mode = .running then .next (f s) else .next s

/-- The moment of a commit is over: no tick to come is a tick at the commit's moment (log entry 28). -/
def State.momentOver (s : State) : State := { s with ticks := { s.ticks with spared := [] } }

/-- An event of the link. It comes at a bit of the line, by the model's choice a later moment than every row
before it, so that what a commit has spared is over (log entry 28). -/
def State.onLink (s : State) (f : State → State) : Host.Outcome State Fault Refusal :=
  s.whenRunning fun s => f s.momentOver

end Sys2Proof.Machine
end

