-- ==== Sys2Proof/Machine/Flags.lean ====
section
/-!
DEFINITION. The indications the window presents: STATUS, the interrupt sources, IRQ#, LINK, and the
value of every register at every moment (R159 to R161, R163, R173 to R175, R179).
-/

namespace Sys2Proof.Machine

/-- CMD_BUSY is 1 from a command's take until its completion (R173). -/
def State.cmdBusy (s : State) : Bool := s.port.taken.isSome

/-- STATUS outside a reset: 0 CMD_BUSY, 1 CMD_REJECT, 2 CMD_DONE, 7 RESETTING (R173, 12.1). -/
def State.status (s : State) : Byte :=
  0#5 ++ BitVec.ofBool s.port.cmdDone ++ BitVec.ofBool s.port.reject ++ BitVec.ofBool s.cmdBusy

/-- STATUS during a reset: RESETTING 1, the other indications 0 (R175). -/
def resettingStatus : Byte := 0x80

/-- The four sources: 0 CMD_DONE, 1 COMPLETION, 2 EVENT, 3 INBOUND (R159, 12.1). -/
def State.irqSources (s : State) : BitVec 4 :=
  BitVec.ofBool (decide (1 ≤ s.inbound.committedRecords)) ++ BitVec.ofBool (!s.events.records.isEmpty) ++
    BitVec.ofBool (!s.completions.records.isEmpty) ++ BitVec.ofBool s.port.cmdDone

/-- IRQ# is driven low while a source is both active and enabled, and released during a reset (R161). -/
def State.irqLow (s : State) : Bool :=
  s.mode == .running && (s.irqSources &&& s.port.irqEnable) != 0

/-- LINK: the link state in bits 2..0, the transmit error count in bits 7..4 (R174, 12.1). -/
def State.linkRegister (s : State) : Byte :=
  BitVec.ofNat 4 s.link.txErrors ++ 0#1 ++ s.link.state.code.extractLsb' 0 3

/-- The byte the COMPLETION port would return (R151). -/
def State.completionByte (s : State) : Byte :=
  match s.completions.records with
  | [] => 0
  | r :: _ => r.bytes.getD s.completions.readIndex 0

/-- The byte the EVENT port would return (R157). -/
def State.eventByte (s : State) : Byte :=
  match s.events.records with
  | [] => 0
  | r :: _ => r.bytes.getD s.events.readIndex 0

/-- The byte the INBOUND port would return (R107). -/
def State.inboundByte (s : State) : Byte :=
  if s.inbound.committedRecords = 0 then 0
  else if s.inbound.readIndex < s.inbound.headSize then s.inbound.headByte s.inbound.readIndex
  else 0

/-- The byte a read of DATA returns (R170). -/
def State.dataByte (s : State) : Byte :=
  if s.cmdBusy || Config.stagingSize ≤ s.port.dataPtr then 0 else s.port.staging.read s.port.dataPtr

/-- The byte a read of RESULT_DATA returns (R169). -/
def State.resultDataByte (s : State) : Byte := s.port.resultData.getD s.port.resultIndex 0

/-- What a read of an address returns outside a reset (10.1). -/
def State.registerValue (s : State) (address : BitVec 4) : Byte :=
  match address.toNat with
  | 0x0 => s.status
  | 0x1 => s.port.result.code
  | 0x2 => s.resultDataByte
  | 0x3 => s.dataByte
  | 0x4 => byte s.port.dataPtr
  | 0x5 => s.completionByte
  | 0x6 => s.eventByte
  | 0x7 => s.inboundByte
  | 0x8 => s.irqSources.setWidth 8
  | 0x9 => s.port.irqEnable.setWidth 8
  | 0xA => s.linkRegister
  | 0xB => byte s.freeSlots.length
  | 0xC => byte s.freeBlocks.length
  | 0xD => byte s.completions.records.length
  | 0xE => byte s.events.records.length
  | _ => byte s.inbound.committedRecords

/-- What a read drives on D0..D7 at this moment: nothing while RESET# is low (R177); during a reset,
STATUS with RESETTING and 00h elsewhere (R175). -/
def State.readRegister (s : State) (address : BitVec 4) : Option Byte :=
  match s.mode with
  | .held => none
  | .controller | .powerOn => some (if address = 0 then resettingStatus else 0)
  | .running => some (s.registerValue address)

/-- A read access: it returns the register's value at this moment, together with the change the read
itself makes outside a reset (R163, R175, R177). -/
def State.hostRead (s : State) (address : BitVec 4) (f : State → State) :
    Host.Outcome State Fault Refusal :=
  .next { (if s.mode = .running then f s else s) with lastRead := s.readRegister address }

/-- A write access: taken outside a reset, ignored during one (R163, R175, R177). -/
def State.hostWrite (s : State) (f : State → State) : Host.Outcome State Fault Refusal :=
  .next (if s.mode = .running then f s else s)

end Sys2Proof.Machine
end

