-- ==== Sys2Proof/Machine/Pages.lean ====
section
/-!
DEFINITION. Chapter 3's commands: PAGE_DEFINE, PAGE_CLOSE, PAGE_FETCH, PAGE_COMMIT (R46 to R50), and the
freshness countdowns' shares of a tick (R57).
-/

namespace Sys2Proof.Machine

/-- A page's bytes, page offsets 0..length − 1 (R43). -/
def State.pageBytes (s : State) (p : Page) : List Byte :=
  s.pageMem.readBytes (pageAddress p 0) (s.page p).length

/-- The entry PAGE_DEFINE's bytes give, if every one is in its range and the combination is legal
(R46, first check; R180). -/
def definitionOf (p : Params) : Option PageEntry :=
  match PageMode.ofCode p[1], Access.ofCode p[3] with
  | some mode, some access =>
    if 1 ≤ p[2].toNat ∧ p[2].toNat ≤ 64 ∧ p[4].toNat < 127 ∧
        ¬(mode = .deferred ∧ access = .writeOnly) then
      some
        { PageEntry.default with
          mode := mode
          length := p[2].toNat
          access := access
          allowed := p[4].setWidth 7
          claimable := p[5].getLsbD 0
          lifetime := if mode = .deferred then p[6].toNat else 0 }
    else none
  | _, _ => none

/-- R46. -/
def pageDefineEffect (p : Params) (s : State) : State :=
  match pageOf p[0], definitionOf p with
  | some pg, some e =>
    if (s.page pg).mode ≠ .closed then s.finish .pageOpen []
    else (s.setPage pg e).finish .ok []
  | _, _ => s.finish .badParam []

def execPageDefine (s : State) : Host.Outcome State Fault Refusal :=
  s.completing 0x10 pageDefineEffect

/-- The holder is a node address: a remote claim (R62). -/
def Holder.remote : Holder → Bool
  | .node _ => true
  | .none | .local => false

/-- R47. FORCE is bit 0 of byte 1 (12.4). -/
def pageCloseEffect (p : Params) (s : State) : State :=
  match pageOf p[0] with
  | none => s.finish .badParam []
  | some pg =>
    if (s.page pg).mode = .closed then s.finish .pageClosed []
    else if s.inFlight pg then s.finish .pageBusy []
    else if (s.page pg).holder.remote && !p[1].getLsbD 0 then s.finish .pageClaimed []
    else (s.setPage pg .default).finish .ok []

def execPageClose (s : State) : Host.Outcome State Fault Refusal :=
  s.completing 0x11 pageCloseEffect

/-- R48. -/
def pageFetchEffect (p : Params) (s : State) : State :=
  match pageOf p[0] with
  | none => s.finish .badParam []
  | some pg =>
    let e := s.page pg
    if e.mode = .closed then s.finish .pageClosed []
    else
      (s.fillStaging (s.pageBytes pg)).finish .ok
        [e.sequence, byte e.length, e.mode.code, e.freshness.code]

def execPageFetch (s : State) : Host.Outcome State Fault Refusal :=
  s.completing 0x12 pageFetchEffect

/-- The entry after a taken commit (R50): the sequence advances, and a DEFERRED page becomes FRESH with
its lifetime as countdown. -/
def PageEntry.committed (e : PageEntry) : PageEntry :=
  { e with
    sequence := e.sequence + 1
    freshness := if e.mode = .deferred then .fresh else e.freshness
    countdown := if e.mode = .deferred then e.lifetime else e.countdown }

/-- The commit replaces a countdown of 1 that a tick at the same moment must not end any more: a REQUESTED
one, or the FRESH one of a lifetime of 1, which the decrease would end (R58, log entry 28). -/
def PageEntry.replacesLast (e : PageEntry) : Bool :=
  e.mode == .deferred && e.countdown == 1 &&
    (e.freshness == .requested || (e.freshness == .fresh && e.lifetime == 1))

/-- The tick generator after a taken commit: a tick at the same moment spares the page whose last
countdown the commit has replaced (R58, log entry 28). -/
def TickGenerator.sparing (g : TickGenerator) (pg : Page) (e : PageEntry) : TickGenerator :=
  { g with spared := if e.replacesLast then pg :: g.spared else g.spared }

/-- A taken commit: the page takes staging bytes 0..length − 1 (R50). -/
def State.commitPage (s : State) (pg : Page) : State :=
  { s.setPage pg (s.page pg).committed with
    ticks := s.ticks.sparing pg (s.page pg)
    pageMem := s.pageMem.writeBytes Config.pageMemorySize (pageAddress pg 0)
      (s.stagingBytes (s.page pg).length) }

/-- R49. FORCE is bit 0 and EXPECT bit 1 of byte 1; byte 2 is the expected sequence (12.4). -/
def pageCommitEffect (p : Params) (s : State) : State :=
  match pageOf p[0] with
  | none => s.finish .badParam []
  | some pg =>
    let e := s.page pg
    if e.mode = .closed then s.finish .pageClosed []
    else if s.inFlight pg then s.finish .pageBusy []
    else if e.holder.remote && !p[1].getLsbD 0 then s.finish .pageClaimed []
    else if p[1].getLsbD 1 && e.sequence != p[2] then s.finish .conflict [e.sequence]
    else (s.commitPage pg).finish .ok [e.sequence + 1]

def execPageCommit (s : State) : Host.Outcome State Fault Refusal :=
  s.completing 0x13 pageCommitEffect

/-- One tick of a freshness countdown that is running: at 0 the page is STALE, without a notice (R57).
Only DEFERRED pages have one running (R44). A tick that comes together with a commit is State.freshnessTick's
(R58, log entry 28). -/
def PageEntry.freshnessTick (e : PageEntry) : PageEntry :=
  if e.mode = .deferred ∧ e.freshness ≠ .stale ∧ 0 < e.countdown then
    if e.countdown = 1 then { e with freshness := .stale, countdown := 0 }
    else { e with countdown := e.countdown - 1 }
  else e

/-- The page is FRESH from a commit of this moment that replaced its last countdown: a tick at this
moment finds no countdown of it to end (R58, log entry 28). -/
def State.sparesPage (s : State) (p : Page) : Bool :=
  (s.page p).freshness == .fresh && decide (p ∈ s.ticks.spared)

/-- A page's share of a tick (R57), by R58 without an effect on a page that a commit at the same moment has
made FRESH. -/
def State.freshnessTick (s : State) (p : Page) : State :=
  if s.sparesPage p then s else s.setPage p (s.page p).freshnessTick

end Sys2Proof.Machine
end

