-- ==== Sys2Proof/Machine/Claims.lean ====
section
/-!
DEFINITION. Chapter 4's commands: LOCAL_CLAIM, LOCAL_RELEASE, BREAK_CLAIM (R74 to R76), and a lease's
share of a tick (R69, R70).
-/

namespace Sys2Proof.Machine

/-- R74. RESULT_DATA carries the holder after the command and the lease remaining. -/
def localClaimEffect (p : Params) (s : State) : State :=
  match pageOf p[0] with
  | none => s.finish .badParam []
  | some pg =>
    let e := s.page pg
    if e.mode = .closed then s.finish .pageClosed []
    else if e.holder = .local then s.finish .ok [e.holder.code, byte e.lease]
    else if s.inFlight pg then s.finish .pageBusy [e.holder.code, byte e.lease]
    else if e.holder.remote then s.finish .pageClaimed [e.holder.code, byte e.lease]
    else (s.setPage pg { e with holder := .local, lease := 0 }).finish .ok [Holder.local.code, 0]

def execLocalClaim (s : State) : Host.Outcome State Fault Refusal :=
  s.completing 0x18 localClaimEffect

/-- R75. -/
def localReleaseEffect (p : Params) (s : State) : State :=
  match pageOf p[0] with
  | none => s.finish .badParam []
  | some pg =>
    let e := s.page pg
    if e.holder ≠ .local then s.finish .notHolder [e.holder.code]
    else if s.inFlight pg then s.finish .pageBusy []
    else (s.setPage pg { e with holder := .none }).finish .ok []

def execLocalRelease (s : State) : Host.Outcome State Fault Refusal :=
  s.completing 0x19 localReleaseEffect

/-- R76. On OK, RESULT_DATA carries the former holder and the lease it still had. -/
def breakClaimEffect (p : Params) (s : State) : State :=
  match pageOf p[0] with
  | none => s.finish .badParam []
  | some pg =>
    let e := s.page pg
    if e.mode = .closed then s.finish .pageClosed []
    else if s.inFlight pg then s.finish .pageBusy []
    else if !e.holder.remote then s.finish .notHolder [e.holder.code]
    else (s.setPage pg { e with holder := .none, lease := 0 }).finish .ok [e.holder.code, byte e.lease]

def execBreakClaim (s : State) : Host.Outcome State Fault Refusal :=
  s.completing 0x1A breakClaimEffect

/-- One tick of a remote claim's lease (R69): at 0 the claim expires, unless the page is in flight,
when it stays with a pending expiry (R70). A lease that stands at 0 is not decreased further. -/
def State.leaseTick (s : State) (p : Page) : State :=
  let e := s.page p
  match e.holder with
  | .none | .local => s
  | .node a =>
    if e.lease = 0 then s
    else if e.lease = 1 then
      if s.inFlight p then s.setPage p { e with lease := 0 } else s.expireClaim p a 1
    else s.setPage p { e with lease := e.lease - 1 }

end Sys2Proof.Machine
end

