-- ==== Sys2Proof/Machine/Inbound.lean ====
section
/-!
DEFINITION. Chapter 6's command: INBOUND_DROP (R108).
-/

namespace Sys2Proof.Machine

/-- R108. RESULT_DATA carries the committed-record count after the drop, or 0. -/
def inboundDropEffect (_ : Params) (s : State) : State :=
  if s.inbound.committedRecords = 0 then s.finish .storeEmpty [0]
  else ({ s with inbound := s.inbound.drop }).finish .ok [byte (s.inbound.committedRecords - 1)]

def execInboundDrop (s : State) : Host.Outcome State Fault Refusal :=
  s.completing 0x30 inboundDropEffect

end Sys2Proof.Machine
end

