-- ==== Sys2Proof/Machine/Jobs.lean ====
section
/-!
DEFINITION. Chapter 7's commands: SUBMIT, CANCEL, JOB_QUERY, JOB_FETCH, RETIRE (R116, R117, R130, R133 to
R135), and the shares of a tick that jobs take (R125, R129).
-/

namespace Sys2Proof.Machine

/-- The job as it stands in its slot after a taken SUBMIT (R117, steps 1, 2 and 5). -/
def placedJob (s : State) (j : Slot) (job : JobSlot) : JobSlot :=
  { job with
    generation := (s.job j).generation + 1
    blocks := s.freeBlocks.take job.blocksNeeded }

/-- The pool after a taken SUBMIT: for WRITE, WRITE_RELEASE and MESSAGE the job's buffer takes staging
bytes 0..length − 1 (R117, step 3). -/
def submittedPool (s : State) (placed : JobSlot) : Memory :=
  if placed.operation.sendsData then
    writeBuffer placed s.pool 0 (s.stagingBytes placed.length.toNat)
  else s.pool

/-- A taken SUBMIT, all in one step (R117): slot, blocks, data, peer entry, record, lists. The blocks are
the lowest free ones (log entry 12). -/
def State.takeJob (s : State) (j : Slot) (job : JobSlot) : State :=
  let placed := placedJob s j job
  let ensured := if job.collective then s else s.ensurePeer job.target
  ({ ensured with
      jobs := s.jobs.set j placed
      pool := submittedPool s placed
      submission := s.submission ++ [j] }).setList job.priority (s.list job.priority ++ [j])

/-- R116. -/
def submitEffect (p : Params) (s : State) : State :=
  if s.cfg.address = 0 then s.finish .notConfigured []
  else
    match submittedJob p with
    | none => s.finish .badParam []
    | some job =>
      if job.illegal s.cfg.address then s.finish .badParam []
      else
        match s.freeSlots with
        | [] => s.finish .noSlot []
        | j :: _ =>
          if s.freeBlocks.length < job.blocksNeeded then s.finish .noBuffer []
          else
            let t := s.takeJob j job
            t.finish .ok
              [jobTag j (t.job j).generation, byte t.freeSlots.length, byte t.freeBlocks.length]

def execSubmit (s : State) : Host.Outcome State Fault Refusal :=
  s.completing 0x20 submitEffect

/-- R130. -/
def cancelEffect (p : Params) (s : State) : State :=
  match s.knownTag p[0] with
  | none => s.finish .unknownTag []
  | some j =>
    match (s.job j).state with
    | .free => s.finish .unknownTag []
    | .queued | .waiting => (s.completeJob j .cancelled).finish .ok [JobState.complete.code]
    | .active =>
      (s.setJob j { s.job j with cancelRequested := true }).finish .cancelPending
        [JobState.active.code]
    | .complete => s.finish .jobState [JobState.complete.code, (s.job j).result.code]

def execCancel (s : State) : Host.Outcome State Fault Refusal :=
  s.completing 0x21 cancelEffect

/-- R133. -/
def jobQueryEffect (p : Params) (s : State) : State :=
  match s.knownTag p[0] with
  | none => s.finish .unknownTag []
  | some j =>
    let job := s.job j
    let remaining := BitVec.ofNat 16 job.deadlineRemaining
    (s.fillStaging job.snapshot).finish .ok
      [job.state.code, remaining.extractLsb' 8 8, remaining.extractLsb' 0 8]

def execJobQuery (s : State) : Host.Outcome State Fault Refusal :=
  s.completing 0x22 jobQueryEffect

/-- R134. -/
def jobFetchEffect (p : Params) (s : State) : State :=
  match s.knownTag p[0] with
  | none => s.finish .unknownTag []
  | some j =>
    let job := s.job j
    if job.state ≠ .complete then s.finish .jobState []
    else (s.fillStaging (s.bufferBytes job 0 job.bytesDone)).finish .ok [byte job.bytesDone]

def execJobFetch (s : State) : Host.Outcome State Fault Refusal :=
  s.completing 0x23 jobFetchEffect

/-- R135: the slot becomes FREE with its generation, and its blocks return to the pool. -/
def retireEffect (p : Params) (s : State) : State :=
  match s.knownTag p[0] with
  | none => s.finish .unknownTag []
  | some j =>
    let job := s.job j
    if job.state ≠ .complete then s.finish .jobState []
    else if job.unread then s.finish .jobUnseen []
    else
      let t := s.setJob j (.free job.generation)
      t.finish .ok [byte t.freeSlots.length, byte t.freeBlocks.length]

def execRetire (s : State) : Host.Outcome State Fault Refusal :=
  s.completing 0x24 retireEffect

/-- The deadline of a job counts while the job is QUEUED, WAITING or ACTIVE and has not run out
(R129). -/
def JobSlot.deadlineRuns (job : JobSlot) : Bool :=
  (job.state == .queued || job.state == .waiting || job.state == .active) &&
    job.deadline != 0 && job.deadlineRemaining != 0

/-- The next tick brings the deadline remaining to 0. -/
def JobSlot.deadlineDue (job : JobSlot) : Bool := job.deadlineRuns && job.deadlineRemaining == 1

/-- One tick of a job's deadline (R129): at 0 a QUEUED or WAITING job completes EXPIRED, an ACTIVE one
has its expiry requested. -/
def State.deadlineTick (s : State) (j : Slot) : State :=
  let job := s.job j
  if !job.deadlineRuns then s
  else
    let counted := s.setJob j { job with deadlineRemaining := job.deadlineRemaining - 1 }
    if !job.deadlineDue then counted
    else if job.state = .active then
      s.setJob j { job with deadlineRemaining := 0, expiryRequested := true }
    else counted.completeJob j .expired

/-- The job's deadline has its share of the tick still to take, and runs out with it (R129). -/
def State.deadlineAhead (s : State) (j : Slot) : Bool :=
  (s.job j).deadlineDue && decide (.deadline j ∉ s.ticks.taken)

/-- One tick of a WAITING job's retry countdown (R125): at 0 the job is QUEUED at the tail of its list,
unless its deadline runs out at the same tick, which expires it (R129). -/
def State.retryTick (s : State) (j : Slot) : State :=
  let job := s.job j
  if job.state ≠ .waiting then s
  else if 1 < job.retryCountdown then
    s.setJob j { job with retryCountdown := job.retryCountdown - 1 }
  else if s.deadlineAhead j then s
  else s.requeueTail j

end Sys2Proof.Machine
end

