-- ==== Sys2Proof/Machine/NodeLink.lean ====
section
/-!
DEFINITION. Chapter 2's commands: CONFIGURE, SET_GROUPS, LINK_START, LINK_STOP (R34 to R39).
-/

namespace Sys2Proof.Machine

/-- The configuration that CONFIGURE's bytes give, if every one of bytes 0 to 6 is in range (R37). -/
def configOf (p : Params) : Option NodeConfig :=
  match Grade.ofCode p[1] with
  | none => none
  | some g =>
    if 1 ≤ p[0].toNat ∧ p[0].toNat ≤ 126 ∧ 1 ≤ p[2].toNat ∧ 1 ≤ p[3].toNat ∧ 1 ≤ p[4].toNat ∧
        1 ≤ p[5].toNat ∧ p[5].toNat ≤ 100 ∧ p[6].toNat < p[5].toNat then
      some
        { address := p[0].setWidth 7
          grade := g
          lease := p[2].toNat
          busyRetry := p[3].toNat
          refreshWindow := p[4].toNat
          degradeThreshold := p[5].toNat
          unreachableThreshold := p[6].toNat
          autoRecover := p[7].getLsbD 0
          acceptMessages := p[7].getLsbD 1 }
    else none

/-- R37. -/
def configureEffect (p : Params) (s : State) : State :=
  if s.link.state ≠ .offline then s.finish .linkState []
  else
    match configOf p with
    | none => s.finish .badParam []
    | some c => ({ s with cfg := c }).finish .ok []

def execConfigure (s : State) : Host.Outcome State Fault Refusal :=
  s.completing 0x01 configureEffect

/-- The membership set of SET_GROUPS' four bytes, groups 31..24 first; group 0 is stored as clear
(R39, 12.4). -/
def groupsOf (p : Params) : BitVec 32 :=
  (p[0] ++ p[1] ++ p[2] ++ p[3] : BitVec 32) &&& 0xFFFFFFFE#32

/-- R39. -/
def setGroupsEffect (p : Params) (s : State) : State :=
  ({ s with groups := groupsOf p }).finish .ok []

def execSetGroups (s : State) : Host.Outcome State Fault Refusal :=
  s.completing 0x02 setGroupsEffect

/-- R34. -/
def linkStartEffect (_ : Params) (s : State) : State :=
  if s.cfg.address = 0 then s.finish .notConfigured []
  else
    match s.link.state with
    | .offline | .faulted => (s.enterSyncing .command).finish .ok []
    | .syncing | .online => s.finish .ok []
    | .stopping => s.finish .linkState []

def execLinkStart (s : State) : Host.Outcome State Fault Refusal :=
  s.completing 0x03 linkStartEffect

/-- R35. In STOPPING the node keeps its part in the telegram (R36). -/
def linkStopEffect (_ : Params) (s : State) : State :=
  match s.link.state with
  | .offline | .stopping => s.finish .ok []
  | .syncing | .faulted => (s.enterOffline .command).finish .ok []
  | .online =>
    if s.link.role.hasPart then
      (s.changeLink { s.link with state := .stopping } .command).finish .ok []
    else (s.enterOffline .command).finish .ok []

def execLinkStop (s : State) : Host.Outcome State Fault Refusal :=
  s.completing 0x04 linkStopEffect

end Sys2Proof.Machine
end

