-- ==== Sys2Proof/Machine/Peers.lean ====
section
/-!
DEFINITION. Chapter 8: scoring an attempt's outcome, PEER_READ and PEER_RESET (R141 to R147).
-/

namespace Sys2Proof.Machine

/-- The outcome of an attempt as the Link Engine reports it (R23), or link lost (R29). -/
inductive Attempt
  | arbitrationLost | bitError | linkLost | silence | busy | refuse | resendExhaustion | normalEnd
deriving DecidableEq, Repr

/-- The last result an outcome leaves (R141). -/
def Attempt.peerResult : Attempt → PeerResult
  | .arbitrationLost => .arbLost | .bitError => .bitError | .linkLost => .linkLost
  | .silence => .silence | .busy => .busy | .refuse => .refuse
  | .resendExhaustion => .resendExhausted | .normalEnd => .normalEnd

/-- The score after an outcome (R142). -/
def PeerEntry.scoreAfter (e : PeerEntry) (o : Attempt) (dt : Nat) : Nat :=
  match o with
  | .normalEnd => if e.state = .unreachable then max e.score dt else min 100 (e.score + 4)
  | .silence => e.score - 25
  | .resendExhaustion => e.score - 10
  | .busy | .refuse | .bitError | .linkLost | .arbitrationLost => e.score

/-- The band of a score (R143). -/
def bandOf (score dt ut : Nat) : PeerState :=
  if dt ≤ score then .normal else if ut ≤ score then .degraded else .unreachable

/-- The state after an outcome: an UNREACHABLE entry leaves that state at a normal end only, and a link lost
leaves the state as it was, so that the step into FAULTED posts no PEER_STATE (R143, R33). Every other outcome
derives the state anew from the present thresholds, also where it leaves the score as it was (log entry 29). -/
def PeerEntry.stateAfter (e : PeerEntry) (o : Attempt) (dt ut : Nat) : PeerState :=
  if o = .linkLost ∨ (e.state = .unreachable ∧ o ≠ .normalEnd) then e.state
  else bandOf (e.scoreAfter o dt) dt ut

/-- The entry after an outcome: counters, last result, score and state in one step (R141). -/
def PeerEntry.reported (e : PeerEntry) (o : Attempt) (dt ut : Nat) : PeerEntry :=
  { e with
    attempts := countUp e.attempts
    silences := if o = .silence then countUp e.silences else e.silences
    checkFailures :=
      if o = .bitError ∨ o = .resendExhaustion then countUp e.checkFailures else e.checkFailures
    busy := if o = .busy then countUp e.busy else e.busy
    lastResult := o.peerResult
    score := e.scoreAfter o dt
    state := e.stateAfter o dt ut }

/-- The notice of a change of a peer's state (R143). -/
def peerNotice (e : PeerEntry) : Notice where
  kind := .peerState
  subject := e.address.setWidth 8
  node := e.state.code
  detail := byte e.score

/-- An attempt's outcome reported for an address (R141): the entry becomes the most recently used, and a
change of state posts PEER_STATE. -/
def State.reportPeer (s : State) (a : Addr) (o : Attempt) : State :=
  match s.peer a with
  | none => s
  | some e =>
    let e' := e.reported o s.cfg.degradeThreshold s.cfg.unreachableThreshold
    let moved := { s with peers := movedToFront s.peers e' }
    if e'.state = e.state then moved else moved.postNotice (peerNotice e')

/-- The address a parameter byte names, if it is 1..126 (R146, R147). -/
def peerAddressOf (b : Byte) : Option Addr :=
  if 1 ≤ b.toNat ∧ b.toNat ≤ 126 then some (b.setWidth 7) else none

/-- An entry's place in the least-recently-used order, 0 for the most recently used (R146). -/
def State.peerPlace (s : State) (a : Addr) : Nat := s.peers.findIdx (·.address == a)

/-- R146. -/
def peerReadEffect (p : Params) (s : State) : State :=
  match peerAddressOf p[0] with
  | none => s.finish .badParam []
  | some a =>
    match s.peer a with
    | none => s.finish .noEntry [0, 0, byte s.peers.length]
    | some e =>
      (s.fillStaging e.snapshot).finish .ok
        [e.state.code, byte e.score, byte s.peers.length, byte (s.peerPlace a)]

def execPeerRead (s : State) : Host.Outcome State Fault Refusal :=
  s.completing 0x28 peerReadEffect

/-- R147: the entry keeps its place, and no notice is posted. -/
def peerResetEffect (p : Params) (s : State) : State :=
  match peerAddressOf p[0] with
  | none => s.finish .badParam []
  | some a =>
    match s.peer a with
    | none => s.finish .noEntry []
    | some e =>
      ({ s with peers := s.peers.map fun x : PeerEntry => if x.address == a then PeerEntry.new a else x }).finish
        .ok [e.state.code, byte e.score]

def execPeerReset (s : State) : Host.Outcome State Fault Refusal :=
  s.completing 0x29 peerResetEffect

end Sys2Proof.Machine
end

