-- ==== Sys2Proof/Machine/Port.lean ====
section
/-!
DEFINITION. The register accesses that change state (R151, R157, R107, R160, R161, R163 to R165, R169 to
R171, R173), and the completion of an undefined code (R167).
-/

namespace Sys2Proof.Machine

/-- R167: a code outside the nineteen commands completes with BAD_COMMAND. -/
def execBadCommand (s : State) : Host.Outcome State Fault Refusal :=
  match s.port.taken with
  | some t =>
    if s.mode = .running ∧ t.code ∉ commandCodes then .next (s.finish .badCommand []) else .next s
  | none => .next s

/-- R165: with CMD_BUSY 0 the command is taken with a copy of all eight parameters and the write index
returns to 0; with CMD_BUSY 1 the code is discarded and CMD_REJECT set. -/
def State.offerCommand (code : Byte) (s : State) : State :=
  match s.port.taken with
  | none => { s with port := { s.port with taken := some ⟨code, s.port.params⟩, writeIndex := 0 } }
  | some _ => { s with port := { s.port with reject := true } }

def execCmdWrite (code : Byte) (s : State) : Host.Outcome State Fault Refusal :=
  s.hostWrite (State.offerCommand code)

/-- R164: ignored when the array is full. -/
def State.placeParam (value : Byte) (s : State) : State :=
  if h : s.port.writeIndex < 8 then
    { s with port := { s.port with
        params := s.port.params.set s.port.writeIndex value
        writeIndex := s.port.writeIndex + 1 } }
  else s

def execParamWrite (value : Byte) (s : State) : Host.Outcome State Fault Refusal :=
  s.hostWrite (State.placeParam value)

/-- R173: the read clears CMD_REJECT after returning its value. -/
def execStatusRead (s : State) : Host.Outcome State Fault Refusal :=
  s.hostRead 0x0 fun s => { s with port := { s.port with reject := false } }

/-- R169, R160: the read clears the CMD_DONE latch and returns the RESULT_DATA read index to 0. -/
def execResultRead (s : State) : Host.Outcome State Fault Refusal :=
  s.hostRead 0x1 fun s => { s with port := { s.port with cmdDone := false, resultIndex := 0 } }

/-- R169: the index advances while it is below the number of bytes. -/
def State.advanceResult (s : State) : State :=
  if s.port.resultIndex < s.port.resultData.length then
    { s with port := { s.port with resultIndex := s.port.resultIndex + 1 } }
  else s

def execResultDataRead (s : State) : Host.Outcome State Fault Refusal :=
  s.hostRead 0x2 State.advanceResult

/-- A DATA access is taken: CMD_BUSY is 0 and DATA_PTR is below 64 (R170). -/
def State.dataOpen (s : State) : Bool := !s.cmdBusy && decide (s.port.dataPtr < Config.stagingSize)

/-- R170. -/
def State.advanceData (s : State) : State :=
  if s.dataOpen then { s with port := { s.port with dataPtr := s.port.dataPtr + 1 } } else s

def execDataRead (s : State) : Host.Outcome State Fault Refusal :=
  s.hostRead 0x3 State.advanceData

/-- R170. -/
def State.storeData (value : Byte) (s : State) : State :=
  if s.dataOpen then
    { s with port := { s.port with
        staging := s.port.staging.write Config.stagingSize s.port.dataPtr value
        dataPtr := s.port.dataPtr + 1 } }
  else s

def execDataWrite (value : Byte) (s : State) : Host.Outcome State Fault Refusal :=
  s.hostWrite (State.storeData value)

/-- R171: 64 or more is taken as 64; discarded while CMD_BUSY is 1. -/
def State.pointData (value : Byte) (s : State) : State :=
  if s.cmdBusy then s
  else { s with port := { s.port with dataPtr := min value.toNat Config.stagingSize } }

def execDataPtrWrite (value : Byte) (s : State) : Host.Outcome State Fault Refusal :=
  s.hostWrite (State.pointData value)

/-- R151: the eighth byte pops the record and clears the unread flag of the job it names. -/
def State.advanceCompletion (s : State) : State :=
  match s.completions.records with
  | [] => s
  | r :: rest =>
    if s.completions.readIndex < 7 then
      { s with completions := { s.completions with readIndex := s.completions.readIndex + 1 } }
    else
      { s.setJob (tagSlot r.tag) { s.job (tagSlot r.tag) with unread := false } with
        completions := ⟨rest, 0⟩ }

def execCompletionRead (s : State) : Host.Outcome State Fault Refusal :=
  s.hostRead 0x5 State.advanceCompletion

/-- R157: the sixth byte pops the record. -/
def State.advanceEvent (s : State) : State :=
  match s.events.records with
  | [] => s
  | _ :: rest =>
    if s.events.readIndex < 5 then
      { s with events := { s.events with readIndex := s.events.readIndex + 1 } }
    else { s with events := { s.events with records := rest, readIndex := 0 } }

def execEventRead (s : State) : Host.Outcome State Fault Refusal :=
  s.hostRead 0x6 State.advanceEvent

/-- R107: the index stops at the head record's size. -/
def State.advanceInbound (s : State) : State :=
  if s.inbound.committedRecords ≠ 0 ∧ s.inbound.readIndex < s.inbound.headSize then
    { s with inbound := { s.inbound with readIndex := s.inbound.readIndex + 1 } }
  else s

def execInboundRead (s : State) : Host.Outcome State Fault Refusal :=
  s.hostRead 0x7 State.advanceInbound

/-- R160: bit 0 names CMD_DONE; the level sources' positions and bits 7..4 are ignored (R179). -/
def execIrqClear (value : Byte) (s : State) : Host.Outcome State Fault Refusal :=
  s.hostWrite fun s =>
    if value.getLsbD 0 then { s with port := { s.port with cmdDone := false } } else s

/-- R161: all four enables are replaced; bits 7..4 change nothing (R179). -/
def execIrqEnableWrite (value : Byte) (s : State) : Host.Outcome State Fault Refusal :=
  s.hostWrite fun s => { s with port := { s.port with irqEnable := value.extractLsb' 0 4 } }

/-- R163: a write to an address whose write column is empty changes nothing. -/
def execIgnoredWrite (_address : BitVec 4) (_value : Byte) (s : State) :
    Host.Outcome State Fault Refusal :=
  s.hostWrite id

end Sys2Proof.Machine
end

