-- ==== Sys2Proof/Machine/Resets.lean ====
section
/-!
DEFINITION. The resets (R42, R60, R61, R175 to R178).
-/

namespace Sys2Proof.Machine

/-- Every block in its reset state, page memory as given; what waits in the queue and what the latest
read drove are outside the part. -/
def State.blocksReset (s : State) (pageMem : Memory) : State :=
  { State.reset with
    pending := s.pending
    lastRead := s.lastRead
    mode := s.mode
    pageMem := pageMem }

/-- A reset begins: the line is released, a telegram in progress is dropped unreported, and the command
in progress is discarded (R42, R175, R176). -/
def State.beginReset (s : State) (mode : ResetMode) : State :=
  { s with
    mode := mode
    link := { s.link with role := .idle, slot := [] }
    port := { s.port with taken := none } }

/-- A CONTROL write (R173, R175): bit 0 requests a reset; the other bits and a write with bit 0 clear are
ignored, and so is every write during a reset. -/
def execControllerReset (value : Byte) (s : State) : Host.Outcome State Fault Refusal :=
  s.hostWrite fun s => if value.getLsbD 0 then s.beginReset .controller else s

/-- The end of a controller reset (R175): every block but page memory is in its reset state. -/
def execControllerResetEnd (s : State) : Host.Outcome State Fault Refusal :=
  if s.mode = .controller then .next { s.blocksReset s.pageMem with mode := .running } else .next s

/-- RESET# goes low (R177): every block is held in reset; it overrides every reset in progress. Page
memory is zeroed by the sequence that follows. -/
def execResetAsserted (s : State) : Host.Outcome State Fault Refusal :=
  .next { s.blocksReset s.pageMem with mode := .held }

/-- RESET# returns high: the power-on reset sequence runs (R177). -/
def execPowerOnResetSequence (s : State) : Host.Outcome State Fault Refusal :=
  if s.mode = .held then .next { s with mode := .powerOn } else .next s

/-- The power-on reset sequence ends: page memory is zero, every other block in its reset state
(R60, R177). -/
def execPowerOnResetEnd (s : State) : Host.Outcome State Fault Refusal :=
  if s.mode = .powerOn then .next { s.blocksReset [] with mode := .running } else .next s

end Sys2Proof.Machine
end

