-- ==== Sys2Proof/Machine/Dispatcher.lean ====
section
/-!
DEFINITION. The dispatcher and the taking of an attempt's outcome (R118 to R131, R141), and
TRANSMIT_OPPORTUNITY (R27).
-/

namespace Sys2Proof.Machine

/-! ### Dispatch (R118 to R120) -/

/-- Same target: same form and same value (R119). -/
def JobSlot.sameTarget (a b : JobSlot) : Bool := a.group == b.group && a.target == b.target

/-- An ORDERED job is held back while an earlier-submitted ORDERED job with the same target is QUEUED,
WAITING or ACTIVE, that is, stands before it in the submission order list (R119). -/
def State.heldBack (s : State) (j : Slot) : Bool :=
  (s.job j).ordered &&
    (s.submission.takeWhile (· != j)).any fun i =>
      (s.job i).ordered && (s.job i).sameTarget (s.job j)

/-- The chosen job's peer is UNREACHABLE and the job is no PROBE: it fails at once (R120). -/
def State.failsFast (s : State) (j : Slot) : Bool :=
  s.peerStateOf (s.job j) == some .unreachable && !(s.job j).probe

/-- The job record of a job that becomes ACTIVE (R118). -/
def JobSlot.dispatched (job : JobSlot) (peer : Option PeerState) : JobSlot :=
  { job with
    state := .active
    attempts := countUp job.attempts
    peerAtDispatch := if job.collective then job.peerAtDispatch else peer }

/-- The job leaves its list, becomes ACTIVE, and its start marker begins (R118, R121, R27). -/
def State.activate (s : State) (j : Slot) : State :=
  { (s.unlist j).setJob j ((s.job j).dispatched (s.peerStateOf (s.job j))) with
    initiator := ⟨.contending, 0, 0, false⟩
    link := { s.link with
      role := .contender j ((s.job j).header s.cfg.address)
      slot := []
      gap := .notRunning } }

/-- The scan over the lists in order (R118): jobs held back are passed over, jobs to an UNREACHABLE peer
fail and the scan goes on, the first other job becomes ACTIVE. -/
def State.scan : State → List Slot → State
  | s, [] => s
  | s, j :: rest =>
    if s.heldBack j then s.scan rest
    else if s.failsFast j then (s.completeJob j .peerUnreachable).scan rest
    else s.activate j

/-- The jobs of the four lists in scan order (R118). -/
def State.candidates (s : State) : List Slot := s.lists.toList.flatten

/-- An opportunity arises in ONLINE with no telegram in progress and the gap complete (R27). The event's
arrival says that the running gap has reached 12 TB (log entry 7). -/
def State.offerLink (s : State) : State :=
  if s.link.state = .online ∧ s.link.role = .idle ∧ s.link.gap ≠ .notRunning then
    ({ s with link := { s.link with gap := .complete } }).scan s.candidates
  else s

def execTransmitOpportunity (s : State) : Host.Outcome State Fault Refusal :=
  s.onLink State.offerLink

/-! ### Outcomes (R123 to R131) -/

/-- What an outcome makes of the job. -/
inductive Disposition
  | queueHead | queueTail | wait | complete (r : JobResult)
deriving DecidableEq, Repr

/-- The effective transport limit (R124, R127). -/
def JobSlot.effectiveLimit (job : JobSlot) : Nat :=
  if !job.collective ∧ job.peerAtDispatch = some .degraded then min job.transportLimit 1
  else job.transportLimit

/-- The last response after an outcome, from the header slot bits sampled (R123 to R128). An individual job's
changes with the outcome (log entry 15); a collective job's has shown the slot since its first bit. -/
def JobSlot.responseAfter (job : JobSlot) (o : Attempt) (slot : List Level) : LastResponse :=
  if job.collective then
    if slot.isEmpty then job.lastResponse else collectiveReading slot
  else
    match o with
    | .silence => .silence
    | .busy => .busy
    | .refuse => .refuse
    | .resendExhaustion | .normalEnd => .ack
    | .bitError => if slot.length = 2 then slotReading slot else job.lastResponse
    | .arbitrationLost | .linkLost => job.lastResponse

/-- The outcome is a transport failure of the job (R124, R127). That a collective job's bit error is none once its
header slot is sampled is the model's choice (log entry 30). -/
def JobSlot.countsFailure (job : JobSlot) (o : Attempt) (slot : List Level) : Bool :=
  match o with
  | .silence | .resendExhaustion => true
  | .bitError => !job.collective || slot.isEmpty
  | .arbitrationLost | .linkLost | .busy | .refuse | .normalEnd => false

/-- The counters and the last response after an outcome (R123 to R128). -/
def JobSlot.counted (job : JobSlot) (o : Attempt) (slot : List Level) : JobSlot :=
  { job with
    lastResponse := job.responseAfter o slot
    transportFailures :=
      if job.countsFailure o slot then job.transportFailures + 1 else job.transportFailures
    busyResponses := if o = .busy then job.busyResponses + 1 else job.busyResponses
    arbitrationLosses :=
      if o = .arbitrationLost then countUp job.arbitrationLosses else job.arbitrationLosses }

/-- The disposition of a counted job whose requests are clear (R123 to R128). -/
def JobSlot.disposition (job : JobSlot) (o : Attempt) (slot : List Level) (dissent : Bool) :
    Disposition :=
  match o with
  | .arbitrationLost =>
    if job.arbitrationLimit ≠ 0 ∧ job.arbitrationLimit < job.arbitrationLosses then
      .complete .arbExhausted
    else .queueHead
  | .silence =>
    if job.effectiveLimit < job.transportFailures then .complete .noResponse else .queueTail
  | .resendExhaustion =>
    if job.effectiveLimit < job.transportFailures then .complete .checkFailed else .queueTail
  | .bitError =>
    if job.collective ∧ !slot.isEmpty then .complete .checkFailed
    else if job.effectiveLimit < job.transportFailures then .complete .checkFailed
    else .queueTail
  | .busy => if job.busyLimit < job.busyResponses then .complete .busyExhausted else .wait
  | .refuse => .complete .refused
  | .normalEnd => .complete (if job.collective ∧ dissent then .dissent else .done)
  | .linkLost => if job.collective ∧ !slot.isEmpty then .complete .checkFailed else .queueHead

/-- A pending request replaces every disposition but that of a normal end (R131). -/
def JobSlot.requested (job : JobSlot) (o : Attempt) (d : Disposition) : Disposition :=
  if o = .normalEnd then d
  else if job.cancelRequested then .complete .cancelled
  else if job.expiryRequested then .complete .expired
  else d

/-- The job takes its disposition; WAITING loads the retry countdown (R125). -/
def State.dispose (s : State) (j : Slot) : Disposition → State
  | .queueHead => s.requeueHead j
  | .queueTail => s.requeueTail j
  | .wait => s.setJob j { s.job j with state := .waiting, retryCountdown := s.cfg.busyRetry }
  | .complete r => s.completeJob j r

/-- The attempt is over: the job's counters and last response take the outcome, and the engine returns to
the ended phase (R121 to R128). -/
def State.endAttempt (s : State) (j : Slot) (o : Attempt) : State :=
  { s.setJob j ((s.job j).counted o s.link.slot) with initiator := { s.initiator with phase := .ended } }

/-- What becomes of the job whose attempt has this outcome (R123 to R128, R131). -/
def State.verdict (s : State) (j : Slot) (o : Attempt) : Disposition :=
  let counted := (s.job j).counted o s.link.slot
  counted.requested o (counted.disposition o s.link.slot s.initiator.dissent)

/-- The outcome of the ACTIVE job's attempt is taken by the Job Manager and, for an individual target, by
the Peer Health Table (R121). -/
def State.takeOutcome (s : State) (j : Slot) (o : Attempt) : State :=
  let disposed := (s.endAttempt j o).dispose j (s.verdict j o)
  if (s.job j).collective then disposed else disposed.reportPeer (s.job j).target o

end Sys2Proof.Machine
end

