-- ==== Sys2Proof/Machine/Responder.lean ====
section
/-!
DEFINITION. The Responder (chapter 5): the answer to a header, the status record, and the effects applied
at an accepted telegram's normal end.
-/

namespace Sys2Proof.Machine

/-- The Responder's decision on a header (R81). -/
inductive Decision
  | accept | busy (r : Reason) | refuse (r : Reason)
deriving DecidableEq, Repr

/-- The page a header names. -/
def Header.pageNumber (h : Header) : Page := h.page.toFin

/-- Allowed initiator, access or claimable forbids the operation (R45, step 5 of R81). -/
def PageEntry.forbids (e : PageEntry) (h : Header) (op : Operation) : Bool :=
  (e.allowed != 0 && e.allowed != h.initiator) ||
  (op.readType && e.access == .writeOnly) ||
  (op.writeType && e.access == .readOnly) ||
  (op.claimType && !e.claimable)

/-- The range condition of R45 (step 6 of R81). -/
def PageEntry.outOfRange (e : PageEntry) (h : Header) (op : Operation) : Bool :=
  (op.readType || op.writeType) &&
    (h.length == 0 || decide (e.length < h.offset.toNat + h.length.toNat))

/-- The claim conflict of R63 (step 8 of R81). -/
def PageEntry.conflicts (e : PageEntry) (h : Header) (op : Operation) : Bool :=
  op != .read && e.holder != .none && e.holder != .node h.initiator

/-- Steps 4 to 10 of R81, for a page operation. -/
def PageEntry.decision (e : PageEntry) (h : Header) (op : Operation) : Decision :=
  if e.mode = .closed then .refuse .noPage
  else if e.forbids h op then .refuse .access
  else if e.outOfRange h op then .refuse .range
  else if op = .release ∧ e.holder ≠ .node h.initiator then .refuse .notHolder
  else if e.conflicts h op then .busy .claimed
  else if op.readType ∧ e.mode = .deferred ∧ e.freshness ≠ .fresh then .busy .refreshing
  else .accept

/-- Step 2 of R81 (R83). -/
def State.messageDecision (s : State) (h : Header) : Decision :=
  if !s.cfg.acceptMessages then .refuse .noMailbox
  else if 64 < h.length.toNat then .refuse .range
  else if s.inbound.free < Config.recordHeader + h.length.toNat then .busy .storeFull
  else .accept

/-- The first check of R81 that applies decides. -/
def State.decision (s : State) (h : Header) : Decision :=
  match Operation.ofCode h.operation with
  | none => .refuse .badOp
  | some op =>
    if h.collective ∧ op ≠ .write ∧ op ≠ .message then .refuse .groupOp
    else
      match op with
      | .message => s.messageDecision h
      | .status => .accept
      | .read | .write | .claim | .release | .readClaim | .writeRelease =>
        (s.page h.pageNumber).decision h op

/-- The status record (R93): flags and link state, open pages, claimed pages, inbound free space in
16-byte units, last response reason and initiator, event queue fill, transmit error count. -/
def State.statusRecord (s : State) : List Byte :=
  [BitVec.ofBool s.cfg.acceptMessages ++ BitVec.ofBool s.cfg.autoRecover ++ 0#3 ++
      s.link.state.code.extractLsb' 0 3,
    byte s.openPages, byte s.claimedPages, byte (s.inbound.free / 16), s.responder.lastReason.code,
    s.responder.lastInitiator.setWidth 8, byte s.events.records.length, byte s.link.txErrors]

/-- What an accepted header binds (R87). -/
def Header.marker (h : Header) : Marker :=
  match Operation.ofCode h.operation with
  | some .message => .inbound
  | some .status | none => .clear
  | some .read | some .write | some .claim | some .release | some .readClaim | some .writeRelease =>
    .page h.pageNumber

/-- A header is accepted (R87): marker, reservation (R103) or snapshot (R84), empty staging, block index
and NAK count 0. -/
def State.acceptHeader (s : State) (h : Header) : State :=
  { s with
    responder := { s.responder with
      marker := h.marker
      staging := []
      blockIndex := 0
      nakCount := 0
      snapshot := if Operation.ofCode h.operation = some .status then some s.statusRecord else none }
    inbound := { s.inbound with
      reservation :=
        if h.marker = .inbound then
          some ⟨Config.recordHeader + h.length.toNat, s.inbound.tail, h⟩
        else s.inbound.reservation } }

/-- A STALE deferred page is REQUESTED by the read-type header that finds it so, with the refresh window
of this moment and a REFRESH_REQUEST (R56). -/
def State.requestRefresh (s : State) (h : Header) : State :=
  if (s.page h.pageNumber).freshness = .stale then
    (s.setPage h.pageNumber
      { s.page h.pageNumber with
        freshness := .requested
        countdown := s.cfg.refreshWindow }).postNotice
      { kind := .refreshRequest
        subject := byte h.pageNumber.val
        node := h.initiator.setWidth 8
        detail := byte s.cfg.refreshWindow }
  else s

/-- The last-response record takes a reason (R88). -/
def State.recordResponse (s : State) (r : Reason) (a : Addr) : State :=
  { s with responder := { s.responder with lastReason := r, lastInitiator := a } }

/-- What the decision on a header changes at the header (R85, R87, R88). -/
def State.applyDecision (s : State) (h : Header) : Decision → State
  | .accept => s.acceptHeader h
  | .busy .refreshing => (s.requestRefresh h).recordResponse .refreshing h.initiator
  | .busy r | .refuse r => s.recordResponse r h.initiator

/-- The decision as a target's answer (R86). -/
def Decision.answer : Decision → Answer
  | .accept => .ack
  | .busy _ => .busy
  | .refuse _ => .refuse

/-- The node's role after the decision (R80, R86). -/
def Header.roleFor (h : Header) (d : Decision) : Role :=
  if h.collective then .member h (d == .accept) else .target h d.answer

/-- A header is handed to the Responder (R79, R81, R87). -/
def State.handOver (s : State) (h : Header) : State :=
  let t := s.applyDecision h (s.decision h)
  { t with link := { t.link with role := h.roleFor (s.decision h), slot := [] } }

/-- The header makes the node a target or a member (R11, R80). -/
def State.concerns (s : State) (h : Header) : Bool :=
  if h.group then h.target != 0 && decide (h.target.toNat < 32) && s.groups.getLsbD h.target.toNat
  else h.target == 127 || (h.target != 0 && h.target == s.cfg.address)

/-! ### The normal end (R94) -/

/-- A remote write lands: bytes, sequence, PAGE_WRITTEN (R53). -/
def State.landWrite (s : State) (h : Header) : State :=
  let p := h.pageNumber
  let e := { s.page p with sequence := (s.page p).sequence + 1 }
  ({ s.setPage p e with
      pageMem := s.pageMem.writeBytes Config.pageMemorySize (pageAddress p h.offset.toNat)
        s.responder.staging }).postNotice
    { kind := .pageWritten
      subject := byte p.val
      node := h.initiator.setWidth 8
      detail := e.sequence }

/-- The normal end of a served read consumes the freshness of a page with fresh lifetime 0 (R57). -/
def State.consumeFreshness (s : State) (p : Page) : State :=
  if (s.page p).mode = .deferred ∧ (s.page p).lifetime = 0 then
    s.setPage p { s.page p with freshness := .stale, countdown := 0 }
  else s

/-- The holder's own telegram reloads the lease (R66). -/
def State.renewLease (s : State) (h : Header) : State :=
  if (s.page h.pageNumber).holder = .node h.initiator then
    s.setPage h.pageNumber { s.page h.pageNumber with lease := s.cfg.lease }
  else s

/-- CLAIM and READ_CLAIM grant on a page without a holder, and renew for the holder (R64). -/
def State.grantClaim (s : State) (h : Header) : State :=
  if (s.page h.pageNumber).holder = .none then
    (s.setPage h.pageNumber
      { s.page h.pageNumber with holder := .node h.initiator, lease := s.cfg.lease }).postNotice
      (claimNotice .claimTaken h.pageNumber h.initiator (byte s.cfg.lease))
  else s.renewLease h

/-- RELEASE and WRITE_RELEASE from the holder drop the claim; the detail is the operation's code
(R67, R68, R73). -/
def State.releaseClaim (s : State) (h : Header) : State :=
  if (s.page h.pageNumber).holder = .node h.initiator then
    (s.setPage h.pageNumber
      { s.page h.pageNumber with holder := .none, lease := 0 }).postNotice
      (claimNotice .claimReleased h.pageNumber h.initiator (h.operation.setWidth 8))
  else s

/-- The effects of the accepted operation (R94), the write before the claim (R95). -/
def State.operationEffects (s : State) (h : Header) : State :=
  match Operation.ofCode h.operation with
  | some .read => (s.consumeFreshness h.pageNumber).renewLease h
  | some .write => if h.collective then s.landWrite h else (s.landWrite h).renewLease h
  | some .claim => s.grantClaim h
  | some .readClaim => (s.consumeFreshness h.pageNumber).grantClaim h
  | some .release => s.releaseClaim h
  | some .writeRelease => (s.landWrite h).releaseClaim h
  | some .message => { s with inbound := s.inbound.commit s.responder.staging s.ticks.stamp }
  | some .status | none => s

/-- The marker, the staging area and the snapshot are clear again (R94). -/
def State.clearAccepted (s : State) : State :=
  { s with responder := { s.responder with marker := .clear, staging := [], snapshot := none } }

/-- All of an accepted telegram's effects in one step (R94), a pending expiry of its page resolved last
(R71). -/
def State.applyEffects (s : State) (h : Header) : State :=
  let t := (s.operationEffects h).clearAccepted
  match h.marker with
  | .page p => t.resolvePending p
  | .clear | .inbound => t

/-! ### Blocks the node sends as target (R92) -/

/-- Block `k` of a read or of a status record. -/
def State.targetBlock (s : State) (h : Header) (k : Nat) : List Byte :=
  match s.responder.snapshot with
  | some record => record
  | none =>
    s.pageMem.readBytes (pageAddress h.pageNumber (h.offset.toNat + 8 * k)) (h.blockLength k)

end Sys2Proof.Machine
end

