-- ==== Sys2Proof/Machine/Telegram.lean ====
section
/-!
DEFINITION. The events of the link (chapter 1 and sections 2.2 to 2.6): joining, start marker,
arbitration, header, blocks, bit errors, the ends of telegrams, stuck dominant.
-/

namespace Sys2Proof.Machine

/-! ### Joining and idling -/

/-- The 12 TB of R26 are complete: SYNCING enters ONLINE with the remembered cause; the gap is the
node's first completed gap. -/
def State.joinLink (s : State) : State :=
  match s.link.state, s.link.cause with
  | .syncing, some c =>
    s.changeLink { s.link with state := .online, role := .idle, slot := [], gap := .complete } c
  | _, _ => s

def execEnterOnline (s : State) : Host.Outcome State Fault Refusal :=
  s.onLink State.joinLink

/-- The gap is measured: in SYNCING, and in ONLINE while the node is idle on the link (R4, R26). -/
def State.measuresGap (s : State) : Bool :=
  s.link.state == .syncing || (s.link.state == .online && s.link.role == .idle)

/-- A dominant level has ended the measurement, and the line has returned to recessive: it starts again
from zero (R4, R5, R26). -/
def State.restartGap (s : State) : State :=
  if s.measuresGap then { s with link := { s.link with gap := .running, dominance := .running } }
  else s

def execGapMeasurementRestart (s : State) : Host.Outcome State Fault Refusal :=
  s.onLink State.restartGap

/-- A start marker of 8 TB: an idle ONLINE node has a telegram in progress (R5); in SYNCING the dominant
level restarts the gap measurement and nothing is decoded (R26). -/
def State.recogniseStart (s : State) : State :=
  if s.link.state = .online ∧ s.link.role = .idle then
    { s with link := { s.link with role := .receiving, slot := [], gap := .notRunning } }
  else if s.link.state = .syncing then s.restartGap
  else s

def execStartMarker (s : State) : Host.Outcome State Fault Refusal :=
  s.onLink State.recogniseStart

/-! ### Ends of the node's part -/

/-- A contender sent 1 and sampled 0: the attempt ends with arbitration lost and the node receives the
rest (R7); in STOPPING it goes OFFLINE (R36). -/
def State.loseArbitration (s : State) : State :=
  match s.link.role with
  | .contender j _ => (s.takeOutcome j .arbitrationLost).leaveTelegram .receiving
  | .idle | .receiving | .bystander | .initiator _ _ | .target _ _ | .member _ _ => s

def execArbitrationLost (s : State) : Host.Outcome State Fault Refusal :=
  s.onLink State.loseArbitration

/-- The data phase the header and the slot allow is complete, so the telegram has reached the last bit of
R20: for an individual telegram the header slot was not ACK or every block is acknowledged; for a
collective one every block has been sent. -/
def State.atEnd (s : State) : Bool :=
  s.link.slot.length == 2 &&
    match s.link.role with
    | .target h a => a != .ack || s.responder.blockIndex == h.blocks
    | .member h accepts => accepts && s.responder.blockIndex == h.blocks
    | .initiator _ h =>
      (!h.collective && s.link.slot != [.dominant, .dominant]) || s.initiator.blockIndex == h.blocks
    | .idle | .receiving | .bystander | .contender _ _ => false

/-- A bit error can come to the node: as contender, initiator or individual target before the end of the
telegram (R3, R15). The header slot is no exception for the initiator, which only reads it (R124's text; log
entry 27). -/
def State.mayMeetBitError (s : State) : Bool :=
  match s.link.role with
  | .contender _ _ | .initiator _ _ | .target _ _ => !s.atEnd
  | .idle | .receiving | .bystander | .member _ _ => false

/-- The node's part ends without a normal end: an attempt reports its outcome, an accepted telegram is
discarded (R97, R121). -/
def State.abandonPart (s : State) (o : Attempt) : State :=
  match s.link.role with
  | .contender j _ | .initiator j _ => s.takeOutcome j o
  | .target _ _ | .member _ _ => s.abandonAccepted
  | .idle | .receiving | .bystander => s

/-- A bit error: the count rises and the part is abandoned; at 8 the node is FAULTED and its own attempt
reports link lost (R3, R28, R29, R36). -/
def State.meetBitError (s : State) (follow : Role) : State :=
  let counted := { s with link := { s.link with
    txErrors := min Config.txErrorLimit (s.link.txErrors + 1) } }
  if s.link.txErrors + 1 < Config.txErrorLimit then
    (counted.abandonPart .bitError).leaveTelegram follow
  else (counted.abandonPart .linkLost).enterFaulted .bitErrors

def execBitError (s : State) : Host.Outcome State Fault Refusal :=
  s.onLink fun s => if s.mayMeetBitError then s.meetBitError .bystander else s

/-- Sync edges have stopped before the end of the telegram (R21, R28): contender and initiator meet a bit
error; target and member abandon uncharged; for every other node the telegram is over. All are idle on
the link from then on. -/
def State.partLost (s : State) : State :=
  match s.link.role with
  | .contender _ _ | .initiator _ _ => s.meetBitError .idle
  | .target _ _ | .member _ _ => s.abandonAccepted.leaveTelegram .idle
  | .receiving | .bystander => s.leaveTelegram .idle
  | .idle => s

/-- 3 TB without a sync edge (R21). At the telegram's end there are no more edges to lose (R20). -/
def State.loseSync (s : State) : State := if s.atEnd then s else s.partLost

def execLossOfSyncEdges (s : State) : Host.Outcome State Fault Refusal :=
  s.onLink State.loseSync

/-- A clean telegram lowers the transmit error count (R28). -/
def State.cleanTelegram (s : State) : State :=
  { s with link := { s.link with txErrors := s.link.txErrors - 1 } }

/-- The outcome of an attempt that reached its end, by the header slot (R14, R23). -/
def endOutcome (h : Header) (slot : List Level) : Attempt :=
  if h.collective then .normalEnd
  else
    match slotReading slot with
    | .busy => .busy
    | .refuse => .refuse
    | .silence => .silence
    | .none | .ack | .noDissent | .dissent => .normalEnd

/-- The effects of the normal end for the node's role (R94, R121). -/
def State.endEffects (s : State) : State :=
  match s.link.role with
  | .initiator j h => s.takeOutcome j (endOutcome h s.link.slot)
  | .target h .ack | .member h true => s.applyEffects h
  | .target _ .busy | .target _ .refuse | .member _ false | .idle | .receiving | .bystander
  | .contender _ _ => s

/-- R20: the effects, the clean count, then the end of the part. -/
def State.reachEnd (s : State) : State :=
  if s.atEnd then s.endEffects.cleanTelegram.leaveTelegram .idle else s

def execNormalEnd (s : State) : Host.Outcome State Fault Refusal :=
  s.onLink State.reachEnd

/-! ### The header (R9 to R15) -/

/-- The 48 bits of the header the node sends (R121). -/
def State.ownHeaderBits (s : State) : Option (BitVec 48) :=
  match s.link.role with
  | .contender _ h | .initiator _ h => some h.bits
  | .idle | .receiving | .bystander | .target _ _ | .member _ _ => none

/-- The contender has won (R7). -/
def State.winArbitration (s : State) : State :=
  match s.link.role with
  | .contender j h =>
    { s with
      link := { s.link with role := .initiator j h }
      initiator := { s.initiator with phase := .header } }
  | .idle | .receiving | .bystander | .initiator _ _ | .target _ _ | .member _ _ => s

/-- All 48 bits are sampled. A receiving node checks them and, in ONLINE, takes the role they give it
(R11, R79); the initiator goes on to the slot, or has met a bit error where they are not its own (R3). -/
def State.takeHeaderBits (s : State) (bits : BitVec 48) : State :=
  match s.link.role with
  | .receiving =>
    if s.link.state = .online ∧ headerCheckPasses bits ∧ s.concerns (Header.ofBits bits) then
      s.handOver (Header.ofBits bits)
    else { s with link := { s.link with role := .bystander } }
  | .initiator _ h =>
    if s.initiator.phase ≠ .header then s
    else if bits = h.bits then { s with initiator := { s.initiator with phase := .headerSlot } }
    else s.meetBitError .bystander
  | .idle | .bystander | .contender _ _ | .target _ _ | .member _ _ => s

/-- What the node drives in the next bit of the header slot: a target its answer, a dissenting member the
first bit, everyone else nothing (R14, R15, R86). -/
def State.slotDriven (s : State) : Level :=
  match s.link.role with
  | .target _ a => a.levels.getD s.link.slot.length .recessive
  | .member _ false => if s.link.slot.isEmpty then .dominant else .recessive
  | .member _ true | .idle | .receiving | .bystander | .contender _ _ | .initiator _ _ => .recessive

/-- One more header slot bit sampled. -/
def State.pushSlot (s : State) (l : Level) : State :=
  { s with link := { s.link with slot := s.link.slot ++ [l] } }

/-- The initiator samples a slot bit. The first bit of a collective slot is its answer: dominant is dissent, and
the job's last response shows the answer from then on (R15, R29, R127). After the second bit the data phase
begins where R13, R14 and R15 give one. -/
def State.readSlotBit (s : State) (j : Slot) (h : Header) (l : Level) : State :=
  let t := s.pushSlot l
  let answer := h.collective && s.link.slot.isEmpty
  let dataFollows :=
    t.link.slot.length == 2 && 0 < h.blocks &&
      (h.collective || t.link.slot == [.dominant, .dominant])
  let read := { t with initiator := { s.initiator with
      dissent := s.initiator.dissent || (answer && l == .dominant)
      phase := if dataFollows then .data else s.initiator.phase } }
  if answer then read.setJob j { s.job j with lastResponse := collectiveReading t.link.slot } else read

/-- A bit of the header slot is sampled. A target that samples another level than it drove has met a bit
error (R3, R14); a member that has dissented leaves the telegram (R15). -/
def State.takeSlotBit (s : State) (l : Level) : State :=
  if 2 ≤ s.link.slot.length then s
  else
    match s.link.role with
    | .target _ _ => if l = s.slotDriven then s.pushSlot l else s.meetBitError .bystander
    | .member _ true => s.pushSlot l
    | .member _ false => (s.pushSlot l).leaveTelegram .bystander
    | .initiator j h => if s.initiator.phase = .headerSlot then s.readSlotBit j h l else s
    | .idle | .receiving | .bystander | .contender _ _ => s

/-- The part of the header that has passed. -/
def State.takeHeaderPart (s : State) : HeaderPart → State
  | .arbitrationWon => s.winArbitration
  | .headerBits bits => s.takeHeaderBits bits
  | .slotBit l => s.takeSlotBit l

def execHeader (part : HeaderPart) (s : State) : Host.Outcome State Fault Refusal :=
  s.onLink fun s => s.takeHeaderPart part

/-! ### Blocks (R16 to R19, R90 to R92, R121) -/

/-- The node is in the data phase and has a block to come. -/
def State.inData (s : State) : Bool :=
  s.link.slot.length == 2 &&
    match s.link.role with
    | .target h a => a == .ack && decide (s.responder.blockIndex < h.blocks)
    | .member h accepts => accepts && decide (s.responder.blockIndex < h.blocks)
    | .initiator _ h => s.initiator.phase == .data && decide (s.initiator.blockIndex < h.blocks)
    | .idle | .receiving | .bystander | .contender _ _ => false

/-- What the node drives in the two bits of the slot of a block that it checks with this result: the receiver
of an individual block its answer (R17), a member its dissent (R19, R91), the sender of a block nothing. -/
def State.blockSlotDriven (s : State) (passes : Bool) : Level × Level :=
  let answer := (blockAnswer passes, blockAnswer passes)
  let nothing := (Level.recessive, Level.recessive)
  if !s.inData then nothing
  else
    match s.link.role with
    | .target h _ => if h.initiatorSends then answer else nothing
    | .initiator _ h => if h.initiatorSends then nothing else answer
    | .member _ _ => memberAnswer passes
    | .idle | .receiving | .bystander | .contender _ _ => nothing

/-- The block the node sends next, if it is the sender (R92, R121). -/
def State.blockToSend (s : State) : Option (List Byte) :=
  match s.link.role with
  | .target h .ack =>
    if h.initiatorSends then none else some (s.targetBlock h s.responder.blockIndex)
  | .initiator j h =>
    if h.initiatorSends then
      some (s.bufferBytes (s.job j) (8 * s.initiator.blockIndex)
        (h.blockLength s.initiator.blockIndex))
    else none
  | .target _ .busy | .target _ .refuse | .member _ _ | .idle | .receiving | .bystander
  | .contender _ _ => none

/-- The telegram is abandoned without a bit error: fifth NAK or a member's block dissent (R18, R19). -/
def State.abandonTelegram (s : State) (o : Attempt) : State :=
  (s.abandonPart o).leaveTelegram .bystander

/-- A NAK read by the target: its count rises, and the fifth abandons (R18, R90, R92). -/
def State.targetNak (s : State) : State :=
  let counted := { s with responder := { s.responder with nakCount := s.responder.nakCount + 1 } }
  if s.responder.nakCount + 1 < Config.nakLimit then counted
  else counted.abandonTelegram .resendExhaustion

/-- A NAK read by the initiator: the block is resent, and the fifth ends the attempt (R18, R121). -/
def State.initiatorNak (s : State) : State :=
  if s.initiator.resendCount + 1 < Config.nakLimit then
    { s with initiator := { s.initiator with resendCount := s.initiator.resendCount + 1 } }
  else s.abandonTelegram .resendExhaustion

/-- The Responder's block is delivered. -/
def State.targetAdvance (s : State) : State :=
  { s with responder := { s.responder with blockIndex := s.responder.blockIndex + 1 } }

/-- The initiator's block is delivered. -/
def State.initiatorAdvance (s : State) : State :=
  { s with initiator := { s.initiator with blockIndex := s.initiator.blockIndex + 1 } }

/-- The Responder stages a block that passed its check (R90, R91). -/
def State.stageBlock (s : State) (bytes : List Byte) : State :=
  { s.targetAdvance with responder := { s.targetAdvance.responder with
      staging := s.responder.staging ++ bytes } }

/-- The initiator places a received block in the job's buffer (R121, R122). -/
def State.placeBlock (s : State) (j : Slot) (bytes : List Byte) : State :=
  { s.initiatorAdvance with
    pool := writeBuffer (s.job j) s.pool (8 * s.initiator.blockIndex) bytes }

/-- The receiver of an individual block: it meets a bit error where a slot bit is sampled other than driven,
and otherwise stores the block or reads NAK (R3, R17, R90, R121). -/
def State.receiveBlock (s : State) (passes : Bool) (first second : Level)
    (store nak : State → State) : State :=
  if (first, second) ≠ s.blockSlotDriven passes then s.meetBitError .bystander
  else if passes then store s
  else nak s

/-- The sender of an individual block: a byte or check bit sampled other than sent is a bit error; slot 00
is ACK, everything else NAK (R3, R17). -/
def State.sendBlock (s : State) (asSent : Bool) (first second : Level)
    (advance nak : State → State) : State :=
  if !asSent then s.meetBitError .bystander
  else if first = .dominant ∧ second = .dominant then advance s
  else nak s

/-- A collective member's block: staged when it passes; otherwise the member has driven dissent in the slot
(State.blockSlotDriven), records BLOCK_CHECK and abandons (R19, R91). It checks no level of the slot. -/
def State.memberBlock (s : State) (h : Header) (passes : Bool) (bytes : List Byte) : State :=
  if passes then s.stageBlock bytes
  else (s.recordResponse .blockCheck h.initiator).abandonTelegram .resendExhaustion

/-- A collective block the node has sent once: a dominant first slot bit is dissent (R19, R121). -/
def State.sendCollective (s : State) (asSent : Bool) (first : Level) : State :=
  if !asSent then s.meetBitError .bystander
  else
    { s.initiatorAdvance with initiator := { s.initiatorAdvance.initiator with
        dissent := s.initiator.dissent || first == .dominant } }

/-- A block and its slot complete, for each role in its data phase. -/
def State.takeBlock (s : State) (data : Vector Byte 8) (check : Byte) (first second : Level) :
    State :=
  if !s.inData then s
  else
    match s.link.role with
    | .target h _ =>
      let bytes := data.toList.take (h.blockLength s.responder.blockIndex)
      if h.initiatorSends then
        s.receiveBlock (crc bytes == check) first second (·.stageBlock bytes) State.targetNak
      else
        let sent := s.targetBlock h s.responder.blockIndex
        s.sendBlock (bytes == sent && check == crc sent) first second State.targetAdvance
          State.targetNak
    | .member h _ =>
      let bytes := data.toList.take (h.blockLength s.responder.blockIndex)
      s.memberBlock h (crc bytes == check) bytes
    | .initiator j h =>
      let bytes := data.toList.take (h.blockLength s.initiator.blockIndex)
      if h.initiatorSends then
        let sent := s.bufferBytes (s.job j) (8 * s.initiator.blockIndex)
          (h.blockLength s.initiator.blockIndex)
        if h.collective then s.sendCollective (bytes == sent && check == crc sent) first
        else
          s.sendBlock (bytes == sent && check == crc sent) first second State.initiatorAdvance
            State.initiatorNak
      else
        s.receiveBlock (crc bytes == check) first second (·.placeBlock j bytes) State.initiatorNak
    | .idle | .receiving | .bystander | .contender _ _ => s

def execBlockSlot (data : Vector Byte 8) (check : Byte) (first second : Level) (s : State) :
    Host.Outcome State Fault Refusal :=
  s.onLink fun s => s.takeBlock data check first second

/-- The fifth NAK of an individual telegram comes at the next block slot (R18): four are counted. -/
def State.fifthNak (s : State) : State :=
  if !s.inData then s
  else
    match s.link.role with
    | .target _ _ => if s.responder.nakCount + 1 = Config.nakLimit then s.targetNak else s
    | .initiator _ h =>
      if !h.collective ∧ s.initiator.resendCount + 1 = Config.nakLimit then s.initiatorNak else s
    | .idle | .receiving | .bystander | .contender _ _ | .member _ _ => s

def execResendExhaustion (s : State) : Host.Outcome State Fault Refusal :=
  s.onLink State.fifthNak

/-! ### Stuck dominant (R30, R31) -/

/-- More than 16 TB of dominant level: any part in a telegram has been lost with its sync edges before
(R21, R30; log entry 16); a node that watches the line is FAULTED (R30); in FAULTED the timer is loaded
again (R31); in OFFLINE the line is not watched. -/
def State.meetStuck (s : State) : State :=
  let t := s.partLost
  match t.link.state with
  | .syncing | .online | .stopping => t.enterFaulted .stuck
  | .faulted =>
    { t with link := { t.link with dominance := .exceeded, recoveryTimer := Config.recoveryTicks } }
  | .offline => t

def execStuckDominant (s : State) : Host.Outcome State Fault Refusal :=
  s.onLink State.meetStuck

end Sys2Proof.Machine
end

