-- ==== Sys2Proof/Machine/Ticks.lean ====
section
/-!
DEFINITION. Time: the tick (R40), the shares of it that the countdowns take, the expiry rows that take one
share alone, and the local bit period of the tick generator.
-/

namespace Sys2Proof.Machine

/-- One tick of the recovery timer (R31, R32): held at 64 while the line is stuck dominant; at 0 with
auto-recover set the node enters SYNCING with cause RECOVERY. -/
def State.recoveryTick (s : State) (lineStuck : Bool) : State :=
  if s.link.state ≠ .faulted then s
  else if lineStuck then
    { s with link := { s.link with dominance := .exceeded, recoveryTimer := Config.recoveryTicks } }
  else
    let counted := { s with link := { s.link with
      dominance := .running
      recoveryTimer := s.link.recoveryTimer - 1 } }
    if s.link.recoveryTimer = 1 ∧ s.cfg.autoRecover then counted.enterSyncing .recovery else counted

/-- The share of a tick that one countdown takes. -/
def State.applyShare (s : State) (lineStuck : Bool) : TickShare → State
  | .recovery => s.recoveryTick lineStuck
  | .lease p => s.leaseTick p
  | .freshness p => s.freshnessTick p
  | .deadline j => s.deadlineTick j
  | .retry j => s.retryTick j

/-- A countdown takes its share of the coming tick once (log entry 5). -/
def State.takeShare (s : State) (lineStuck : Bool) (share : TickShare) : State :=
  if share ∈ s.ticks.taken then s
  else
    let t := s.applyShare lineStuck share
    { t with ticks := { t.ticks with taken := share :: t.ticks.taken } }

/-- Every countdown of the part. -/
def allShares : List TickShare :=
  .recovery ::
    (List.finRange 64).map .lease ++ (List.finRange 64).map .freshness ++
      (List.finRange 16).map .deadline ++ (List.finRange 16).map .retry

/-- The shares taken one after the other. -/
def State.takeShares (s : State) (lineStuck : Bool) (shares : List TickShare) : State :=
  shares.foldl (fun s share => s.takeShare lineStuck share) s

/-- The stamp advances, wrapping at FFFFh, and the phase is 0 (R40). -/
def State.advanceStamp (s : State) : State :=
  { s with ticks := { s.ticks with phase := 0, stamp := s.ticks.stamp + 1 } }

/-- The next tick's shares are all to come, and none is spared. -/
def State.clearTaken (s : State) : State := { s with ticks := { s.ticks with taken := [], spared := [] } }

/-- A tick boundary (R40): the stamp advances, and every countdown takes its share, those named first in
the order given and the others after them. -/
def State.tickBoundary (s : State) (order : List TickShare) (lineStuck : Bool) : State :=
  (s.advanceStamp.takeShares lineStuck (order ++ allShares)).clearTaken

def execTick (order : List TickShare) (lineStuck : Bool) (s : State) :
    Host.Outcome State Fault Refusal :=
  s.whenRunning fun s => s.tickBoundary order lineStuck

/-- An expiry row: its countdown takes its share of the coming tick alone, when that share is still to
come and brings the countdown to 0. -/
def State.expiryRow (s : State) (share : TickShare) (due : Bool) :
    Host.Outcome State Fault Refusal :=
  s.whenRunning fun s =>
    if due && decide (share ∉ s.ticks.taken) then s.takeShare false share else s

/-- The recovery timer's next decrease brings it to 0 (R32). -/
def State.recoveryDue (s : State) : Bool :=
  s.link.state == .faulted && s.link.recoveryTimer == 1

def execRecoveryTimerExpiry (s : State) : Host.Outcome State Fault Refusal :=
  s.expiryRow .recovery s.recoveryDue

/-- The lease of a remote claim is brought to 0 by the next tick (R69). -/
def PageEntry.leaseDue (e : PageEntry) : Bool := e.holder.remote && e.lease == 1

def execLeaseExpiry (p : Page) (s : State) : Host.Outcome State Fault Refusal :=
  s.expiryRow (.lease p) ((s.page p).leaseDue && !s.inFlight p)

def execPendingExpiry (p : Page) (s : State) : Host.Outcome State Fault Refusal :=
  s.expiryRow (.lease p) ((s.page p).leaseDue && s.inFlight p)

/-- The freshness countdown of a DEFERRED page is brought to 0 by the next tick (R57). -/
def PageEntry.freshnessDue (e : PageEntry) (f : Freshness) : Bool :=
  e.mode == .deferred && e.freshness == f && e.countdown == 1

def execRefreshWindowExpiry (p : Page) (s : State) : Host.Outcome State Fault Refusal :=
  s.expiryRow (.freshness p) ((s.page p).freshnessDue .requested)

def execFreshLifetimeExpiry (p : Page) (s : State) : Host.Outcome State Fault Refusal :=
  s.expiryRow (.freshness p) ((s.page p).freshnessDue .fresh && !s.sparesPage p)

/-- The retry countdown of a WAITING job is brought to 0 by the next tick, and the job does not expire at
it (R125, R129). -/
def State.retryDue (s : State) (j : Slot) : Bool :=
  (s.job j).state == .waiting && (s.job j).retryCountdown == 1 && !s.deadlineAhead j

def execRetryCountdownExpiry (j : Slot) (s : State) : Host.Outcome State Fault Refusal :=
  s.expiryRow (.retry j) (s.retryDue j)

def execDeadlineExpiry (j : Slot) (s : State) : Host.Outcome State Fault Refusal :=
  s.expiryRow (.deadline j) (s.job j).deadlineDue

/-- One local bit period (R40): the tick phase counts 0..1,023, and where it passes to 0 the tick boundary
occurs, the line as last observed. What a commit has spared, it spared in the period that is over (log
entry 28). The generator is held during a reset (R42). -/
def State.bitPeriod (s : State) : State :=
  if s.mode ≠ .running then s
  else if s.ticks.phase = 1023 then s.tickBoundary [] (s.link.dominance == .exceeded)
  else
    { s.momentOver with ticks := { s.momentOver.ticks with phase := s.ticks.phase + 1 } }

end Sys2Proof.Machine
end

