-- ==== Sys2Proof/Machine/Dispatch.lean ====
section
/-!
DEFINITION. One arm per command: the effect on everything but the queue.
-/

namespace Sys2Proof.Machine

def exec (i : Instr) (s : State) : Host.Outcome State Fault Refusal :=
  match i with
  | .configure => Sys2Proof.Machine.execConfigure s
  | .setGroups => Sys2Proof.Machine.execSetGroups s
  | .linkStart => Sys2Proof.Machine.execLinkStart s
  | .linkStop => Sys2Proof.Machine.execLinkStop s
  | .pageDefine => Sys2Proof.Machine.execPageDefine s
  | .pageClose => Sys2Proof.Machine.execPageClose s
  | .pageFetch => Sys2Proof.Machine.execPageFetch s
  | .pageCommit => Sys2Proof.Machine.execPageCommit s
  | .localClaim => Sys2Proof.Machine.execLocalClaim s
  | .localRelease => Sys2Proof.Machine.execLocalRelease s
  | .breakClaim => Sys2Proof.Machine.execBreakClaim s
  | .submit => Sys2Proof.Machine.execSubmit s
  | .cancel => Sys2Proof.Machine.execCancel s
  | .jobQuery => Sys2Proof.Machine.execJobQuery s
  | .jobFetch => Sys2Proof.Machine.execJobFetch s
  | .retire => Sys2Proof.Machine.execRetire s
  | .peerRead => Sys2Proof.Machine.execPeerRead s
  | .peerReset => Sys2Proof.Machine.execPeerReset s
  | .inboundDrop => Sys2Proof.Machine.execInboundDrop s
  | .badCommand => Sys2Proof.Machine.execBadCommand s
  | .statusRead => Sys2Proof.Machine.execStatusRead s
  | .resultRead => Sys2Proof.Machine.execResultRead s
  | .resultDataRead => Sys2Proof.Machine.execResultDataRead s
  | .paramWrite value => Sys2Proof.Machine.execParamWrite value s
  | .dataRead => Sys2Proof.Machine.execDataRead s
  | .dataWrite value => Sys2Proof.Machine.execDataWrite value s
  | .dataPtrWrite value => Sys2Proof.Machine.execDataPtrWrite value s
  | .completionRead => Sys2Proof.Machine.execCompletionRead s
  | .eventRead => Sys2Proof.Machine.execEventRead s
  | .inboundRead => Sys2Proof.Machine.execInboundRead s
  | .irqClear value => Sys2Proof.Machine.execIrqClear value s
  | .irqEnableWrite value => Sys2Proof.Machine.execIrqEnableWrite value s
  | .ignoredWrite address value => Sys2Proof.Machine.execIgnoredWrite address value s
  | .controllerReset value => Sys2Proof.Machine.execControllerReset value s
  | .controllerResetEnd => Sys2Proof.Machine.execControllerResetEnd s
  | .resetAsserted => Sys2Proof.Machine.execResetAsserted s
  | .powerOnResetSequence => Sys2Proof.Machine.execPowerOnResetSequence s
  | .powerOnResetEnd => Sys2Proof.Machine.execPowerOnResetEnd s
  | .enterOnline => Sys2Proof.Machine.execEnterOnline s
  | .transmitOpportunity => Sys2Proof.Machine.execTransmitOpportunity s
  | .startMarker => Sys2Proof.Machine.execStartMarker s
  | .arbitrationLost => Sys2Proof.Machine.execArbitrationLost s
  | .header part => Sys2Proof.Machine.execHeader part s
  | .blockSlot data check first second => Sys2Proof.Machine.execBlockSlot data check first second s
  | .resendExhaustion => Sys2Proof.Machine.execResendExhaustion s
  | .bitError => Sys2Proof.Machine.execBitError s
  | .lossOfSyncEdges => Sys2Proof.Machine.execLossOfSyncEdges s
  | .normalEnd => Sys2Proof.Machine.execNormalEnd s
  | .stuckDominant => Sys2Proof.Machine.execStuckDominant s
  | .recoveryTimerExpiry => Sys2Proof.Machine.execRecoveryTimerExpiry s
  | .tick order lineStuck => Sys2Proof.Machine.execTick order lineStuck s
  | .leaseExpiry p => Sys2Proof.Machine.execLeaseExpiry p s
  | .pendingExpiry p => Sys2Proof.Machine.execPendingExpiry p s
  | .refreshWindowExpiry p => Sys2Proof.Machine.execRefreshWindowExpiry p s
  | .freshLifetimeExpiry p => Sys2Proof.Machine.execFreshLifetimeExpiry p s
  | .retryCountdownExpiry j => Sys2Proof.Machine.execRetryCountdownExpiry j s
  | .deadlineExpiry j => Sys2Proof.Machine.execDeadlineExpiry j s
  | .cmdWrite code => Sys2Proof.Machine.execCmdWrite code s
  | .gapMeasurementRestart => Sys2Proof.Machine.execGapMeasurementRestart s

end Sys2Proof.Machine
end

