-- ==== Sys2Proof/Safety.lean ====
section
/-!
DEFINITION. What counts as a safe run: the laws of the manual as predicates on a state, and the relations
in which the claims are written.
-/

namespace Sys2Proof.Machine

/-! ### Laws -/

/-- The four RAMs are in canonical form. -/
def State.memoryForm (s : State) : Prop :=
  s.pageMem.wf Config.pageMemorySize = true ∧ s.inbound.ring.wf Config.ringSize = true ∧
    s.pool.wf Config.poolSize = true ∧ s.port.staging.wf Config.stagingSize = true

/-- Law 6, with the ranges of R153: at most 32 records, at most one PAGE_WRITTEN record for any page, a
write count of 1..15 on those records and 0 on the others, and a read index below 6 that is 0 while the
queue is empty. -/
structure State.eventLaw (s : State) : Prop where
  room : s.events.records.length ≤ 32
  onePerPage :
    ((s.events.records.filter fun r => r.kind == .pageWritten).map EventRecord.subject).Nodup
  writeCounts : ∀ r ∈ s.events.records,
    (r.kind = .pageWritten → 1 ≤ r.writeCount ∧ r.writeCount ≤ 15) ∧
      (r.kind ≠ .pageWritten → r.writeCount = 0)
  index : s.events.readIndex ≤ 5
  indexEmpty : s.events.records = [] → s.events.readIndex = 0

/-- Law 10, first half, with the ranges of R138: at most 32 entries with distinct addresses 1..126 and
scores of at most 100. The threshold that a score can be raised to is at most 100 (R37). -/
structure State.peerLaw (s : State) : Prop where
  room : s.peers.length ≤ 32
  distinct : (s.peers.map PeerEntry.address).Nodup
  addresses : ∀ e ∈ s.peers, e.address ≠ 0 ∧ e.address ≠ 127
  scores : ∀ e ∈ s.peers, e.score ≤ 100
  threshold : s.cfg.degradeThreshold ≤ 100

/-- The ranges of the Link Engine and of the configuration (R25, R28, R29, R31, R36, R37, R39). -/
structure State.linkLaw (s : State) : Prop where
  errors : s.link.txErrors ≤ 8
  errorsOnLink : s.link.txErrors = 8 → s.link.state = .faulted ∨ s.link.state = .offline
  timer : s.link.recoveryTimer ≤ 64
  timerStopped : s.link.state ≠ .faulted → s.link.recoveryTimer = 0
  part : s.mode = .running → s.link.role ≠ .idle →
    s.link.state = .online ∨ (s.link.state = .stopping ∧ s.link.role.hasPart = true)
  stopping : s.mode = .running → s.link.state = .stopping → s.link.role.hasPart = true
  cause : s.link.state = .syncing → s.link.cause.isSome = true
  slot : s.link.slot.length ≤ 2
  address : s.cfg.address ≠ 127
  configured : s.link.state ≠ .offline → s.cfg.address ≠ 0
  durations : 1 ≤ s.cfg.lease ∧ 1 ≤ s.cfg.busyRetry ∧ 1 ≤ s.cfg.refreshWindow
  noGroupZero : s.groups.getLsbD 0 = false

/-- The header of the telegram the Responder has accepted and not finished. -/
def Role.accepted : Role → Option Header
  | .target h .ack | .member h true => some h
  | .target _ .busy | .target _ .refuse | .member _ false | .idle | .receiving | .bystander
  | .contender _ _ | .initiator _ _ => none

/-- Law 7 and R89: the marker is the one the accepted header binds, and clear without one; there is a
reservation exactly while the marker is the inbound reservation, of 6 + length bytes; and committed plus
reserved bytes never exceed 1,024. -/
structure State.acceptLaw (s : State) : Prop where
  bound : s.mode = .running →
    s.responder.marker = ((s.link.role.accepted.map Header.marker).getD .clear)
  reserved : s.inbound.reservation.isSome = (s.responder.marker == .inbound)
  reservedHeader : s.mode = .running → ∀ r ∈ s.inbound.reservation, ∀ h ∈ s.link.role.accepted,
    r.header = h
  size : ∀ r ∈ s.inbound.reservation, r.size = 6 + r.header.length.toNat
  ring : s.inbound.committedBytes + s.inbound.reservedBytes ≤ 1024
  head : s.inbound.head < 1024

/-- Law 4 and the ranges of R44, R62: a CLOSED page holds the default entry, so it has no holder; a page in
flight is not CLOSED; a remote claim has ticks left unless its page is in flight; an OPEN page is STALE
with countdown 0. -/
structure State.pageLaw (s : State) : Prop where
  closed : ∀ p, (s.page p).mode = .closed → s.page p = .default
  flightOpen : ∀ p, s.inFlight p = true → (s.page p).mode ≠ .closed
  lease : ∀ p a, (s.page p).holder = .node a → 1 ≤ (s.page p).lease ∨ s.inFlight p = true
  noLease : ∀ p, (s.page p).holder.remote = false → (s.page p).lease = 0
  length : ∀ p, 1 ≤ (s.page p).length ∧ (s.page p).length ≤ 64
  opened : ∀ p, (s.page p).mode = .opened →
    (s.page p).freshness = .stale ∧ (s.page p).countdown = 0

/-- The slot of the job whose telegram the node is sending. -/
def Role.job : Role → Option Slot
  | .contender j _ | .initiator j _ => some j
  | .idle | .receiving | .bystander | .target _ _ | .member _ _ => none

/-- The ACTIVE job is the one whose telegram the node is sending (R112, R118, R121), and the
header it sends carries that job's fields. -/
structure State.activeLaw (s : State) : Prop where
  active : s.mode = .running → ∀ j, (s.job j).state = .active ↔ s.link.role.job = some j
  header : ∀ j h, s.link.role = .initiator j h ∨ s.link.role = .contender j h →
    h = (s.job j).header h.initiator

/-- Law 1: at most one job is ACTIVE. -/
def State.oneActive (s : State) : Prop :=
  ∀ i j, (s.job i).state = .active → (s.job j).state = .active → i = j

/-- A job the submission order list holds (R115). -/
def JobSlot.pending (job : JobSlot) : Bool :=
  job.state == .queued || job.state == .waiting || job.state == .active

/-- R115: each priority list holds exactly the QUEUED jobs of its priority, once; the submission order list
exactly the jobs that are QUEUED, WAITING or ACTIVE, once. -/
structure State.listLaw (s : State) : Prop where
  listed : ∀ pr j, j ∈ s.list pr ↔ (s.job j).state = .queued ∧ (s.job j).priority = pr
  listOnce : ∀ pr, (s.list pr).Nodup
  submitted : ∀ j, j ∈ s.submission ↔ (s.job j).pending = true
  submittedOnce : s.submission.Nodup

/-- Law 2: the completion records name distinct COMPLETE jobs with their unread flags set, and every such
job has a record. -/
structure State.completionLaw (s : State) : Prop where
  named : ∀ r ∈ s.completions.records, ∃ j, r.tag = jobTag j (s.job j).generation ∧
    (s.job j).state = .complete ∧ (s.job j).unread = true
  distinct : (s.completions.records.map fun r => tagSlot r.tag).Nodup
  recorded : ∀ j, (s.job j).state = .complete → (s.job j).unread = true →
    ∃ r ∈ s.completions.records, r.tag = jobTag j (s.job j).generation
  index : s.completions.readIndex ≤ 7
  indexEmpty : s.completions.records = [] → s.completions.readIndex = 0

/-- Law 3: the blocks of the pool belong to at most one job, once; a job that is not FREE holds exactly the
blocks it needs, a FREE slot none. -/
structure State.poolLaw (s : State) : Prop where
  apart : ∀ i j b, b ∈ (s.job i).blocks → b ∈ (s.job j).blocks → i = j
  once : ∀ j, (s.job j).blocks.Nodup
  held : ∀ j, (s.job j).state ≠ .free → (s.job j).blocks.length = (s.job j).blocksNeeded
  free : ∀ j, (s.job j).state = .free → (s.job j).blocks = []

/-- Law 9: an ORDERED job is never ACTIVE while an earlier-submitted ORDERED job with the same target is
QUEUED, WAITING or ACTIVE. -/
def State.orderedLaw (s : State) : Prop :=
  ∀ j, (s.job j).state = .active → s.heldBack j = false

/-- Law 10, second half: every QUEUED, WAITING or ACTIVE job with an individual target 1..126 has a peer
entry. -/
def State.peerReferences (s : State) : Prop :=
  ∀ j, (s.job j).pending = true → (s.job j).collective = false →
    (s.peer (s.job j).target).isSome = true

/-- The ranges of the Local Port (R164, R165, R169, R170). -/
structure State.portLaw (s : State) : Prop where
  writeIndex : s.port.writeIndex ≤ 8
  resultIndex : s.port.resultIndex ≤ s.port.resultData.length
  resultData : s.port.resultData.length ≤ 4
  dataPtr : s.port.dataPtr ≤ 64

/-! ### Relations in which claims are written -/

/-- The command with this code and these parameters is in progress (R165). -/
def State.inProgress (s : State) (code : Byte) (p : Params) : Prop :=
  s.mode = .running ∧ s.port.taken = some ⟨code, p⟩

/-- The port after a completion that leaves the staging buffer and DATA_PTR alone (R168). -/
def LocalPort.finished (port : LocalPort) (r : Result) (data : List Byte) : LocalPort :=
  { port with result := r, resultData := data, resultIndex := 0, cmdDone := true, taken := none }

/-- The completion of a command whose effects leave the state `u`: the slot's own state changes in the same
step, and nothing else (R168). -/
def completesWith (i : Instr) (s u : State) (r : Result) (data : List Byte) : Prop :=
  exec i s = .next { u with port := u.port.finished r data }

/-- The completion refuses the command: only the slot's own state changes (10.3). -/
def refusesWith (i : Instr) (s : State) (r : Result) (data : List Byte) : Prop :=
  completesWith i s s r data

/-- The completion fills the staging buffer from byte 0 on with `bytes`, and changes nothing but the slot, those
bytes and DATA_PTR (R168, R171, R172). -/
def fillsStaging (i : Instr) (s : State) (bytes : List Byte) (data : List Byte) : Prop :=
  ∃ t, exec i s = .next t ∧
    t = { s with port := { s.port.finished .ok data with staging := t.port.staging, dataPtr := 0 } } ∧
    ∀ k < 64, t.port.staging.read k = bytes.getD k (s.port.staging.read k)

/-- The state `u` once the node's part in its telegram is over and it goes on as `r`: in STOPPING it enters OFFLINE
with one LINK_STATE event, after every notice the part has left (R33, R36); otherwise it follows the telegram, or
is idle on the link and measures the gap (R20). -/
def State.partOver (u : State) (r : Role) : State :=
  if u.link.state = .stopping then
    { u with
      link := { u.link with
        state := .offline, role := .idle, slot := [], gap := .notRunning
        dominance := .notRunning, recoveryTimer := 0 }
      events := u.events.post
        ⟨.linkState, LinkState.offline.code, u.cfg.address.setWidth 8, Cause.telegramEnd.code⟩
        u.ticks.stamp }
  else if r = .idle then
    { u with link := { u.link with role := .idle, slot := [], gap := .running } }
  else { u with link := { u.link with role := r } }

/-- Every law of the manual, and the ranges the model adds to them. -/
structure State.laws (s : State) : Prop where
  memory : s.memoryForm
  events : s.eventLaw
  peers : s.peerLaw
  link : s.linkLaw
  accept : s.acceptLaw
  pages : s.pageLaw
  active : s.activeLaw
  one : s.oneActive
  lists : s.listLaw
  completions : s.completionLaw
  pool : s.poolLaw
  ordered : s.orderedLaw
  references : s.peerReferences
  port : s.portLaw

end Sys2Proof.Machine
end

