-- ==== Sys2Proof/Certificates/Slice0/Obligations.lean ====
section
/-!
DEFINITION. The claims about the T48, as propositions. A claim about the result of a command gives the whole next
state: what is written, and through the record update everything that is not.
-/

open Sys2Proof Sys2Proof.Machine

/-! ### The step -/

/-- A step is the command at the front of the queue, on the state with the queue's rest. -/
def Obligations.StepTakesTheFront : Prop :=
  ∀ c rest s, s.pending = c :: rest → step s = exec c { s with pending := rest }

/-- With nothing pending a step is one local bit period (the model's choice, log entry 4): the tick phase
advances (and what a commit has spared is over, log entry 28), and where it passes from 1,023 to 0 the step is a
TICK, the line as last observed, in the default order of its shares (R40). The generator is held in a reset. -/
def Obligations.IdleStepIsOneBitPeriod : Prop :=
  ∀ s : State, s.pending = [] →
    (s.mode ≠ .running → step s = .next s) ∧
    (s.mode = .running → s.ticks.phase ≠ 1023 →
      step s = .next { s with ticks := { s.ticks with phase := s.ticks.phase + 1, spared := [] } }) ∧
    (s.mode = .running → s.ticks.phase = 1023 →
      step s = exec (.tick [] (s.link.dominance == .exceeded)) s ∧
      ∃ t, step s = .next t ∧ t.ticks.phase = 0 ∧ t.ticks.stamp = s.ticks.stamp + 1)

/-- Every command answers a next state, in every state, and none touches the queue. Where the moment of a row has
not come that state is the one before, by the model's choice (log entry 1; the model's own list of spared pages
apart, log entry 28). The part has no state in which it
stops (00_scope.md 2.2). -/
def Obligations.EveryCommandHasANextState : Prop :=
  ∀ c s, ∃ t, exec c s = .next t ∧ t.pending = s.pending

/-! ### Reset -/

/-- The state the power-on reset sequence leaves, the entry of every page spelled out (R44; R42, R60, R100, R111,
R137, R149, R162, R178). -/
def Obligations.ResetLeavesTheStartingState : Prop :=
  let s := State.reset
  (s.mode = .running ∧ s.link.state = .offline ∧ s.link.role = .idle ∧ s.link.txErrors = 0 ∧
    s.link.recoveryTimer = 0 ∧ s.link.cause = none ∧ s.link.gap = .notRunning ∧
    s.link.dominance = .notRunning ∧ s.groups = 0 ∧ s.ticks.phase = 0 ∧ s.ticks.stamp = 0) ∧
  (s.cfg.address = 0 ∧ s.cfg.grade = .b ∧ s.cfg.lease = 16 ∧ s.cfg.busyRetry = 2 ∧
    s.cfg.refreshWindow = 8 ∧ s.cfg.degradeThreshold = 60 ∧ s.cfg.unreachableThreshold = 20 ∧
    s.cfg.autoRecover = false ∧ s.cfg.acceptMessages = true) ∧
  ((∀ p, s.page p =
      { mode := .closed, length := 64, access := .readWrite, allowed := 0, claimable := false, lifetime := 0
        sequence := 0, freshness := .stale, countdown := 0, holder := .none, lease := 0 }) ∧
    (∀ a, s.pageMem.read a = 0) ∧ s.openPages = 0) ∧
  (s.responder.marker = .clear ∧ s.responder.staging = [] ∧ s.responder.blockIndex = 0 ∧
    s.responder.nakCount = 0 ∧ s.responder.snapshot = none ∧ s.responder.lastReason = .empty ∧
    s.responder.lastInitiator = 0) ∧
  (s.inbound.head = 0 ∧ s.inbound.committedBytes = 0 ∧ s.inbound.committedRecords = 0 ∧
    s.inbound.reservation = none ∧ s.inbound.readIndex = 0) ∧
  ((∀ j, (s.job j).state = .free ∧ (s.job j).generation = 0) ∧ s.freeBlocks.length = 64 ∧
    (∀ pr, s.list pr = []) ∧ s.submission = [] ∧ s.initiator.phase = .ended ∧ s.initiator.blockIndex = 0 ∧
    s.initiator.resendCount = 0 ∧ s.peers = []) ∧
  (s.completions = ⟨[], 0⟩ ∧ s.events = ⟨[], 0, false⟩ ∧ s.port.cmdDone = false ∧
    s.port.irqEnable = 0 ∧ s.irqLow = false) ∧
  ((∀ k : Fin 8, s.port.params[k] = 0) ∧ s.port.writeIndex = 0 ∧ s.cmdBusy = false ∧
    s.port.reject = false ∧ s.port.taken = none ∧ s.port.result = .ok ∧ s.port.resultData = [] ∧
    s.port.resultIndex = 0 ∧ (∀ k, s.port.staging.read k = 0) ∧ s.port.dataPtr = 0)

/-- Every law holds in the reset state. -/
def Obligations.LawsHoldAtReset : Prop := State.reset.laws

/-! ### The laws, kept by every step -/

/-- The four RAMs keep their canonical form, so equal memories are equal data. The ranges of the command slot
and of DATA_PTR. -/
def Obligations.FormsAndRangesKept : Prop :=
  (∀ s t, s.memoryForm → step s = .next t → t.memoryForm) ∧
  (∀ s t, s.portLaw → step s = .next t → t.portLaw)

/-- Law 6 (R155) and the ranges of the event queue. -/
def Obligations.EventLawKept : Prop :=
  ∀ s t, s.eventLaw → step s = .next t → t.eventLaw

/-- Law 10, first half, and the ranges of the peer table. Law 10, second half: no entry that a pending job needs
is evicted. -/
def Obligations.PeerTableLawKept : Prop :=
  (∀ s t, s.peerLaw → step s = .next t → t.peerLaw) ∧
  (∀ s t, s.activeLaw → s.listLaw → s.peerReferences → step s = .next t → t.peerReferences)

/-- The ranges of the Link Engine: what each link state allows the node to be in. -/
def Obligations.LinkLawKept : Prop :=
  ∀ s t, s.linkLaw → step s = .next t → t.linkLaw

/-- Law 7 and R89: the marker, the reservation and the ring's accounting. -/
def Obligations.AcceptLawKept : Prop :=
  ∀ s t, s.linkLaw → s.acceptLaw → step s = .next t → t.acceptLaw

/-- Law 4 and the ranges of a page entry. The default entry of a CLOSED page is R44's, which the claim on the reset
state gives field by field. -/
def Obligations.PageLawKept : Prop :=
  ∀ s t, s.linkLaw → s.acceptLaw → s.pageLaw → step s = .next t → t.pageLaw

/-- The ACTIVE job is the one whose telegram the node is sending. Law 1: at most one job is ACTIVE. -/
def Obligations.ActiveJobLawKept : Prop :=
  (∀ s t, s.linkLaw → s.activeLaw → step s = .next t → t.activeLaw) ∧
  (∀ s t, s.linkLaw → s.activeLaw → s.oneActive → step s = .next t → t.oneActive)

/-- R115: what the priority lists and the submission order list hold. Law 9: an ORDERED job is not ACTIVE before
its elders. -/
def Obligations.JobListLawsKept : Prop :=
  (∀ s t, s.activeLaw → s.listLaw → step s = .next t → t.listLaw) ∧
  (∀ s t, s.activeLaw → s.listLaw → s.orderedLaw → step s = .next t → t.orderedLaw)

/-- Law 2: completion records and unread COMPLETE jobs. Law 3: the pool's blocks. -/
def Obligations.CompletionAndPoolLawsKept : Prop :=
  (∀ s t, s.activeLaw → s.listLaw → s.completionLaw → step s = .next t → t.completionLaw) ∧
  (∀ s t, s.activeLaw → s.listLaw → s.poolLaw → step s = .next t → t.poolLaw)

/-- Law 12: a page that stays in flight keeps its mode, length, access, allowed initiator and holder. R51,
R89: a page is in flight exactly while the in-flight marker is that page. -/
def Obligations.InFlightPageKeepsItsEntry : Prop :=
  (∀ s t p, s.inFlight p = true → (s.page p).mode ≠ .closed → step s = .next t → t.inFlight p = true →
    (t.page p).mode = (s.page p).mode ∧ (t.page p).length = (s.page p).length ∧
      (t.page p).access = (s.page p).access ∧ (t.page p).allowed = (s.page p).allowed ∧
      (t.page p).holder = (s.page p).holder) ∧
  ∀ (s : State) (p : Page), s.inFlight p = true ↔ s.responder.marker = .page p

/-- R43: page memory changes at a taken commit, at a normal end and in the power-on reset sequence only. -/
def Obligations.PageMemoryHasThreeWriters : Prop :=
  ∀ s t, step s = .next t → t.pageMem ≠ s.pageMem →
    ∃ rest, s.pending = .pageCommit :: rest ∨ s.pending = .normalEnd :: rest ∨
      s.pending = .powerOnResetEnd :: rest

/-- Law 8: a collective job whose header slot has been sampled never returns to QUEUED or WAITING; while it is
ACTIVE its telegram goes on with the slot sampled. And a job that is COMPLETE stays as it is, its unread mark apart,
over every step until a RETIRE or a reset frees its slot (R132, R135, R137). -/
def Obligations.CollectiveJobIsNotSentAgain : Prop :=
  (∀ s t j h, s.linkLaw → s.activeLaw → s.mode = .running → s.link.role = .initiator j h →
    (s.job j).collective = true → s.link.slot ≠ [] → step s = .next t →
    ((t.job j).state = .complete ∨ (t.job j).state = .free ∨
      (t.job j).state = .active ∧
        (t.mode = .running → t.link.role = .initiator j h ∧ t.link.slot ≠ []))) ∧
  ∀ s t j, s.activeLaw → s.listLaw → (s.job j).state = .complete → step s = .next t →
    t.job j = s.job j ∨ t.job j = { s.job j with unread := false } ∨
      (t.job j).state = .free ∧ ∃ c rest, s.pending = c :: rest ∧
        c ∈ [.retire, .controllerResetEnd, .resetAsserted, .powerOnResetEnd]

/-- Section 2.12: outside a reset the link state changes only as the transition summary says. -/
def Obligations.LinkStateMovesByTheTable : Prop :=
  ∀ s t, s.linkLaw → s.mode = .running → step s = .next t → t.mode = .running →
    t.link.state = s.link.state ∨
      (s.link.state, t.link.state) ∈
        [(.offline, .syncing), (.syncing, .online), (.syncing, .offline), (.syncing, .faulted),
          (.online, .offline), (.online, .stopping), (.online, .faulted), (.stopping, .offline),
          (.stopping, .faulted), (.faulted, .syncing), (.faulted, .offline)]

/-! ### The command slot (chapter 10) -/

/-- R164: PARAM fills the array from the write index on, whether CMD_BUSY is 0 or 1, and stops when it is full.
R165: CMD takes a command with a copy of the array while the slot is free, and is discarded with CMD_REJECT
while it is not. -/
def Obligations.ParamAndCmdWrites : Prop :=
  (∀ (v : Byte) (s : State), s.mode = .running →
      (∀ h : s.port.writeIndex < 8, exec (.paramWrite v) s = .next { s with port := { s.port with
        params := s.port.params.set s.port.writeIndex v, writeIndex := s.port.writeIndex + 1 } }) ∧
      (8 ≤ s.port.writeIndex → exec (.paramWrite v) s = .next s)) ∧
  (∀ (code : Byte) (s : State), s.mode = .running →
      (s.cmdBusy = false → exec (.cmdWrite code) s = .next { s with port := { s.port with
        taken := some ⟨code, s.port.params⟩, writeIndex := 0 } }) ∧
      (s.cmdBusy = true → exec (.cmdWrite code) s = .next { s with port := { s.port with
        reject := true } }))

/-- R167, 12.4: a code outside the nineteen commands completes with BAD_COMMAND. R168: the row of a command's code
completes it, and BAD_COMMAND's row completes any other code; whatever the command, its completion leaves the slot free,
the latch set, the read index at 0 and at most four bytes of RESULT_DATA. -/
def Obligations.TakenCommandsComplete : Prop :=
  let rows : List (Byte × Instr) :=
    [(0x01, .configure), (0x02, .setGroups), (0x03, .linkStart), (0x04, .linkStop), (0x10, .pageDefine),
      (0x11, .pageClose), (0x12, .pageFetch), (0x13, .pageCommit), (0x18, .localClaim), (0x19, .localRelease),
      (0x1A, .breakClaim), (0x20, .submit), (0x21, .cancel), (0x22, .jobQuery), (0x23, .jobFetch), (0x24, .retire),
      (0x28, .peerRead), (0x29, .peerReset), (0x30, .inboundDrop)]
  ∀ s code p, s.inProgress code p →
    (code ∉ rows.map Prod.fst → refusesWith .badCommand s .badCommand []) ∧
    ∀ i, (code, i) ∈ rows ∨ (code ∉ rows.map Prod.fst ∧ i = .badCommand) →
      ∃ t, exec i s = .next t ∧ t.cmdBusy = false ∧ t.port.taken = none ∧ t.port.cmdDone = true ∧
        t.port.resultIndex = 0 ∧ t.port.resultData.length ≤ 4

/-- R169, R160: RESULT returns the result code, clears the latch and turns the read index back; RESULT_DATA
returns its bytes one by one, then 00h. 12.5: the result codes. -/
def Obligations.ResultPortsReadTheOutcome : Prop :=
  ∀ s : State, s.mode = .running →
    exec .resultRead s = .next { s with
      lastRead := some s.port.result.code
      port := { s.port with cmdDone := false, resultIndex := 0 } } ∧
    (∀ h : s.port.resultIndex < s.port.resultData.length,
      exec .resultDataRead s = .next { s with
        lastRead := some s.port.resultData[s.port.resultIndex]
        port := { s.port with resultIndex := s.port.resultIndex + 1 } }) ∧
    (s.port.resultData.length ≤ s.port.resultIndex →
      exec .resultDataRead s = .next { s with lastRead := some 0 }) ∧
    [Result.ok, .badCommand, .badParam, .notConfigured, .linkState, .noSlot, .noBuffer, .unknownTag, .jobState,
      .jobUnseen, .cancelPending, .pageClosed, .pageOpen, .pageBusy, .pageClaimed, .conflict, .notHolder,
      .noEntry, .storeEmpty].map Result.code =
      [0x00, 0x01, 0x02, 0x03, 0x04, 0x05, 0x06, 0x07, 0x08, 0x09, 0x0A, 0x0B, 0x0C, 0x0D, 0x0E, 0x0F, 0x10, 0x11,
        0x12]

/-- R170: DATA moves bytes at DATA_PTR while no command is in progress and the pointer is below 64; otherwise a
read returns 00h, a write is discarded, and nothing moves. R171: DATA_PTR is set to the byte written, or to 64;
not while a command is in progress. A read shows it. -/
def Obligations.DataAndDataPtr : Prop :=
  (∀ (v : Byte) (s : State), s.mode = .running → s.memoryForm →
      (s.cmdBusy = false → s.port.dataPtr < 64 →
        exec .dataRead s = .next { s with
          lastRead := some (s.port.staging.read s.port.dataPtr)
          port := { s.port with dataPtr := s.port.dataPtr + 1 } } ∧
        ∃ m, exec (.dataWrite v) s = .next { s with
            port := { s.port with staging := m, dataPtr := s.port.dataPtr + 1 } } ∧
          ∀ k, m.read k = if k = s.port.dataPtr then v else s.port.staging.read k) ∧
      (s.cmdBusy = true ∨ 64 ≤ s.port.dataPtr →
        exec .dataRead s = .next { s with lastRead := some 0 } ∧ exec (.dataWrite v) s = .next s)) ∧
  (∀ (v : Byte) (s : State), s.mode = .running →
      (s.cmdBusy = false → v.toNat < 64 →
        exec (.dataPtrWrite v) s = .next { s with port := { s.port with dataPtr := v.toNat } }) ∧
      (s.cmdBusy = false → 64 ≤ v.toNat →
        exec (.dataPtrWrite v) s = .next { s with port := { s.port with dataPtr := 64 } }) ∧
      (s.cmdBusy = true → exec (.dataPtrWrite v) s = .next s) ∧
      s.readRegister 4 = some (byte s.port.dataPtr))

/-- R173: STATUS shows CMD_BUSY, CMD_REJECT and CMD_DONE in bits 0, 1 and 2, and its read clears CMD_REJECT. R174,
R163, R179: what the state registers LINK, JOB_FREE, POOL_FREE and the three counts show, LINK bit 3 as 0, and the
link state codes of 12.3; reading them changes nothing, so they have no row. R163, R173: a write to an address
without a write column changes nothing; nor does a CONTROL write with the reset bit clear. -/
def Obligations.StatusAndStateRegisters : Prop :=
  (∀ s : State, s.mode = .running →
      ∃ b : Byte, exec .statusRead s = .next { s with
          lastRead := some b, port := { s.port with reject := false } } ∧
        b.getLsbD 0 = s.cmdBusy ∧ (s.cmdBusy = true ↔ s.port.taken ≠ none) ∧
        b.getLsbD 1 = s.port.reject ∧ b.getLsbD 2 = s.port.cmdDone ∧
        b.extractLsb' 3 5 = 0) ∧
  (∀ s : State, s.mode = .running → s.link.txErrors ≤ 8 →
      (∃ b : Byte, s.readRegister 0xA = some b ∧ b.extractLsb' 0 3 = s.link.state.code.extractLsb' 0 3 ∧
        b.getLsbD 3 = false ∧ (b.extractLsb' 4 4).toNat = s.link.txErrors) ∧
      s.readRegister 0xB = some (byte s.freeSlots.length) ∧
      s.readRegister 0xC = some (byte s.freeBlocks.length) ∧
      s.readRegister 0xD = some (byte s.completions.records.length) ∧
      s.readRegister 0xE = some (byte s.events.records.length) ∧
      s.readRegister 0xF = some (byte s.inbound.committedRecords)) ∧
  (∀ a : BitVec 4, readOnlyAddress a = true ↔ a.toNat ∈ [5, 6, 7, 10, 11, 12, 13, 14, 15]) ∧
  (∀ s : State, (∀ a v, readOnlyAddress a = true → exec (.ignoredWrite a v) s = .next s) ∧
      ∀ v : Byte, v.getLsbD 0 = false → exec (.controllerReset v) s = .next s) ∧
  [LinkState.offline, .syncing, .online, .stopping, .faulted].map LinkState.code = [0, 1, 2, 3, 4]

/-! ### Completions, events and the interrupt line (chapter 9) -/

/-- R151: COMPLETION returns the head record byte by byte; the eighth byte pops the record and clears the unread
flag of the job it names. R157: EVENT returns the head record byte by byte; the sixth byte pops it. 12.6, 12.7: the
eight and the six bytes of a record, and the codes they carry. -/
def Obligations.CompletionAndEventPorts : Prop :=
  (∀ s : State, s.mode = .running → s.completions.readIndex ≤ 7 →
      (s.completions.records = [] → exec .completionRead s = .next { s with lastRead := some 0 }) ∧
      ∀ r rest, s.completions.records = r :: rest →
        (s.completions.readIndex < 7 → exec .completionRead s = .next { s with
          lastRead := r.bytes[s.completions.readIndex]?
          completions := { s.completions with readIndex := s.completions.readIndex + 1 } }) ∧
        (s.completions.readIndex = 7 → ∃ t, exec .completionRead s = .next t ∧
          t = { s with
            lastRead := some (r.stamp.extractLsb' 0 8), completions := ⟨rest, 0⟩, jobs := t.jobs } ∧
          ∀ j, t.job j =
            if j = tagSlot r.tag then { s.job j with unread := false } else s.job j)) ∧
  (∀ s : State, s.mode = .running → s.events.readIndex ≤ 5 →
      (s.events.records = [] → exec .eventRead s = .next { s with lastRead := some 0 }) ∧
      ∀ r rest, s.events.records = r :: rest →
        (s.events.readIndex < 5 → exec .eventRead s = .next { s with
          lastRead := r.bytes[s.events.readIndex]?
          events := { s.events with readIndex := s.events.readIndex + 1 } }) ∧
        (s.events.readIndex = 5 → exec .eventRead s = .next { s with
          lastRead := some (r.stamp.extractLsb' 0 8)
          events := { s.events with records := rest, readIndex := 0 } })) ∧
  (∀ r : CompletionRecord, r.bytes = [r.tag, r.result.code, byte r.attempts, byte r.bytesDone,
      byte r.busyResponses, r.lastResponse.code, r.stamp.extractLsb' 8 8, r.stamp.extractLsb' 0 8]) ∧
  (∀ r : EventRecord, r.writeCount ≤ 15 → ∃ b : Byte,
      r.bytes = [b, r.subject, r.node, r.detail, r.stamp.extractLsb' 8 8, r.stamp.extractLsb' 0 8] ∧
      b.getLsbD 7 = r.lost ∧ (b.extractLsb' 3 4).toNat = r.writeCount ∧
      (b.extractLsb' 0 3).toNat = r.kind.code.toNat) ∧
  [EventKind.pageWritten, .claimTaken, .claimReleased, .claimExpired, .refreshRequest, .peerState,
      .linkState].map EventKind.code = [1, 2, 3, 4, 5, 6, 7] ∧
  [JobResult.none, .done, .dissent, .refused, .noResponse, .checkFailed, .busyExhausted, .arbExhausted,
      .peerUnreachable, .cancelled, .expired].map JobResult.code = [0, 1, 2, 3, 4, 5, 6, 7, 8, 9, 10] ∧
  [LastResponse.none, .ack, .busy, .refuse, .silence, .noDissent, .dissent].map LastResponse.code =
    [0, 1, 2, 3, 4, 5, 6]

/-- R154 to R156: a notice coalesces with the unread PAGE_WRITTEN record of its page, or is stored with the LOST
marker owed, or is discarded and LOST-pending set. -/
def Obligations.NoticesAreCoalescedStoredOrLost : Prop :=
  ∀ (u : EventUnit) (n : Notice) (stamp : Stamp),
    (∀ pre r post, n.kind = .pageWritten → u.records = pre ++ r :: post →
      r.kind = .pageWritten → r.subject = n.subject →
      (∀ x ∈ pre ++ post, ¬(x.kind = .pageWritten ∧ x.subject = n.subject)) →
      u.post n stamp = { u with records := pre ++ { r with
        node := n.node, detail := n.detail, writeCount := min 15 (r.writeCount + 1),
        stamp := stamp } :: post }) ∧
    ((∀ r ∈ u.records, ¬(n.kind = .pageWritten ∧ r.kind = .pageWritten ∧ r.subject = n.subject)) →
      (u.records.length < 32 → u.post n stamp = { u with
        records := u.records ++ [{
          kind := n.kind, lost := u.lostPending,
          writeCount := if n.kind = .pageWritten then 1 else 0,
          subject := n.subject, node := n.node, detail := n.detail, stamp := stamp }]
        lostPending := false }) ∧
      (32 ≤ u.records.length → u.post n stamp = { u with lostPending := true }))

/-- R159, R161: IRQ# is low while a source is active and enabled; the sources are the latch and the three queues
that are not empty; IRQ_STATUS (8h) shows the four, IRQ_ENABLE (9h) the enables, bits 7 to 4 as 0 (R179). IRQ_ENABLE
is replaced whole. R160: IRQ_CLEAR clears the CMD_DONE latch when it names it, and nothing else. -/
def Obligations.InterruptLineAndLatch : Prop :=
  (∀ s : State, s.mode = .running →
      (s.irqLow = true ↔
        (s.port.irqEnable.getLsbD 0 = true ∧ s.port.cmdDone = true) ∨
        (s.port.irqEnable.getLsbD 1 = true ∧ s.completions.records ≠ []) ∨
        (s.port.irqEnable.getLsbD 2 = true ∧ s.events.records ≠ []) ∨
        (s.port.irqEnable.getLsbD 3 = true ∧ 1 ≤ s.inbound.committedRecords)) ∧
      (∃ b : Byte, s.readRegister 8 = some b ∧ (b.getLsbD 0 = true ↔ s.port.cmdDone = true) ∧
        (b.getLsbD 1 = true ↔ s.completions.records ≠ []) ∧
        (b.getLsbD 2 = true ↔ s.events.records ≠ []) ∧
        (b.getLsbD 3 = true ↔ 1 ≤ s.inbound.committedRecords) ∧ b.extractLsb' 4 4 = 0) ∧
      (∃ b : Byte, s.readRegister 9 = some b ∧ b.extractLsb' 0 4 = s.port.irqEnable ∧
        b.extractLsb' 4 4 = 0) ∧
      ∀ v : Byte, exec (.irqEnableWrite v) s = .next { s with port := { s.port with
        irqEnable := v.extractLsb' 0 4 } }) ∧
  (∀ (v : Byte) (s : State), s.mode = .running →
      (v.getLsbD 0 = true →
        exec (.irqClear v) s = .next { s with port := { s.port with cmdDone := false } }) ∧
      (v.getLsbD 0 = false → exec (.irqClear v) s = .next s))

/-! ### Resets (sections 10.6 and 10.7) -/

/-- R175, R177: during a reset STATUS shows RESETTING alone and every other register 00h, and nothing while
RESET# is low; a read of a row's address returns that and changes nothing, writes change nothing, and IRQ# is
released. -/
def Obligations.WindowDuringAReset : Prop :=
  ∀ s : State, s.mode ≠ .running →
    s.irqLow = false ∧
    (s.mode = .held → ∀ a, s.readRegister a = none) ∧
    (s.mode ≠ .held → s.readRegister 0 = some 0x80 ∧ ∀ a, a ≠ 0 → s.readRegister a = some 0) ∧
    (∀ i a, (i, a) ∈ [(Instr.statusRead, (0 : BitVec 4)), (.resultRead, 1), (.resultDataRead, 2),
        (.dataRead, 3), (.completionRead, 5), (.eventRead, 6), (.inboundRead, 7)] →
      exec i s = .next { s with lastRead := s.readRegister a }) ∧
    ∀ v code, ∀ i ∈ [Instr.paramWrite v, .dataWrite v, .dataPtrWrite v, .irqClear v,
        .irqEnableWrite v, .cmdWrite code, .controllerReset v],
      exec i s = .next s

/-- R175, R176, R42: a controller reset begins at the CONTROL write: the line is released, the telegram dropped
unreported, the command in progress discarded. R175, R61: at the end of a controller reset every block but page
memory is in its reset state. The model's choices in it: the other blocks keep their state until the end (log entry
19), the bytes of pool and ring are 00h (log entry 12), and a FREE slot's job fields and the dissent mark hold the
values of log entry 24. -/
def Obligations.ControllerReset : Prop :=
  (∀ (v : Byte) (s : State), v.getLsbD 0 = true → s.mode = .running →
      exec (.controllerReset v) s = .next { s with
        mode := .controller
        link := { s.link with role := .idle, slot := [] }
        port := { s.port with taken := none } }) ∧
  (∀ s : State, s.mode = .controller → exec .controllerResetEnd s = .next { State.reset with
      pending := s.pending, lastRead := s.lastRead, pageMem := s.pageMem })

/-- R177, R60: RESET# low holds every block in reset, in any state; its return starts the sequence, and the end
of the sequence leaves the state of a controller reset with page memory zero. The model's choices in it: the blocks
are in their reset state at once and page memory is zeroed at the end (log entry 19), the bytes of pool and ring are
00h (log entry 12), and a FREE slot's job fields and the dissent mark hold the values of log entry 24. -/
def Obligations.PowerOnReset : Prop :=
  ∀ s : State,
    (∃ t, exec .resetAsserted s = .next t ∧ t.mode = .held ∧
      { t with mode := .running, pageMem := [] } =
        { State.reset with pending := s.pending, lastRead := s.lastRead }) ∧
    (s.mode = .held → exec .powerOnResetSequence s = .next { s with mode := .powerOn }) ∧
    (s.mode = .powerOn → exec .powerOnResetEnd s = .next { State.reset with
      pending := s.pending, lastRead := s.lastRead })

/-! ### Node configuration and link commands (chapter 2) -/

/-- R37: CONFIGURE replaces the whole configuration in OFFLINE when bytes 0 to 6 are in range, and changes
nothing otherwise. R39: SET_GROUPS replaces the membership set, groups 31 to 24 in its first byte, group 0
clear, in every link state. 12.3: the grade codes. -/
def Obligations.NodeConfiguration : Prop :=
  (∀ (s : State) (p : Params), s.inProgress 0x01 p →
      let inRange := 1 ≤ p[0].toNat ∧ p[0].toNat ≤ 126 ∧ p[1].toNat ≤ 3 ∧ 1 ≤ p[2].toNat ∧
        1 ≤ p[3].toNat ∧ 1 ≤ p[4].toNat ∧ 1 ≤ p[5].toNat ∧ p[5].toNat ≤ 100 ∧
        p[6].toNat < p[5].toNat;
      (s.link.state ≠ .offline → refusesWith .configure s .linkState []) ∧
      (s.link.state = .offline → ¬inRange → refusesWith .configure s .badParam []) ∧
      (s.link.state = .offline → inRange → ∃ c : NodeConfig,
        completesWith .configure s { s with cfg := c } .ok [] ∧
        c.address.toNat = p[0].toNat ∧ Grade.ofCode p[1] = some c.grade ∧ c.lease = p[2].toNat ∧
        c.busyRetry = p[3].toNat ∧ c.refreshWindow = p[4].toNat ∧ c.degradeThreshold = p[5].toNat ∧
        c.unreachableThreshold = p[6].toNat ∧ c.autoRecover = p[7].getLsbD 0 ∧
        c.acceptMessages = p[7].getLsbD 1)) ∧
  (∀ (s : State) (p : Params), s.inProgress 0x02 p →
      ∃ g : BitVec 32, completesWith .setGroups s { s with groups := g } .ok [] ∧ g.getLsbD 0 = false ∧
        ∀ k < 8, (k ≠ 0 → g.getLsbD k = p[3].getLsbD k) ∧ g.getLsbD (8 + k) = p[2].getLsbD k ∧
          g.getLsbD (16 + k) = p[1].getLsbD k ∧ g.getLsbD (24 + k) = p[0].getLsbD k) ∧
  ([0, 1, 2, 3] : List Byte).map Grade.ofCode = [some .a, some .b, some .c, some .d]

/-- R34: LINK_START by link state; entry into SYNCING clears the count, stops the timer, starts the gap and
posts one LINK_STATE event with cause COMMAND (R26, R33). R35: LINK_STOP by link state and part; the count keeps
its value, the part goes on in STOPPING. 12.3: the cause codes. R25: which
roles have a part in a telegram. -/
def Obligations.LinkCommands : Prop :=
  (∀ (s : State) (p : Params), s.inProgress 0x03 p →
      (s.cfg.address = 0 → refusesWith .linkStart s .notConfigured []) ∧
      (s.cfg.address ≠ 0 → s.link.state = .stopping → refusesWith .linkStart s .linkState []) ∧
      (s.cfg.address ≠ 0 → s.link.state = .syncing ∨ s.link.state = .online →
        completesWith .linkStart s s .ok []) ∧
      (s.cfg.address ≠ 0 → s.link.state = .offline ∨ s.link.state = .faulted →
        completesWith .linkStart s
          { s with
            link := ⟨.syncing, .idle, [], .running, .running, 0, 0, some .command⟩
            events := s.events.post
              ⟨.linkState, LinkState.syncing.code, s.cfg.address.setWidth 8, Cause.command.code⟩
              s.ticks.stamp } .ok [])) ∧
  (∀ (s : State) (p : Params), s.inProgress 0x04 p →
      (s.link.state = .offline ∨ s.link.state = .stopping → completesWith .linkStop s s .ok []) ∧
      (s.link.state = .online → s.link.role.hasPart = true →
        completesWith .linkStop s
          { s with
            link := { s.link with state := .stopping }
            events := s.events.post
              ⟨.linkState, LinkState.stopping.code, s.cfg.address.setWidth 8, Cause.command.code⟩
              s.ticks.stamp } .ok []) ∧
      (s.link.state = .syncing ∨ s.link.state = .faulted ∨
          s.link.state = .online ∧ s.link.role.hasPart = false →
        completesWith .linkStop s
          { s with
            link := { s.link with
              state := .offline, role := .idle, slot := [], gap := .notRunning
              dominance := .notRunning, recoveryTimer := 0 }
            events := s.events.post
              ⟨.linkState, LinkState.offline.code, s.cfg.address.setWidth 8, Cause.command.code⟩
              s.ticks.stamp } .ok [])) ∧
  [Cause.command, .bitErrors, .stuck, .recovery, .telegramEnd].map Cause.code = [1, 2, 3, 4, 5] ∧
  (∀ j h a accepts, (Role.contender j h).hasPart = true ∧ (Role.initiator j h).hasPart = true ∧
    (Role.target h a).hasPart = true ∧ (Role.member h accepts).hasPart = true) ∧
  Role.idle.hasPart = false ∧ Role.receiving.hasPart = false ∧ Role.bystander.hasPart = false

/-! ### Page commands (chapter 3) -/

/-- R46, 12.4: PAGE_DEFINE opens a CLOSED page with the definition given, and leaves its bytes. 12.3: the
mode and access codes. -/
def Obligations.PageDefineOpensAClosedPage : Prop :=
  (∀ (s : State) (p : Params), s.inProgress 0x10 p →
    let legal := p[0].toNat < 64 ∧ (p[1].toNat = 1 ∨ p[1].toNat = 2) ∧ 1 ≤ p[2].toNat ∧
      p[2].toNat ≤ 64 ∧ (1 ≤ p[3].toNat ∧ p[3].toNat ≤ 3) ∧ p[4].toNat ≤ 126 ∧
      ¬(p[1].toNat = 2 ∧ p[3].toNat = 2)
    (¬legal → refusesWith .pageDefine s .badParam []) ∧
    (legal → ∀ pg : Page, pg.val = p[0].toNat →
      ((s.page pg).mode ≠ .closed → refusesWith .pageDefine s .pageOpen []) ∧
      ((s.page pg).mode = .closed → ∃ e : PageEntry,
        completesWith .pageDefine s { s with pages := s.pages.set pg e } .ok [] ∧
        PageMode.ofCode p[1] = some e.mode ∧ e.length = p[2].toNat ∧
        Access.ofCode p[3] = some e.access ∧ e.allowed.toNat = p[4].toNat ∧
        e.claimable = p[5].getLsbD 0 ∧
        e.lifetime = (if e.mode = .deferred then p[6].toNat else 0) ∧ e.sequence = 0 ∧
        e.freshness = .stale ∧ e.countdown = 0 ∧ e.holder = .none ∧ e.lease = 0))) ∧
  ([1, 2] : List Byte).map PageMode.ofCode = [some .opened, some .deferred] ∧
  ([1, 2, 3] : List Byte).map Access.ofCode = [some .readOnly, some .writeOnly, some .readWrite]

/-- R47: PAGE_CLOSE, its checks in order, and the default entry of R44 it leaves. It posts no event and leaves the
bytes. -/
def Obligations.PageCloseRestoresTheDefault : Prop :=
  ∀ (s : State) (p : Params), s.inProgress 0x11 p →
    let closed : PageEntry :=
      { mode := .closed, length := 64, access := .readWrite, allowed := 0, claimable := false, lifetime := 0
        sequence := 0, freshness := .stale, countdown := 0, holder := .none, lease := 0 }
    (64 ≤ p[0].toNat → refusesWith .pageClose s .badParam []) ∧
    ∀ pg : Page, pg.val = p[0].toNat →
      ((s.page pg).mode = .closed → refusesWith .pageClose s .pageClosed []) ∧
      ((s.page pg).mode ≠ .closed →
        (s.inFlight pg = true → refusesWith .pageClose s .pageBusy []) ∧
        (s.inFlight pg = false → (s.page pg).holder.remote = true → p[1].getLsbD 0 = false →
          refusesWith .pageClose s .pageClaimed []) ∧
        (s.inFlight pg = false → (s.page pg).holder.remote = false ∨ p[1].getLsbD 0 = true →
          completesWith .pageClose s { s with pages := s.pages.set pg closed } .ok []))

/-- R48: PAGE_FETCH copies the page's bytes to the staging buffer and changes nothing in the entry. 12.3: the
mode and freshness codes. -/
def Obligations.PageFetchCopiesThePage : Prop :=
  (∀ (s : State) (p : Params), s.inProgress 0x12 p → s.memoryForm →
    (64 ≤ p[0].toNat → refusesWith .pageFetch s .badParam []) ∧
    ∀ pg : Page, pg.val = p[0].toNat →
      ((s.page pg).mode = .closed → refusesWith .pageFetch s .pageClosed []) ∧
      ((s.page pg).mode ≠ .closed →
        fillsStaging .pageFetch s
          ((List.range (s.page pg).length).map fun k => s.pageMem.read (64 * pg.val + k))
          [(s.page pg).sequence, byte (s.page pg).length, (s.page pg).mode.code,
            (s.page pg).freshness.code])) ∧
  [PageMode.closed, .opened, .deferred].map PageMode.code = [0, 1, 2] ∧
  [Freshness.stale, .requested, .fresh].map Freshness.code = [0, 1, 2]

/-- R49, R50: PAGE_COMMIT, its checks in order, and what a taken commit changes: the page's bytes, its sequence,
and a DEFERRED page's freshness. No other byte of page memory changes. What the model notes of it for a tick at the
same moment (the list of spared pages, log entry 28) is not claimed here. -/
def Obligations.PageCommitReplacesTheContents : Prop :=
  ∀ (s : State) (p : Params), s.inProgress 0x13 p → s.memoryForm →
    (64 ≤ p[0].toNat → refusesWith .pageCommit s .badParam []) ∧
    ∀ pg : Page, pg.val = p[0].toNat →
      let e := s.page pg
      (e.mode = .closed → refusesWith .pageCommit s .pageClosed []) ∧
      (e.mode ≠ .closed → s.inFlight pg = true → refusesWith .pageCommit s .pageBusy []) ∧
      (e.mode ≠ .closed → s.inFlight pg = false →
        (e.holder.remote = true ∧ p[1].getLsbD 0 = false →
          refusesWith .pageCommit s .pageClaimed []) ∧
        (¬(e.holder.remote = true ∧ p[1].getLsbD 0 = false) →
          (p[1].getLsbD 1 = true ∧ e.sequence ≠ p[2] →
            refusesWith .pageCommit s .conflict [e.sequence]) ∧
          (p[1].getLsbD 1 = false ∨ e.sequence = p[2] → e.length ≤ 64 →
            ∃ m spared, completesWith .pageCommit s
              { s with
                ticks := { s.ticks with spared := spared }
                pages := s.pages.set pg
                  { e with
                    sequence := e.sequence + 1
                    freshness := if e.mode = .deferred then .fresh else e.freshness
                    countdown := if e.mode = .deferred then e.lifetime else e.countdown }
                pageMem := m } .ok [e.sequence + 1] ∧
            ∀ a, m.read a =
              if 64 * pg.val ≤ a ∧ a < 64 * pg.val + e.length then
                s.port.staging.read (a - 64 * pg.val)
              else s.pageMem.read a)))

/-! ### Claim commands (chapter 4) -/

/-- R74: LOCAL_CLAIM. R75, R76: LOCAL_RELEASE drops a LOCAL claim, BREAK_CLAIM a remote one, each silently and
only while the page is not in flight. 12.3: the holder's byte. R62: a remote claim is one that
a node holds. -/
def Obligations.ClaimCommands : Prop :=
  (∀ (s : State) (p : Params), s.inProgress 0x18 p →
      (64 ≤ p[0].toNat → refusesWith .localClaim s .badParam []) ∧
      ∀ pg : Page, pg.val = p[0].toNat →
        let e := s.page pg;
        (e.mode = .closed → refusesWith .localClaim s .pageClosed []) ∧
        (e.mode ≠ .closed → e.holder = .local →
          completesWith .localClaim s s .ok [0x7F, byte e.lease]) ∧
        (e.mode ≠ .closed → e.holder ≠ .local → s.inFlight pg = true →
          refusesWith .localClaim s .pageBusy [e.holder.code, byte e.lease]) ∧
        (e.mode ≠ .closed → e.holder.remote = true → s.inFlight pg = false →
          refusesWith .localClaim s .pageClaimed [e.holder.code, byte e.lease]) ∧
        (e.mode ≠ .closed → e.holder = .none → s.inFlight pg = false →
          completesWith .localClaim s
            { s with pages := s.pages.set pg { e with holder := .local, lease := 0 } } .ok [0x7F, 0])) ∧
  (∀ (s : State) (p : Params),
      (64 ≤ p[0].toNat →
        (s.inProgress 0x19 p → refusesWith .localRelease s .badParam []) ∧
        (s.inProgress 0x1A p → refusesWith .breakClaim s .badParam [])) ∧
      ∀ pg : Page, pg.val = p[0].toNat →
        let e := s.page pg;
        (s.inProgress 0x19 p →
          (e.holder ≠ .local → refusesWith .localRelease s .notHolder [e.holder.code]) ∧
          (e.holder = .local → s.inFlight pg = true → refusesWith .localRelease s .pageBusy []) ∧
          (e.holder = .local → s.inFlight pg = false →
            completesWith .localRelease s
              { s with pages := s.pages.set pg { e with holder := .none } } .ok [])) ∧
        (s.inProgress 0x1A p →
          (e.mode = .closed → refusesWith .breakClaim s .pageClosed []) ∧
          (e.mode ≠ .closed → s.inFlight pg = true → refusesWith .breakClaim s .pageBusy []) ∧
          (e.mode ≠ .closed → s.inFlight pg = false → e.holder.remote = false →
            refusesWith .breakClaim s .notHolder [e.holder.code]) ∧
          (e.mode ≠ .closed → s.inFlight pg = false → e.holder.remote = true →
            completesWith .breakClaim s
              { s with pages := s.pages.set pg { e with holder := .none, lease := 0 } } .ok
              [e.holder.code, byte e.lease]))) ∧
  Holder.none.code = 0 ∧ Holder.local.code = 127 ∧ (∀ a : Addr, (Holder.node a).code.toNat = a.toNat) ∧
  Holder.none.remote = false ∧ Holder.local.remote = false ∧ ∀ a : Addr, (Holder.node a).remote = true

/-! ### Inbound Store commands (chapter 6) -/

/-- R107, R108: INBOUND returns the head record byte by byte and then 00h; INBOUND_DROP removes the record. -/
def Obligations.InboundRecordsAreReadAndDropped : Prop :=
  ∀ s : State, s.mode = .running →
    let i := s.inbound
    let size := 6 + (i.ring.read ((i.head + 3) % 1024)).toNat
    (i.committedRecords = 0 → exec .inboundRead s = .next { s with lastRead := some 0 }) ∧
    (i.committedRecords ≠ 0 → i.readIndex < size →
      exec .inboundRead s = .next { s with
        lastRead := some (i.ring.read ((i.head + i.readIndex) % 1024))
        inbound := { i with readIndex := i.readIndex + 1 } }) ∧
    (i.committedRecords ≠ 0 → size ≤ i.readIndex →
      exec .inboundRead s = .next { s with lastRead := some 0 }) ∧
    ∀ p, s.inProgress 0x30 p →
      (i.committedRecords = 0 → refusesWith .inboundDrop s .storeEmpty [0]) ∧
      (i.committedRecords ≠ 0 →
        completesWith .inboundDrop s
          { s with inbound := { i with
            head := (i.head + size) % 1024
            committedBytes := i.committedBytes - size
            committedRecords := i.committedRecords - 1
            readIndex := 0 } } .ok [byte (i.committedRecords - 1)])

/-! ### Job commands (chapter 7) -/

/-- R116: SUBMIT's checks in order; every refusal leaves the jobs, the pool and the peer table. 12.2:
the operation codes. -/
def Obligations.SubmitIsCheckedInOrder : Prop :=
  (∀ (s : State) (p : Params), s.inProgress 0x20 p →
    (s.cfg.address = 0 → refusesWith .submit s .notConfigured []) ∧
    (s.cfg.address ≠ 0 → Operation.ofCode (p[0].extractLsb' 4 4) = none →
      refusesWith .submit s .badParam []) ∧
    (s.cfg.address ≠ 0 → ∀ job, submittedJob p = some job →
      let bad := job.target = 0 ∨ (job.group = false ∧ job.target = s.cfg.address) ∨
        (job.group = true ∧ 31 < job.target.toNat) ∨
        ((job.group = true ∨ job.target = 127) ∧ job.operation ≠ .write ∧ job.operation ≠ .message) ∨
        64 < job.offset.toNat + job.length.toNat ∨
        (job.length = 0 ∧ job.operation ∈ [.read, .write, .readClaim, .writeRelease]) ∨
        (job.probe = true ∧ job.operation ≠ .status)
      (job.illegal s.cfg.address = true ↔ bad) ∧
      (bad → refusesWith .submit s .badParam []) ∧
      (¬bad → (∀ j, (s.job j).state ≠ .free) → refusesWith .submit s .noSlot []) ∧
      (¬bad → (∃ j, (s.job j).state = .free) → s.freeBlocks.length < job.blocksNeeded →
        refusesWith .submit s .noBuffer []))) ∧
  (∀ c : BitVec 4, Operation.ofCode c = [none, some .read, some .write, some .claim, some .release,
      some .readClaim, some .writeRelease, some .status, some .message].getD c.toNat none) ∧
  ∀ op : Operation, Operation.ofCode op.code = some op

/-- R113, R117: a taken SUBMIT places the job in the lowest FREE slot with the next generation, its record filled
from the parameter bytes of 12.4, gives it free blocks holding its bytes, makes sure of its peer entry, and appends it
to its two lists. R139, R140: the entry of its target goes to the front unchanged, or is new there at score 100, with
the least recently used unreferenced entry evicted from a full table. The tag is the slot plus 16 times the generation.
R114: the number of blocks each operation needs, where a byte of the buffer lies, and which blocks are free. Which free
blocks the job gets is the model's choice (log entry 12) and not claimed. -/
def Obligations.SubmitTakesTheJob : Prop :=
  (∀ (s : State) (p : Params) (job : JobSlot) (j : Slot), s.inProgress 0x20 p → s.memoryForm →
    s.cfg.address ≠ 0 → submittedJob p = some job → job.illegal s.cfg.address = false →
    (s.job j).state = .free → (∀ i < j, (s.job i).state ≠ .free) →
    job.blocksNeeded ≤ s.freeBlocks.length →
    ∃ t, exec .submit s = .next t ∧
      t = { s with
        port := s.port.finished .ok
          [jobTag j ((s.job j).generation + 1), byte t.freeSlots.length, byte t.freeBlocks.length]
        jobs := s.jobs.set j
          { job with generation := (s.job j).generation + 1, blocks := (t.job j).blocks }
        pool := t.pool
        submission := s.submission ++ [j]
        lists := s.lists.set job.priority.toFin (s.list job.priority ++ [j])
        peers := t.peers } ∧
      (∀ b ∈ (t.job j).blocks, b ∈ s.freeBlocks) ∧ (t.job j).blocks.Nodup ∧
      (t.job j).blocks.length = job.blocksNeeded ∧
      (job.operation ∈ [.write, .writeRelease, .message] →
        ∀ k < job.length.toNat,
          t.pool.read ((t.job j).bufferAddress k) = s.port.staging.read k) ∧
      (job.operation ∉ [.write, .writeRelease, .message] → t.pool = s.pool) ∧
      (∀ a, (∀ b ∈ (t.job j).blocks, a / 8 ≠ b.val) → t.pool.read a = s.pool.read a) ∧
      (let placed := t.job j;
        Operation.ofCode (p[0].extractLsb' 4 4) = some placed.operation ∧
        placed.arbitrationLimit = (p[0].extractLsb' 0 4).toNat ∧
        placed.group = p[1].getLsbD 7 ∧ placed.target = p[1].extractLsb' 0 7 ∧
        placed.ordered = p[2].getLsbD 7 ∧ placed.probe = p[2].getLsbD 6 ∧
        placed.page = p[2].extractLsb' 0 6 ∧ placed.priority = p[3].extractLsb' 6 2 ∧
        placed.offset = p[3].extractLsb' 0 6 ∧ placed.length = p[4].extractLsb' 0 7 ∧
        placed.transportLimit = (p[5].extractLsb' 4 3).toNat ∧
        placed.busyLimit = (p[5].extractLsb' 0 4).toNat ∧
        placed.deadline = 256 * p[6].toNat + p[7].toNat ∧ placed.deadlineRemaining = placed.deadline ∧
        placed.state = .queued ∧ placed.attempts = 0 ∧ placed.transportFailures = 0 ∧
        placed.busyResponses = 0 ∧ placed.arbitrationLosses = 0 ∧ placed.retryCountdown = 0 ∧
        placed.peerAtDispatch = none ∧ placed.cancelRequested = false ∧
        placed.expiryRequested = false ∧ placed.unread = false ∧ placed.result = .none ∧
        placed.bytesDone = 0 ∧ placed.lastResponse = .none) ∧
      (job.collective = true → t.peers = s.peers) ∧
      (job.collective = false → (t.peer job.target).isSome = true ∧
        (∀ pre e post, s.peers = pre ++ e :: post → e.address = job.target →
          (∀ x ∈ pre ++ post, x.address ≠ job.target) → t.peers = e :: (pre ++ post)) ∧
        (s.peer job.target = none →
          let fresh : PeerEntry := ⟨job.target, 100, .normal, 0, 0, 0, 0, .none⟩
          let needed := fun a : Addr => ∃ i, (s.job i).pending = true ∧ (s.job i).collective = false ∧
            (s.job i).target = a
          (s.peers.length < 32 → t.peers = fresh :: s.peers) ∧
          (∀ pre e post, 32 ≤ s.peers.length → s.peers = pre ++ e :: post → ¬needed e.address →
            (∀ x ∈ post, needed x.address) → t.peers = fresh :: (pre ++ post))))) ∧
  (∀ (j : Slot) (g : BitVec 4), (jobTag j g).toNat = j.val + 16 * g.toNat) ∧
  (∀ job : JobSlot,
    (job.operation ∈ [.read, .write, .readClaim, .writeRelease, .message] →
      job.blocksNeeded = (job.length.toNat + 7) / 8) ∧
    (job.operation = .status → job.blocksNeeded = 1) ∧
    (job.operation ∈ [.claim, .release] → job.blocksNeeded = 0) ∧
    (job.collective = true ↔ job.group = true ∨ job.target = 127) ∧
    ∀ k b, job.blocks[k / 8]? = some b → job.bufferAddress k = 8 * b.val + k % 8) ∧
  ∀ s : State, s.freeSlots.Nodup ∧ (∀ j, j ∈ s.freeSlots ↔ (s.job j).state = .free) ∧
    s.freeBlocks.Nodup ∧ ∀ b, b ∈ s.freeBlocks ↔ ∀ j, b ∉ (s.job j).blocks

/-- R132, R122: entering COMPLETE sets the result and the bytes done, takes the job out of its lists and posts
one record. -/
def Obligations.EnteringCompletePostsOneRecord : Prop :=
  ∀ (s : State) (j : Slot) (r : JobResult),
    let job := s.job j
    let done := if r = .dissent ∨ r = .done ∧
        job.operation ∈ [.read, .readClaim, .write, .writeRelease, .message] then job.length.toNat
      else if r = .done ∧ job.operation = .status then 8 else 0
    s.completeJob j r = { s with
      jobs := s.jobs.set j { job with
        state := .complete, retryCountdown := 0, result := r, bytesDone := done, unread := true }
      lists := s.lists.set job.priority.toFin ((s.list job.priority).filter (· != j))
      submission := s.submission.filter (· != j)
      completions := { s.completions with
        records := s.completions.records ++
          [⟨jobTag j job.generation, r, job.attempts, done, job.busyResponses, job.lastResponse,
            s.ticks.stamp⟩] } }

/-- R113, R130: CANCEL by the job's state; the slot and the generation a tag names. 12.3: the job state codes. -/
def Obligations.CancelByJobState : Prop :=
  (∀ (s : State) (p : Params), s.inProgress 0x21 p →
    let j := tagSlot p[0]
    let job := s.job j
    (job.state = .free ∨ job.generation ≠ tagGeneration p[0] →
      refusesWith .cancel s .unknownTag []) ∧
    (job.generation = tagGeneration p[0] →
      (job.state = .queued ∨ job.state = .waiting →
        completesWith .cancel s (s.completeJob j .cancelled) .ok [JobState.complete.code]) ∧
      (job.state = .active →
        completesWith .cancel s { s with jobs := s.jobs.set j { job with cancelRequested := true } }
          .cancelPending [JobState.active.code]) ∧
      (job.state = .complete →
        refusesWith .cancel s .jobState [JobState.complete.code, job.result.code]))) ∧
  (∀ tag : Byte, (tagSlot tag).val = tag.toNat % 16 ∧ (tagGeneration tag).toNat = tag.toNat / 16) ∧
  [JobState.free, .queued, .waiting, .active, .complete].map JobState.code = [0, 1, 2, 3, 4]

/-- R133, R179: JOB_QUERY copies the job's snapshot and changes nothing in the job. R134: JOB_FETCH copies a finished
job's bytes, as many as its result carried. -/
def Obligations.JobQueryAndFetch : Prop :=
  (∀ (s : State) (p : Params), s.inProgress 0x22 p → s.memoryForm →
      let job := s.job (tagSlot p[0]);
      (job.state = .free ∨ job.generation ≠ tagGeneration p[0] →
        refusesWith .jobQuery s .unknownTag []) ∧
      (job.state ≠ .free → job.generation = tagGeneration p[0] →
        ∃ b : Byte, b.extractLsb' 0 3 = job.state.code.extractLsb' 0 3 ∧
          b.getLsbD 7 = job.cancelRequested ∧ b.getLsbD 6 = job.expiryRequested ∧
          b.getLsbD 5 = job.unread ∧ b.extractLsb' 3 2 = 0 ∧
          fillsStaging .jobQuery s
            [b, job.result.code, byte job.attempts, byte job.transportFailures, byte job.busyResponses,
              byte job.arbitrationLosses, byte job.retryCountdown, job.lastResponse.code]
            [job.state.code, byte (job.deadlineRemaining / 256), byte job.deadlineRemaining])) ∧
  (∀ (s : State) (p : Params), s.inProgress 0x23 p → s.memoryForm →
      let job := s.job (tagSlot p[0]);
      (job.state = .free ∨ job.generation ≠ tagGeneration p[0] →
        refusesWith .jobFetch s .unknownTag []) ∧
      (job.state ≠ .free → job.generation = tagGeneration p[0] →
        (job.state ≠ .complete → refusesWith .jobFetch s .jobState []) ∧
        (job.state = .complete →
          fillsStaging .jobFetch s
            ((List.range job.bytesDone).map fun k => s.pool.read (job.bufferAddress k))
            [byte job.bytesDone])))

/-- R135: RETIRE frees the slot of a finished job whose record has been read; the generation stays. The job fields a
FREE slot shows are the model's choice (log entry 24). -/
def Obligations.RetireFreesTheSlot : Prop :=
  ∀ (s : State) (p : Params), s.inProgress 0x24 p →
    let j := tagSlot p[0]
    let job := s.job j
    (job.state = .free ∨ job.generation ≠ tagGeneration p[0] →
      refusesWith .retire s .unknownTag []) ∧
    (job.state ≠ .free → job.generation = tagGeneration p[0] →
      (job.state ≠ .complete → refusesWith .retire s .jobState []) ∧
      (job.state = .complete → job.unread = true → refusesWith .retire s .jobUnseen []) ∧
      (job.state = .complete → job.unread = false →
        ∃ t : State, t = { s with jobs := s.jobs.set j (.free job.generation) } ∧
          completesWith .retire s t .ok [byte t.freeSlots.length, byte t.freeBlocks.length]))

/-! ### Dispatch and outcomes (sections 7.5 to 7.9) -/

/-- R27, R118, R121: at a transmit opportunity the first job of the four lists that is not held back, and whose
peer does not fail it, becomes ACTIVE, leaves its list and contends with its own header. What a commit has
spared is over with each row of the link (log entry 28). -/
def Obligations.OpportunityActivatesTheFirstEligibleJob : Prop :=
  ∀ (s₀ : State) pre j post,
    let s := { s₀ with ticks := { s₀.ticks with spared := [] } }
    s.mode = .running → s.link.state = .online → s.link.role = .idle →
    s.link.gap ≠ .notRunning → s.lists.toList.flatten = pre ++ j :: post →
    (∀ i ∈ pre, s.heldBack i = true) → s.heldBack j = false → s.failsFast j = false →
    let job := s.job j
    exec .transmitOpportunity s₀ = .next { s with
      jobs := s.jobs.set j { job with
        state := .active
        attempts := min 255 (job.attempts + 1)
        peerAtDispatch :=
          if job.collective then job.peerAtDispatch else (s.peer job.target).map PeerEntry.state }
      lists := s.lists.set job.priority.toFin ((s.list job.priority).filter (· != j))
      initiator := ⟨.contending, 0, 0, false⟩
      link := { s.link with
        role := .contender j ⟨job.priority, s.cfg.address, job.group, job.target, job.operation.code,
          job.page, job.offset, job.length⟩
        slot := []
        gap := .notRunning } }

/-- R118 to R120: the scan of a transmit opportunity. With every candidate held back the dispatcher declines. A chosen
job whose peer is UNREACHABLE completes PEER_UNREACHABLE without an attempt, and the scan goes on from its place, each
job judged in the state the failures before it have left: the first job that is not held back and does not fail becomes
ACTIVE, and past the last one the dispatcher declines. R119, R120: an ORDERED job is held back by an ORDERED job of the
same target before it in the submission order list; a job fails fast when its individual target is UNREACHABLE and it is
no PROBE. What a commit has spared is over with each row of the link (log entry 28). -/
def Obligations.OpportunityPassesJobsOver : Prop :=
  (∀ s₀ : State,
      let s := { s₀ with ticks := { s₀.ticks with spared := [] } };
      s.mode = .running → s.link.state = .online → s.link.role = .idle →
      s.link.gap ≠ .notRunning →
      let offered := { s with link := { s.link with gap := .complete } };
      ((∀ j ∈ s.lists.toList.flatten, s.heldBack j = true) →
        exec .transmitOpportunity s₀ = .next offered) ∧
      ∀ (passed : List (Slot × Bool)) (rest : List Slot),
        s.lists.toList.flatten = passed.map Prod.fst ++ rest →
        let failing := fun met : List (Slot × Bool) =>
          ((met.filter Prod.snd).map Prod.fst).foldl (fun u i => u.completeJob i .peerUnreachable) offered;
        (∀ k (hk : k < passed.length),
          let judged := failing (passed.take k);
          if passed[k].2 then judged.heldBack passed[k].1 = false ∧ judged.failsFast passed[k].1 = true
          else judged.heldBack passed[k].1 = true) →
        let u := failing passed;
        (rest = [] → exec .transmitOpportunity s₀ = .next u) ∧
        ∀ j post, rest = j :: post → u.heldBack j = false → u.failsFast j = false →
          let job := u.job j;
          exec .transmitOpportunity s₀ = .next { u with
            jobs := u.jobs.set j { job with
              state := .active
              attempts := min 255 (job.attempts + 1)
              peerAtDispatch :=
                if job.collective then job.peerAtDispatch else (u.peer job.target).map PeerEntry.state }
            lists := u.lists.set job.priority.toFin ((u.list job.priority).filter (· != j))
            initiator := ⟨.contending, 0, 0, false⟩
            link := { u.link with
              role := .contender j ⟨job.priority, u.cfg.address, job.group, job.target, job.operation.code,
                job.page, job.offset, job.length⟩
              slot := []
              gap := .notRunning } }) ∧
  (∀ (s : State) pre j post, s.submission = pre ++ j :: post → j ∉ pre →
      (s.heldBack j = true ↔ (s.job j).ordered = true ∧ ∃ i ∈ pre, (s.job i).ordered = true ∧
        (s.job i).group = (s.job j).group ∧ (s.job i).target = (s.job j).target) ∧
      (s.failsFast j = true ↔ (s.job j).collective = false ∧ (s.job j).probe = false ∧
        ∃ e, s.peer (s.job j).target = some e ∧ e.state = .unreachable))

/-- R123 to R126, R128: what each outcome makes of an individual job: the three counters and the last response, whatever
requests are pending (R131), and with none pending its next state or its result. R121, R141: the outcome is reported for
the job's target, and the peer table and the events change by that report alone. -/
def Obligations.OutcomesOfAnIndividualJob : Prop :=
  ∀ (s : State) (j : Slot), (s.job j).collective = false →
    let job := s.job j
    let after := fun o => (s.takeOutcome j o).job j
    let limit := if job.peerAtDispatch = some .degraded then min job.transportLimit 1
      else job.transportLimit
    let failures := job.transportFailures
    let busy := job.busyResponses
    let losses := job.arbitrationLosses
    let counts := fun (o : Attempt) (f b l : Nat) =>
      (after o).transportFailures = f ∧ (after o).busyResponses = b ∧ (after o).arbitrationLosses = l
    let completes := fun (o : Attempt) (r : JobResult) => (after o).state = .complete ∧ (after o).result = r
    (∀ o, (s.takeOutcome j o).peers = (s.reportPeer job.target o).peers ∧
      (s.takeOutcome j o).events = (s.reportPeer job.target o).events) ∧
    (counts .arbitrationLost failures busy (min 255 (losses + 1)) ∧
      counts .silence (failures + 1) busy losses ∧
      counts .resendExhaustion (failures + 1) busy losses ∧
      counts .bitError (failures + 1) busy losses ∧
      counts .busy failures (busy + 1) losses ∧
      counts .refuse failures busy losses ∧
      counts .normalEnd failures busy losses ∧
      counts .linkLost failures busy losses) ∧
    ((after .arbitrationLost).lastResponse = job.lastResponse ∧ (after .silence).lastResponse = .silence ∧
      (after .resendExhaustion).lastResponse = .ack ∧
      (s.link.slot.length ≠ 2 → (after .bitError).lastResponse = job.lastResponse) ∧
      (∀ x y, s.link.slot = [x, y] → (after .bitError).lastResponse =
        if x = .dominant then (if y = .dominant then .ack else .busy)
        else if y = .dominant then .refuse else .silence) ∧
      (after .busy).lastResponse = .busy ∧ (after .refuse).lastResponse = .refuse ∧
      (after .normalEnd).lastResponse = .ack ∧ (after .linkLost).lastResponse = job.lastResponse) ∧
    (job.cancelRequested = false → job.expiryRequested = false →
      (if job.arbitrationLimit ≠ 0 ∧ job.arbitrationLimit < min 255 (losses + 1) then
          completes .arbitrationLost .arbExhausted
        else (after .arbitrationLost).state = .queued) ∧
      (if limit < failures + 1 then completes .silence .noResponse else (after .silence).state = .queued) ∧
      (if limit < failures + 1 then completes .resendExhaustion .checkFailed
        else (after .resendExhaustion).state = .queued) ∧
      (if limit < failures + 1 then completes .bitError .checkFailed else (after .bitError).state = .queued) ∧
      (if job.busyLimit < busy + 1 then completes .busy .busyExhausted
        else (after .busy).state = .waiting ∧ (after .busy).retryCountdown = s.cfg.busyRetry) ∧
      completes .refuse .refused ∧ completes .normalEnd .done ∧ (after .linkLost).state = .queued)

/-- R127, R128: what each outcome a collective attempt can have (R23) makes of its job: the three counters and the last
response, whatever requests are pending (R131), and with none pending its next state or its result, by whether the
header slot had been sampled; a lost arbitration is taken as R123. It leaves the peer table alone.
That a bit error once the header slot is sampled leaves the transport failures as they were is the model's choice (log
entry 30). -/
def Obligations.OutcomesOfACollectiveJob : Prop :=
  ∀ (s : State) (j : Slot), (s.job j).collective = true →
    let job := s.job j
    let after := fun o => (s.takeOutcome j o).job j
    let failures := job.transportFailures
    let losses := job.arbitrationLosses
    let counts := fun (o : Attempt) (f l : Nat) => (after o).transportFailures = f ∧
      (after o).busyResponses = job.busyResponses ∧ (after o).arbitrationLosses = l
    let completes := fun (o : Attempt) (r : JobResult) => (after o).state = .complete ∧ (after o).result = r
    (∀ o, (s.takeOutcome j o).peers = s.peers ∧ (s.takeOutcome j o).events = s.events) ∧
    (counts .arbitrationLost failures (min 255 (losses + 1)) ∧ counts .normalEnd failures losses ∧
      counts .linkLost failures losses ∧
      (s.link.slot = [] → counts .bitError (failures + 1) losses) ∧
      (s.link.slot ≠ [] → counts .bitError failures losses)) ∧
    (∀ o, (s.link.slot = [] → (after o).lastResponse = job.lastResponse) ∧
      ∀ l rest, s.link.slot = l :: rest →
        (after o).lastResponse = if l = .dominant then .dissent else .noDissent) ∧
    (job.cancelRequested = false → job.expiryRequested = false →
      (if job.arbitrationLimit ≠ 0 ∧ job.arbitrationLimit < min 255 (losses + 1) then
          completes .arbitrationLost .arbExhausted
        else (after .arbitrationLost).state = .queued ∧
          (s.takeOutcome j .arbitrationLost).list job.priority = j :: s.list job.priority) ∧
      completes .normalEnd (if s.initiator.dissent then .dissent else .done) ∧
      (s.link.slot ≠ [] → completes .bitError .checkFailed ∧ completes .linkLost .checkFailed) ∧
      (s.link.slot = [] → (after .linkLost).state = .queued ∧
        if job.transportLimit < failures + 1 then completes .bitError .checkFailed
        else (after .bitError).state = .queued))

/-- R131: a pending request ends the job at any outcome but a normal end, CANCELLED before EXPIRED, and a normal end
stays DONE or DISSENT; the counters and the last response are those of the two claims on outcomes, requests or not.
R115, R123, R124, R128: a requeued job joins its list at the head after a lost arbitration or link lost, and at the
tail after a transport failure. R121, R132, R141: the whole effect of an outcome. The job's counters and last
response change, the Initiator Engine's phase is ended, the job is QUEUED in its list, WAITING, or has entered
COMPLETE with its one record (as the claim on entering COMPLETE says), an individual target's outcome is reported
(as the claim on the peer's score says), and nothing else changes. -/
def Obligations.RequestsAndRequeueing : Prop :=
  (∀ (s : State) (j : Slot) (o : Attempt),
      let a := (s.takeOutcome j o).job j;
      ((s.job j).cancelRequested = true → o ≠ .normalEnd →
        a.state = .complete ∧ a.result = .cancelled) ∧
      ((s.job j).cancelRequested = false → (s.job j).expiryRequested = true → o ≠ .normalEnd →
        a.state = .complete ∧ a.result = .expired) ∧
      (o = .normalEnd → a.state = .complete ∧
        a.result = if (s.job j).collective = true ∧ s.initiator.dissent = true then .dissent else .done)) ∧
  (∀ (s : State) (j : Slot) (o : Attempt), ((s.takeOutcome j o).job j).state = .queued →
      (s.takeOutcome j o).list (s.job j).priority =
        (if o = .arbitrationLost ∨ o = .linkLost then j :: s.list (s.job j).priority
        else s.list (s.job j).priority ++ [j])) ∧
  ∀ (s : State) (j : Slot) (o : Attempt),
    let job := s.job j
    let t := s.takeOutcome j o
    let last := t.job j
    let counted := { job with
      lastResponse := last.lastResponse, transportFailures := last.transportFailures
      busyResponses := last.busyResponses, arbitrationLosses := last.arbitrationLosses }
    let becomes := fun (state : JobState) (wait : Nat) =>
      s.jobs.set j { counted with state := state, retryCountdown := wait }
    let ended := { s with initiator := { s.initiator with phase := .ended } }
    let reported := fun u : State => if job.collective then u else u.reportPeer job.target o
    (last.state = .complete ∨ last.state = .queued ∨ last.state = .waiting) ∧
    (last.state = .complete →
      t = reported (State.completeJob { ended with jobs := s.jobs.set j counted } j last.result)) ∧
    (last.state = .queued → t = reported { ended with
      jobs := becomes .queued 0
      lists := s.lists.set job.priority.toFin (t.list job.priority) }) ∧
    (last.state = .waiting → t = reported { ended with jobs := becomes .waiting s.cfg.busyRetry })

/-! ### The Peer Health Table (chapter 8) -/

/-- R139, R141 to R143: an attempt's outcome moves its target's entry to the front, counts it, scores it, and
posts PEER_STATE where the state changes. A link lost leaves the state, so the step into FAULTED posts none (R33);
that BUSY, REFUSE, a bit error and a lost arbitration derive the state anew is read from R143 (log entry 29). -/
def Obligations.OutcomesScoreThePeer : Prop :=
  (∀ (s : State) (a : Addr) (o : Attempt) (e : PeerEntry), s.peer a = some e →
    let dt := s.cfg.degradeThreshold
    let score := if o = .silence then e.score - 25 else if o = .resendExhaustion then e.score - 10
      else if o = .normalEnd then
        (if e.state = .unreachable then max e.score dt else min 100 (e.score + 4))
      else e.score
    let derived := if dt ≤ score then PeerState.normal
      else if s.cfg.unreachableThreshold ≤ score then .degraded else .unreachable
    let state := if o = .linkLost then e.state
      else if e.state = .unreachable ∧ o ≠ .normalEnd then .unreachable else derived
    let e' : PeerEntry := { e with
      score := score
      state := state
      attempts := min 255 (e.attempts + 1)
      silences := if o = .silence then min 255 (e.silences + 1) else e.silences
      checkFailures := if o = .bitError ∨ o = .resendExhaustion then min 255 (e.checkFailures + 1)
        else e.checkFailures
      busy := if o = .busy then min 255 (e.busy + 1) else e.busy
      lastResult := o.peerResult }
    s.reportPeer a o = { s with
      peers := e' :: s.peers.filter fun x => x.address != a
      events := if state = e.state then s.events
        else s.events.post ⟨.peerState, a.setWidth 8, state.code, byte score⟩ s.ticks.stamp }) ∧
  [Attempt.arbitrationLost, .bitError, .linkLost, .silence, .busy, .refuse, .resendExhaustion,
    .normalEnd].map Attempt.peerResult = [.arbLost, .bitError, .linkLost, .silence, .busy, .refuse,
    .resendExhausted, .normalEnd]

/-- R146: PEER_READ copies an entry's snapshot and changes nothing in the table. R147: PEER_RESET restores an
entry in its place, without a notice. 12.3: the codes of peer state and last result. -/
def Obligations.PeerCommands : Prop :=
  (∀ (s : State) (p : Params), s.inProgress 0x28 p → s.memoryForm →
      (p[0].toNat = 0 ∨ 127 ≤ p[0].toNat → refusesWith .peerRead s .badParam []) ∧
      ∀ a : Addr, a.toNat = p[0].toNat → a ≠ 0 → a ≠ 127 →
        (s.peer a = none → refusesWith .peerRead s .noEntry [0, 0, byte s.peers.length]) ∧
        ∀ pre e post, s.peers = pre ++ e :: post → e.address = a → (∀ x ∈ pre, x.address ≠ a) →
          fillsStaging .peerRead s
            [p[0], e.state.code, byte e.score, byte e.attempts, byte e.silences, byte e.checkFailures,
              byte e.busy, e.lastResult.code]
            [e.state.code, byte e.score, byte s.peers.length, byte pre.length]) ∧
  (∀ (s : State) (p : Params), s.inProgress 0x29 p →
      (p[0].toNat = 0 ∨ 127 ≤ p[0].toNat → refusesWith .peerReset s .badParam []) ∧
      ∀ a : Addr, a.toNat = p[0].toNat → a ≠ 0 → a ≠ 127 →
        (s.peer a = none → refusesWith .peerReset s .noEntry []) ∧
        ∀ pre e post, s.peers = pre ++ e :: post → e.address = a →
          (∀ x ∈ pre ++ post, x.address ≠ a) →
          completesWith .peerReset s
            { s with peers := pre ++ ⟨a, 100, .normal, 0, 0, 0, 0, .none⟩ :: post } .ok
            [e.state.code, byte e.score]) ∧
  [PeerState.normal, .degraded, .unreachable].map PeerState.code = [0, 1, 2] ∧
  [PeerResult.none, .arbLost, .bitError, .linkLost, .silence, .busy, .refuse, .resendExhausted,
    .normalEnd].map PeerResult.code = [0, 1, 2, 3, 4, 5, 6, 7, 8]

/-! ### The link and the Responder (chapters 1, 2 and 5) -/

/-- R26, R33: when the gap is complete SYNCING enters ONLINE with the remembered cause. R5: a start marker gives an
idle ONLINE node a telegram in progress. R4: a return to recessive starts the gap measurement again. What a commit
has spared is over with each row of the link (log entry 28). -/
def Obligations.JoiningAndStartMarkers : Prop :=
  ∀ s₀ : State,
    let s := { s₀ with ticks := { s₀.ticks with spared := [] } }
    s.mode = .running →
    (∀ c, s.link.state = .syncing → s.link.cause = some c →
      exec .enterOnline s₀ = .next { s with
        link := { s.link with state := .online, role := .idle, slot := [], gap := .complete }
        events := s.events.post
          ⟨.linkState, LinkState.online.code, s.cfg.address.setWidth 8, c.code⟩ s.ticks.stamp }) ∧
    (s.link.state = .online → s.link.role = .idle →
      exec .startMarker s₀ = .next { s with
        link := { s.link with role := .receiving, slot := [], gap := .notRunning } }) ∧
    (s.link.state = .syncing ∨ s.link.state = .online ∧ s.link.role = .idle →
      exec .gapMeasurementRestart s₀ = .next { s with
        link := { s.link with gap := .running, dominance := .running } })

/-- R9, R10: the 48 bits of a header give back its eight fields, every field at every value, and pass their check;
a receiver that feeds a check through the register after its bytes finds 00h exactly when the check is the one
computed; and the check values of R10 and the covered bytes of section 12.2's example. R12, R13, R16: for every header,
whether it is collective, how many data bytes follow it (in a collective telegram none but those of WRITE and MESSAGE),
in how many blocks, and whether the initiator sends them. -/
def Obligations.HeaderBitsCarryTheFields : Prop :=
  (∀ h : Header, Header.ofBits h.bits = h ∧ headerCheckPasses h.bits = true) ∧
  (∀ (bytes : List Byte) (check : Byte), crc (bytes ++ [check]) = 0 ↔ check = crc bytes) ∧
  (crc [0x00] = 0xA8 ∧ crc [0x12, 0x34] = 0x3F ∧
    fieldBytes (Header.fields ⟨1, 12, false, 21, Operation.read.code, 12, 0, 16⟩) =
      [0x46, 0x0A, 0x89, 0x80, 0x10]) ∧
  (∀ bits : BitVec 48, headerCheckPasses bits = true ↔ bits = (Header.ofBits bits).bits) ∧
  ∀ h : Header,
    let code := h.operation.toNat
    let given := if 1 ≤ h.length.toNat ∧ h.length.toNat ≤ 64 then h.length.toNat else 0
    (h.collective = true ↔ h.group = true ∨ h.target = 127) ∧
    h.dataBytes =
      (if code = 2 ∨ code = 8 then given
      else if h.collective = true then 0
      else if code = 1 ∨ code = 5 ∨ code = 6 then given
      else if code = 7 then 8 else 0) ∧
    h.blocks = (h.dataBytes + 7) / 8 ∧
    (h.initiatorSends = true ↔ code = 2 ∨ code = 6 ∨ code = 8) ∧
    h.pageNumber.val = h.page.toNat

/-- R81 to R85, with R45 and R63: the Responder's checks, in order. -/
def Obligations.ResponderDecidesInOrder : Prop :=
  ∀ (s : State) (h : Header),
    let e := s.page h.pageNumber
    (Operation.ofCode h.operation = none → s.decision h = .refuse .badOp) ∧
    ∀ op, Operation.ofCode h.operation = some op →
      let collective := h.group = true ∨ h.target = 127
      let free := 1024 - s.inbound.committedBytes - (s.inbound.reservation.map Reservation.size).getD 0
      let len := h.length.toNat
      (collective → op ≠ .write → op ≠ .message → s.decision h = .refuse .groupOp) ∧
      (op = .message →
        s.decision h =
          if s.cfg.acceptMessages = false then .refuse .noMailbox
          else if 64 < len then .refuse .range
          else if free < 6 + len then .busy .storeFull else .accept) ∧
      (¬collective → op = .status → s.decision h = .accept) ∧
      (¬collective ∨ op = .write → op ≠ .message → op ≠ .status →
        let reads := op = .read ∨ op = .readClaim
        let writes := op = .write ∨ op = .writeRelease
        let claims := op = .claim ∨ op = .readClaim
        let forbidden := (e.allowed ≠ 0 ∧ e.allowed ≠ h.initiator) ∨ (reads ∧ e.access = .writeOnly) ∨
          (writes ∧ e.access = .readOnly) ∨ (claims ∧ e.claimable = false)
        let outside := (reads ∨ writes) ∧ (len = 0 ∨ e.length < h.offset.toNat + len)
        let stranger := op = .release ∧ e.holder ≠ .node h.initiator
        let conflict := op ≠ .read ∧ e.holder ≠ .none ∧ e.holder ≠ .node h.initiator
        let stale := reads ∧ e.mode = .deferred ∧ e.freshness ≠ .fresh
        (e.mode = .closed → s.decision h = .refuse .noPage) ∧
        (e.mode ≠ .closed → forbidden → s.decision h = .refuse .access) ∧
        (e.mode ≠ .closed → ¬forbidden → outside → s.decision h = .refuse .range) ∧
        (e.mode ≠ .closed → ¬forbidden → ¬outside → stranger → s.decision h = .refuse .notHolder) ∧
        (e.mode ≠ .closed → ¬forbidden → ¬outside → ¬stranger → conflict →
          s.decision h = .busy .claimed) ∧
        (e.mode ≠ .closed → ¬forbidden → ¬outside → ¬stranger → ¬conflict → stale →
          s.decision h = .busy .refreshing) ∧
        (e.mode ≠ .closed → ¬forbidden → ¬outside → ¬stranger → ¬conflict → ¬stale →
          s.decision h = .accept))

/-- R7, R11, R79, R80, R86 to R88, R56: what a complete header makes of the node: an initiator, a bystander, or a
target or member with the Responder's answer, the marker and the reservation of an accepted header, the reason of
any other, and the one header-time change of a STALE page. R93: the eight bytes of the status record; 12.3: the
reason codes. What a commit has spared is over with each row of the link (log entry 28). -/
def Obligations.HeaderGivesTheNodeItsRole : Prop :=
  ∀ s₀ : State,
    let s := { s₀ with ticks := { s₀.ticks with spared := [] } }
    s.mode = .running →
    (∀ j h, s.link.role = .contender j h →
      exec (.header .arbitrationWon) s₀ = .next { s with
        link := { s.link with role := .initiator j h }
        initiator := { s.initiator with phase := .header } }) ∧
    (∃ b : Byte, s.statusRecord = [b, byte (s.pages.toList.filter fun e => e.mode != .closed).length,
        byte (s.pages.toList.filter fun e => e.holder != .none).length,
        byte ((1024 - s.inbound.committedBytes -
          (s.inbound.reservation.map Reservation.size).getD 0) / 16),
        s.responder.lastReason.code, s.responder.lastInitiator.setWidth 8,
        byte s.events.records.length, byte s.link.txErrors] ∧
      b.getLsbD 7 = s.cfg.acceptMessages ∧ b.getLsbD 6 = s.cfg.autoRecover ∧ b.extractLsb' 3 3 = 0 ∧
      (b.extractLsb' 0 3).toNat = s.link.state.code.toNat) ∧
    ([Reason.empty, .badOp, .groupOp, .noMailbox, .range, .storeFull, .noPage, .access, .notHolder, .claimed,
      .refreshing, .blockCheck].map Reason.code = [0, 1, 2, 3, 4, 5, 6, 7, 8, 9, 10, 11]) ∧
    ∀ bits, s.link.role = .receiving →
      let h := Header.ofBits bits
      let named := if h.group then
          h.target ≠ 0 ∧ h.target.toNat < 32 ∧ s.groups.getLsbD h.target.toNat = true
        else h.target = 127 ∨ h.target ≠ 0 ∧ h.target = s.cfg.address
      let concerned := s.link.state = .online ∧ headerCheckPasses bits = true ∧ named
      let role := fun a : Answer => if h.collective then Role.member h (a == .ack) else .target h a
      let link := fun a => { s.link with role := role a, slot := [] }
      let recorded := fun r : Reason =>
        { s.responder with lastReason := r, lastInitiator := h.initiator }
      (¬concerned → exec (.header (.headerBits bits)) s₀ = .next { s with
        link := { s.link with role := .bystander } }) ∧
      (concerned →
        (∀ r, s.decision h = .refuse r → exec (.header (.headerBits bits)) s₀ = .next { s with
          responder := recorded r, link := link .refuse }) ∧
        (∀ r, s.decision h = .busy r →
          r ≠ .refreshing ∨ (s.page h.pageNumber).freshness ≠ .stale →
          exec (.header (.headerBits bits)) s₀ = .next { s with
            responder := recorded r, link := link .busy }) ∧
        (s.decision h = .busy .refreshing → (s.page h.pageNumber).freshness = .stale →
          exec (.header (.headerBits bits)) s₀ = .next { s with
            responder := recorded .refreshing
            link := link .busy
            pages := s.pages.set h.pageNumber { s.page h.pageNumber with
              freshness := .requested, countdown := s.cfg.refreshWindow }
            events := s.events.post ⟨.refreshRequest, byte h.pageNumber.val,
              h.initiator.setWidth 8, byte s.cfg.refreshWindow⟩ s.ticks.stamp }) ∧
        (s.decision h = .accept →
          let op := Operation.ofCode h.operation
          exec (.header (.headerBits bits)) s₀ = .next { s with
            responder := { s.responder with
              marker := if op = some .message then .inbound
                else if op = some .status then .clear else .page h.pageNumber
              staging := []
              blockIndex := 0
              nakCount := 0
              snapshot := if op = some .status then some s.statusRecord else none }
            inbound := { s.inbound with
              reservation := if op = some .message then some ⟨6 + h.length.toNat,
                  (s.inbound.head + s.inbound.committedBytes) % 1024, h⟩
                else s.inbound.reservation }
            link := link .ack }))

/-- R3, R14, R15, R86, R121: the header slot, bit by bit, for the node's role: the initiator's own header passed on to
its slot, a target that samples what it drives, a member that accepts or leaves, and an initiator that reads ACK or
dissent and goes on to the data phase where one follows. R29, R127: the first bit of a collective slot is its answer,
which the job's last response shows from then on; nothing else in the job changes. A header bit or a target's slot bit
sampled other than driven is a bit error, with the effect of BIT_ERROR (log entry 9). What a commit has spared is over
with each row of the link (log entry 28). -/
def Obligations.HeaderSlotBitByBit : Prop :=
  ∀ (s₀ : State) (l : Level),
    let s := { s₀ with ticks := { s₀.ticks with spared := [] } }
    s.mode = .running →
    (∀ j h, s.link.role = .initiator j h → s.initiator.phase = .header →
      exec (.header (.headerBits h.bits)) s₀ = .next { s with
        initiator := { s.initiator with phase := .headerSlot } }) ∧
    (∀ j h bits, s.link.role = .initiator j h → s.initiator.phase = .header → s.link.slot = [] →
      bits ≠ h.bits → exec (.header (.headerBits bits)) s₀ = exec .bitError s₀) ∧
    (∀ h a, s.link.role = .target h a → ∀ k : s.link.slot.length < 2,
      let driven := ([a != .refuse, a != .busy].map fun d =>
        if d then Level.dominant else .recessive)[s.link.slot.length]'(by simpa using k)
      s.slotDriven = driven ∧
      (l = driven → exec (.header (.slotBit l)) s₀ = .next { s with
        link := { s.link with slot := s.link.slot ++ [l] } }) ∧
      (l ≠ driven → exec (.header (.slotBit l)) s₀ = exec .bitError s₀)) ∧
    (∀ h accepts, s.link.role = .member h accepts →
      s.slotDriven = if accepts = false ∧ s.link.slot = [] then .dominant else .recessive) ∧
    (∀ h, s.link.role = .member h true → s.link.slot.length < 2 →
      exec (.header (.slotBit l)) s₀ = .next { s with
        link := { s.link with slot := s.link.slot ++ [l] } }) ∧
    (∀ h, s.link.role = .member h false → s.link.slot = [] →
      exec (.header (.slotBit l)) s₀ =
        .next (State.partOver { s with link := { s.link with slot := [l] } } .bystander)) ∧
    (∀ j h, s.link.role = .initiator j h → s.initiator.phase = .headerSlot →
      (s.link.slot = [] → exec (.header (.slotBit l)) s₀ = .next { s with
        link := { s.link with slot := [l] }
        initiator := { s.initiator with
          dissent := s.initiator.dissent || (h.collective && l == .dominant) }
        jobs := if h.collective then
            s.jobs.set j { s.job j with lastResponse := if l = .dominant then .dissent else .noDissent }
          else s.jobs }) ∧
      (∀ m, s.link.slot = [m] → exec (.header (.slotBit l)) s₀ = .next { s with
        link := { s.link with slot := [m, l] }
        initiator := { s.initiator with
          phase := if 0 < h.blocks ∧ (h.collective = true ∨ m = .dominant ∧ l = .dominant) then .data
            else .headerSlot } }))

/-- R3, R16 to R19, R90 to R92, R121: a block and its slot, for each role in its data phase: what the node drives in
the slot, the block delivered or counted as NAK, the fifth NAK, by its block slot or its own row, which abandons the
telegram (in STOPPING for OFFLINE, R36), and a bit the node drives sampled otherwise, with the effect of BIT_ERROR
(log entries 9 and 26). What a commit has
spared is over with each row of the link (log entry 28). -/
def Obligations.BlocksAreDeliveredOrNaked : Prop :=
  ∀ (s₀ : State) (data : Vector Byte 8) (check : Byte) (x y : Level),
    let s := { s₀ with ticks := { s₀.ticks with spared := [] } }
    s.mode = .running →
    s.link.slot.length = 2 →
    let block := Instr.blockSlot data check x y
    let answer := fun passes : Bool =>
      if passes then (Level.dominant, Level.dominant) else (.recessive, .recessive)
    let silent := (Level.recessive, Level.recessive)
    (∀ h, s.link.role = .target h .ack → s.responder.blockIndex < h.blocks →
      let k := s.responder.blockIndex
      let bytes := data.toList.take (min 8 (h.dataBytes - 8 * k))
      let sent := match s.responder.snapshot with
        | some record => record
        | none => (List.range (min 8 (h.dataBytes - 8 * k))).map fun i =>
          s.pageMem.read (64 * h.pageNumber.val + (h.offset.toNat + 8 * k) + i)
      let asSent := bytes = sent ∧ check = crc sent
      let advanced := { s.responder with blockIndex := k + 1 }
      let naked := { s with responder := { s.responder with nakCount := s.responder.nakCount + 1 } }
      let nak := h.initiatorSends = true ∧ check ≠ crc bytes ∧ (x, y) = silent ∨
        h.initiatorSends = false ∧ asSent ∧ (x, y) ≠ answer true
      (∀ passes, s.blockSlotDriven passes = if h.initiatorSends then answer passes else silent) ∧
      (h.initiatorSends = true → check = crc bytes → (x, y) = answer true →
        exec block s₀ = .next { s with
          responder := { advanced with staging := s.responder.staging ++ bytes } }) ∧
      (h.initiatorSends = false → asSent → (x, y) = answer true →
        exec block s₀ = .next { s with responder := advanced }) ∧
      (nak → s.responder.nakCount < 4 → exec block s₀ = .next naked) ∧
      (s.responder.nakCount = 4 → ∃ t, exec .resendExhaustion s₀ = .next (t.partOver .bystander) ∧
        (nak → exec block s₀ = .next (t.partOver .bystander)) ∧ t = naked.abandonAccepted ∧
        t.responder.marker = .clear ∧ t.responder.staging = [] ∧ t.responder.snapshot = none ∧
        t.link = s.link ∧ t.pageMem = s.pageMem ∧ t.inbound.ring = s.inbound.ring ∧
        t.inbound.committedRecords = s.inbound.committedRecords) ∧
      (h.initiatorSends = true → (x, y) ≠ answer (check == crc bytes) →
        exec block s₀ = exec .bitError s₀) ∧
      (h.initiatorSends = false → ¬asSent → exec block s₀ = exec .bitError s₀)) ∧
    (∀ h, s.link.role = .member h true → s.responder.blockIndex < h.blocks →
      let k := s.responder.blockIndex
      let bytes := data.toList.take (min 8 (h.dataBytes - 8 * k))
      (∀ passes, s.blockSlotDriven passes = (if passes then .recessive else .dominant, .recessive)) ∧
      (check = crc bytes → exec block s₀ = .next { s with
        responder := { s.responder with
          blockIndex := k + 1, staging := s.responder.staging ++ bytes } }) ∧
      (check ≠ crc bytes → ∃ t, exec block s₀ = .next (t.partOver .bystander) ∧
        t = State.abandonAccepted { s with
          responder := { s.responder with lastReason := .blockCheck, lastInitiator := h.initiator } } ∧
        t.responder.marker = .clear ∧ t.responder.staging = [] ∧ t.responder.lastReason = .blockCheck ∧
        t.responder.lastInitiator = h.initiator ∧ t.link = s.link ∧ t.pageMem = s.pageMem)) ∧
    (∀ j h, s.link.role = .initiator j h → s.initiator.phase = .data →
      s.initiator.blockIndex < h.blocks →
      let k := s.initiator.blockIndex
      let n := min 8 (h.dataBytes - 8 * k)
      let bytes := data.toList.take n
      let sent := (List.range n).map fun i => s.pool.read ((s.job j).bufferAddress (8 * k + i))
      let asSent := bytes = sent ∧ check = crc sent
      let advanced := { s.initiator with blockIndex := k + 1 }
      let resent := { s.initiator with resendCount := s.initiator.resendCount + 1 }
      let nak := h.initiatorSends = true ∧ h.collective = false ∧ asSent ∧ (x, y) ≠ answer true ∨
        h.initiatorSends = false ∧ check ≠ crc bytes ∧ (x, y) = silent
      (∀ passes, s.blockSlotDriven passes = if h.initiatorSends then silent else answer passes) ∧
      (h.collective = true → h.initiatorSends = true → asSent →
        exec block s₀ = .next { s with
          initiator := { advanced with dissent := s.initiator.dissent || x == .dominant } }) ∧
      (h.collective = false → h.initiatorSends = true → asSent → (x, y) = answer true →
        exec block s₀ = .next { s with initiator := advanced }) ∧
      (nak → s.initiator.resendCount < 4 → exec block s₀ = .next { s with initiator := resent }) ∧
      (h.initiatorSends = false → check = crc bytes → (x, y) = answer true →
        s.memoryForm → (s.job j).blocks.Nodup → 8 * k + n ≤ 8 * (s.job j).blocks.length →
        ∃ pool, exec block s₀ = .next { s with initiator := advanced, pool := pool } ∧
          (∀ i (hi : i < n) (h8 : i < 8),
            pool.read ((s.job j).bufferAddress (8 * k + i)) = data[i]) ∧
          (∀ a, (∀ i < n, a ≠ (s.job j).bufferAddress (8 * k + i)) → pool.read a = s.pool.read a)) ∧
      (h.collective = false → s.initiator.resendCount = 4 →
        let u := s.takeOutcome j .resendExhaustion
        exec .resendExhaustion s₀ = .next (u.partOver .bystander) ∧
        (nak → exec block s₀ = .next (u.partOver .bystander))) ∧
      (h.collective = true ∨ s.link.slot = [.dominant, .dominant] →
        (h.initiatorSends = true → ¬asSent → exec block s₀ = exec .bitError s₀) ∧
        (h.initiatorSends = false → (x, y) ≠ answer (check == crc bytes) →
          exec block s₀ = exec .bitError s₀)))

/-- R20, R28, R94, R95 (R53, R57, R64, R66 to R68, R104), R71: the normal end of an accepted telegram applies all its
effects in one step, with its notices in order, a pending expiry last (unless the telegram renews or releases the
claim), and lowers the count. R14, R23, R121: the normal end of the node's own telegram gives its attempt the outcome
the slot says. A header answered BUSY or REFUSE has no effect at its end. R33, R36: in STOPPING the node then enters
OFFLINE, after the notices of the telegram. What a commit has
spared is over with each row of the link (log entry 28). -/
def Obligations.NormalEndAppliesTheEffects : Prop :=
  ∀ s₀ : State,
    let s := { s₀ with ticks := { s₀.ticks with spared := [] } }
    s.mode = .running → s.link.slot.length = 2 →
    let clean := fun u : State => { u with link := { u.link with txErrors := u.link.txErrors - 1 } }
    (∀ j h, s.link.role = .initiator j h → ∀ x y, s.link.slot = [x, y] →
      (h.collective = false ∧ ¬(x = .dominant ∧ y = .dominant)) ∨ s.initiator.blockIndex = h.blocks →
      let outcome : Attempt := if h.collective then .normalEnd
        else if x = .recessive ∧ y = .recessive then .silence
        else if x = .dominant ∧ y = .recessive then .busy
        else if x = .recessive ∧ y = .dominant then .refuse else .normalEnd
      exec .normalEnd s₀ = .next ((clean (s.takeOutcome j outcome)).partOver .idle)) ∧
    (∀ h a, s.link.role = .target h a → a ≠ .ack →
      exec .normalEnd s₀ = .next ((clean s).partOver .idle)) ∧
    ∀ h, s.link.role = .target h .ack ∨ s.link.role = .member h true →
    s.responder.blockIndex = h.blocks → s.memoryForm →
    let op := Operation.ofCode h.operation
    let p := h.pageNumber
    let e := s.page p
    let mine := e.holder = .node h.initiator
    let note := fun (kind : EventKind) (detail : Byte) (u : EventUnit) =>
      u.post ⟨kind, byte p.val, h.initiator.setWidth 8, detail⟩ s.ticks.stamp
    let consumed := if e.mode = .deferred ∧ e.lifetime = 0 then
      { e with freshness := .stale, countdown := 0 } else e
    let written := { e with sequence := e.sequence + 1 }
    let lands := fun m : Memory => ∀ a, m.read a =
      (if 64 * p.val + h.offset.toNat ≤ a ∧
          a < 64 * p.val + h.offset.toNat + s.responder.staging.length ∧ a < 4096 then
        s.responder.staging.getD (a - (64 * p.val + h.offset.toNat)) 0
      else s.pageMem.read a)
    let leaves := fun (t : State) (last : PageEntry) (events : EventUnit) =>
      (∀ a, last.holder = .node a → last.lease = 0 →
        t.pages = s.pages.set p { last with holder := .none, lease := 0 } ∧
        t.events = events.post ⟨.claimExpired, byte p.val, a.setWidth 8, 2⟩ s.ticks.stamp) ∧
      ((∀ a, last.holder = .node a → last.lease ≠ 0) →
        t.pages = s.pages.set p last ∧ t.events = events)
    ∃ t, exec .normalEnd s₀ = .next (t.partOver .idle) ∧
      t = clean { s with
        responder := { s.responder with marker := .clear, staging := [], snapshot := none }
        pages := t.pages, pageMem := t.pageMem, inbound := t.inbound, events := t.events } ∧
      (op ≠ some .message → t.inbound = s.inbound) ∧
      (op ∉ [some .write, some .writeRelease] → t.pageMem = s.pageMem) ∧
      (op ∈ [some .message, some .status, none] → t.pages = s.pages ∧ t.events = s.events) ∧
      (op = some .read →
        leaves t (if mine then { consumed with lease := s.cfg.lease } else consumed) s.events) ∧
      (op = some .write → lands t.pageMem ∧
        leaves t (if mine ∧ h.collective = false then { written with lease := s.cfg.lease } else written)
          (note .pageWritten (e.sequence + 1) s.events)) ∧
      (op = some .claim ∨ op = some .readClaim →
        let base := if op = some .readClaim then consumed else e
        (e.holder = .none → leaves t
          { base with holder := .node h.initiator, lease := s.cfg.lease }
          (note .claimTaken (byte s.cfg.lease) s.events)) ∧
        (mine → leaves t { base with lease := s.cfg.lease } s.events)) ∧
      (op = some .release ∧ mine → leaves t { e with holder := .none, lease := 0 }
        (note .claimReleased (h.operation.setWidth 8) s.events)) ∧
      (op = some .writeRelease → lands t.pageMem ∧
        (mine → leaves t { written with holder := .none, lease := 0 }
          (note .claimReleased (h.operation.setWidth 8)
            (note .pageWritten (e.sequence + 1) s.events))) ∧
        (¬mine → leaves t written (note .pageWritten (e.sequence + 1) s.events))) ∧
      (op = some .message → ∀ r, s.inbound.reservation = some r →
        let record : List Byte :=
          [if r.header.group then 2 else if r.header.target = 127 then 3 else 1,
            r.header.initiator.setWidth 8, BitVec.ofBool r.header.group ++ r.header.target,
            r.header.length.setWidth 8, s.ticks.stamp.extractLsb' 8 8, s.ticks.stamp.extractLsb' 0 8] ++
          s.responder.staging
        ∃ ring,
          t.inbound = { s.inbound with
            ring := ring
            committedBytes := s.inbound.committedBytes + r.size
            committedRecords := s.inbound.committedRecords + 1
            reservation := none } ∧
          (record.length ≤ 1024 →
            ∀ k (hk : k < record.length), ring.read ((r.start + k) % 1024) = record[k]) ∧
          ∀ a, (∀ k < record.length, a ≠ (r.start + k) % 1024) → ring.read a = s.inbound.ring.read a)

/-- R7, R18, R20, R21, R28 to R31, R36, R97: how a part in a telegram ends short of its normal end. The node's own
attempt takes its outcome, an accepted telegram is discarded; a bit error is counted, and the eighth makes the node
FAULTED; in STOPPING the end of the part is OFFLINE; a stuck line makes the node FAULTED and holds its timer. R20: where
the legitimate end of the node's part is, from which on none of these comes to it. That a bit error can come to an
initiator in the header slot too is log entry 27. What a commit has spared is over with each row of the link (log
entry 28). -/
def Obligations.PartsEndAsTheRulesSay : Prop :=
  ∀ s₀ : State,
    let s := { s₀ with ticks := { s₀.ticks with spared := [] } }
    s.mode = .running →
    let errors := fun n : Nat => { s with link := { s.link with txErrors := n } }
    let faults := fun (u : State) (c : Cause) => { u with
      link := { u.link with
        state := .faulted, role := .idle, slot := [], gap := .notRunning
        dominance := if c = .stuck then .exceeded else .running, recoveryTimer := 64 }
      events := u.events.post
        ⟨.linkState, LinkState.faulted.code, u.cfg.address.setWidth 8, c.code⟩ u.ticks.stamp }
    (∀ j h, s.link.role = .contender j h →
      exec .arbitrationLost s₀ = .next ((s.takeOutcome j .arbitrationLost).partOver .receiving)) ∧
    (∀ j h, s.link.role = .contender j h ∨ s.link.role = .initiator j h → s.atEnd = false →
      let n := s.link.txErrors + 1
      let u := (errors n).takeOutcome j .bitError
      (n < 8 → exec .bitError s₀ = .next (u.partOver .bystander) ∧
        exec .lossOfSyncEdges s₀ = .next (u.partOver .idle)) ∧
      (n = 8 → ∀ i ∈ [Instr.bitError, .lossOfSyncEdges], exec i s₀ =
        .next (faults ((errors 8).takeOutcome j .linkLost) .bitErrors))) ∧
    (∀ h a, s.link.role = .target h a → s.atEnd = false →
      let n := s.link.txErrors + 1
      let u := (errors n).abandonAccepted
      (n < 8 → exec .bitError s₀ = .next (u.partOver .bystander)) ∧
      (n = 8 → exec .bitError s₀ = .next (faults u .bitErrors))) ∧
    (∀ h, (∃ a, s.link.role = .target h a) ∨ (∃ a, s.link.role = .member h a) → s.atEnd = false →
      exec .lossOfSyncEdges s₀ = .next (s.abandonAccepted.partOver .idle)) ∧
    (s.link.role = .receiving ∨ s.link.role = .bystander →
      exec .lossOfSyncEdges s₀ = .next (s.partOver .idle)) ∧
    (s.link.role = .idle →
      (s.link.state = .syncing ∨ s.link.state = .online →
        exec .stuckDominant s₀ = .next (faults s .stuck)) ∧
      (s.link.state = .faulted → exec .stuckDominant s₀ = .next { s with link := { s.link with
        dominance := .exceeded, recoveryTimer := 64 } }) ∧
      (s.link.state = .offline → exec .stuckDominant s₀ = .next s)) ∧
    (∀ p, s.responder.marker = .page p → (∀ a, (s.page p).holder = .node a → (s.page p).lease ≠ 0) →
      s.abandonAccepted = { s with
        responder := { s.responder with marker := .clear, staging := [], snapshot := none } }) ∧
    (∀ p a, s.responder.marker = .page p → (s.page p).holder = .node a → (s.page p).lease = 0 →
      s.abandonAccepted = { s with
        responder := { s.responder with marker := .clear, staging := [], snapshot := none }
        pages := s.pages.set p { s.page p with holder := .none, lease := 0 }
        events := s.events.post ⟨.claimExpired, byte p.val, a.setWidth 8, 2⟩ s.ticks.stamp }) ∧
    (s.responder.marker = .inbound → s.abandonAccepted = { s with
      responder := { s.responder with marker := .clear, staging := [], snapshot := none }
      inbound := { s.inbound with reservation := none } }) ∧
    (s.responder.marker = .clear → s.abandonAccepted = { s with
      responder := { s.responder with marker := .clear, staging := [], snapshot := none } }) ∧
    (s.atEnd = true ↔ s.link.slot.length = 2 ∧
      ((∃ h a, s.link.role = .target h a ∧ (a ≠ .ack ∨ s.responder.blockIndex = h.blocks)) ∨
        (∃ h, s.link.role = .member h true ∧ s.responder.blockIndex = h.blocks) ∨
        ∃ j h, s.link.role = .initiator j h ∧
          (h.collective = false ∧ s.link.slot ≠ [.dominant, .dominant] ∨ s.initiator.blockIndex = h.blocks)))

/-- R31 to R33, R40, R57, R69, R70, R125, R129, R132: a tick advances the stamp and takes one step of every
countdown whose share of it has not been taken yet, each once, in some order (R40 leaves it open; the list of shares
already taken is the model's own, log entry 5). What the tick posts, with the stamp it has advanced to (log entry
6): CLAIM_EXPIRED with detail 1 for a lease that ends, LINK_STATE with cause RECOVERY, a completion record for a job
that expires. A job whose retry countdown ends goes to the tail of its list. Nothing else changes. R58: a commit and
then the tick at the same moment: FRESH with the whole lifetime where the window would have ended, one less where
the FRESH countdown stepped, and FRESH in any case (what counts as the same moment, and that a lifetime of 1 is
spared, is the model's choice, log entry 28). -/
def Obligations.TickTakesOneStepOfEveryCountdown : Prop :=
  (∀ (s : State) (p : Params) (pg : Page) order stuck, s.inProgress 0x13 p → pg.val = p[0].toNat →
    let e := s.page pg
    e.mode = .deferred → s.inFlight pg = false → e.holder.remote = false ∨ p[1].getLsbD 0 = true →
    p[1].getLsbD 1 = false ∨ e.sequence = p[2] → .freshness pg ∉ s.ticks.taken →
    pg ∉ s.ticks.spared →
    ∃ t u, exec .pageCommit s = .next t ∧ exec (.tick order stuck) t = .next u ∧
      (e.freshness = .requested → e.countdown = 1 →
        (u.page pg).freshness = .fresh ∧ (u.page pg).countdown = e.lifetime) ∧
      (e.freshness = .fresh → 1 < e.lifetime →
        (u.page pg).freshness = .fresh ∧ (u.page pg).countdown = e.lifetime - 1) ∧
      (e.freshness = .fresh → e.lifetime = 1 → e.countdown = 1 → (u.page pg).freshness = .fresh)) ∧
  (∀ (s t : State) (i : Instr), s.mode = .running →
    i ∈ [Instr.enterOnline, .transmitOpportunity, .startMarker, .arbitrationLost, .resendExhaustion, .bitError,
        .lossOfSyncEdges, .normalEnd, .stuckDominant, .gapMeasurementRestart] ∨
      (∃ part, i = .header part) ∨ (∃ data check x y, i = .blockSlot data check x y) →
    exec i s = .next t → t.ticks = { s.ticks with spared := [] }) ∧
  ∀ (s : State) order stuck, s.mode = .running →
    let toCome := fun x : TickShare => x ∉ s.ticks.taken
    let stamp := s.ticks.stamp + 1
    let recovers := toCome .recovery ∧ s.link.state = .faulted ∧ stuck = false ∧ s.link.recoveryTimer = 1 ∧
      s.cfg.autoRecover = true
    let lapses := fun p => toCome (.lease p) ∧ (s.page p).holder.remote = true ∧ (s.page p).lease = 1 ∧
      s.inFlight p = false
    let ages := fun p => toCome (.freshness p) ∧ (s.page p).mode = .deferred ∧ (s.page p).freshness ≠ .stale ∧
      ((s.page p).freshness = .requested ∨ p ∉ s.ticks.spared)
    let runs := fun j => toCome (.deadline j) ∧ (s.job j).pending = true ∧ (s.job j).deadline ≠ 0
    let expires := fun j => runs j ∧ (s.job j).state ≠ .active ∧ (s.job j).deadlineRemaining = 1
    let waits := fun j => toCome (.retry j) ∧ (s.job j).state = .waiting
    let returns := fun j => waits j ∧ (s.job j).retryCountdown ≤ 1 ∧ ¬expires j
    let notice : TickShare → Option Notice
      | .recovery =>
        if recovers then some ⟨.linkState, LinkState.syncing.code, s.cfg.address.setWidth 8, Cause.recovery.code⟩
        else none
      | .lease p => if lapses p then some ⟨.claimExpired, byte p.val, (s.page p).holder.code, 1⟩ else none
      | .freshness _ | .deadline _ | .retry _ => none
    let record : TickShare → Option CompletionRecord
      | .deadline j =>
        if expires j then some ⟨jobTag j (s.job j).generation, .expired, (s.job j).attempts, 0,
          (s.job j).busyResponses, (s.job j).lastResponse, stamp⟩
        else none
      | .recovery | .lease _ | .freshness _ | .retry _ => none
    let returned : TickShare → Option Slot
      | .retry j => if returns j then some j else none
      | .recovery | .lease _ | .freshness _ | .deadline _ => none
    ∃ shares : List TickShare, shares.Nodup ∧ (∀ x, x ∈ shares ↔ toCome x) ∧
    ∃ t, exec (.tick order stuck) s = .next t ∧
      t = { s with
        ticks := ⟨0, stamp, [], []⟩
        link := if ¬toCome .recovery ∨ s.link.state ≠ .faulted then s.link
          else if stuck then { s.link with dominance := .exceeded, recoveryTimer := 64 }
          else if recovers then ⟨.syncing, .idle, [], .running, .running, 0, 0, some .recovery⟩
          else { s.link with dominance := .running, recoveryTimer := s.link.recoveryTimer - 1 }
        pages := t.pages
        jobs := t.jobs
        lists := t.lists
        submission := s.submission.filter fun j => ¬expires j
        completions := { s.completions with
          records := s.completions.records ++ shares.filterMap record }
        events := (shares.filterMap notice).foldl (fun u n => u.post n stamp) s.events } ∧
      (∀ p, t.page p = { s.page p with
        holder := if lapses p then .none else (s.page p).holder
        lease := if toCome (.lease p) ∧ (s.page p).holder.remote = true then (s.page p).lease - 1
          else (s.page p).lease
        freshness := if ages p ∧ (s.page p).countdown = 1 then .stale else (s.page p).freshness
        countdown := if ages p then (s.page p).countdown - 1 else (s.page p).countdown }) ∧
      (∀ j, t.job j = if expires j then { s.job j with
            state := .complete, deadlineRemaining := 0, retryCountdown := 0, result := .expired
            bytesDone := 0, unread := true }
          else { s.job j with
            state := if returns j then .queued else (s.job j).state
            deadlineRemaining := if runs j then (s.job j).deadlineRemaining - 1
              else (s.job j).deadlineRemaining
            expiryRequested := if runs j ∧ (s.job j).deadlineRemaining = 1 then true
              else (s.job j).expiryRequested
            retryCountdown := if waits j then (s.job j).retryCountdown - 1
              else (s.job j).retryCountdown }) ∧
      ∀ pr, t.list pr = ((s.list pr).filter fun j => ¬(expires j ∧ (s.job j).priority = pr)) ++
        (shares.filterMap returned).filter fun j => (s.job j).priority = pr

/-- R32, R57, R69, R70, R125, R129: each expiry row takes its one countdown from 1 to 0 with the effect of that,
outside the tick's other shares, and marks its share of the tick as taken (log entry 5); a page that a commit at the
same moment has spared keeps its FRESH countdown (R58, log entry 28). -/
def Obligations.ExpiryRowsTakeTheirShare : Prop :=
  ∀ s : State, s.mode = .running →
    let takes := fun (x : TickShare) (u : State) =>
      { u with ticks := { u.ticks with taken := x :: u.ticks.taken } }
    (s.link.state = .faulted → s.link.recoveryTimer = 1 → .recovery ∉ s.ticks.taken →
      exec .recoveryTimerExpiry s = .next (takes .recovery
        (if s.cfg.autoRecover then { s with
          link := ⟨.syncing, .idle, [], .running, .running, 0, 0, some .recovery⟩
          events := s.events.post ⟨.linkState, LinkState.syncing.code,
            s.cfg.address.setWidth 8, Cause.recovery.code⟩ s.ticks.stamp }
        else { s with link := { s.link with dominance := .running, recoveryTimer := 0 } }))) ∧
    (∀ p a, (s.page p).holder = .node a → (s.page p).lease = 1 → .lease p ∉ s.ticks.taken →
      (s.inFlight p = false → exec (.leaseExpiry p) s = .next (takes (.lease p) { s with
        pages := s.pages.set p { s.page p with holder := .none, lease := 0 }
        events := s.events.post ⟨.claimExpired, byte p.val, a.setWidth 8, 1⟩ s.ticks.stamp })) ∧
      (s.inFlight p = true → exec (.pendingExpiry p) s = .next (takes (.lease p) { s with
        pages := s.pages.set p { s.page p with lease := 0 } }))) ∧
    (∀ p, (s.page p).mode = .deferred → (s.page p).countdown = 1 → .freshness p ∉ s.ticks.taken →
      let lapsed := takes (.freshness p) { s with
        pages := s.pages.set p { s.page p with freshness := .stale, countdown := 0 } }
      ((s.page p).freshness = .requested → exec (.refreshWindowExpiry p) s = .next lapsed) ∧
      ((s.page p).freshness = .fresh → p ∉ s.ticks.spared →
        exec (.freshLifetimeExpiry p) s = .next lapsed) ∧
      ((s.page p).freshness = .fresh → p ∈ s.ticks.spared →
        exec (.freshLifetimeExpiry p) s = .next s)) ∧
    (∀ j, (s.job j).deadline ≠ 0 → (s.job j).deadlineRemaining = 1 → .deadline j ∉ s.ticks.taken →
      let counted := { s with jobs := s.jobs.set j { s.job j with deadlineRemaining := 0 } }
      ((s.job j).state = .queued ∨ (s.job j).state = .waiting →
        exec (.deadlineExpiry j) s = .next (takes (.deadline j) (counted.completeJob j .expired))) ∧
      ((s.job j).state = .active →
        exec (.deadlineExpiry j) s = .next (takes (.deadline j) { s with
          jobs := s.jobs.set j { s.job j with deadlineRemaining := 0, expiryRequested := true } }))) ∧
    ∀ j, (s.job j).state = .waiting → (s.job j).retryCountdown = 1 → .retry j ∉ s.ticks.taken →
      ((s.job j).deadline = 0 ∨ (s.job j).deadlineRemaining ≠ 1 ∨ .deadline j ∈ s.ticks.taken) →
      exec (.retryCountdownExpiry j) s = .next (takes (.retry j) { s with
        jobs := s.jobs.set j { s.job j with state := .queued, retryCountdown := 0 }
        lists := s.lists.set (s.job j).priority.toFin (s.list (s.job j).priority ++ [j]) })
end

