-- ==== Sys2Proof/Laws/State.lean ====
section
/-!
SUPPORT. The updates of State: what each of the six elementary ones leaves in each field, so that no proof
unfolds a record update.
-/

namespace Sys2Proof.Machine

/-! ### setPage -/

@[simp] theorem setPage_pending (s : State) (p : Page) (e : PageEntry) :
    (s.setPage p e).pending = s.pending := rfl
@[simp] theorem setPage_mode (s : State) (p : Page) (e : PageEntry) :
    (s.setPage p e).mode = s.mode := rfl
@[simp] theorem setPage_port (s : State) (p : Page) (e : PageEntry) :
    (s.setPage p e).port = s.port := rfl
@[simp] theorem setPage_lastRead (s : State) (p : Page) (e : PageEntry) :
    (s.setPage p e).lastRead = s.lastRead := rfl
@[simp] theorem setPage_cfg (s : State) (p : Page) (e : PageEntry) : (s.setPage p e).cfg = s.cfg := rfl
@[simp] theorem setPage_groups (s : State) (p : Page) (e : PageEntry) :
    (s.setPage p e).groups = s.groups := rfl
@[simp] theorem setPage_link (s : State) (p : Page) (e : PageEntry) :
    (s.setPage p e).link = s.link := rfl
@[simp] theorem setPage_ticks (s : State) (p : Page) (e : PageEntry) :
    (s.setPage p e).ticks = s.ticks := rfl
@[simp] theorem setPage_pages (s : State) (p : Page) (e : PageEntry) :
    (s.setPage p e).pages = s.pages.set p e := rfl
@[simp] theorem setPage_pageMem (s : State) (p : Page) (e : PageEntry) :
    (s.setPage p e).pageMem = s.pageMem := rfl
@[simp] theorem setPage_responder (s : State) (p : Page) (e : PageEntry) :
    (s.setPage p e).responder = s.responder := rfl
@[simp] theorem setPage_inbound (s : State) (p : Page) (e : PageEntry) :
    (s.setPage p e).inbound = s.inbound := rfl
@[simp] theorem setPage_jobs (s : State) (p : Page) (e : PageEntry) :
    (s.setPage p e).jobs = s.jobs := rfl
@[simp] theorem setPage_pool (s : State) (p : Page) (e : PageEntry) :
    (s.setPage p e).pool = s.pool := rfl
@[simp] theorem setPage_lists (s : State) (p : Page) (e : PageEntry) :
    (s.setPage p e).lists = s.lists := rfl
@[simp] theorem setPage_submission (s : State) (p : Page) (e : PageEntry) :
    (s.setPage p e).submission = s.submission := rfl
@[simp] theorem setPage_completions (s : State) (p : Page) (e : PageEntry) :
    (s.setPage p e).completions = s.completions := rfl
@[simp] theorem setPage_initiator (s : State) (p : Page) (e : PageEntry) :
    (s.setPage p e).initiator = s.initiator := rfl
@[simp] theorem setPage_peers (s : State) (p : Page) (e : PageEntry) :
    (s.setPage p e).peers = s.peers := rfl
@[simp] theorem setPage_events (s : State) (p : Page) (e : PageEntry) :
    (s.setPage p e).events = s.events := rfl

/-! ### setJob -/

@[simp] theorem setJob_pending (s : State) (j : Slot) (job : JobSlot) :
    (s.setJob j job).pending = s.pending := rfl
@[simp] theorem setJob_mode (s : State) (j : Slot) (job : JobSlot) :
    (s.setJob j job).mode = s.mode := rfl
@[simp] theorem setJob_port (s : State) (j : Slot) (job : JobSlot) :
    (s.setJob j job).port = s.port := rfl
@[simp] theorem setJob_lastRead (s : State) (j : Slot) (job : JobSlot) :
    (s.setJob j job).lastRead = s.lastRead := rfl
@[simp] theorem setJob_cfg (s : State) (j : Slot) (job : JobSlot) : (s.setJob j job).cfg = s.cfg := rfl
@[simp] theorem setJob_groups (s : State) (j : Slot) (job : JobSlot) :
    (s.setJob j job).groups = s.groups := rfl
@[simp] theorem setJob_link (s : State) (j : Slot) (job : JobSlot) :
    (s.setJob j job).link = s.link := rfl
@[simp] theorem setJob_ticks (s : State) (j : Slot) (job : JobSlot) :
    (s.setJob j job).ticks = s.ticks := rfl
@[simp] theorem setJob_pages (s : State) (j : Slot) (job : JobSlot) :
    (s.setJob j job).pages = s.pages := rfl
@[simp] theorem setJob_pageMem (s : State) (j : Slot) (job : JobSlot) :
    (s.setJob j job).pageMem = s.pageMem := rfl
@[simp] theorem setJob_responder (s : State) (j : Slot) (job : JobSlot) :
    (s.setJob j job).responder = s.responder := rfl
@[simp] theorem setJob_inbound (s : State) (j : Slot) (job : JobSlot) :
    (s.setJob j job).inbound = s.inbound := rfl
@[simp] theorem setJob_jobs (s : State) (j : Slot) (job : JobSlot) :
    (s.setJob j job).jobs = s.jobs.set j job := rfl
@[simp] theorem setJob_pool (s : State) (j : Slot) (job : JobSlot) :
    (s.setJob j job).pool = s.pool := rfl
@[simp] theorem setJob_lists (s : State) (j : Slot) (job : JobSlot) :
    (s.setJob j job).lists = s.lists := rfl
@[simp] theorem setJob_submission (s : State) (j : Slot) (job : JobSlot) :
    (s.setJob j job).submission = s.submission := rfl
@[simp] theorem setJob_completions (s : State) (j : Slot) (job : JobSlot) :
    (s.setJob j job).completions = s.completions := rfl
@[simp] theorem setJob_initiator (s : State) (j : Slot) (job : JobSlot) :
    (s.setJob j job).initiator = s.initiator := rfl
@[simp] theorem setJob_peers (s : State) (j : Slot) (job : JobSlot) :
    (s.setJob j job).peers = s.peers := rfl
@[simp] theorem setJob_events (s : State) (j : Slot) (job : JobSlot) :
    (s.setJob j job).events = s.events := rfl

/-! ### setList -/

@[simp] theorem setList_pending (s : State) (p : BitVec 2) (l : List Slot) :
    (s.setList p l).pending = s.pending := rfl
@[simp] theorem setList_mode (s : State) (p : BitVec 2) (l : List Slot) :
    (s.setList p l).mode = s.mode := rfl
@[simp] theorem setList_port (s : State) (p : BitVec 2) (l : List Slot) :
    (s.setList p l).port = s.port := rfl
@[simp] theorem setList_lastRead (s : State) (p : BitVec 2) (l : List Slot) :
    (s.setList p l).lastRead = s.lastRead := rfl
@[simp] theorem setList_cfg (s : State) (p : BitVec 2) (l : List Slot) :
    (s.setList p l).cfg = s.cfg := rfl
@[simp] theorem setList_groups (s : State) (p : BitVec 2) (l : List Slot) :
    (s.setList p l).groups = s.groups := rfl
@[simp] theorem setList_link (s : State) (p : BitVec 2) (l : List Slot) :
    (s.setList p l).link = s.link := rfl
@[simp] theorem setList_ticks (s : State) (p : BitVec 2) (l : List Slot) :
    (s.setList p l).ticks = s.ticks := rfl
@[simp] theorem setList_pages (s : State) (p : BitVec 2) (l : List Slot) :
    (s.setList p l).pages = s.pages := rfl
@[simp] theorem setList_pageMem (s : State) (p : BitVec 2) (l : List Slot) :
    (s.setList p l).pageMem = s.pageMem := rfl
@[simp] theorem setList_responder (s : State) (p : BitVec 2) (l : List Slot) :
    (s.setList p l).responder = s.responder := rfl
@[simp] theorem setList_inbound (s : State) (p : BitVec 2) (l : List Slot) :
    (s.setList p l).inbound = s.inbound := rfl
@[simp] theorem setList_jobs (s : State) (p : BitVec 2) (l : List Slot) :
    (s.setList p l).jobs = s.jobs := rfl
@[simp] theorem setList_pool (s : State) (p : BitVec 2) (l : List Slot) :
    (s.setList p l).pool = s.pool := rfl
@[simp] theorem setList_lists (s : State) (p : BitVec 2) (l : List Slot) :
    (s.setList p l).lists = s.lists.set p.toFin l := rfl
@[simp] theorem setList_submission (s : State) (p : BitVec 2) (l : List Slot) :
    (s.setList p l).submission = s.submission := rfl
@[simp] theorem setList_completions (s : State) (p : BitVec 2) (l : List Slot) :
    (s.setList p l).completions = s.completions := rfl
@[simp] theorem setList_initiator (s : State) (p : BitVec 2) (l : List Slot) :
    (s.setList p l).initiator = s.initiator := rfl
@[simp] theorem setList_peers (s : State) (p : BitVec 2) (l : List Slot) :
    (s.setList p l).peers = s.peers := rfl
@[simp] theorem setList_events (s : State) (p : BitVec 2) (l : List Slot) :
    (s.setList p l).events = s.events := rfl

/-! ### postNotice -/

@[simp] theorem postNotice_pending (s : State) (n : Notice) : (s.postNotice n).pending = s.pending := rfl
@[simp] theorem postNotice_mode (s : State) (n : Notice) : (s.postNotice n).mode = s.mode := rfl
@[simp] theorem postNotice_port (s : State) (n : Notice) : (s.postNotice n).port = s.port := rfl
@[simp] theorem postNotice_lastRead (s : State) (n : Notice) :
    (s.postNotice n).lastRead = s.lastRead := rfl
@[simp] theorem postNotice_cfg (s : State) (n : Notice) : (s.postNotice n).cfg = s.cfg := rfl
@[simp] theorem postNotice_groups (s : State) (n : Notice) : (s.postNotice n).groups = s.groups := rfl
@[simp] theorem postNotice_link (s : State) (n : Notice) : (s.postNotice n).link = s.link := rfl
@[simp] theorem postNotice_ticks (s : State) (n : Notice) : (s.postNotice n).ticks = s.ticks := rfl
@[simp] theorem postNotice_pages (s : State) (n : Notice) : (s.postNotice n).pages = s.pages := rfl
@[simp] theorem postNotice_pageMem (s : State) (n : Notice) : (s.postNotice n).pageMem = s.pageMem := rfl
@[simp] theorem postNotice_responder (s : State) (n : Notice) :
    (s.postNotice n).responder = s.responder := rfl
@[simp] theorem postNotice_inbound (s : State) (n : Notice) : (s.postNotice n).inbound = s.inbound := rfl
@[simp] theorem postNotice_jobs (s : State) (n : Notice) : (s.postNotice n).jobs = s.jobs := rfl
@[simp] theorem postNotice_pool (s : State) (n : Notice) : (s.postNotice n).pool = s.pool := rfl
@[simp] theorem postNotice_lists (s : State) (n : Notice) : (s.postNotice n).lists = s.lists := rfl
@[simp] theorem postNotice_submission (s : State) (n : Notice) :
    (s.postNotice n).submission = s.submission := rfl
@[simp] theorem postNotice_completions (s : State) (n : Notice) :
    (s.postNotice n).completions = s.completions := rfl
@[simp] theorem postNotice_initiator (s : State) (n : Notice) :
    (s.postNotice n).initiator = s.initiator := rfl
@[simp] theorem postNotice_peers (s : State) (n : Notice) : (s.postNotice n).peers = s.peers := rfl
@[simp] theorem postNotice_events (s : State) (n : Notice) :
    (s.postNotice n).events = s.events.post n s.ticks.stamp := rfl

/-! ### finish -/

@[simp] theorem finish_pending (s : State) (r : Result) (data : List Byte) :
    (s.finish r data).pending = s.pending := rfl
@[simp] theorem finish_mode (s : State) (r : Result) (data : List Byte) :
    (s.finish r data).mode = s.mode := rfl
@[simp] theorem finish_port (s : State) (r : Result) (data : List Byte) :
    (s.finish r data).port = s.port.finished r data := rfl
@[simp] theorem finish_lastRead (s : State) (r : Result) (data : List Byte) :
    (s.finish r data).lastRead = s.lastRead := rfl
@[simp] theorem finish_cfg (s : State) (r : Result) (data : List Byte) :
    (s.finish r data).cfg = s.cfg := rfl
@[simp] theorem finish_groups (s : State) (r : Result) (data : List Byte) :
    (s.finish r data).groups = s.groups := rfl
@[simp] theorem finish_link (s : State) (r : Result) (data : List Byte) :
    (s.finish r data).link = s.link := rfl
@[simp] theorem finish_ticks (s : State) (r : Result) (data : List Byte) :
    (s.finish r data).ticks = s.ticks := rfl
@[simp] theorem finish_pages (s : State) (r : Result) (data : List Byte) :
    (s.finish r data).pages = s.pages := rfl
@[simp] theorem finish_pageMem (s : State) (r : Result) (data : List Byte) :
    (s.finish r data).pageMem = s.pageMem := rfl
@[simp] theorem finish_responder (s : State) (r : Result) (data : List Byte) :
    (s.finish r data).responder = s.responder := rfl
@[simp] theorem finish_inbound (s : State) (r : Result) (data : List Byte) :
    (s.finish r data).inbound = s.inbound := rfl
@[simp] theorem finish_jobs (s : State) (r : Result) (data : List Byte) :
    (s.finish r data).jobs = s.jobs := rfl
@[simp] theorem finish_pool (s : State) (r : Result) (data : List Byte) :
    (s.finish r data).pool = s.pool := rfl
@[simp] theorem finish_lists (s : State) (r : Result) (data : List Byte) :
    (s.finish r data).lists = s.lists := rfl
@[simp] theorem finish_submission (s : State) (r : Result) (data : List Byte) :
    (s.finish r data).submission = s.submission := rfl
@[simp] theorem finish_completions (s : State) (r : Result) (data : List Byte) :
    (s.finish r data).completions = s.completions := rfl
@[simp] theorem finish_initiator (s : State) (r : Result) (data : List Byte) :
    (s.finish r data).initiator = s.initiator := rfl
@[simp] theorem finish_peers (s : State) (r : Result) (data : List Byte) :
    (s.finish r data).peers = s.peers := rfl
@[simp] theorem finish_events (s : State) (r : Result) (data : List Byte) :
    (s.finish r data).events = s.events := rfl

/-! ### fillStaging -/

@[simp] theorem fillStaging_pending (s : State) (bytes : List Byte) :
    (s.fillStaging bytes).pending = s.pending := rfl
@[simp] theorem fillStaging_mode (s : State) (bytes : List Byte) :
    (s.fillStaging bytes).mode = s.mode := rfl
@[simp] theorem fillStaging_port (s : State) (bytes : List Byte) :
    (s.fillStaging bytes).port = { s.port with staging := s.port.staging.writeBytes Config.stagingSize 0 bytes, dataPtr := 0 } := rfl
@[simp] theorem fillStaging_lastRead (s : State) (bytes : List Byte) :
    (s.fillStaging bytes).lastRead = s.lastRead := rfl
@[simp] theorem fillStaging_cfg (s : State) (bytes : List Byte) :
    (s.fillStaging bytes).cfg = s.cfg := rfl
@[simp] theorem fillStaging_groups (s : State) (bytes : List Byte) :
    (s.fillStaging bytes).groups = s.groups := rfl
@[simp] theorem fillStaging_link (s : State) (bytes : List Byte) :
    (s.fillStaging bytes).link = s.link := rfl
@[simp] theorem fillStaging_ticks (s : State) (bytes : List Byte) :
    (s.fillStaging bytes).ticks = s.ticks := rfl
@[simp] theorem fillStaging_pages (s : State) (bytes : List Byte) :
    (s.fillStaging bytes).pages = s.pages := rfl
@[simp] theorem fillStaging_pageMem (s : State) (bytes : List Byte) :
    (s.fillStaging bytes).pageMem = s.pageMem := rfl
@[simp] theorem fillStaging_responder (s : State) (bytes : List Byte) :
    (s.fillStaging bytes).responder = s.responder := rfl
@[simp] theorem fillStaging_inbound (s : State) (bytes : List Byte) :
    (s.fillStaging bytes).inbound = s.inbound := rfl
@[simp] theorem fillStaging_jobs (s : State) (bytes : List Byte) :
    (s.fillStaging bytes).jobs = s.jobs := rfl
@[simp] theorem fillStaging_pool (s : State) (bytes : List Byte) :
    (s.fillStaging bytes).pool = s.pool := rfl
@[simp] theorem fillStaging_lists (s : State) (bytes : List Byte) :
    (s.fillStaging bytes).lists = s.lists := rfl
@[simp] theorem fillStaging_submission (s : State) (bytes : List Byte) :
    (s.fillStaging bytes).submission = s.submission := rfl
@[simp] theorem fillStaging_completions (s : State) (bytes : List Byte) :
    (s.fillStaging bytes).completions = s.completions := rfl
@[simp] theorem fillStaging_initiator (s : State) (bytes : List Byte) :
    (s.fillStaging bytes).initiator = s.initiator := rfl
@[simp] theorem fillStaging_peers (s : State) (bytes : List Byte) :
    (s.fillStaging bytes).peers = s.peers := rfl
@[simp] theorem fillStaging_events (s : State) (bytes : List Byte) :
    (s.fillStaging bytes).events = s.events := rfl

/-! ### Reading back what was stored -/

theorem page_setPage (s : State) (p q : Page) (e : PageEntry) :
    (s.setPage p e).page q = if q = p then e else s.page q := by
  simp only [State.page, State.setPage, Fin.getElem_fin, Vector.getElem_set, Fin.val_inj]
  simp only [eq_comm]

@[simp] theorem page_setPage_self (s : State) (p : Page) (e : PageEntry) :
    (s.setPage p e).page p = e := by simp [page_setPage]

theorem job_setJob (s : State) (i j : Slot) (job : JobSlot) :
    (s.setJob i job).job j = if j = i then job else s.job j := by
  simp only [State.job, State.setJob, Fin.getElem_fin, Vector.getElem_set, Fin.val_inj]
  simp only [eq_comm]

@[simp] theorem job_setJob_self (s : State) (j : Slot) (job : JobSlot) :
    (s.setJob j job).job j = job := by simp [job_setJob]

theorem list_setList (s : State) (p q : BitVec 2) (l : List Slot) :
    (s.setList p l).list q = if q = p then l else s.list q := by
  simp only [State.list, State.setList, Fin.getElem_fin, Vector.getElem_set, Fin.val_inj,
    BitVec.toFin_inj]
  simp only [eq_comm]

@[simp] theorem list_setList_self (s : State) (p : BitVec 2) (l : List Slot) :
    (s.setList p l).list p = l := by simp [list_setList]

/-! A page, a job or a list is the same in two states whose tables are. -/

theorem page_congr {s t : State} (h : t.pages = s.pages) (p : Page) : t.page p = s.page p := by
  simp only [State.page, h]

theorem job_congr {s t : State} (h : t.jobs = s.jobs) (j : Slot) : t.job j = s.job j := by
  simp only [State.job, h]

theorem list_congr {s t : State} (h : t.lists = s.lists) (p : BitVec 2) : t.list p = s.list p := by
  simp only [State.list, h]

theorem inFlight_congr {s t : State} (h : t.responder.marker = s.responder.marker) (p : Page) :
    t.inFlight p = s.inFlight p := by simp only [State.inFlight, h]

end Sys2Proof.Machine
end

