-- ==== Sys2Proof/Laws/Frame.lean ====
section
/-!
SUPPORT. The frames of the shared operations: the fields that each leaves as they were. Simp cites them, so
that a proof about one field walks past every operation that does not touch it.
-/

namespace Sys2Proof.Machine

/-! ### The bit period of a commit -/

/-- Touches the list of spared pages alone. -/
@[simp] theorem momentOver_keeps (s : State) :
    (s.momentOver).pending = s.pending ∧ (s.momentOver).mode = s.mode ∧ (s.momentOver).link = s.link
    ∧ (s.momentOver).port = s.port ∧ (s.momentOver).lastRead = s.lastRead ∧ (s.momentOver).cfg =
    s.cfg ∧ (s.momentOver).groups = s.groups ∧ (s.momentOver).pages = s.pages ∧
    (s.momentOver).pageMem = s.pageMem ∧ (s.momentOver).responder = s.responder ∧
    (s.momentOver).inbound = s.inbound ∧ (s.momentOver).jobs = s.jobs ∧ (s.momentOver).pool = s.pool
    ∧ (s.momentOver).lists = s.lists ∧ (s.momentOver).submission = s.submission ∧
    (s.momentOver).completions = s.completions ∧ (s.momentOver).initiator = s.initiator ∧
    (s.momentOver).peers = s.peers ∧ (s.momentOver).events = s.events ∧
    s.momentOver.ticks = { s.ticks with spared := [] } := by
  simp [State.momentOver]

/-! ### Link state and telegram ends -/

/-- Touches link, events. -/
@[simp] theorem changeLink_keeps (s : State) (l : LinkEngine) (c : Cause) :
    (s.changeLink l c).pending = s.pending ∧ (s.changeLink l c).mode = s.mode ∧
    (s.changeLink l c).port = s.port ∧ (s.changeLink l c).lastRead = s.lastRead ∧
    (s.changeLink l c).cfg = s.cfg ∧ (s.changeLink l c).groups = s.groups ∧
    (s.changeLink l c).ticks = s.ticks ∧ (s.changeLink l c).pages = s.pages ∧
    (s.changeLink l c).pageMem = s.pageMem ∧ (s.changeLink l c).responder = s.responder ∧
    (s.changeLink l c).inbound = s.inbound ∧ (s.changeLink l c).jobs = s.jobs ∧
    (s.changeLink l c).pool = s.pool ∧ (s.changeLink l c).lists = s.lists ∧
    (s.changeLink l c).submission = s.submission ∧
    (s.changeLink l c).completions = s.completions ∧ (s.changeLink l c).initiator = s.initiator ∧
    (s.changeLink l c).peers = s.peers := by
  simp [State.changeLink]

/-- Touches link, events. -/
@[simp] theorem enterSyncing_keeps (s : State) (c : Cause) :
    (s.enterSyncing c).pending = s.pending ∧ (s.enterSyncing c).mode = s.mode ∧
    (s.enterSyncing c).port = s.port ∧ (s.enterSyncing c).lastRead = s.lastRead ∧
    (s.enterSyncing c).cfg = s.cfg ∧ (s.enterSyncing c).groups = s.groups ∧
    (s.enterSyncing c).ticks = s.ticks ∧ (s.enterSyncing c).pages = s.pages ∧
    (s.enterSyncing c).pageMem = s.pageMem ∧ (s.enterSyncing c).responder = s.responder ∧
    (s.enterSyncing c).inbound = s.inbound ∧ (s.enterSyncing c).jobs = s.jobs ∧
    (s.enterSyncing c).pool = s.pool ∧ (s.enterSyncing c).lists = s.lists ∧
    (s.enterSyncing c).submission = s.submission ∧
    (s.enterSyncing c).completions = s.completions ∧ (s.enterSyncing c).initiator = s.initiator ∧
    (s.enterSyncing c).peers = s.peers := by
  simp [State.enterSyncing]

/-- Touches link, events. -/
@[simp] theorem enterOffline_keeps (s : State) (c : Cause) :
    (s.enterOffline c).pending = s.pending ∧ (s.enterOffline c).mode = s.mode ∧
    (s.enterOffline c).port = s.port ∧ (s.enterOffline c).lastRead = s.lastRead ∧
    (s.enterOffline c).cfg = s.cfg ∧ (s.enterOffline c).groups = s.groups ∧
    (s.enterOffline c).ticks = s.ticks ∧ (s.enterOffline c).pages = s.pages ∧
    (s.enterOffline c).pageMem = s.pageMem ∧ (s.enterOffline c).responder = s.responder ∧
    (s.enterOffline c).inbound = s.inbound ∧ (s.enterOffline c).jobs = s.jobs ∧
    (s.enterOffline c).pool = s.pool ∧ (s.enterOffline c).lists = s.lists ∧
    (s.enterOffline c).submission = s.submission ∧
    (s.enterOffline c).completions = s.completions ∧ (s.enterOffline c).initiator = s.initiator ∧
    (s.enterOffline c).peers = s.peers := by
  simp [State.enterOffline]

/-- Touches link, events. -/
@[simp] theorem enterFaulted_keeps (s : State) (c : Cause) :
    (s.enterFaulted c).pending = s.pending ∧ (s.enterFaulted c).mode = s.mode ∧
    (s.enterFaulted c).port = s.port ∧ (s.enterFaulted c).lastRead = s.lastRead ∧
    (s.enterFaulted c).cfg = s.cfg ∧ (s.enterFaulted c).groups = s.groups ∧
    (s.enterFaulted c).ticks = s.ticks ∧ (s.enterFaulted c).pages = s.pages ∧
    (s.enterFaulted c).pageMem = s.pageMem ∧ (s.enterFaulted c).responder = s.responder ∧
    (s.enterFaulted c).inbound = s.inbound ∧ (s.enterFaulted c).jobs = s.jobs ∧
    (s.enterFaulted c).pool = s.pool ∧ (s.enterFaulted c).lists = s.lists ∧
    (s.enterFaulted c).submission = s.submission ∧
    (s.enterFaulted c).completions = s.completions ∧ (s.enterFaulted c).initiator = s.initiator ∧
    (s.enterFaulted c).peers = s.peers := by
  simp [State.enterFaulted]

/-- Touches link, events. -/
@[simp] theorem leaveTelegram_keeps (s : State) (r : Role) :
    (s.leaveTelegram r).pending = s.pending ∧ (s.leaveTelegram r).mode = s.mode ∧
    (s.leaveTelegram r).port = s.port ∧ (s.leaveTelegram r).lastRead = s.lastRead ∧
    (s.leaveTelegram r).cfg = s.cfg ∧ (s.leaveTelegram r).groups = s.groups ∧
    (s.leaveTelegram r).ticks = s.ticks ∧ (s.leaveTelegram r).pages = s.pages ∧
    (s.leaveTelegram r).pageMem = s.pageMem ∧ (s.leaveTelegram r).responder = s.responder ∧
    (s.leaveTelegram r).inbound = s.inbound ∧ (s.leaveTelegram r).jobs = s.jobs ∧
    (s.leaveTelegram r).pool = s.pool ∧ (s.leaveTelegram r).lists = s.lists ∧
    (s.leaveTelegram r).submission = s.submission ∧
    (s.leaveTelegram r).completions = s.completions ∧
    (s.leaveTelegram r).initiator = s.initiator ∧ (s.leaveTelegram r).peers = s.peers := by
  simp only [State.leaveTelegram]
  repeat' split
  all_goals simp

/-- Touches pages, events. -/
@[simp] theorem expireClaim_keeps (s : State) (p : Page) (a : Addr) (d : Byte) :
    (s.expireClaim p a d).pending = s.pending ∧ (s.expireClaim p a d).mode = s.mode ∧
    (s.expireClaim p a d).port = s.port ∧ (s.expireClaim p a d).lastRead = s.lastRead ∧
    (s.expireClaim p a d).cfg = s.cfg ∧ (s.expireClaim p a d).groups = s.groups ∧
    (s.expireClaim p a d).link = s.link ∧ (s.expireClaim p a d).ticks = s.ticks ∧
    (s.expireClaim p a d).pageMem = s.pageMem ∧ (s.expireClaim p a d).responder = s.responder ∧
    (s.expireClaim p a d).inbound = s.inbound ∧ (s.expireClaim p a d).jobs = s.jobs ∧
    (s.expireClaim p a d).pool = s.pool ∧ (s.expireClaim p a d).lists = s.lists ∧
    (s.expireClaim p a d).submission = s.submission ∧
    (s.expireClaim p a d).completions = s.completions ∧
    (s.expireClaim p a d).initiator = s.initiator ∧ (s.expireClaim p a d).peers = s.peers := by
  simp [State.expireClaim]

/-- Touches pages, events. -/
@[simp] theorem resolvePending_keeps (s : State) (p : Page) :
    (s.resolvePending p).pending = s.pending ∧ (s.resolvePending p).mode = s.mode ∧
    (s.resolvePending p).port = s.port ∧ (s.resolvePending p).lastRead = s.lastRead ∧
    (s.resolvePending p).cfg = s.cfg ∧ (s.resolvePending p).groups = s.groups ∧
    (s.resolvePending p).link = s.link ∧ (s.resolvePending p).ticks = s.ticks ∧
    (s.resolvePending p).pageMem = s.pageMem ∧ (s.resolvePending p).responder = s.responder ∧
    (s.resolvePending p).inbound = s.inbound ∧ (s.resolvePending p).jobs = s.jobs ∧
    (s.resolvePending p).pool = s.pool ∧ (s.resolvePending p).lists = s.lists ∧
    (s.resolvePending p).submission = s.submission ∧
    (s.resolvePending p).completions = s.completions ∧
    (s.resolvePending p).initiator = s.initiator ∧ (s.resolvePending p).peers = s.peers := by
  simp only [State.resolvePending]
  repeat' split
  all_goals simp

/-- A pending expiry is taken with detail 2; without one nothing changes (R71). -/
theorem resolvePending_cases (s : State) (p : Page) :
    (∃ a, (s.page p).holder = .node a ∧ (s.page p).lease = 0 ∧
      s.resolvePending p = s.expireClaim p a 2) ∨
    ((∀ a, (s.page p).holder = .node a → (s.page p).lease ≠ 0) ∧ s.resolvePending p = s) := by
  simp only [State.resolvePending]
  split
  next a ha =>
    by_cases hl : (s.page p).lease = 0
    · exact .inl ⟨a, ha, hl, by simp [hl]⟩
    · exact .inr ⟨fun _ _ => hl, by simp [hl]⟩
  next h => exact .inr ⟨by simp [h], rfl⟩
  next h => exact .inr ⟨by simp [h], rfl⟩

/-- Touches pages, responder, inbound, events. -/
@[simp] theorem abandonAccepted_keeps (s : State) :
    (s.abandonAccepted).pending = s.pending ∧ (s.abandonAccepted).mode = s.mode ∧
    (s.abandonAccepted).port = s.port ∧ (s.abandonAccepted).lastRead = s.lastRead ∧
    (s.abandonAccepted).cfg = s.cfg ∧ (s.abandonAccepted).groups = s.groups ∧
    (s.abandonAccepted).link = s.link ∧ (s.abandonAccepted).ticks = s.ticks ∧
    (s.abandonAccepted).pageMem = s.pageMem ∧ (s.abandonAccepted).jobs = s.jobs ∧
    (s.abandonAccepted).pool = s.pool ∧ (s.abandonAccepted).lists = s.lists ∧
    (s.abandonAccepted).submission = s.submission ∧
    (s.abandonAccepted).completions = s.completions ∧
    (s.abandonAccepted).initiator = s.initiator ∧ (s.abandonAccepted).peers = s.peers := by
  simp only [State.abandonAccepted]
  repeat' split
  all_goals simp

/-! ### Jobs and peers -/

/-- Touches lists. -/
@[simp] theorem unlist_keeps (s : State) (j : Slot) :
    (s.unlist j).pending = s.pending ∧ (s.unlist j).mode = s.mode ∧ (s.unlist j).port = s.port ∧
    (s.unlist j).lastRead = s.lastRead ∧ (s.unlist j).cfg = s.cfg ∧
    (s.unlist j).groups = s.groups ∧ (s.unlist j).link = s.link ∧ (s.unlist j).ticks = s.ticks ∧
    (s.unlist j).pages = s.pages ∧ (s.unlist j).pageMem = s.pageMem ∧
    (s.unlist j).responder = s.responder ∧ (s.unlist j).inbound = s.inbound ∧
    (s.unlist j).jobs = s.jobs ∧ (s.unlist j).pool = s.pool ∧
    (s.unlist j).submission = s.submission ∧ (s.unlist j).completions = s.completions ∧
    (s.unlist j).initiator = s.initiator ∧ (s.unlist j).peers = s.peers ∧
    (s.unlist j).events = s.events := by
  simp [State.unlist]

/-- Touches jobs, lists, submission, completions. -/
@[simp] theorem completeJob_keeps (s : State) (j : Slot) (r : JobResult) :
    (s.completeJob j r).pending = s.pending ∧ (s.completeJob j r).mode = s.mode ∧
    (s.completeJob j r).port = s.port ∧ (s.completeJob j r).lastRead = s.lastRead ∧
    (s.completeJob j r).cfg = s.cfg ∧ (s.completeJob j r).groups = s.groups ∧
    (s.completeJob j r).link = s.link ∧ (s.completeJob j r).ticks = s.ticks ∧
    (s.completeJob j r).pages = s.pages ∧ (s.completeJob j r).pageMem = s.pageMem ∧
    (s.completeJob j r).responder = s.responder ∧ (s.completeJob j r).inbound = s.inbound ∧
    (s.completeJob j r).pool = s.pool ∧ (s.completeJob j r).initiator = s.initiator ∧
    (s.completeJob j r).peers = s.peers ∧ (s.completeJob j r).events = s.events := by
  simp [State.completeJob]

/-- Touches jobs, lists. -/
@[simp] theorem requeueHead_keeps (s : State) (j : Slot) :
    (s.requeueHead j).pending = s.pending ∧ (s.requeueHead j).mode = s.mode ∧
    (s.requeueHead j).port = s.port ∧ (s.requeueHead j).lastRead = s.lastRead ∧
    (s.requeueHead j).cfg = s.cfg ∧ (s.requeueHead j).groups = s.groups ∧
    (s.requeueHead j).link = s.link ∧ (s.requeueHead j).ticks = s.ticks ∧
    (s.requeueHead j).pages = s.pages ∧ (s.requeueHead j).pageMem = s.pageMem ∧
    (s.requeueHead j).responder = s.responder ∧ (s.requeueHead j).inbound = s.inbound ∧
    (s.requeueHead j).pool = s.pool ∧ (s.requeueHead j).submission = s.submission ∧
    (s.requeueHead j).completions = s.completions ∧ (s.requeueHead j).initiator = s.initiator ∧
    (s.requeueHead j).peers = s.peers ∧ (s.requeueHead j).events = s.events := by
  simp [State.requeueHead]

/-- Touches jobs, lists. -/
@[simp] theorem requeueTail_keeps (s : State) (j : Slot) :
    (s.requeueTail j).pending = s.pending ∧ (s.requeueTail j).mode = s.mode ∧
    (s.requeueTail j).port = s.port ∧ (s.requeueTail j).lastRead = s.lastRead ∧
    (s.requeueTail j).cfg = s.cfg ∧ (s.requeueTail j).groups = s.groups ∧
    (s.requeueTail j).link = s.link ∧ (s.requeueTail j).ticks = s.ticks ∧
    (s.requeueTail j).pages = s.pages ∧ (s.requeueTail j).pageMem = s.pageMem ∧
    (s.requeueTail j).responder = s.responder ∧ (s.requeueTail j).inbound = s.inbound ∧
    (s.requeueTail j).pool = s.pool ∧ (s.requeueTail j).submission = s.submission ∧
    (s.requeueTail j).completions = s.completions ∧ (s.requeueTail j).initiator = s.initiator ∧
    (s.requeueTail j).peers = s.peers ∧ (s.requeueTail j).events = s.events := by
  simp [State.requeueTail]

/-- Touches peers. -/
@[simp] theorem ensurePeer_keeps (s : State) (a : Addr) :
    (s.ensurePeer a).pending = s.pending ∧ (s.ensurePeer a).mode = s.mode ∧
    (s.ensurePeer a).port = s.port ∧ (s.ensurePeer a).lastRead = s.lastRead ∧
    (s.ensurePeer a).cfg = s.cfg ∧ (s.ensurePeer a).groups = s.groups ∧
    (s.ensurePeer a).link = s.link ∧ (s.ensurePeer a).ticks = s.ticks ∧
    (s.ensurePeer a).pages = s.pages ∧ (s.ensurePeer a).pageMem = s.pageMem ∧
    (s.ensurePeer a).responder = s.responder ∧ (s.ensurePeer a).inbound = s.inbound ∧
    (s.ensurePeer a).jobs = s.jobs ∧ (s.ensurePeer a).pool = s.pool ∧
    (s.ensurePeer a).lists = s.lists ∧ (s.ensurePeer a).submission = s.submission ∧
    (s.ensurePeer a).completions = s.completions ∧ (s.ensurePeer a).initiator = s.initiator ∧
    (s.ensurePeer a).events = s.events := by
  simp only [State.ensurePeer]
  repeat' split
  all_goals simp

/-- Touches peers, events. -/
@[simp] theorem reportPeer_keeps (s : State) (a : Addr) (o : Attempt) :
    (s.reportPeer a o).pending = s.pending ∧ (s.reportPeer a o).mode = s.mode ∧
    (s.reportPeer a o).port = s.port ∧ (s.reportPeer a o).lastRead = s.lastRead ∧
    (s.reportPeer a o).cfg = s.cfg ∧ (s.reportPeer a o).groups = s.groups ∧
    (s.reportPeer a o).link = s.link ∧ (s.reportPeer a o).ticks = s.ticks ∧
    (s.reportPeer a o).pages = s.pages ∧ (s.reportPeer a o).pageMem = s.pageMem ∧
    (s.reportPeer a o).responder = s.responder ∧ (s.reportPeer a o).inbound = s.inbound ∧
    (s.reportPeer a o).jobs = s.jobs ∧ (s.reportPeer a o).pool = s.pool ∧
    (s.reportPeer a o).lists = s.lists ∧ (s.reportPeer a o).submission = s.submission ∧
    (s.reportPeer a o).completions = s.completions ∧ (s.reportPeer a o).initiator = s.initiator := by
  simp only [State.reportPeer]
  repeat' split
  all_goals simp

/-- Touches jobs, pool, lists, submission, peers. -/
@[simp] theorem takeJob_keeps (s : State) (j : Slot) (job : JobSlot) :
    (s.takeJob j job).pending = s.pending ∧ (s.takeJob j job).mode = s.mode ∧
    (s.takeJob j job).port = s.port ∧ (s.takeJob j job).lastRead = s.lastRead ∧
    (s.takeJob j job).cfg = s.cfg ∧ (s.takeJob j job).groups = s.groups ∧
    (s.takeJob j job).link = s.link ∧ (s.takeJob j job).ticks = s.ticks ∧
    (s.takeJob j job).pages = s.pages ∧ (s.takeJob j job).pageMem = s.pageMem ∧
    (s.takeJob j job).responder = s.responder ∧ (s.takeJob j job).inbound = s.inbound ∧
    (s.takeJob j job).completions = s.completions ∧ (s.takeJob j job).initiator = s.initiator ∧
    (s.takeJob j job).events = s.events := by
  simp only [State.takeJob]
  repeat' split
  all_goals simp

/-- Touches link, jobs, lists, initiator. -/
@[simp] theorem activate_keeps (s : State) (j : Slot) :
    (s.activate j).pending = s.pending ∧ (s.activate j).mode = s.mode ∧
    (s.activate j).port = s.port ∧ (s.activate j).lastRead = s.lastRead ∧
    (s.activate j).cfg = s.cfg ∧ (s.activate j).groups = s.groups ∧
    (s.activate j).ticks = s.ticks ∧ (s.activate j).pages = s.pages ∧
    (s.activate j).pageMem = s.pageMem ∧ (s.activate j).responder = s.responder ∧
    (s.activate j).inbound = s.inbound ∧ (s.activate j).pool = s.pool ∧
    (s.activate j).submission = s.submission ∧ (s.activate j).completions = s.completions ∧
    (s.activate j).peers = s.peers ∧ (s.activate j).events = s.events := by
  simp [State.activate]

/-- Touches link, jobs, lists, submission, completions, initiator. -/
@[simp] theorem scan_keeps (s : State) (l : List Slot) :
    (s.scan l).pending = s.pending ∧ (s.scan l).mode = s.mode ∧ (s.scan l).port = s.port ∧
    (s.scan l).lastRead = s.lastRead ∧ (s.scan l).cfg = s.cfg ∧ (s.scan l).groups = s.groups ∧
    (s.scan l).ticks = s.ticks ∧ (s.scan l).pages = s.pages ∧ (s.scan l).pageMem = s.pageMem ∧
    (s.scan l).responder = s.responder ∧ (s.scan l).inbound = s.inbound ∧
    (s.scan l).pool = s.pool ∧ (s.scan l).peers = s.peers ∧ (s.scan l).events = s.events := by
  induction l generalizing s with
  | nil => simp [State.scan]
  | cons j l ih =>
    simp only [State.scan]
    split
    · exact ih s
    · split
      · have h := ih (s.completeJob j .peerUnreachable)
        simpa using h
      · simp

/-- Touches link, jobs, lists, submission, completions, initiator. -/
@[simp] theorem offerLink_keeps (s : State) :
    (s.offerLink).pending = s.pending ∧ (s.offerLink).mode = s.mode ∧
    (s.offerLink).port = s.port ∧ (s.offerLink).lastRead = s.lastRead ∧
    (s.offerLink).cfg = s.cfg ∧ (s.offerLink).groups = s.groups ∧ (s.offerLink).ticks = s.ticks ∧
    (s.offerLink).pages = s.pages ∧ (s.offerLink).pageMem = s.pageMem ∧
    (s.offerLink).responder = s.responder ∧ (s.offerLink).inbound = s.inbound ∧
    (s.offerLink).pool = s.pool ∧ (s.offerLink).peers = s.peers ∧ (s.offerLink).events = s.events := by
  simp only [State.offerLink]
  repeat' split
  all_goals simp

/-- Touches jobs, lists, submission, completions. -/
@[simp] theorem dispose_keeps (s : State) (j : Slot) (d : Disposition) :
    (s.dispose j d).pending = s.pending ∧ (s.dispose j d).mode = s.mode ∧
    (s.dispose j d).port = s.port ∧ (s.dispose j d).lastRead = s.lastRead ∧
    (s.dispose j d).cfg = s.cfg ∧ (s.dispose j d).groups = s.groups ∧
    (s.dispose j d).link = s.link ∧ (s.dispose j d).ticks = s.ticks ∧
    (s.dispose j d).pages = s.pages ∧ (s.dispose j d).pageMem = s.pageMem ∧
    (s.dispose j d).responder = s.responder ∧ (s.dispose j d).inbound = s.inbound ∧
    (s.dispose j d).pool = s.pool ∧ (s.dispose j d).initiator = s.initiator ∧
    (s.dispose j d).peers = s.peers ∧ (s.dispose j d).events = s.events := by
  cases d <;> simp [State.dispose]

/-- Touches jobs, initiator. -/
@[simp] theorem endAttempt_keeps (s : State) (j : Slot) (o : Attempt) :
    (s.endAttempt j o).pending = s.pending ∧ (s.endAttempt j o).mode = s.mode ∧
    (s.endAttempt j o).port = s.port ∧ (s.endAttempt j o).lastRead = s.lastRead ∧
    (s.endAttempt j o).cfg = s.cfg ∧ (s.endAttempt j o).groups = s.groups ∧
    (s.endAttempt j o).link = s.link ∧ (s.endAttempt j o).ticks = s.ticks ∧
    (s.endAttempt j o).pages = s.pages ∧ (s.endAttempt j o).pageMem = s.pageMem ∧
    (s.endAttempt j o).responder = s.responder ∧ (s.endAttempt j o).inbound = s.inbound ∧
    (s.endAttempt j o).pool = s.pool ∧ (s.endAttempt j o).lists = s.lists ∧
    (s.endAttempt j o).submission = s.submission ∧
    (s.endAttempt j o).completions = s.completions ∧ (s.endAttempt j o).peers = s.peers ∧
    (s.endAttempt j o).events = s.events := by
  simp [State.endAttempt]

/-- Touches jobs, lists, submission, completions, initiator, peers, events. -/
@[simp] theorem takeOutcome_keeps (s : State) (j : Slot) (o : Attempt) :
    (s.takeOutcome j o).pending = s.pending ∧ (s.takeOutcome j o).mode = s.mode ∧
    (s.takeOutcome j o).port = s.port ∧ (s.takeOutcome j o).lastRead = s.lastRead ∧
    (s.takeOutcome j o).cfg = s.cfg ∧ (s.takeOutcome j o).groups = s.groups ∧
    (s.takeOutcome j o).link = s.link ∧ (s.takeOutcome j o).ticks = s.ticks ∧
    (s.takeOutcome j o).pages = s.pages ∧ (s.takeOutcome j o).pageMem = s.pageMem ∧
    (s.takeOutcome j o).responder = s.responder ∧ (s.takeOutcome j o).inbound = s.inbound ∧
    (s.takeOutcome j o).pool = s.pool := by
  simp only [State.takeOutcome]
  repeat' split
  all_goals simp

/-! ### The Responder -/

/-- Touches responder, inbound. -/
@[simp] theorem acceptHeader_keeps (s : State) (h : Header) :
    (s.acceptHeader h).pending = s.pending ∧ (s.acceptHeader h).mode = s.mode ∧
    (s.acceptHeader h).port = s.port ∧ (s.acceptHeader h).lastRead = s.lastRead ∧
    (s.acceptHeader h).cfg = s.cfg ∧ (s.acceptHeader h).groups = s.groups ∧
    (s.acceptHeader h).link = s.link ∧ (s.acceptHeader h).ticks = s.ticks ∧
    (s.acceptHeader h).pages = s.pages ∧ (s.acceptHeader h).pageMem = s.pageMem ∧
    (s.acceptHeader h).jobs = s.jobs ∧ (s.acceptHeader h).pool = s.pool ∧
    (s.acceptHeader h).lists = s.lists ∧ (s.acceptHeader h).submission = s.submission ∧
    (s.acceptHeader h).completions = s.completions ∧ (s.acceptHeader h).initiator = s.initiator ∧
    (s.acceptHeader h).peers = s.peers ∧ (s.acceptHeader h).events = s.events := by
  simp [State.acceptHeader]

/-- Touches pages, events. -/
@[simp] theorem requestRefresh_keeps (s : State) (h : Header) :
    (s.requestRefresh h).pending = s.pending ∧ (s.requestRefresh h).mode = s.mode ∧
    (s.requestRefresh h).port = s.port ∧ (s.requestRefresh h).lastRead = s.lastRead ∧
    (s.requestRefresh h).cfg = s.cfg ∧ (s.requestRefresh h).groups = s.groups ∧
    (s.requestRefresh h).link = s.link ∧ (s.requestRefresh h).ticks = s.ticks ∧
    (s.requestRefresh h).pageMem = s.pageMem ∧ (s.requestRefresh h).responder = s.responder ∧
    (s.requestRefresh h).inbound = s.inbound ∧ (s.requestRefresh h).jobs = s.jobs ∧
    (s.requestRefresh h).pool = s.pool ∧ (s.requestRefresh h).lists = s.lists ∧
    (s.requestRefresh h).submission = s.submission ∧
    (s.requestRefresh h).completions = s.completions ∧
    (s.requestRefresh h).initiator = s.initiator ∧ (s.requestRefresh h).peers = s.peers := by
  simp only [State.requestRefresh]
  repeat' split
  all_goals simp

/-- Touches responder. -/
@[simp] theorem recordResponse_keeps (s : State) (r : Reason) (a : Addr) :
    (s.recordResponse r a).pending = s.pending ∧ (s.recordResponse r a).mode = s.mode ∧
    (s.recordResponse r a).port = s.port ∧ (s.recordResponse r a).lastRead = s.lastRead ∧
    (s.recordResponse r a).cfg = s.cfg ∧ (s.recordResponse r a).groups = s.groups ∧
    (s.recordResponse r a).link = s.link ∧ (s.recordResponse r a).ticks = s.ticks ∧
    (s.recordResponse r a).pages = s.pages ∧ (s.recordResponse r a).pageMem = s.pageMem ∧
    (s.recordResponse r a).inbound = s.inbound ∧ (s.recordResponse r a).jobs = s.jobs ∧
    (s.recordResponse r a).pool = s.pool ∧ (s.recordResponse r a).lists = s.lists ∧
    (s.recordResponse r a).submission = s.submission ∧
    (s.recordResponse r a).completions = s.completions ∧
    (s.recordResponse r a).initiator = s.initiator ∧ (s.recordResponse r a).peers = s.peers ∧
    (s.recordResponse r a).events = s.events := by
  simp [State.recordResponse]

/-- Touches pages, responder, inbound, events. -/
@[simp] theorem applyDecision_keeps (s : State) (h : Header) (d : Decision) :
    (s.applyDecision h d).pending = s.pending ∧ (s.applyDecision h d).mode = s.mode ∧
    (s.applyDecision h d).port = s.port ∧ (s.applyDecision h d).lastRead = s.lastRead ∧
    (s.applyDecision h d).cfg = s.cfg ∧ (s.applyDecision h d).groups = s.groups ∧
    (s.applyDecision h d).link = s.link ∧ (s.applyDecision h d).ticks = s.ticks ∧
    (s.applyDecision h d).pageMem = s.pageMem ∧ (s.applyDecision h d).jobs = s.jobs ∧
    (s.applyDecision h d).pool = s.pool ∧ (s.applyDecision h d).lists = s.lists ∧
    (s.applyDecision h d).submission = s.submission ∧
    (s.applyDecision h d).completions = s.completions ∧
    (s.applyDecision h d).initiator = s.initiator ∧ (s.applyDecision h d).peers = s.peers := by
  simp only [State.applyDecision]
  split <;> simp

/-- Touches link, pages, responder, inbound, events. -/
@[simp] theorem handOver_keeps (s : State) (h : Header) :
    (s.handOver h).pending = s.pending ∧ (s.handOver h).mode = s.mode ∧
    (s.handOver h).port = s.port ∧ (s.handOver h).lastRead = s.lastRead ∧
    (s.handOver h).cfg = s.cfg ∧ (s.handOver h).groups = s.groups ∧
    (s.handOver h).ticks = s.ticks ∧ (s.handOver h).pageMem = s.pageMem ∧
    (s.handOver h).jobs = s.jobs ∧ (s.handOver h).pool = s.pool ∧ (s.handOver h).lists = s.lists ∧
    (s.handOver h).submission = s.submission ∧ (s.handOver h).completions = s.completions ∧
    (s.handOver h).initiator = s.initiator ∧ (s.handOver h).peers = s.peers := by
  simp [State.handOver]

/-- Touches pages, pageMem, events. -/
@[simp] theorem landWrite_keeps (s : State) (h : Header) :
    (s.landWrite h).pending = s.pending ∧ (s.landWrite h).mode = s.mode ∧
    (s.landWrite h).port = s.port ∧ (s.landWrite h).lastRead = s.lastRead ∧
    (s.landWrite h).cfg = s.cfg ∧ (s.landWrite h).groups = s.groups ∧
    (s.landWrite h).link = s.link ∧ (s.landWrite h).ticks = s.ticks ∧
    (s.landWrite h).responder = s.responder ∧ (s.landWrite h).inbound = s.inbound ∧
    (s.landWrite h).jobs = s.jobs ∧ (s.landWrite h).pool = s.pool ∧
    (s.landWrite h).lists = s.lists ∧ (s.landWrite h).submission = s.submission ∧
    (s.landWrite h).completions = s.completions ∧ (s.landWrite h).initiator = s.initiator ∧
    (s.landWrite h).peers = s.peers := by
  simp [State.landWrite]

/-- Touches pages. -/
@[simp] theorem consumeFreshness_keeps (s : State) (p : Page) :
    (s.consumeFreshness p).pending = s.pending ∧ (s.consumeFreshness p).mode = s.mode ∧
    (s.consumeFreshness p).port = s.port ∧ (s.consumeFreshness p).lastRead = s.lastRead ∧
    (s.consumeFreshness p).cfg = s.cfg ∧ (s.consumeFreshness p).groups = s.groups ∧
    (s.consumeFreshness p).link = s.link ∧ (s.consumeFreshness p).ticks = s.ticks ∧
    (s.consumeFreshness p).pageMem = s.pageMem ∧ (s.consumeFreshness p).responder = s.responder ∧
    (s.consumeFreshness p).inbound = s.inbound ∧ (s.consumeFreshness p).jobs = s.jobs ∧
    (s.consumeFreshness p).pool = s.pool ∧ (s.consumeFreshness p).lists = s.lists ∧
    (s.consumeFreshness p).submission = s.submission ∧
    (s.consumeFreshness p).completions = s.completions ∧
    (s.consumeFreshness p).initiator = s.initiator ∧ (s.consumeFreshness p).peers = s.peers ∧
    (s.consumeFreshness p).events = s.events := by
  simp only [State.consumeFreshness]
  repeat' split
  all_goals simp

/-- Touches pages. -/
@[simp] theorem renewLease_keeps (s : State) (h : Header) :
    (s.renewLease h).pending = s.pending ∧ (s.renewLease h).mode = s.mode ∧
    (s.renewLease h).port = s.port ∧ (s.renewLease h).lastRead = s.lastRead ∧
    (s.renewLease h).cfg = s.cfg ∧ (s.renewLease h).groups = s.groups ∧
    (s.renewLease h).link = s.link ∧ (s.renewLease h).ticks = s.ticks ∧
    (s.renewLease h).pageMem = s.pageMem ∧ (s.renewLease h).responder = s.responder ∧
    (s.renewLease h).inbound = s.inbound ∧ (s.renewLease h).jobs = s.jobs ∧
    (s.renewLease h).pool = s.pool ∧ (s.renewLease h).lists = s.lists ∧
    (s.renewLease h).submission = s.submission ∧ (s.renewLease h).completions = s.completions ∧
    (s.renewLease h).initiator = s.initiator ∧ (s.renewLease h).peers = s.peers ∧
    (s.renewLease h).events = s.events := by
  simp only [State.renewLease]
  repeat' split
  all_goals simp

/-- Touches pages, events. -/
@[simp] theorem grantClaim_keeps (s : State) (h : Header) :
    (s.grantClaim h).pending = s.pending ∧ (s.grantClaim h).mode = s.mode ∧
    (s.grantClaim h).port = s.port ∧ (s.grantClaim h).lastRead = s.lastRead ∧
    (s.grantClaim h).cfg = s.cfg ∧ (s.grantClaim h).groups = s.groups ∧
    (s.grantClaim h).link = s.link ∧ (s.grantClaim h).ticks = s.ticks ∧
    (s.grantClaim h).pageMem = s.pageMem ∧ (s.grantClaim h).responder = s.responder ∧
    (s.grantClaim h).inbound = s.inbound ∧ (s.grantClaim h).jobs = s.jobs ∧
    (s.grantClaim h).pool = s.pool ∧ (s.grantClaim h).lists = s.lists ∧
    (s.grantClaim h).submission = s.submission ∧ (s.grantClaim h).completions = s.completions ∧
    (s.grantClaim h).initiator = s.initiator ∧ (s.grantClaim h).peers = s.peers := by
  simp only [State.grantClaim]
  repeat' split
  all_goals simp

/-- Touches pages, events. -/
@[simp] theorem releaseClaim_keeps (s : State) (h : Header) :
    (s.releaseClaim h).pending = s.pending ∧ (s.releaseClaim h).mode = s.mode ∧
    (s.releaseClaim h).port = s.port ∧ (s.releaseClaim h).lastRead = s.lastRead ∧
    (s.releaseClaim h).cfg = s.cfg ∧ (s.releaseClaim h).groups = s.groups ∧
    (s.releaseClaim h).link = s.link ∧ (s.releaseClaim h).ticks = s.ticks ∧
    (s.releaseClaim h).pageMem = s.pageMem ∧ (s.releaseClaim h).responder = s.responder ∧
    (s.releaseClaim h).inbound = s.inbound ∧ (s.releaseClaim h).jobs = s.jobs ∧
    (s.releaseClaim h).pool = s.pool ∧ (s.releaseClaim h).lists = s.lists ∧
    (s.releaseClaim h).submission = s.submission ∧
    (s.releaseClaim h).completions = s.completions ∧ (s.releaseClaim h).initiator = s.initiator ∧
    (s.releaseClaim h).peers = s.peers := by
  simp only [State.releaseClaim]
  repeat' split
  all_goals simp

/-- Touches pages, pageMem, inbound, events. -/
@[simp] theorem operationEffects_keeps (s : State) (h : Header) :
    (s.operationEffects h).pending = s.pending ∧ (s.operationEffects h).mode = s.mode ∧
    (s.operationEffects h).port = s.port ∧ (s.operationEffects h).lastRead = s.lastRead ∧
    (s.operationEffects h).cfg = s.cfg ∧ (s.operationEffects h).groups = s.groups ∧
    (s.operationEffects h).link = s.link ∧ (s.operationEffects h).ticks = s.ticks ∧
    (s.operationEffects h).responder = s.responder ∧ (s.operationEffects h).jobs = s.jobs ∧
    (s.operationEffects h).pool = s.pool ∧ (s.operationEffects h).lists = s.lists ∧
    (s.operationEffects h).submission = s.submission ∧
    (s.operationEffects h).completions = s.completions ∧
    (s.operationEffects h).initiator = s.initiator ∧ (s.operationEffects h).peers = s.peers := by
  simp only [State.operationEffects]
  repeat' split
  all_goals simp

/-- Touches responder. -/
@[simp] theorem clearAccepted_keeps (s : State) :
    (s.clearAccepted).pending = s.pending ∧ (s.clearAccepted).mode = s.mode ∧
    (s.clearAccepted).port = s.port ∧ (s.clearAccepted).lastRead = s.lastRead ∧
    (s.clearAccepted).cfg = s.cfg ∧ (s.clearAccepted).groups = s.groups ∧
    (s.clearAccepted).link = s.link ∧ (s.clearAccepted).ticks = s.ticks ∧
    (s.clearAccepted).pages = s.pages ∧ (s.clearAccepted).pageMem = s.pageMem ∧
    (s.clearAccepted).inbound = s.inbound ∧ (s.clearAccepted).jobs = s.jobs ∧
    (s.clearAccepted).pool = s.pool ∧ (s.clearAccepted).lists = s.lists ∧
    (s.clearAccepted).submission = s.submission ∧ (s.clearAccepted).completions = s.completions ∧
    (s.clearAccepted).initiator = s.initiator ∧ (s.clearAccepted).peers = s.peers ∧
    (s.clearAccepted).events = s.events := by
  simp [State.clearAccepted]

/-- Touches pages, pageMem, responder, inbound, events. -/
@[simp] theorem applyEffects_keeps (s : State) (h : Header) :
    (s.applyEffects h).pending = s.pending ∧ (s.applyEffects h).mode = s.mode ∧
    (s.applyEffects h).port = s.port ∧ (s.applyEffects h).lastRead = s.lastRead ∧
    (s.applyEffects h).cfg = s.cfg ∧ (s.applyEffects h).groups = s.groups ∧
    (s.applyEffects h).link = s.link ∧ (s.applyEffects h).ticks = s.ticks ∧
    (s.applyEffects h).jobs = s.jobs ∧ (s.applyEffects h).pool = s.pool ∧
    (s.applyEffects h).lists = s.lists ∧ (s.applyEffects h).submission = s.submission ∧
    (s.applyEffects h).completions = s.completions ∧ (s.applyEffects h).initiator = s.initiator ∧
    (s.applyEffects h).peers = s.peers := by
  simp only [State.applyEffects]
  repeat' split
  all_goals simp

/-! ### The telegram -/

/-- Touches pages, responder, inbound, jobs, lists, submission, completions, initiator, peers, events. -/
@[simp] theorem abandonPart_keeps (s : State) (o : Attempt) :
    (s.abandonPart o).pending = s.pending ∧ (s.abandonPart o).mode = s.mode ∧
    (s.abandonPart o).port = s.port ∧ (s.abandonPart o).lastRead = s.lastRead ∧
    (s.abandonPart o).cfg = s.cfg ∧ (s.abandonPart o).groups = s.groups ∧
    (s.abandonPart o).link = s.link ∧ (s.abandonPart o).ticks = s.ticks ∧
    (s.abandonPart o).pageMem = s.pageMem ∧ (s.abandonPart o).pool = s.pool := by
  simp only [State.abandonPart]
  repeat' split
  all_goals simp

/-- Touches link, pages, responder, inbound, jobs, lists, submission, completions, initiator, peers, events. -/
@[simp] theorem meetBitError_keeps (s : State) (r : Role) :
    (s.meetBitError r).pending = s.pending ∧ (s.meetBitError r).mode = s.mode ∧
    (s.meetBitError r).port = s.port ∧ (s.meetBitError r).lastRead = s.lastRead ∧
    (s.meetBitError r).cfg = s.cfg ∧ (s.meetBitError r).groups = s.groups ∧
    (s.meetBitError r).ticks = s.ticks ∧ (s.meetBitError r).pageMem = s.pageMem ∧
    (s.meetBitError r).pool = s.pool := by
  simp only [State.meetBitError]
  repeat' split
  all_goals simp

/-- Touches link, pages, responder, inbound, jobs, lists, submission, completions, initiator, peers, events. -/
@[simp] theorem partLost_keeps (s : State) :
    (s.partLost).pending = s.pending ∧ (s.partLost).mode = s.mode ∧ (s.partLost).port = s.port ∧
    (s.partLost).lastRead = s.lastRead ∧ (s.partLost).cfg = s.cfg ∧
    (s.partLost).groups = s.groups ∧ (s.partLost).ticks = s.ticks ∧
    (s.partLost).pageMem = s.pageMem ∧ (s.partLost).pool = s.pool := by
  simp only [State.partLost]
  repeat' split
  all_goals simp

/-- Touches link, pages, responder, inbound, jobs, lists, submission, completions, initiator, peers, events. -/
@[simp] theorem loseSync_keeps (s : State) :
    (s.loseSync).pending = s.pending ∧ (s.loseSync).mode = s.mode ∧ (s.loseSync).port = s.port ∧
    (s.loseSync).lastRead = s.lastRead ∧ (s.loseSync).cfg = s.cfg ∧
    (s.loseSync).groups = s.groups ∧ (s.loseSync).ticks = s.ticks ∧
    (s.loseSync).pageMem = s.pageMem ∧ (s.loseSync).pool = s.pool := by
  simp only [State.loseSync]
  repeat' split
  all_goals simp

/-- Touches link, jobs, lists, submission, completions, initiator, peers, events. -/
@[simp] theorem loseArbitration_keeps (s : State) :
    (s.loseArbitration).pending = s.pending ∧ (s.loseArbitration).mode = s.mode ∧
    (s.loseArbitration).port = s.port ∧ (s.loseArbitration).lastRead = s.lastRead ∧
    (s.loseArbitration).cfg = s.cfg ∧ (s.loseArbitration).groups = s.groups ∧
    (s.loseArbitration).ticks = s.ticks ∧ (s.loseArbitration).pages = s.pages ∧
    (s.loseArbitration).pageMem = s.pageMem ∧ (s.loseArbitration).responder = s.responder ∧
    (s.loseArbitration).inbound = s.inbound ∧ (s.loseArbitration).pool = s.pool := by
  simp only [State.loseArbitration]
  repeat' split
  all_goals simp

/-- Touches link, pages, responder, inbound, jobs, lists, submission, completions, initiator, peers, events. -/
@[simp] theorem abandonTelegram_keeps (s : State) (o : Attempt) :
    (s.abandonTelegram o).pending = s.pending ∧ (s.abandonTelegram o).mode = s.mode ∧
    (s.abandonTelegram o).port = s.port ∧ (s.abandonTelegram o).lastRead = s.lastRead ∧
    (s.abandonTelegram o).cfg = s.cfg ∧ (s.abandonTelegram o).groups = s.groups ∧
    (s.abandonTelegram o).ticks = s.ticks ∧ (s.abandonTelegram o).pageMem = s.pageMem ∧
    (s.abandonTelegram o).pool = s.pool := by
  simp [State.abandonTelegram]

/-- Touches link, pages, responder, inbound, jobs, lists, submission, completions, initiator, peers, events. -/
@[simp] theorem targetNak_keeps (s : State) :
    (s.targetNak).pending = s.pending ∧ (s.targetNak).mode = s.mode ∧
    (s.targetNak).port = s.port ∧ (s.targetNak).lastRead = s.lastRead ∧
    (s.targetNak).cfg = s.cfg ∧ (s.targetNak).groups = s.groups ∧ (s.targetNak).ticks = s.ticks ∧
    (s.targetNak).pageMem = s.pageMem ∧ (s.targetNak).pool = s.pool := by
  simp only [State.targetNak]
  repeat' split
  all_goals simp

/-- Touches link, pages, responder, inbound, jobs, lists, submission, completions, initiator, peers, events. -/
@[simp] theorem initiatorNak_keeps (s : State) :
    (s.initiatorNak).pending = s.pending ∧ (s.initiatorNak).mode = s.mode ∧
    (s.initiatorNak).port = s.port ∧ (s.initiatorNak).lastRead = s.lastRead ∧
    (s.initiatorNak).cfg = s.cfg ∧ (s.initiatorNak).groups = s.groups ∧
    (s.initiatorNak).ticks = s.ticks ∧ (s.initiatorNak).pageMem = s.pageMem ∧
    (s.initiatorNak).pool = s.pool := by
  simp only [State.initiatorNak]
  repeat' split
  all_goals simp

/-- Touches link, pages, responder, inbound, jobs, lists, submission, completions, initiator, peers, events. -/
@[simp] theorem memberBlock_keeps (s : State) (h : Header) (b : Bool) (l : List Byte) :
    (s.memberBlock h b l).pending = s.pending ∧ (s.memberBlock h b l).mode = s.mode ∧
    (s.memberBlock h b l).port = s.port ∧ (s.memberBlock h b l).lastRead = s.lastRead ∧
    (s.memberBlock h b l).cfg = s.cfg ∧ (s.memberBlock h b l).groups = s.groups ∧
    (s.memberBlock h b l).ticks = s.ticks ∧ (s.memberBlock h b l).pageMem = s.pageMem ∧
    (s.memberBlock h b l).pool = s.pool := by
  simp only [State.memberBlock, State.stageBlock, State.targetAdvance]
  repeat' split
  all_goals simp

/-- Touches link, pages, responder, inbound, jobs, lists, submission, completions, initiator, peers, events. -/
@[simp] theorem sendCollective_keeps (s : State) (b : Bool) (l : Level) :
    (s.sendCollective b l).pending = s.pending ∧ (s.sendCollective b l).mode = s.mode ∧
    (s.sendCollective b l).port = s.port ∧ (s.sendCollective b l).lastRead = s.lastRead ∧
    (s.sendCollective b l).cfg = s.cfg ∧ (s.sendCollective b l).groups = s.groups ∧
    (s.sendCollective b l).ticks = s.ticks ∧ (s.sendCollective b l).pageMem = s.pageMem ∧
    (s.sendCollective b l).pool = s.pool := by
  simp only [State.sendCollective, State.initiatorAdvance]
  repeat' split
  all_goals simp

/-- Touches link, pages, responder, inbound, jobs, pool, lists, submission, completions, initiator, peers, events. -/
@[simp] theorem takeBlock_keeps (s : State) (data : Vector Byte 8) (check : Byte) (x y : Level) :
    (s.takeBlock data check x y).pending = s.pending ∧
    (s.takeBlock data check x y).mode = s.mode ∧ (s.takeBlock data check x y).port = s.port ∧
    (s.takeBlock data check x y).lastRead = s.lastRead ∧
    (s.takeBlock data check x y).cfg = s.cfg ∧ (s.takeBlock data check x y).groups = s.groups ∧
    (s.takeBlock data check x y).ticks = s.ticks ∧
    (s.takeBlock data check x y).pageMem = s.pageMem := by
  simp only [State.takeBlock, State.receiveBlock, State.sendBlock, State.stageBlock, State.placeBlock,
    State.targetAdvance, State.initiatorAdvance]
  repeat' split
  all_goals simp

/-- Touches link, pages, responder, inbound, jobs, lists, submission, completions, initiator, peers, events. -/
@[simp] theorem fifthNak_keeps (s : State) :
    (s.fifthNak).pending = s.pending ∧ (s.fifthNak).mode = s.mode ∧ (s.fifthNak).port = s.port ∧
    (s.fifthNak).lastRead = s.lastRead ∧ (s.fifthNak).cfg = s.cfg ∧
    (s.fifthNak).groups = s.groups ∧ (s.fifthNak).ticks = s.ticks ∧
    (s.fifthNak).pageMem = s.pageMem ∧ (s.fifthNak).pool = s.pool := by
  simp only [State.fifthNak]
  repeat' split
  all_goals simp

/-- Touches pages, pageMem, responder, inbound, jobs, lists, submission, completions, initiator, peers, events. -/
@[simp] theorem endEffects_keeps (s : State) :
    (s.endEffects).pending = s.pending ∧ (s.endEffects).mode = s.mode ∧
    (s.endEffects).port = s.port ∧ (s.endEffects).lastRead = s.lastRead ∧
    (s.endEffects).cfg = s.cfg ∧ (s.endEffects).groups = s.groups ∧ (s.endEffects).link = s.link ∧
    (s.endEffects).ticks = s.ticks ∧ (s.endEffects).pool = s.pool := by
  simp only [State.endEffects]
  repeat' split
  all_goals simp

/-- Touches link. -/
@[simp] theorem cleanTelegram_keeps (s : State) :
    (s.cleanTelegram).pending = s.pending ∧ (s.cleanTelegram).mode = s.mode ∧
    (s.cleanTelegram).port = s.port ∧ (s.cleanTelegram).lastRead = s.lastRead ∧
    (s.cleanTelegram).cfg = s.cfg ∧ (s.cleanTelegram).groups = s.groups ∧
    (s.cleanTelegram).ticks = s.ticks ∧ (s.cleanTelegram).pages = s.pages ∧
    (s.cleanTelegram).pageMem = s.pageMem ∧ (s.cleanTelegram).responder = s.responder ∧
    (s.cleanTelegram).inbound = s.inbound ∧ (s.cleanTelegram).jobs = s.jobs ∧
    (s.cleanTelegram).pool = s.pool ∧ (s.cleanTelegram).lists = s.lists ∧
    (s.cleanTelegram).submission = s.submission ∧ (s.cleanTelegram).completions = s.completions ∧
    (s.cleanTelegram).initiator = s.initiator ∧ (s.cleanTelegram).peers = s.peers ∧
    (s.cleanTelegram).events = s.events := by
  simp [State.cleanTelegram]

/-- Touches link, pages, pageMem, responder, inbound, jobs, lists, submission, completions, initiator, peers, events. -/
@[simp] theorem reachEnd_keeps (s : State) :
    (s.reachEnd).pending = s.pending ∧ (s.reachEnd).mode = s.mode ∧ (s.reachEnd).port = s.port ∧
    (s.reachEnd).lastRead = s.lastRead ∧ (s.reachEnd).cfg = s.cfg ∧
    (s.reachEnd).groups = s.groups ∧ (s.reachEnd).ticks = s.ticks ∧ (s.reachEnd).pool = s.pool := by
  simp only [State.reachEnd]
  repeat' split
  all_goals simp

/-- Touches link, initiator. -/
@[simp] theorem winArbitration_keeps (s : State) :
    (s.winArbitration).pending = s.pending ∧ (s.winArbitration).mode = s.mode ∧
    (s.winArbitration).port = s.port ∧ (s.winArbitration).lastRead = s.lastRead ∧
    (s.winArbitration).cfg = s.cfg ∧ (s.winArbitration).groups = s.groups ∧
    (s.winArbitration).ticks = s.ticks ∧ (s.winArbitration).pages = s.pages ∧
    (s.winArbitration).pageMem = s.pageMem ∧ (s.winArbitration).responder = s.responder ∧
    (s.winArbitration).inbound = s.inbound ∧ (s.winArbitration).jobs = s.jobs ∧
    (s.winArbitration).pool = s.pool ∧ (s.winArbitration).lists = s.lists ∧
    (s.winArbitration).submission = s.submission ∧
    (s.winArbitration).completions = s.completions ∧ (s.winArbitration).peers = s.peers ∧
    (s.winArbitration).events = s.events := by
  simp only [State.winArbitration]
  repeat' split
  all_goals simp

/-- Touches link, pages, responder, inbound, jobs, lists, submission, completions, initiator, peers, events. -/
@[simp] theorem takeHeaderBits_keeps (s : State) (bits : BitVec 48) :
    (s.takeHeaderBits bits).pending = s.pending ∧ (s.takeHeaderBits bits).mode = s.mode ∧
    (s.takeHeaderBits bits).port = s.port ∧ (s.takeHeaderBits bits).lastRead = s.lastRead ∧
    (s.takeHeaderBits bits).cfg = s.cfg ∧ (s.takeHeaderBits bits).groups = s.groups ∧
    (s.takeHeaderBits bits).ticks = s.ticks ∧ (s.takeHeaderBits bits).pageMem = s.pageMem ∧
    (s.takeHeaderBits bits).pool = s.pool := by
  simp only [State.takeHeaderBits]
  repeat' split
  all_goals simp

/-- Touches link, jobs, initiator. -/
@[simp] theorem readSlotBit_keeps (s : State) (j : Slot) (h : Header) (l : Level) :
    (s.readSlotBit j h l).link = (s.pushSlot l).link ∧ (s.readSlotBit j h l).pending = s.pending ∧
    (s.readSlotBit j h l).mode = s.mode ∧ (s.readSlotBit j h l).port = s.port ∧
    (s.readSlotBit j h l).lastRead = s.lastRead ∧ (s.readSlotBit j h l).cfg = s.cfg ∧
    (s.readSlotBit j h l).groups = s.groups ∧ (s.readSlotBit j h l).ticks = s.ticks ∧
    (s.readSlotBit j h l).pages = s.pages ∧ (s.readSlotBit j h l).pageMem = s.pageMem ∧
    (s.readSlotBit j h l).responder = s.responder ∧ (s.readSlotBit j h l).inbound = s.inbound ∧
    (s.readSlotBit j h l).pool = s.pool ∧ (s.readSlotBit j h l).lists = s.lists ∧
    (s.readSlotBit j h l).submission = s.submission ∧
    (s.readSlotBit j h l).completions = s.completions ∧ (s.readSlotBit j h l).peers = s.peers ∧
    (s.readSlotBit j h l).events = s.events := by
  simp only [State.readSlotBit]
  split <;> simp [State.pushSlot]

/-- Touches link, pages, responder, inbound, jobs, lists, submission, completions, initiator, peers, events. -/
@[simp] theorem takeSlotBit_keeps (s : State) (l : Level) :
    (s.takeSlotBit l).pending = s.pending ∧ (s.takeSlotBit l).mode = s.mode ∧
    (s.takeSlotBit l).port = s.port ∧ (s.takeSlotBit l).lastRead = s.lastRead ∧
    (s.takeSlotBit l).cfg = s.cfg ∧ (s.takeSlotBit l).groups = s.groups ∧
    (s.takeSlotBit l).ticks = s.ticks ∧ (s.takeSlotBit l).pageMem = s.pageMem ∧
    (s.takeSlotBit l).pool = s.pool := by
  simp only [State.takeSlotBit, State.pushSlot]
  repeat' split
  all_goals simp

/-- Touches link, pages, responder, inbound, jobs, lists, submission, completions, initiator, peers, events. -/
@[simp] theorem takeHeaderPart_keeps (s : State) (part : HeaderPart) :
    (s.takeHeaderPart part).pending = s.pending ∧ (s.takeHeaderPart part).mode = s.mode ∧
    (s.takeHeaderPart part).port = s.port ∧ (s.takeHeaderPart part).lastRead = s.lastRead ∧
    (s.takeHeaderPart part).cfg = s.cfg ∧ (s.takeHeaderPart part).groups = s.groups ∧
    (s.takeHeaderPart part).ticks = s.ticks ∧ (s.takeHeaderPart part).pageMem = s.pageMem ∧
    (s.takeHeaderPart part).pool = s.pool := by
  cases part <;> simp [State.takeHeaderPart]

/-- Touches link, pages, responder, inbound, jobs, lists, submission, completions, initiator, peers, events. -/
@[simp] theorem meetStuck_keeps (s : State) :
    (s.meetStuck).pending = s.pending ∧ (s.meetStuck).mode = s.mode ∧
    (s.meetStuck).port = s.port ∧ (s.meetStuck).lastRead = s.lastRead ∧
    (s.meetStuck).cfg = s.cfg ∧ (s.meetStuck).groups = s.groups ∧ (s.meetStuck).ticks = s.ticks ∧
    (s.meetStuck).pageMem = s.pageMem ∧ (s.meetStuck).pool = s.pool := by
  simp only [State.meetStuck]
  repeat' split
  all_goals simp

/-- Touches link, events. -/
@[simp] theorem joinLink_keeps (s : State) :
    (s.joinLink).pending = s.pending ∧ (s.joinLink).mode = s.mode ∧ (s.joinLink).port = s.port ∧
    (s.joinLink).lastRead = s.lastRead ∧ (s.joinLink).cfg = s.cfg ∧
    (s.joinLink).groups = s.groups ∧ (s.joinLink).ticks = s.ticks ∧ (s.joinLink).pages = s.pages ∧
    (s.joinLink).pageMem = s.pageMem ∧ (s.joinLink).responder = s.responder ∧
    (s.joinLink).inbound = s.inbound ∧ (s.joinLink).jobs = s.jobs ∧ (s.joinLink).pool = s.pool ∧
    (s.joinLink).lists = s.lists ∧ (s.joinLink).submission = s.submission ∧
    (s.joinLink).completions = s.completions ∧ (s.joinLink).initiator = s.initiator ∧
    (s.joinLink).peers = s.peers := by
  simp only [State.joinLink]
  repeat' split
  all_goals simp

/-- Touches link. -/
@[simp] theorem restartGap_keeps (s : State) :
    (s.restartGap).pending = s.pending ∧ (s.restartGap).mode = s.mode ∧
    (s.restartGap).port = s.port ∧ (s.restartGap).lastRead = s.lastRead ∧
    (s.restartGap).cfg = s.cfg ∧ (s.restartGap).groups = s.groups ∧
    (s.restartGap).ticks = s.ticks ∧ (s.restartGap).pages = s.pages ∧
    (s.restartGap).pageMem = s.pageMem ∧ (s.restartGap).responder = s.responder ∧
    (s.restartGap).inbound = s.inbound ∧ (s.restartGap).jobs = s.jobs ∧
    (s.restartGap).pool = s.pool ∧ (s.restartGap).lists = s.lists ∧
    (s.restartGap).submission = s.submission ∧ (s.restartGap).completions = s.completions ∧
    (s.restartGap).initiator = s.initiator ∧ (s.restartGap).peers = s.peers ∧
    (s.restartGap).events = s.events := by
  simp only [State.restartGap]
  repeat' split
  all_goals simp

/-- Touches link. -/
@[simp] theorem recogniseStart_keeps (s : State) :
    (s.recogniseStart).pending = s.pending ∧ (s.recogniseStart).mode = s.mode ∧
    (s.recogniseStart).port = s.port ∧ (s.recogniseStart).lastRead = s.lastRead ∧
    (s.recogniseStart).cfg = s.cfg ∧ (s.recogniseStart).groups = s.groups ∧
    (s.recogniseStart).ticks = s.ticks ∧ (s.recogniseStart).pages = s.pages ∧
    (s.recogniseStart).pageMem = s.pageMem ∧ (s.recogniseStart).responder = s.responder ∧
    (s.recogniseStart).inbound = s.inbound ∧ (s.recogniseStart).jobs = s.jobs ∧
    (s.recogniseStart).pool = s.pool ∧ (s.recogniseStart).lists = s.lists ∧
    (s.recogniseStart).submission = s.submission ∧
    (s.recogniseStart).completions = s.completions ∧ (s.recogniseStart).initiator = s.initiator ∧
    (s.recogniseStart).peers = s.peers ∧ (s.recogniseStart).events = s.events := by
  simp only [State.recogniseStart]
  repeat' split
  all_goals simp

/-! ### Time -/

/-- Touches link, events. -/
@[simp] theorem recoveryTick_keeps (s : State) (b : Bool) :
    (s.recoveryTick b).pending = s.pending ∧ (s.recoveryTick b).mode = s.mode ∧
    (s.recoveryTick b).port = s.port ∧ (s.recoveryTick b).lastRead = s.lastRead ∧
    (s.recoveryTick b).cfg = s.cfg ∧ (s.recoveryTick b).groups = s.groups ∧
    (s.recoveryTick b).ticks = s.ticks ∧ (s.recoveryTick b).pages = s.pages ∧
    (s.recoveryTick b).pageMem = s.pageMem ∧ (s.recoveryTick b).responder = s.responder ∧
    (s.recoveryTick b).inbound = s.inbound ∧ (s.recoveryTick b).jobs = s.jobs ∧
    (s.recoveryTick b).pool = s.pool ∧ (s.recoveryTick b).lists = s.lists ∧
    (s.recoveryTick b).submission = s.submission ∧
    (s.recoveryTick b).completions = s.completions ∧ (s.recoveryTick b).initiator = s.initiator ∧
    (s.recoveryTick b).peers = s.peers := by
  simp only [State.recoveryTick]
  repeat' split
  all_goals simp

/-- Touches pages, events. -/
@[simp] theorem leaseTick_keeps (s : State) (p : Page) :
    (s.leaseTick p).pending = s.pending ∧ (s.leaseTick p).mode = s.mode ∧
    (s.leaseTick p).port = s.port ∧ (s.leaseTick p).lastRead = s.lastRead ∧
    (s.leaseTick p).cfg = s.cfg ∧ (s.leaseTick p).groups = s.groups ∧
    (s.leaseTick p).link = s.link ∧ (s.leaseTick p).ticks = s.ticks ∧
    (s.leaseTick p).pageMem = s.pageMem ∧ (s.leaseTick p).responder = s.responder ∧
    (s.leaseTick p).inbound = s.inbound ∧ (s.leaseTick p).jobs = s.jobs ∧
    (s.leaseTick p).pool = s.pool ∧ (s.leaseTick p).lists = s.lists ∧
    (s.leaseTick p).submission = s.submission ∧ (s.leaseTick p).completions = s.completions ∧
    (s.leaseTick p).initiator = s.initiator ∧ (s.leaseTick p).peers = s.peers := by
  simp only [State.leaseTick]
  repeat' split
  all_goals simp

/-- Touches pages. -/
@[simp] theorem freshnessTick_keeps (s : State) (p : Page) :
    (s.freshnessTick p).pending = s.pending ∧ (s.freshnessTick p).mode = s.mode ∧
    (s.freshnessTick p).port = s.port ∧ (s.freshnessTick p).lastRead = s.lastRead ∧
    (s.freshnessTick p).cfg = s.cfg ∧ (s.freshnessTick p).groups = s.groups ∧
    (s.freshnessTick p).link = s.link ∧ (s.freshnessTick p).ticks = s.ticks ∧
    (s.freshnessTick p).pageMem = s.pageMem ∧ (s.freshnessTick p).responder = s.responder ∧
    (s.freshnessTick p).inbound = s.inbound ∧ (s.freshnessTick p).jobs = s.jobs ∧
    (s.freshnessTick p).pool = s.pool ∧ (s.freshnessTick p).lists = s.lists ∧
    (s.freshnessTick p).submission = s.submission ∧ (s.freshnessTick p).completions = s.completions ∧
    (s.freshnessTick p).initiator = s.initiator ∧ (s.freshnessTick p).peers = s.peers ∧
    (s.freshnessTick p).events = s.events := by
  simp only [State.freshnessTick]
  split <;> simp

/-- Touches jobs, lists, submission, completions. -/
@[simp] theorem deadlineTick_keeps (s : State) (j : Slot) :
    (s.deadlineTick j).pending = s.pending ∧ (s.deadlineTick j).mode = s.mode ∧
    (s.deadlineTick j).port = s.port ∧ (s.deadlineTick j).lastRead = s.lastRead ∧
    (s.deadlineTick j).cfg = s.cfg ∧ (s.deadlineTick j).groups = s.groups ∧
    (s.deadlineTick j).link = s.link ∧ (s.deadlineTick j).ticks = s.ticks ∧
    (s.deadlineTick j).pages = s.pages ∧ (s.deadlineTick j).pageMem = s.pageMem ∧
    (s.deadlineTick j).responder = s.responder ∧ (s.deadlineTick j).inbound = s.inbound ∧
    (s.deadlineTick j).pool = s.pool ∧ (s.deadlineTick j).initiator = s.initiator ∧
    (s.deadlineTick j).peers = s.peers ∧ (s.deadlineTick j).events = s.events := by
  simp only [State.deadlineTick]
  repeat' split
  all_goals simp

/-- Touches jobs, lists. -/
@[simp] theorem retryTick_keeps (s : State) (j : Slot) :
    (s.retryTick j).pending = s.pending ∧ (s.retryTick j).mode = s.mode ∧
    (s.retryTick j).port = s.port ∧ (s.retryTick j).lastRead = s.lastRead ∧
    (s.retryTick j).cfg = s.cfg ∧ (s.retryTick j).groups = s.groups ∧
    (s.retryTick j).link = s.link ∧ (s.retryTick j).ticks = s.ticks ∧
    (s.retryTick j).pages = s.pages ∧ (s.retryTick j).pageMem = s.pageMem ∧
    (s.retryTick j).responder = s.responder ∧ (s.retryTick j).inbound = s.inbound ∧
    (s.retryTick j).pool = s.pool ∧ (s.retryTick j).submission = s.submission ∧
    (s.retryTick j).completions = s.completions ∧ (s.retryTick j).initiator = s.initiator ∧
    (s.retryTick j).peers = s.peers ∧ (s.retryTick j).events = s.events := by
  simp only [State.retryTick]
  repeat' split
  all_goals simp

/-- Touches link, pages, jobs, lists, submission, completions, events. -/
@[simp] theorem applyShare_keeps (s : State) (b : Bool) (x : TickShare) :
    (s.applyShare b x).pending = s.pending ∧ (s.applyShare b x).mode = s.mode ∧
    (s.applyShare b x).port = s.port ∧ (s.applyShare b x).lastRead = s.lastRead ∧
    (s.applyShare b x).cfg = s.cfg ∧ (s.applyShare b x).groups = s.groups ∧
    (s.applyShare b x).ticks = s.ticks ∧ (s.applyShare b x).pageMem = s.pageMem ∧
    (s.applyShare b x).responder = s.responder ∧ (s.applyShare b x).inbound = s.inbound ∧
    (s.applyShare b x).pool = s.pool ∧ (s.applyShare b x).initiator = s.initiator ∧
    (s.applyShare b x).peers = s.peers := by
  cases x <;> simp [State.applyShare]

/-- Touches link, ticks, pages, jobs, lists, submission, completions, events. -/
@[simp] theorem takeShare_keeps (s : State) (b : Bool) (x : TickShare) :
    (s.takeShare b x).pending = s.pending ∧ (s.takeShare b x).mode = s.mode ∧
    (s.takeShare b x).port = s.port ∧ (s.takeShare b x).lastRead = s.lastRead ∧
    (s.takeShare b x).cfg = s.cfg ∧ (s.takeShare b x).groups = s.groups ∧
    (s.takeShare b x).pageMem = s.pageMem ∧ (s.takeShare b x).responder = s.responder ∧
    (s.takeShare b x).inbound = s.inbound ∧ (s.takeShare b x).pool = s.pool ∧
    (s.takeShare b x).initiator = s.initiator ∧ (s.takeShare b x).peers = s.peers := by
  simp only [State.takeShare]
  repeat' split
  all_goals simp

/-- Touches link, ticks, pages, jobs, lists, submission, completions, events. -/
@[simp] theorem takeShares_keeps (s : State) (b : Bool) (l : List TickShare) :
    (s.takeShares b l).pending = s.pending ∧ (s.takeShares b l).mode = s.mode ∧
    (s.takeShares b l).port = s.port ∧ (s.takeShares b l).lastRead = s.lastRead ∧
    (s.takeShares b l).cfg = s.cfg ∧ (s.takeShares b l).groups = s.groups ∧
    (s.takeShares b l).pageMem = s.pageMem ∧ (s.takeShares b l).responder = s.responder ∧
    (s.takeShares b l).inbound = s.inbound ∧ (s.takeShares b l).pool = s.pool ∧
    (s.takeShares b l).initiator = s.initiator ∧ (s.takeShares b l).peers = s.peers := by
  induction l generalizing s with
  | nil => simp [State.takeShares]
  | cons x l ih =>
    have h := ih (s.takeShare b x)
    simp only [takeShare_keeps] at h
    simpa [State.takeShares] using h

/-- Touches link, ticks, pages, jobs, lists, submission, completions, events. -/
@[simp] theorem tickBoundary_keeps (s : State) (l : List TickShare) (b : Bool) :
    (s.tickBoundary l b).pending = s.pending ∧ (s.tickBoundary l b).mode = s.mode ∧
    (s.tickBoundary l b).port = s.port ∧ (s.tickBoundary l b).lastRead = s.lastRead ∧
    (s.tickBoundary l b).cfg = s.cfg ∧ (s.tickBoundary l b).groups = s.groups ∧
    (s.tickBoundary l b).pageMem = s.pageMem ∧ (s.tickBoundary l b).responder = s.responder ∧
    (s.tickBoundary l b).inbound = s.inbound ∧ (s.tickBoundary l b).pool = s.pool ∧
    (s.tickBoundary l b).initiator = s.initiator ∧ (s.tickBoundary l b).peers = s.peers := by
  simp [State.tickBoundary, State.advanceStamp, State.clearTaken]

/-- Touches link, ticks, pages, jobs, lists, submission, completions, events. -/
@[simp] theorem bitPeriod_keeps (s : State) :
    (s.bitPeriod).pending = s.pending ∧ (s.bitPeriod).mode = s.mode ∧
    (s.bitPeriod).port = s.port ∧ (s.bitPeriod).lastRead = s.lastRead ∧
    (s.bitPeriod).cfg = s.cfg ∧ (s.bitPeriod).groups = s.groups ∧
    (s.bitPeriod).pageMem = s.pageMem ∧ (s.bitPeriod).responder = s.responder ∧
    (s.bitPeriod).inbound = s.inbound ∧ (s.bitPeriod).pool = s.pool ∧
    (s.bitPeriod).initiator = s.initiator ∧ (s.bitPeriod).peers = s.peers := by
  simp only [State.bitPeriod]
  repeat' split
  all_goals simp

end Sys2Proof.Machine
end

