-- ==== Sys2Proof/Laws/Inbound.lean ====
section
/-!
SUPPORT. The Inbound Store under the telegram's operations: short of a commit, only its reservation changes.
-/

namespace Sys2Proof.Machine

@[simp] theorem abandonAccepted_inbound (s : State) :
    (s.abandonAccepted).inbound.ring = s.inbound.ring ∧
    (s.abandonAccepted).inbound.head = s.inbound.head ∧
    (s.abandonAccepted).inbound.committedBytes = s.inbound.committedBytes ∧
    (s.abandonAccepted).inbound.committedRecords = s.inbound.committedRecords ∧
    (s.abandonAccepted).inbound.readIndex = s.inbound.readIndex := by
  simp only [State.abandonAccepted]
  repeat' split
  all_goals simp

@[simp] theorem acceptHeader_inbound (s : State) (h : Header) :
    (s.acceptHeader h).inbound.ring = s.inbound.ring ∧
    (s.acceptHeader h).inbound.head = s.inbound.head ∧
    (s.acceptHeader h).inbound.committedBytes = s.inbound.committedBytes ∧
    (s.acceptHeader h).inbound.committedRecords = s.inbound.committedRecords ∧
    (s.acceptHeader h).inbound.readIndex = s.inbound.readIndex := by
  simp [State.acceptHeader]

@[simp] theorem applyDecision_inbound (s : State) (h : Header) (d : Decision) :
    (s.applyDecision h d).inbound.ring = s.inbound.ring ∧
    (s.applyDecision h d).inbound.head = s.inbound.head ∧
    (s.applyDecision h d).inbound.committedBytes = s.inbound.committedBytes ∧
    (s.applyDecision h d).inbound.committedRecords = s.inbound.committedRecords ∧
    (s.applyDecision h d).inbound.readIndex = s.inbound.readIndex := by
  simp only [State.applyDecision]
  split <;> simp

@[simp] theorem handOver_inbound (s : State) (h : Header) :
    (s.handOver h).inbound.ring = s.inbound.ring ∧ (s.handOver h).inbound.head = s.inbound.head ∧
    (s.handOver h).inbound.committedBytes = s.inbound.committedBytes ∧
    (s.handOver h).inbound.committedRecords = s.inbound.committedRecords ∧
    (s.handOver h).inbound.readIndex = s.inbound.readIndex := by
  simp [State.handOver]

@[simp] theorem abandonPart_inbound (s : State) (o : Attempt) :
    (s.abandonPart o).inbound.ring = s.inbound.ring ∧
    (s.abandonPart o).inbound.head = s.inbound.head ∧
    (s.abandonPart o).inbound.committedBytes = s.inbound.committedBytes ∧
    (s.abandonPart o).inbound.committedRecords = s.inbound.committedRecords ∧
    (s.abandonPart o).inbound.readIndex = s.inbound.readIndex := by
  simp only [State.abandonPart]
  repeat' split
  all_goals simp

@[simp] theorem meetBitError_inbound (s : State) (r : Role) :
    (s.meetBitError r).inbound.ring = s.inbound.ring ∧
    (s.meetBitError r).inbound.head = s.inbound.head ∧
    (s.meetBitError r).inbound.committedBytes = s.inbound.committedBytes ∧
    (s.meetBitError r).inbound.committedRecords = s.inbound.committedRecords ∧
    (s.meetBitError r).inbound.readIndex = s.inbound.readIndex := by
  simp only [State.meetBitError]
  repeat' split
  all_goals simp

@[simp] theorem partLost_inbound (s : State) :
    (s.partLost).inbound.ring = s.inbound.ring ∧ (s.partLost).inbound.head = s.inbound.head ∧
    (s.partLost).inbound.committedBytes = s.inbound.committedBytes ∧
    (s.partLost).inbound.committedRecords = s.inbound.committedRecords ∧
    (s.partLost).inbound.readIndex = s.inbound.readIndex := by
  simp only [State.partLost]
  repeat' split
  all_goals simp

@[simp] theorem loseSync_inbound (s : State) :
    (s.loseSync).inbound.ring = s.inbound.ring ∧ (s.loseSync).inbound.head = s.inbound.head ∧
    (s.loseSync).inbound.committedBytes = s.inbound.committedBytes ∧
    (s.loseSync).inbound.committedRecords = s.inbound.committedRecords ∧
    (s.loseSync).inbound.readIndex = s.inbound.readIndex := by
  simp only [State.loseSync]
  repeat' split
  all_goals simp

@[simp] theorem abandonTelegram_inbound (s : State) (o : Attempt) :
    (s.abandonTelegram o).inbound.ring = s.inbound.ring ∧
    (s.abandonTelegram o).inbound.head = s.inbound.head ∧
    (s.abandonTelegram o).inbound.committedBytes = s.inbound.committedBytes ∧
    (s.abandonTelegram o).inbound.committedRecords = s.inbound.committedRecords ∧
    (s.abandonTelegram o).inbound.readIndex = s.inbound.readIndex := by
  simp [State.abandonTelegram]

@[simp] theorem targetNak_inbound (s : State) :
    (s.targetNak).inbound.ring = s.inbound.ring ∧ (s.targetNak).inbound.head = s.inbound.head ∧
    (s.targetNak).inbound.committedBytes = s.inbound.committedBytes ∧
    (s.targetNak).inbound.committedRecords = s.inbound.committedRecords ∧
    (s.targetNak).inbound.readIndex = s.inbound.readIndex := by
  simp only [State.targetNak]
  repeat' split
  all_goals simp

@[simp] theorem initiatorNak_inbound (s : State) :
    (s.initiatorNak).inbound.ring = s.inbound.ring ∧
    (s.initiatorNak).inbound.head = s.inbound.head ∧
    (s.initiatorNak).inbound.committedBytes = s.inbound.committedBytes ∧
    (s.initiatorNak).inbound.committedRecords = s.inbound.committedRecords ∧
    (s.initiatorNak).inbound.readIndex = s.inbound.readIndex := by
  simp only [State.initiatorNak]
  repeat' split
  all_goals simp

@[simp] theorem memberBlock_inbound (s : State) (h : Header) (b : Bool) (l : List Byte) :
    (s.memberBlock h b l).inbound.ring = s.inbound.ring ∧
    (s.memberBlock h b l).inbound.head = s.inbound.head ∧
    (s.memberBlock h b l).inbound.committedBytes = s.inbound.committedBytes ∧
    (s.memberBlock h b l).inbound.committedRecords = s.inbound.committedRecords ∧
    (s.memberBlock h b l).inbound.readIndex = s.inbound.readIndex := by
  simp only [State.memberBlock, State.stageBlock, State.targetAdvance]
  repeat' split
  all_goals simp

@[simp] theorem sendCollective_inbound (s : State) (b : Bool) (l : Level) :
    (s.sendCollective b l).inbound.ring = s.inbound.ring ∧
    (s.sendCollective b l).inbound.head = s.inbound.head ∧
    (s.sendCollective b l).inbound.committedBytes = s.inbound.committedBytes ∧
    (s.sendCollective b l).inbound.committedRecords = s.inbound.committedRecords ∧
    (s.sendCollective b l).inbound.readIndex = s.inbound.readIndex := by
  simp only [State.sendCollective, State.initiatorAdvance]
  repeat' split
  all_goals simp

@[simp] theorem takeBlock_inbound (s : State) (data : Vector Byte 8) (check : Byte) (x y : Level) :
    (s.takeBlock data check x y).inbound.ring = s.inbound.ring ∧
    (s.takeBlock data check x y).inbound.head = s.inbound.head ∧
    (s.takeBlock data check x y).inbound.committedBytes = s.inbound.committedBytes ∧
    (s.takeBlock data check x y).inbound.committedRecords = s.inbound.committedRecords ∧
    (s.takeBlock data check x y).inbound.readIndex = s.inbound.readIndex := by
  simp only [State.takeBlock, State.receiveBlock, State.sendBlock, State.stageBlock, State.placeBlock,
    State.targetAdvance, State.initiatorAdvance]
  repeat' split
  all_goals simp

@[simp] theorem fifthNak_inbound (s : State) :
    (s.fifthNak).inbound.ring = s.inbound.ring ∧ (s.fifthNak).inbound.head = s.inbound.head ∧
    (s.fifthNak).inbound.committedBytes = s.inbound.committedBytes ∧
    (s.fifthNak).inbound.committedRecords = s.inbound.committedRecords ∧
    (s.fifthNak).inbound.readIndex = s.inbound.readIndex := by
  simp only [State.fifthNak]
  repeat' split
  all_goals simp

@[simp] theorem takeHeaderBits_inbound (s : State) (bits : BitVec 48) :
    (s.takeHeaderBits bits).inbound.ring = s.inbound.ring ∧
    (s.takeHeaderBits bits).inbound.head = s.inbound.head ∧
    (s.takeHeaderBits bits).inbound.committedBytes = s.inbound.committedBytes ∧
    (s.takeHeaderBits bits).inbound.committedRecords = s.inbound.committedRecords ∧
    (s.takeHeaderBits bits).inbound.readIndex = s.inbound.readIndex := by
  simp only [State.takeHeaderBits]
  repeat' split
  all_goals simp

@[simp] theorem takeSlotBit_inbound (s : State) (l : Level) :
    (s.takeSlotBit l).inbound.ring = s.inbound.ring ∧
    (s.takeSlotBit l).inbound.head = s.inbound.head ∧
    (s.takeSlotBit l).inbound.committedBytes = s.inbound.committedBytes ∧
    (s.takeSlotBit l).inbound.committedRecords = s.inbound.committedRecords ∧
    (s.takeSlotBit l).inbound.readIndex = s.inbound.readIndex := by
  simp only [State.takeSlotBit, State.pushSlot]
  repeat' split
  all_goals simp

@[simp] theorem takeHeaderPart_inbound (s : State) (part : HeaderPart) :
    (s.takeHeaderPart part).inbound.ring = s.inbound.ring ∧
    (s.takeHeaderPart part).inbound.head = s.inbound.head ∧
    (s.takeHeaderPart part).inbound.committedBytes = s.inbound.committedBytes ∧
    (s.takeHeaderPart part).inbound.committedRecords = s.inbound.committedRecords ∧
    (s.takeHeaderPart part).inbound.readIndex = s.inbound.readIndex := by
  cases part <;> simp [State.takeHeaderPart]

@[simp] theorem meetStuck_inbound (s : State) :
    (s.meetStuck).inbound.ring = s.inbound.ring ∧ (s.meetStuck).inbound.head = s.inbound.head ∧
    (s.meetStuck).inbound.committedBytes = s.inbound.committedBytes ∧
    (s.meetStuck).inbound.committedRecords = s.inbound.committedRecords ∧
    (s.meetStuck).inbound.readIndex = s.inbound.readIndex := by
  simp only [State.meetStuck]
  repeat' split
  all_goals simp

end Sys2Proof.Machine
end

