-- ==== Sys2Proof/Laws/Memory.lean ====
section
/-!
SUPPORT. The RAMs: a read after a write, and every write keeps the canonical form.
-/

namespace Sys2Proof.Machine

theorem Memory.wf_cons {size k : Nat} {v : Byte} {m : Memory} :
    Memory.wf size ((k, v) :: m) = true ↔
      k < size ∧ v ≠ 0 ∧ (∀ c ∈ m, k < c.1) ∧ Memory.wf size m = true := by
  simp [Memory.wf, and_assoc]

/-- An address below every listed one is unlisted. -/
theorem Memory.read_below {m : Memory} {k : Nat} (h : ∀ c ∈ m, k < c.1) : Memory.read m k = 0 := by
  induction m with
  | nil => rfl
  | cons c m ih =>
    have hc := h c (by simp)
    simp only [Memory.read]
    rw [if_neg (by omega)]
    exact ih fun x hx => h x (by simp [hx])

theorem Memory.mem_insert {m : Memory} {a : Nat} {b : Byte} {c : Host.Cell}
    (h : c ∈ Memory.insert m a b) : c = (a, b) ∨ c ∈ m := by
  induction m with
  | nil => simp only [Memory.insert] at h; split at h <;> simp_all
  | cons d m ih =>
    simp only [Memory.insert] at h
    split at h
    · split at h <;> simp_all
    · split at h
      · split at h
        · exact .inr (List.mem_cons_of_mem _ h)
        · exact (List.mem_cons.1 h).imp_right (List.mem_cons_of_mem _)
      · rcases List.mem_cons.1 h with h | h
        · simp [h]
        · rcases ih h with h | h <;> simp [h]

/-- Reading one byte after one byte was put in place. -/
theorem Memory.read_insert {size : Nat} {m : Memory} (hm : Memory.wf size m = true) (a : Nat)
    (b : Byte) (x : Nat) :
    Memory.read (Memory.insert m a b) x = if x = a then b else Memory.read m x := by
  induction m with
  | nil =>
    by_cases hb : b = 0
    · simp [Memory.insert, Memory.read, hb]
    · rw [Memory.insert, if_neg hb]
      by_cases hx : x = a
      · simp [Memory.read, hx]
      · simp [Memory.read, hx, Ne.symm hx]
  | cons c m ih =>
    obtain ⟨k, v⟩ := c
    obtain ⟨_, _, hlt, hw⟩ := Memory.wf_cons.1 hm
    simp only [Memory.insert]
    split
    next hak =>
      split
      next hb =>
        split
        next hx =>
          subst hx hb
          simp only [Memory.read]
          rw [if_neg (by omega)]
          exact Memory.read_below fun c hc => by have := hlt c hc; omega
        next => rfl
      next =>
        by_cases hx : x = a
        · simp [Memory.read, hx]
        · simp [Memory.read, hx, Ne.symm hx]
    next hak =>
      split
      next hk =>
        subst hk
        split
        next hb =>
          split
          next hx => subst hx hb; exact Memory.read_below hlt
          next hx => simp only [Memory.read]; rw [if_neg (fun h => hx h.symm)]
        next =>
          by_cases hx : x = a
          · simp [Memory.read, hx]
          · simp [Memory.read, hx, Ne.symm hx]
      next hk =>
        simp only [Memory.read, ih hw]
        by_cases hx : x = a
        · subst hx; simp [Ne.symm hk]
        · simp [hx]

theorem Memory.wf_insert {size : Nat} {m : Memory} (hm : Memory.wf size m = true) {a : Nat}
    (ha : a < size) (b : Byte) : Memory.wf size (Memory.insert m a b) = true := by
  induction m with
  | nil => simp only [Memory.insert]; split <;> simp_all [Memory.wf]
  | cons c m ih =>
    obtain ⟨k, v⟩ := c
    have hall := Memory.wf_cons.1 hm
    obtain ⟨hk, hv, hlt, hw⟩ := hall
    simp only [Memory.insert]
    split
    next hak =>
      split
      next => exact hm
      next hb =>
        refine Memory.wf_cons.2 ⟨ha, hb, fun c hc => ?_, hm⟩
        rcases List.mem_cons.1 hc with h | h
        · subst h; exact hak
        · have := hlt c h; omega
    next hak =>
      split
      next he =>
        subst he
        split
        next => exact hw
        next hb => exact Memory.wf_cons.2 ⟨ha, hb, hlt, hw⟩
      next he =>
        refine Memory.wf_cons.2 ⟨hk, hv, fun c hc => ?_, ih hw⟩
        rcases Memory.mem_insert hc with h | h
        · subst h; simp only; omega
        · exact hlt c h

/-- A write gives the byte written at its address and leaves every other address alone. -/
theorem Memory.read_write {size : Nat} {m : Memory} (hm : Memory.wf size m = true) {a : Nat}
    (ha : a < size) (b : Byte) (x : Nat) :
    Memory.read (Memory.write size m a b) x = if x = a then b else Memory.read m x := by
  rw [Memory.write, if_pos ha, Memory.read_insert hm]

@[simp] theorem Memory.wf_write {size : Nat} {m : Memory} (hm : Memory.wf size m = true) (a : Nat)
    (b : Byte) : Memory.wf size (Memory.write size m a b) = true := by
  rw [Memory.write]
  split
  next ha => exact Memory.wf_insert hm ha b
  next => exact hm

@[simp] theorem Memory.wf_writeBytes {size : Nat} {bs : List Byte} :
    ∀ {m : Memory} (a : Nat), Memory.wf size m = true →
      Memory.wf size (Memory.writeBytes size m a bs) = true := by
  induction bs with
  | nil => intro m a hm; exact hm
  | cons b bs ih => intro m a hm; exact ih (a + 1) (Memory.wf_write hm a b)

@[simp] theorem Memory.wf_writeRing {size : Nat} {bs : List Byte} :
    ∀ {m : Memory} (a : Nat), Memory.wf size m = true →
      Memory.wf size (Memory.writeRing size m a bs) = true := by
  induction bs with
  | nil => intro m a hm; exact hm
  | cons b bs ih => intro m a hm; exact ih (a + 1) (Memory.wf_write hm (a % size) b)

@[simp] theorem wf_writeBuffer {job : JobSlot} {bs : List Byte} :
    ∀ {m : Memory} (k : Nat), Memory.wf Config.poolSize m = true →
      Memory.wf Config.poolSize (writeBuffer job m k bs) = true := by
  induction bs with
  | nil => intro m k hm; exact hm
  | cons b bs ih => intro m k hm; exact ih (k + 1) (Memory.wf_write hm _ b)

/-- Consecutive bytes written inside the RAM: each reads back, every other address is as before. -/
theorem Memory.read_writeBytes {size : Nat} {bs : List Byte} :
    ∀ {m : Memory} (a : Nat), Memory.wf size m = true → a + bs.length ≤ size → ∀ x,
      Memory.read (Memory.writeBytes size m a bs) x =
        if a ≤ x ∧ x < a + bs.length then bs.getD (x - a) 0 else Memory.read m x := by
  induction bs with
  | nil => intro m a _ _ x; simp only [Memory.writeBytes, List.length_nil]; rw [if_neg (by omega)]
  | cons b bs ih =>
    intro m a hm hs x
    simp only [List.length_cons] at hs ⊢
    rw [Memory.writeBytes, ih (a + 1) (Memory.wf_write hm a b) (by omega),
      Memory.read_write hm (by omega)]
    by_cases hx : x = a
    · subst hx; rw [if_neg (by omega), if_pos rfl, if_pos (by omega)]; simp
    · by_cases hr : a + 1 ≤ x ∧ x < a + 1 + bs.length
      · rw [if_pos hr, if_pos (by omega)]
        obtain ⟨d, rfl⟩ : ∃ d, x = a + 1 + d := ⟨x - (a + 1), by omega⟩
        simp [show a + 1 + d - a = d + 1 by omega]
      · rw [if_neg hr, if_neg hx, if_neg (by omega)]

end Sys2Proof.Machine
end

