-- ==== Sys2Proof/Laws/Ops.lean ====
section
/-!
SUPPORT. What the shared ways of taking a command can answer: each lemma says once everything its operation
can do.
-/

namespace Sys2Proof.Machine

/-- A completion row: nothing, or the taken command's effect (R166). -/
theorem completing_next {s t : State} {code : Byte} {f : Params → State → State}
    (h : s.completing code f = .next t) :
    t = s ∨ ∃ p, s.mode = .running ∧ s.port.taken = some ⟨code, p⟩ ∧ t = f p s := by
  simp only [State.completing] at h
  split at h
  next c hc =>
    obtain ⟨code', p⟩ := c
    split at h
    next hr => cases h; obtain ⟨hm, rfl⟩ := hr; exact .inr ⟨p, hm, hc, rfl⟩
    next => cases h; exact .inl rfl
  next => cases h; exact .inl rfl

/-- The command in progress completes. -/
theorem completing_taken {s : State} {code : Byte} {p : Params} (f : Params → State → State)
    (h : s.inProgress code p) : s.completing code f = .next (f p s) := by
  simp [State.completing, h.1, h.2]

/-- A row of the link or of time. -/
theorem whenRunning_next {s t : State} {f : State → State} (h : s.whenRunning f = .next t) :
    (s.mode ≠ .running ∧ t = s) ∨ (s.mode = .running ∧ t = f s) := by
  simp only [State.whenRunning] at h
  split at h
  next hm => cases h; exact .inr ⟨hm, rfl⟩
  next hm => cases h; exact .inl ⟨hm, rfl⟩

/-- A row of the link: nothing in a reset, otherwise its effect at a moment after every commit (log entry 28). -/
theorem onLink_next {s t : State} {f : State → State} (h : s.onLink f = .next t) :
    (s.mode ≠ .running ∧ t = s) ∨ (s.mode = .running ∧ t = f s.momentOver) := whenRunning_next h

theorem whenRunning_running {s : State} (f : State → State) (h : s.mode = .running) :
    s.whenRunning f = .next (f s) := by simp [State.whenRunning, h]

/-- A read access: what the register read changes, and the byte driven (R163). -/
theorem hostRead_next {s t : State} {a : BitVec 4} {f : State → State}
    (h : s.hostRead a f = .next t) :
    (s.mode ≠ .running ∧ t = { s with lastRead := s.readRegister a }) ∨
      (s.mode = .running ∧ t = { f s with lastRead := s.readRegister a }) := by
  simp only [State.hostRead] at h
  cases h
  by_cases hm : s.mode = .running
  · exact .inr ⟨hm, by simp [hm]⟩
  · exact .inl ⟨hm, by simp [hm]⟩

/-- A write access. -/
theorem hostWrite_next {s t : State} {f : State → State} (h : s.hostWrite f = .next t) :
    (s.mode ≠ .running ∧ t = s) ∨ (s.mode = .running ∧ t = f s) := by
  simp only [State.hostWrite] at h
  cases h
  by_cases hm : s.mode = .running
  · exact .inr ⟨hm, by simp [hm]⟩
  · exact .inl ⟨hm, by simp [hm]⟩

/-- An expiry row: nothing, or its one share of the coming tick. -/
theorem expiryRow_next {s t : State} {share : TickShare} {due : Bool}
    (h : s.expiryRow share due = .next t) :
    t = s ∨ (s.mode = .running ∧ due = true ∧ share ∉ s.ticks.taken ∧
      t = s.takeShare false share) := by
  rcases whenRunning_next h with ⟨_, rfl⟩ | ⟨hm, rfl⟩
  · exact .inl rfl
  · split
    next hd => simp only [Bool.and_eq_true, decide_eq_true_eq] at hd
               exact .inr ⟨hm, hd.1, hd.2, rfl⟩
    next => exact .inl rfl

/-! ### The Event Unit -/

/-- The three things the Event Unit does with a notice (R154 to R156). -/
theorem post_cases (u : EventUnit) (n : Notice) (stamp : Stamp) :
    (u.records.any (·.takes n) = true ∧ u.post n stamp =
      { u with records := u.records.map fun r => if r.takes n then r.coalesce n stamp else r }) ∨
    (u.records.any (·.takes n) = false ∧ u.records.length < 32 ∧ u.post n stamp =
      { u with records := u.records ++ [n.record u.lostPending stamp], lostPending := false }) ∨
    (u.records.any (·.takes n) = false ∧ 32 ≤ u.records.length ∧ u.post n stamp =
      { u with lostPending := true }) := by
  by_cases h : u.records.any (·.takes n) = true
  · exact .inl ⟨h, by rw [EventUnit.post, if_pos h]⟩
  · refine .inr ?_
    by_cases hr : u.records.length < 32
    · exact .inl ⟨by simpa using h, hr, by rw [EventUnit.post, if_neg h, if_pos (by exact hr)]⟩
    · exact .inr ⟨by simpa using h, by omega, by
        rw [EventUnit.post, if_neg h, if_neg (by exact hr)]⟩

/-! ### The tick -/

/-- Shares taken one after the other: a property that each share keeps is kept by all. -/
theorem takeShares_induct {P : State → Prop} {b : Bool}
    (step : ∀ s x, P s → P (s.takeShare b x)) :
    ∀ (l : List TickShare) (s : State), P s → P (s.takeShares b l) := by
  intro l
  induction l with
  | nil => exact fun s hs => hs
  | cons x l ih => exact fun s hs => ih _ (step s x hs)

/-- A property that holds whatever the tick generator's own fields and that each countdown's share keeps is kept
by a whole tick. -/
theorem tickBoundary_induct {P : State → Prop} {b : Bool}
    (ticks : ∀ (s : State) (g : TickGenerator), P s → P { s with ticks := g })
    (share : ∀ s x, P s → P (s.applyShare b x)) (order : List TickShare) {s : State} (hs : P s) :
    P (s.tickBoundary order b) := by
  refine ticks _ _ (takeShares_induct (fun s x hs => ?_) _ _ (ticks _ _ hs))
  simp only [State.takeShare]
  split
  · exact hs
  · exact ticks _ _ (share s x hs)

end Sys2Proof.Machine
end

