-- ==== Sys2Proof/Laws/Rows.lean ====
section
/-!
SUPPORT. The frames of the rows: the fields that each command leaves as they were, whatever the state.
-/

namespace Sys2Proof.Machine

/-! ### Completions -/

theorem configure_row {s t : State} (h : exec (.configure) s = .next t) :
    t.pending = s.pending ∧ t.mode = s.mode ∧ t.lastRead = s.lastRead ∧ t.groups = s.groups ∧
    t.link = s.link ∧ t.ticks = s.ticks ∧ t.pages = s.pages ∧ t.pageMem = s.pageMem ∧
    t.responder = s.responder ∧ t.inbound = s.inbound ∧ t.jobs = s.jobs ∧ t.pool = s.pool ∧
    t.lists = s.lists ∧ t.submission = s.submission ∧ t.completions = s.completions ∧
    t.initiator = s.initiator ∧ t.peers = s.peers ∧ t.events = s.events := by
  rcases completing_next h with rfl | ⟨p, _, _, rfl⟩
  · simp
  · simp only [configureEffect]
    repeat' split
    all_goals simp

theorem setGroups_row {s t : State} (h : exec (.setGroups) s = .next t) :
    t.pending = s.pending ∧ t.mode = s.mode ∧ t.lastRead = s.lastRead ∧ t.cfg = s.cfg ∧
    t.link = s.link ∧ t.ticks = s.ticks ∧ t.pages = s.pages ∧ t.pageMem = s.pageMem ∧
    t.responder = s.responder ∧ t.inbound = s.inbound ∧ t.jobs = s.jobs ∧ t.pool = s.pool ∧
    t.lists = s.lists ∧ t.submission = s.submission ∧ t.completions = s.completions ∧
    t.initiator = s.initiator ∧ t.peers = s.peers ∧ t.events = s.events := by
  rcases completing_next h with rfl | ⟨p, _, _, rfl⟩
  · simp
  · simp only [setGroupsEffect]
    all_goals simp

theorem linkStart_row {s t : State} (h : exec (.linkStart) s = .next t) :
    t.pending = s.pending ∧ t.mode = s.mode ∧ t.lastRead = s.lastRead ∧ t.cfg = s.cfg ∧
    t.groups = s.groups ∧ t.ticks = s.ticks ∧ t.pages = s.pages ∧ t.pageMem = s.pageMem ∧
    t.responder = s.responder ∧ t.inbound = s.inbound ∧ t.jobs = s.jobs ∧ t.pool = s.pool ∧
    t.lists = s.lists ∧ t.submission = s.submission ∧ t.completions = s.completions ∧
    t.initiator = s.initiator ∧ t.peers = s.peers := by
  rcases completing_next h with rfl | ⟨p, _, _, rfl⟩
  · simp
  · simp only [linkStartEffect]
    repeat' split
    all_goals simp

theorem linkStop_row {s t : State} (h : exec (.linkStop) s = .next t) :
    t.pending = s.pending ∧ t.mode = s.mode ∧ t.lastRead = s.lastRead ∧ t.cfg = s.cfg ∧
    t.groups = s.groups ∧ t.ticks = s.ticks ∧ t.pages = s.pages ∧ t.pageMem = s.pageMem ∧
    t.responder = s.responder ∧ t.inbound = s.inbound ∧ t.jobs = s.jobs ∧ t.pool = s.pool ∧
    t.lists = s.lists ∧ t.submission = s.submission ∧ t.completions = s.completions ∧
    t.initiator = s.initiator ∧ t.peers = s.peers := by
  rcases completing_next h with rfl | ⟨p, _, _, rfl⟩
  · simp
  · simp only [linkStopEffect]
    repeat' split
    all_goals simp

theorem pageDefine_row {s t : State} (h : exec (.pageDefine) s = .next t) :
    t.pending = s.pending ∧ t.mode = s.mode ∧ t.lastRead = s.lastRead ∧ t.cfg = s.cfg ∧
    t.groups = s.groups ∧ t.link = s.link ∧ t.ticks = s.ticks ∧ t.pageMem = s.pageMem ∧
    t.responder = s.responder ∧ t.inbound = s.inbound ∧ t.jobs = s.jobs ∧ t.pool = s.pool ∧
    t.lists = s.lists ∧ t.submission = s.submission ∧ t.completions = s.completions ∧
    t.initiator = s.initiator ∧ t.peers = s.peers ∧ t.events = s.events := by
  rcases completing_next h with rfl | ⟨p, _, _, rfl⟩
  · simp
  · simp only [pageDefineEffect]
    repeat' split
    all_goals simp

theorem pageClose_row {s t : State} (h : exec (.pageClose) s = .next t) :
    t.pending = s.pending ∧ t.mode = s.mode ∧ t.lastRead = s.lastRead ∧ t.cfg = s.cfg ∧
    t.groups = s.groups ∧ t.link = s.link ∧ t.ticks = s.ticks ∧ t.pageMem = s.pageMem ∧
    t.responder = s.responder ∧ t.inbound = s.inbound ∧ t.jobs = s.jobs ∧ t.pool = s.pool ∧
    t.lists = s.lists ∧ t.submission = s.submission ∧ t.completions = s.completions ∧
    t.initiator = s.initiator ∧ t.peers = s.peers ∧ t.events = s.events := by
  rcases completing_next h with rfl | ⟨p, _, _, rfl⟩
  · simp
  · simp only [pageCloseEffect]
    repeat' split
    all_goals simp

theorem pageFetch_row {s t : State} (h : exec (.pageFetch) s = .next t) :
    t.pending = s.pending ∧ t.mode = s.mode ∧ t.lastRead = s.lastRead ∧ t.cfg = s.cfg ∧
    t.groups = s.groups ∧ t.link = s.link ∧ t.ticks = s.ticks ∧ t.pages = s.pages ∧
    t.pageMem = s.pageMem ∧ t.responder = s.responder ∧ t.inbound = s.inbound ∧ t.jobs = s.jobs ∧
    t.pool = s.pool ∧ t.lists = s.lists ∧ t.submission = s.submission ∧
    t.completions = s.completions ∧ t.initiator = s.initiator ∧ t.peers = s.peers ∧
    t.events = s.events := by
  rcases completing_next h with rfl | ⟨p, _, _, rfl⟩
  · simp
  · simp only [pageFetchEffect]
    repeat' split
    all_goals simp

theorem pageCommit_row {s t : State} (h : exec (.pageCommit) s = .next t) :
    t.pending = s.pending ∧ t.mode = s.mode ∧ t.lastRead = s.lastRead ∧ t.cfg = s.cfg ∧
    t.groups = s.groups ∧ t.link = s.link ∧ t.ticks.phase = s.ticks.phase ∧
    t.ticks.stamp = s.ticks.stamp ∧ t.ticks.taken = s.ticks.taken ∧ t.responder = s.responder ∧
    t.inbound = s.inbound ∧ t.jobs = s.jobs ∧ t.pool = s.pool ∧ t.lists = s.lists ∧
    t.submission = s.submission ∧ t.completions = s.completions ∧ t.initiator = s.initiator ∧
    t.peers = s.peers ∧ t.events = s.events := by
  rcases completing_next h with rfl | ⟨p, _, _, rfl⟩
  · simp
  · simp only [pageCommitEffect, TickGenerator.sparing, State.commitPage]
    repeat' split
    all_goals simp

theorem localClaim_row {s t : State} (h : exec (.localClaim) s = .next t) :
    t.pending = s.pending ∧ t.mode = s.mode ∧ t.lastRead = s.lastRead ∧ t.cfg = s.cfg ∧
    t.groups = s.groups ∧ t.link = s.link ∧ t.ticks = s.ticks ∧ t.pageMem = s.pageMem ∧
    t.responder = s.responder ∧ t.inbound = s.inbound ∧ t.jobs = s.jobs ∧ t.pool = s.pool ∧
    t.lists = s.lists ∧ t.submission = s.submission ∧ t.completions = s.completions ∧
    t.initiator = s.initiator ∧ t.peers = s.peers ∧ t.events = s.events := by
  rcases completing_next h with rfl | ⟨p, _, _, rfl⟩
  · simp
  · simp only [localClaimEffect]
    repeat' split
    all_goals simp

theorem localRelease_row {s t : State} (h : exec (.localRelease) s = .next t) :
    t.pending = s.pending ∧ t.mode = s.mode ∧ t.lastRead = s.lastRead ∧ t.cfg = s.cfg ∧
    t.groups = s.groups ∧ t.link = s.link ∧ t.ticks = s.ticks ∧ t.pageMem = s.pageMem ∧
    t.responder = s.responder ∧ t.inbound = s.inbound ∧ t.jobs = s.jobs ∧ t.pool = s.pool ∧
    t.lists = s.lists ∧ t.submission = s.submission ∧ t.completions = s.completions ∧
    t.initiator = s.initiator ∧ t.peers = s.peers ∧ t.events = s.events := by
  rcases completing_next h with rfl | ⟨p, _, _, rfl⟩
  · simp
  · simp only [localReleaseEffect]
    repeat' split
    all_goals simp

theorem breakClaim_row {s t : State} (h : exec (.breakClaim) s = .next t) :
    t.pending = s.pending ∧ t.mode = s.mode ∧ t.lastRead = s.lastRead ∧ t.cfg = s.cfg ∧
    t.groups = s.groups ∧ t.link = s.link ∧ t.ticks = s.ticks ∧ t.pageMem = s.pageMem ∧
    t.responder = s.responder ∧ t.inbound = s.inbound ∧ t.jobs = s.jobs ∧ t.pool = s.pool ∧
    t.lists = s.lists ∧ t.submission = s.submission ∧ t.completions = s.completions ∧
    t.initiator = s.initiator ∧ t.peers = s.peers ∧ t.events = s.events := by
  rcases completing_next h with rfl | ⟨p, _, _, rfl⟩
  · simp
  · simp only [breakClaimEffect]
    repeat' split
    all_goals simp

theorem submit_row {s t : State} (h : exec (.submit) s = .next t) :
    t.pending = s.pending ∧ t.mode = s.mode ∧ t.lastRead = s.lastRead ∧ t.cfg = s.cfg ∧
    t.groups = s.groups ∧ t.link = s.link ∧ t.ticks = s.ticks ∧ t.pages = s.pages ∧
    t.pageMem = s.pageMem ∧ t.responder = s.responder ∧ t.inbound = s.inbound ∧
    t.completions = s.completions ∧ t.initiator = s.initiator ∧ t.events = s.events := by
  rcases completing_next h with rfl | ⟨p, _, _, rfl⟩
  · simp
  · simp only [submitEffect]
    repeat' split
    all_goals simp

theorem cancel_row {s t : State} (h : exec (.cancel) s = .next t) :
    t.pending = s.pending ∧ t.mode = s.mode ∧ t.lastRead = s.lastRead ∧ t.cfg = s.cfg ∧
    t.groups = s.groups ∧ t.link = s.link ∧ t.ticks = s.ticks ∧ t.pages = s.pages ∧
    t.pageMem = s.pageMem ∧ t.responder = s.responder ∧ t.inbound = s.inbound ∧ t.pool = s.pool ∧
    t.initiator = s.initiator ∧ t.peers = s.peers ∧ t.events = s.events := by
  rcases completing_next h with rfl | ⟨p, _, _, rfl⟩
  · simp
  · simp only [cancelEffect]
    repeat' split
    all_goals simp

theorem jobQuery_row {s t : State} (h : exec (.jobQuery) s = .next t) :
    t.pending = s.pending ∧ t.mode = s.mode ∧ t.lastRead = s.lastRead ∧ t.cfg = s.cfg ∧
    t.groups = s.groups ∧ t.link = s.link ∧ t.ticks = s.ticks ∧ t.pages = s.pages ∧
    t.pageMem = s.pageMem ∧ t.responder = s.responder ∧ t.inbound = s.inbound ∧ t.jobs = s.jobs ∧
    t.pool = s.pool ∧ t.lists = s.lists ∧ t.submission = s.submission ∧
    t.completions = s.completions ∧ t.initiator = s.initiator ∧ t.peers = s.peers ∧
    t.events = s.events := by
  rcases completing_next h with rfl | ⟨p, _, _, rfl⟩
  · simp
  · simp only [jobQueryEffect]
    repeat' split
    all_goals simp

theorem jobFetch_row {s t : State} (h : exec (.jobFetch) s = .next t) :
    t.pending = s.pending ∧ t.mode = s.mode ∧ t.lastRead = s.lastRead ∧ t.cfg = s.cfg ∧
    t.groups = s.groups ∧ t.link = s.link ∧ t.ticks = s.ticks ∧ t.pages = s.pages ∧
    t.pageMem = s.pageMem ∧ t.responder = s.responder ∧ t.inbound = s.inbound ∧ t.jobs = s.jobs ∧
    t.pool = s.pool ∧ t.lists = s.lists ∧ t.submission = s.submission ∧
    t.completions = s.completions ∧ t.initiator = s.initiator ∧ t.peers = s.peers ∧
    t.events = s.events := by
  rcases completing_next h with rfl | ⟨p, _, _, rfl⟩
  · simp
  · simp only [jobFetchEffect]
    repeat' split
    all_goals simp

theorem retire_row {s t : State} (h : exec (.retire) s = .next t) :
    t.pending = s.pending ∧ t.mode = s.mode ∧ t.lastRead = s.lastRead ∧ t.cfg = s.cfg ∧
    t.groups = s.groups ∧ t.link = s.link ∧ t.ticks = s.ticks ∧ t.pages = s.pages ∧
    t.pageMem = s.pageMem ∧ t.responder = s.responder ∧ t.inbound = s.inbound ∧ t.pool = s.pool ∧
    t.lists = s.lists ∧ t.submission = s.submission ∧ t.completions = s.completions ∧
    t.initiator = s.initiator ∧ t.peers = s.peers ∧ t.events = s.events := by
  rcases completing_next h with rfl | ⟨p, _, _, rfl⟩
  · simp
  · simp only [retireEffect]
    repeat' split
    all_goals simp

theorem peerRead_row {s t : State} (h : exec (.peerRead) s = .next t) :
    t.pending = s.pending ∧ t.mode = s.mode ∧ t.lastRead = s.lastRead ∧ t.cfg = s.cfg ∧
    t.groups = s.groups ∧ t.link = s.link ∧ t.ticks = s.ticks ∧ t.pages = s.pages ∧
    t.pageMem = s.pageMem ∧ t.responder = s.responder ∧ t.inbound = s.inbound ∧ t.jobs = s.jobs ∧
    t.pool = s.pool ∧ t.lists = s.lists ∧ t.submission = s.submission ∧
    t.completions = s.completions ∧ t.initiator = s.initiator ∧ t.peers = s.peers ∧
    t.events = s.events := by
  rcases completing_next h with rfl | ⟨p, _, _, rfl⟩
  · simp
  · simp only [peerReadEffect]
    repeat' split
    all_goals simp

theorem peerReset_row {s t : State} (h : exec (.peerReset) s = .next t) :
    t.pending = s.pending ∧ t.mode = s.mode ∧ t.lastRead = s.lastRead ∧ t.cfg = s.cfg ∧
    t.groups = s.groups ∧ t.link = s.link ∧ t.ticks = s.ticks ∧ t.pages = s.pages ∧
    t.pageMem = s.pageMem ∧ t.responder = s.responder ∧ t.inbound = s.inbound ∧ t.jobs = s.jobs ∧
    t.pool = s.pool ∧ t.lists = s.lists ∧ t.submission = s.submission ∧
    t.completions = s.completions ∧ t.initiator = s.initiator ∧ t.events = s.events := by
  rcases completing_next h with rfl | ⟨p, _, _, rfl⟩
  · simp
  · simp only [peerResetEffect]
    repeat' split
    all_goals simp

theorem inboundDrop_row {s t : State} (h : exec (.inboundDrop) s = .next t) :
    t.pending = s.pending ∧ t.mode = s.mode ∧ t.lastRead = s.lastRead ∧ t.cfg = s.cfg ∧
    t.groups = s.groups ∧ t.link = s.link ∧ t.ticks = s.ticks ∧ t.pages = s.pages ∧
    t.pageMem = s.pageMem ∧ t.responder = s.responder ∧ t.jobs = s.jobs ∧ t.pool = s.pool ∧
    t.lists = s.lists ∧ t.submission = s.submission ∧ t.completions = s.completions ∧
    t.initiator = s.initiator ∧ t.peers = s.peers ∧ t.events = s.events := by
  rcases completing_next h with rfl | ⟨p, _, _, rfl⟩
  · simp
  · simp only [inboundDropEffect]
    repeat' split
    all_goals simp

theorem badCommand_row {s t : State} (h : exec (.badCommand) s = .next t) :
    t.pending = s.pending ∧ t.mode = s.mode ∧ t.lastRead = s.lastRead ∧ t.cfg = s.cfg ∧
    t.groups = s.groups ∧ t.link = s.link ∧ t.ticks = s.ticks ∧ t.pages = s.pages ∧
    t.pageMem = s.pageMem ∧ t.responder = s.responder ∧ t.inbound = s.inbound ∧ t.jobs = s.jobs ∧
    t.pool = s.pool ∧ t.lists = s.lists ∧ t.submission = s.submission ∧
    t.completions = s.completions ∧ t.initiator = s.initiator ∧ t.peers = s.peers ∧
    t.events = s.events := by
  simp only [exec, execBadCommand] at h
  repeat' split at h
  all_goals cases h; simp

/-! ### Register accesses -/

theorem statusRead_row {s t : State} (h : exec (.statusRead) s = .next t) :
    t.pending = s.pending ∧ t.mode = s.mode ∧ t.cfg = s.cfg ∧ t.groups = s.groups ∧
    t.link = s.link ∧ t.ticks = s.ticks ∧ t.pages = s.pages ∧ t.pageMem = s.pageMem ∧
    t.responder = s.responder ∧ t.inbound = s.inbound ∧ t.jobs = s.jobs ∧ t.pool = s.pool ∧
    t.lists = s.lists ∧ t.submission = s.submission ∧ t.completions = s.completions ∧
    t.initiator = s.initiator ∧ t.peers = s.peers ∧ t.events = s.events := by
  simp only [exec, execStatusRead] at h
  rcases hostRead_next h with ⟨_, rfl⟩ | ⟨_, rfl⟩
  · simp
  · simp

theorem resultRead_row {s t : State} (h : exec (.resultRead) s = .next t) :
    t.pending = s.pending ∧ t.mode = s.mode ∧ t.cfg = s.cfg ∧ t.groups = s.groups ∧
    t.link = s.link ∧ t.ticks = s.ticks ∧ t.pages = s.pages ∧ t.pageMem = s.pageMem ∧
    t.responder = s.responder ∧ t.inbound = s.inbound ∧ t.jobs = s.jobs ∧ t.pool = s.pool ∧
    t.lists = s.lists ∧ t.submission = s.submission ∧ t.completions = s.completions ∧
    t.initiator = s.initiator ∧ t.peers = s.peers ∧ t.events = s.events := by
  simp only [exec, execResultRead] at h
  rcases hostRead_next h with ⟨_, rfl⟩ | ⟨_, rfl⟩
  · simp
  · simp

theorem resultDataRead_row {s t : State} (h : exec (.resultDataRead) s = .next t) :
    t.pending = s.pending ∧ t.mode = s.mode ∧ t.cfg = s.cfg ∧ t.groups = s.groups ∧
    t.link = s.link ∧ t.ticks = s.ticks ∧ t.pages = s.pages ∧ t.pageMem = s.pageMem ∧
    t.responder = s.responder ∧ t.inbound = s.inbound ∧ t.jobs = s.jobs ∧ t.pool = s.pool ∧
    t.lists = s.lists ∧ t.submission = s.submission ∧ t.completions = s.completions ∧
    t.initiator = s.initiator ∧ t.peers = s.peers ∧ t.events = s.events := by
  simp only [exec, execResultDataRead] at h
  rcases hostRead_next h with ⟨_, rfl⟩ | ⟨_, rfl⟩
  · simp
  · simp only [State.advanceResult]
    repeat' split
    all_goals simp

theorem dataRead_row {s t : State} (h : exec (.dataRead) s = .next t) :
    t.pending = s.pending ∧ t.mode = s.mode ∧ t.cfg = s.cfg ∧ t.groups = s.groups ∧
    t.link = s.link ∧ t.ticks = s.ticks ∧ t.pages = s.pages ∧ t.pageMem = s.pageMem ∧
    t.responder = s.responder ∧ t.inbound = s.inbound ∧ t.jobs = s.jobs ∧ t.pool = s.pool ∧
    t.lists = s.lists ∧ t.submission = s.submission ∧ t.completions = s.completions ∧
    t.initiator = s.initiator ∧ t.peers = s.peers ∧ t.events = s.events := by
  simp only [exec, execDataRead] at h
  rcases hostRead_next h with ⟨_, rfl⟩ | ⟨_, rfl⟩
  · simp
  · simp only [State.advanceData]
    repeat' split
    all_goals simp

theorem completionRead_row {s t : State} (h : exec (.completionRead) s = .next t) :
    t.pending = s.pending ∧ t.mode = s.mode ∧ t.port = s.port ∧ t.cfg = s.cfg ∧
    t.groups = s.groups ∧ t.link = s.link ∧ t.ticks = s.ticks ∧ t.pages = s.pages ∧
    t.pageMem = s.pageMem ∧ t.responder = s.responder ∧ t.inbound = s.inbound ∧ t.pool = s.pool ∧
    t.lists = s.lists ∧ t.submission = s.submission ∧ t.initiator = s.initiator ∧
    t.peers = s.peers ∧ t.events = s.events := by
  simp only [exec, execCompletionRead] at h
  rcases hostRead_next h with ⟨_, rfl⟩ | ⟨_, rfl⟩
  · simp
  · simp only [State.advanceCompletion]
    repeat' split
    all_goals simp

theorem eventRead_row {s t : State} (h : exec (.eventRead) s = .next t) :
    t.pending = s.pending ∧ t.mode = s.mode ∧ t.port = s.port ∧ t.cfg = s.cfg ∧
    t.groups = s.groups ∧ t.link = s.link ∧ t.ticks = s.ticks ∧ t.pages = s.pages ∧
    t.pageMem = s.pageMem ∧ t.responder = s.responder ∧ t.inbound = s.inbound ∧ t.jobs = s.jobs ∧
    t.pool = s.pool ∧ t.lists = s.lists ∧ t.submission = s.submission ∧
    t.completions = s.completions ∧ t.initiator = s.initiator ∧ t.peers = s.peers := by
  simp only [exec, execEventRead] at h
  rcases hostRead_next h with ⟨_, rfl⟩ | ⟨_, rfl⟩
  · simp
  · simp only [State.advanceEvent]
    repeat' split
    all_goals simp

theorem inboundRead_row {s t : State} (h : exec (.inboundRead) s = .next t) :
    t.pending = s.pending ∧ t.mode = s.mode ∧ t.port = s.port ∧ t.cfg = s.cfg ∧
    t.groups = s.groups ∧ t.link = s.link ∧ t.ticks = s.ticks ∧ t.pages = s.pages ∧
    t.pageMem = s.pageMem ∧ t.responder = s.responder ∧ t.jobs = s.jobs ∧ t.pool = s.pool ∧
    t.lists = s.lists ∧ t.submission = s.submission ∧ t.completions = s.completions ∧
    t.initiator = s.initiator ∧ t.peers = s.peers ∧ t.events = s.events := by
  simp only [exec, execInboundRead] at h
  rcases hostRead_next h with ⟨_, rfl⟩ | ⟨_, rfl⟩
  · simp
  · simp only [State.advanceInbound]
    repeat' split
    all_goals simp

theorem paramWrite_row {value : Byte} {s t : State} (h : exec (.paramWrite value) s = .next t) :
    t.pending = s.pending ∧ t.mode = s.mode ∧ t.lastRead = s.lastRead ∧ t.cfg = s.cfg ∧
    t.groups = s.groups ∧ t.link = s.link ∧ t.ticks = s.ticks ∧ t.pages = s.pages ∧
    t.pageMem = s.pageMem ∧ t.responder = s.responder ∧ t.inbound = s.inbound ∧ t.jobs = s.jobs ∧
    t.pool = s.pool ∧ t.lists = s.lists ∧ t.submission = s.submission ∧
    t.completions = s.completions ∧ t.initiator = s.initiator ∧ t.peers = s.peers ∧
    t.events = s.events := by
  simp only [exec, execParamWrite] at h
  rcases hostWrite_next h with ⟨_, rfl⟩ | ⟨_, rfl⟩
  · simp
  · simp only [State.placeParam]
    repeat' split
    all_goals simp

theorem dataWrite_row {value : Byte} {s t : State} (h : exec (.dataWrite value) s = .next t) :
    t.pending = s.pending ∧ t.mode = s.mode ∧ t.lastRead = s.lastRead ∧ t.cfg = s.cfg ∧
    t.groups = s.groups ∧ t.link = s.link ∧ t.ticks = s.ticks ∧ t.pages = s.pages ∧
    t.pageMem = s.pageMem ∧ t.responder = s.responder ∧ t.inbound = s.inbound ∧ t.jobs = s.jobs ∧
    t.pool = s.pool ∧ t.lists = s.lists ∧ t.submission = s.submission ∧
    t.completions = s.completions ∧ t.initiator = s.initiator ∧ t.peers = s.peers ∧
    t.events = s.events := by
  simp only [exec, execDataWrite] at h
  rcases hostWrite_next h with ⟨_, rfl⟩ | ⟨_, rfl⟩
  · simp
  · simp only [State.storeData]
    repeat' split
    all_goals simp

theorem dataPtrWrite_row {value : Byte} {s t : State} (h : exec (.dataPtrWrite value) s = .next t) :
    t.pending = s.pending ∧ t.mode = s.mode ∧ t.lastRead = s.lastRead ∧ t.cfg = s.cfg ∧
    t.groups = s.groups ∧ t.link = s.link ∧ t.ticks = s.ticks ∧ t.pages = s.pages ∧
    t.pageMem = s.pageMem ∧ t.responder = s.responder ∧ t.inbound = s.inbound ∧ t.jobs = s.jobs ∧
    t.pool = s.pool ∧ t.lists = s.lists ∧ t.submission = s.submission ∧
    t.completions = s.completions ∧ t.initiator = s.initiator ∧ t.peers = s.peers ∧
    t.events = s.events := by
  simp only [exec, execDataPtrWrite] at h
  rcases hostWrite_next h with ⟨_, rfl⟩ | ⟨_, rfl⟩
  · simp
  · simp only [State.pointData]
    repeat' split
    all_goals simp

theorem irqClear_row {value : Byte} {s t : State} (h : exec (.irqClear value) s = .next t) :
    t.pending = s.pending ∧ t.mode = s.mode ∧ t.lastRead = s.lastRead ∧ t.cfg = s.cfg ∧
    t.groups = s.groups ∧ t.link = s.link ∧ t.ticks = s.ticks ∧ t.pages = s.pages ∧
    t.pageMem = s.pageMem ∧ t.responder = s.responder ∧ t.inbound = s.inbound ∧ t.jobs = s.jobs ∧
    t.pool = s.pool ∧ t.lists = s.lists ∧ t.submission = s.submission ∧
    t.completions = s.completions ∧ t.initiator = s.initiator ∧ t.peers = s.peers ∧
    t.events = s.events := by
  simp only [exec, execIrqClear] at h
  rcases hostWrite_next h with ⟨_, rfl⟩ | ⟨_, rfl⟩
  · simp
  · split <;> simp

theorem irqEnableWrite_row {value : Byte} {s t : State} (h : exec (.irqEnableWrite value) s = .next t) :
    t.pending = s.pending ∧ t.mode = s.mode ∧ t.lastRead = s.lastRead ∧ t.cfg = s.cfg ∧
    t.groups = s.groups ∧ t.link = s.link ∧ t.ticks = s.ticks ∧ t.pages = s.pages ∧
    t.pageMem = s.pageMem ∧ t.responder = s.responder ∧ t.inbound = s.inbound ∧ t.jobs = s.jobs ∧
    t.pool = s.pool ∧ t.lists = s.lists ∧ t.submission = s.submission ∧
    t.completions = s.completions ∧ t.initiator = s.initiator ∧ t.peers = s.peers ∧
    t.events = s.events := by
  simp only [exec, execIrqEnableWrite] at h
  rcases hostWrite_next h with ⟨_, rfl⟩ | ⟨_, rfl⟩
  · simp
  · simp

theorem ignoredWrite_row {a : BitVec 4} {value : Byte} {s t : State} (h : exec (.ignoredWrite a value) s = .next t) :
    t.pending = s.pending ∧ t.mode = s.mode ∧ t.port = s.port ∧ t.lastRead = s.lastRead ∧
    t.cfg = s.cfg ∧ t.groups = s.groups ∧ t.link = s.link ∧ t.ticks = s.ticks ∧
    t.pages = s.pages ∧ t.pageMem = s.pageMem ∧ t.responder = s.responder ∧
    t.inbound = s.inbound ∧ t.jobs = s.jobs ∧ t.pool = s.pool ∧ t.lists = s.lists ∧
    t.submission = s.submission ∧ t.completions = s.completions ∧ t.initiator = s.initiator ∧
    t.peers = s.peers ∧ t.events = s.events := by
  simp only [exec, execIgnoredWrite] at h
  rcases hostWrite_next h with ⟨_, rfl⟩ | ⟨_, rfl⟩
  · simp
  · simp

theorem cmdWrite_row {value : Byte} {s t : State} (h : exec (.cmdWrite value) s = .next t) :
    t.pending = s.pending ∧ t.mode = s.mode ∧ t.lastRead = s.lastRead ∧ t.cfg = s.cfg ∧
    t.groups = s.groups ∧ t.link = s.link ∧ t.ticks = s.ticks ∧ t.pages = s.pages ∧
    t.pageMem = s.pageMem ∧ t.responder = s.responder ∧ t.inbound = s.inbound ∧ t.jobs = s.jobs ∧
    t.pool = s.pool ∧ t.lists = s.lists ∧ t.submission = s.submission ∧
    t.completions = s.completions ∧ t.initiator = s.initiator ∧ t.peers = s.peers ∧
    t.events = s.events := by
  simp only [exec, execCmdWrite] at h
  rcases hostWrite_next h with ⟨_, rfl⟩ | ⟨_, rfl⟩
  · simp
  · simp only [State.offerCommand]
    repeat' split
    all_goals simp

/-! ### Resets -/

theorem controllerReset_row {value : Byte} {s t : State} (h : exec (.controllerReset value) s = .next t) :
    t.pending = s.pending ∧ t.lastRead = s.lastRead ∧ t.cfg = s.cfg ∧ t.groups = s.groups ∧
    t.ticks = s.ticks ∧ t.pages = s.pages ∧ t.pageMem = s.pageMem ∧ t.responder = s.responder ∧
    t.inbound = s.inbound ∧ t.jobs = s.jobs ∧ t.pool = s.pool ∧ t.lists = s.lists ∧
    t.submission = s.submission ∧ t.completions = s.completions ∧ t.initiator = s.initiator ∧
    t.peers = s.peers ∧ t.events = s.events := by
  simp only [exec, execControllerReset] at h
  rcases hostWrite_next h with ⟨_, rfl⟩ | ⟨_, rfl⟩
  · simp
  · simp only [State.beginReset]
    repeat' split
    all_goals simp

theorem controllerResetEnd_row {s t : State} (h : exec (.controllerResetEnd) s = .next t) :
    t.pending = s.pending ∧ t.lastRead = s.lastRead ∧ t.pageMem = s.pageMem := by
  simp only [exec, execControllerResetEnd] at h
  repeat' split at h
  all_goals cases h; simp [State.blocksReset]

theorem resetAsserted_row {s t : State} (h : exec (.resetAsserted) s = .next t) :
    t.pending = s.pending ∧ t.lastRead = s.lastRead ∧ t.pageMem = s.pageMem := by
  simp only [exec, execResetAsserted] at h
  repeat' split at h
  all_goals cases h; simp [State.blocksReset]

theorem powerOnResetSequence_row {s t : State} (h : exec (.powerOnResetSequence) s = .next t) :
    t.pending = s.pending ∧ t.port = s.port ∧ t.lastRead = s.lastRead ∧ t.cfg = s.cfg ∧
    t.groups = s.groups ∧ t.link = s.link ∧ t.ticks = s.ticks ∧ t.pages = s.pages ∧
    t.pageMem = s.pageMem ∧ t.responder = s.responder ∧ t.inbound = s.inbound ∧ t.jobs = s.jobs ∧
    t.pool = s.pool ∧ t.lists = s.lists ∧ t.submission = s.submission ∧
    t.completions = s.completions ∧ t.initiator = s.initiator ∧ t.peers = s.peers ∧
    t.events = s.events := by
  simp only [exec, execPowerOnResetSequence] at h
  repeat' split at h
  all_goals cases h; simp

theorem powerOnResetEnd_row {s t : State} (h : exec (.powerOnResetEnd) s = .next t) :
    t.pending = s.pending ∧ t.lastRead = s.lastRead := by
  simp only [exec, execPowerOnResetEnd] at h
  repeat' split at h
  all_goals cases h; simp [State.blocksReset]

/-! ### The link -/

theorem enterOnline_row {s t : State} (h : exec (.enterOnline) s = .next t) :
    t.pending = s.pending ∧ t.mode = s.mode ∧ t.port = s.port ∧ t.lastRead = s.lastRead ∧
    t.cfg = s.cfg ∧ t.groups = s.groups ∧ { t.ticks with spared := s.ticks.spared } = s.ticks ∧ t.pages = s.pages ∧
    t.pageMem = s.pageMem ∧ t.responder = s.responder ∧ t.inbound = s.inbound ∧ t.jobs = s.jobs ∧
    t.pool = s.pool ∧ t.lists = s.lists ∧ t.submission = s.submission ∧
    t.completions = s.completions ∧ t.initiator = s.initiator ∧ t.peers = s.peers := by
  rcases onLink_next h with ⟨_, rfl⟩ | ⟨_, rfl⟩ <;> simp

theorem transmitOpportunity_row {s t : State} (h : exec (.transmitOpportunity) s = .next t) :
    t.pending = s.pending ∧ t.mode = s.mode ∧ t.port = s.port ∧ t.lastRead = s.lastRead ∧
    t.cfg = s.cfg ∧ t.groups = s.groups ∧ { t.ticks with spared := s.ticks.spared } = s.ticks ∧ t.pages = s.pages ∧
    t.pageMem = s.pageMem ∧ t.responder = s.responder ∧ t.inbound = s.inbound ∧ t.pool = s.pool ∧
    t.peers = s.peers ∧ t.events = s.events := by
  rcases onLink_next h with ⟨_, rfl⟩ | ⟨_, rfl⟩ <;> simp

theorem startMarker_row {s t : State} (h : exec (.startMarker) s = .next t) :
    t.pending = s.pending ∧ t.mode = s.mode ∧ t.port = s.port ∧ t.lastRead = s.lastRead ∧
    t.cfg = s.cfg ∧ t.groups = s.groups ∧ { t.ticks with spared := s.ticks.spared } = s.ticks ∧ t.pages = s.pages ∧
    t.pageMem = s.pageMem ∧ t.responder = s.responder ∧ t.inbound = s.inbound ∧ t.jobs = s.jobs ∧
    t.pool = s.pool ∧ t.lists = s.lists ∧ t.submission = s.submission ∧
    t.completions = s.completions ∧ t.initiator = s.initiator ∧ t.peers = s.peers ∧
    t.events = s.events := by
  rcases onLink_next h with ⟨_, rfl⟩ | ⟨_, rfl⟩ <;> simp

theorem gapMeasurementRestart_row {s t : State} (h : exec (.gapMeasurementRestart) s = .next t) :
    t.pending = s.pending ∧ t.mode = s.mode ∧ t.port = s.port ∧ t.lastRead = s.lastRead ∧
    t.cfg = s.cfg ∧ t.groups = s.groups ∧ { t.ticks with spared := s.ticks.spared } = s.ticks ∧ t.pages = s.pages ∧
    t.pageMem = s.pageMem ∧ t.responder = s.responder ∧ t.inbound = s.inbound ∧ t.jobs = s.jobs ∧
    t.pool = s.pool ∧ t.lists = s.lists ∧ t.submission = s.submission ∧
    t.completions = s.completions ∧ t.initiator = s.initiator ∧ t.peers = s.peers ∧
    t.events = s.events := by
  rcases onLink_next h with ⟨_, rfl⟩ | ⟨_, rfl⟩ <;> simp

theorem arbitrationLost_row {s t : State} (h : exec (.arbitrationLost) s = .next t) :
    t.pending = s.pending ∧ t.mode = s.mode ∧ t.port = s.port ∧ t.lastRead = s.lastRead ∧
    t.cfg = s.cfg ∧ t.groups = s.groups ∧ { t.ticks with spared := s.ticks.spared } = s.ticks ∧ t.pages = s.pages ∧
    t.pageMem = s.pageMem ∧ t.responder = s.responder ∧ t.inbound = s.inbound ∧ t.pool = s.pool := by
  rcases onLink_next h with ⟨_, rfl⟩ | ⟨_, rfl⟩ <;> simp

theorem header_row {part : HeaderPart} {s t : State} (h : exec (.header part) s = .next t) :
    t.pending = s.pending ∧ t.mode = s.mode ∧ t.port = s.port ∧ t.lastRead = s.lastRead ∧
    t.cfg = s.cfg ∧ t.groups = s.groups ∧ { t.ticks with spared := s.ticks.spared } = s.ticks ∧ t.pageMem = s.pageMem ∧
    t.pool = s.pool := by
  simp only [exec, execHeader] at h
  rcases onLink_next h with ⟨_, rfl⟩ | ⟨_, rfl⟩ <;> simp

theorem blockSlot_row {data : Vector Byte 8} {check : Byte} {x y : Level} {s t : State} (h : exec (.blockSlot data check x y) s = .next t) :
    t.pending = s.pending ∧ t.mode = s.mode ∧ t.port = s.port ∧ t.lastRead = s.lastRead ∧
    t.cfg = s.cfg ∧ t.groups = s.groups ∧ { t.ticks with spared := s.ticks.spared } = s.ticks ∧ t.pageMem = s.pageMem := by
  simp only [exec, execBlockSlot] at h
  rcases onLink_next h with ⟨_, rfl⟩ | ⟨_, rfl⟩ <;> simp

theorem resendExhaustion_row {s t : State} (h : exec (.resendExhaustion) s = .next t) :
    t.pending = s.pending ∧ t.mode = s.mode ∧ t.port = s.port ∧ t.lastRead = s.lastRead ∧
    t.cfg = s.cfg ∧ t.groups = s.groups ∧ { t.ticks with spared := s.ticks.spared } = s.ticks ∧ t.pageMem = s.pageMem ∧
    t.pool = s.pool := by
  rcases onLink_next h with ⟨_, rfl⟩ | ⟨_, rfl⟩ <;> simp

theorem bitError_row {s t : State} (h : exec (.bitError) s = .next t) :
    t.pending = s.pending ∧ t.mode = s.mode ∧ t.port = s.port ∧ t.lastRead = s.lastRead ∧
    t.cfg = s.cfg ∧ t.groups = s.groups ∧ { t.ticks with spared := s.ticks.spared } = s.ticks ∧ t.pageMem = s.pageMem ∧
    t.pool = s.pool := by
  simp only [exec, execBitError] at h
  rcases onLink_next h with ⟨_, rfl⟩ | ⟨_, rfl⟩
  · simp
  · split
    all_goals simp

theorem lossOfSyncEdges_row {s t : State} (h : exec (.lossOfSyncEdges) s = .next t) :
    t.pending = s.pending ∧ t.mode = s.mode ∧ t.port = s.port ∧ t.lastRead = s.lastRead ∧
    t.cfg = s.cfg ∧ t.groups = s.groups ∧ { t.ticks with spared := s.ticks.spared } = s.ticks ∧ t.pageMem = s.pageMem ∧
    t.pool = s.pool := by
  rcases onLink_next h with ⟨_, rfl⟩ | ⟨_, rfl⟩ <;> simp

theorem normalEnd_row {s t : State} (h : exec (.normalEnd) s = .next t) :
    t.pending = s.pending ∧ t.mode = s.mode ∧ t.port = s.port ∧ t.lastRead = s.lastRead ∧
    t.cfg = s.cfg ∧ t.groups = s.groups ∧ { t.ticks with spared := s.ticks.spared } = s.ticks ∧ t.pool = s.pool := by
  rcases onLink_next h with ⟨_, rfl⟩ | ⟨_, rfl⟩ <;> simp

theorem stuckDominant_row {s t : State} (h : exec (.stuckDominant) s = .next t) :
    t.pending = s.pending ∧ t.mode = s.mode ∧ t.port = s.port ∧ t.lastRead = s.lastRead ∧
    t.cfg = s.cfg ∧ t.groups = s.groups ∧ { t.ticks with spared := s.ticks.spared } = s.ticks ∧ t.pageMem = s.pageMem ∧
    t.pool = s.pool := by
  rcases onLink_next h with ⟨_, rfl⟩ | ⟨_, rfl⟩ <;> simp

/-! ### Time -/

theorem tick_row {order : List TickShare} {b : Bool} {s t : State} (h : exec (.tick order b) s = .next t) :
    t.pending = s.pending ∧ t.mode = s.mode ∧ t.port = s.port ∧ t.lastRead = s.lastRead ∧
    t.cfg = s.cfg ∧ t.groups = s.groups ∧ t.pageMem = s.pageMem ∧ t.responder = s.responder ∧
    t.inbound = s.inbound ∧ t.pool = s.pool ∧ t.initiator = s.initiator ∧ t.peers = s.peers := by
  simp only [exec, execTick] at h
  rcases whenRunning_next h with ⟨_, rfl⟩ | ⟨_, rfl⟩ <;> simp

theorem recoveryTimerExpiry_row {s t : State} (h : exec (.recoveryTimerExpiry) s = .next t) :
    t.pending = s.pending ∧ t.mode = s.mode ∧ t.port = s.port ∧ t.lastRead = s.lastRead ∧
    t.cfg = s.cfg ∧ t.groups = s.groups ∧ t.pages = s.pages ∧ t.pageMem = s.pageMem ∧
    t.responder = s.responder ∧ t.inbound = s.inbound ∧ t.jobs = s.jobs ∧ t.pool = s.pool ∧
    t.lists = s.lists ∧ t.submission = s.submission ∧ t.completions = s.completions ∧
    t.initiator = s.initiator ∧ t.peers = s.peers := by
  rcases expiryRow_next h with rfl | ⟨_, _, _, rfl⟩
  · simp
  · simp only [State.takeShare, State.applyShare]
    split <;> simp

theorem leaseExpiry_row {p : Page} {s t : State} (h : exec (.leaseExpiry p) s = .next t) :
    t.pending = s.pending ∧ t.mode = s.mode ∧ t.port = s.port ∧ t.lastRead = s.lastRead ∧
    t.cfg = s.cfg ∧ t.groups = s.groups ∧ t.link = s.link ∧ t.pageMem = s.pageMem ∧
    t.responder = s.responder ∧ t.inbound = s.inbound ∧ t.jobs = s.jobs ∧ t.pool = s.pool ∧
    t.lists = s.lists ∧ t.submission = s.submission ∧ t.completions = s.completions ∧
    t.initiator = s.initiator ∧ t.peers = s.peers := by
  rcases expiryRow_next h with rfl | ⟨_, _, _, rfl⟩
  · simp
  · simp only [State.takeShare, State.applyShare]
    split <;> simp

theorem pendingExpiry_row {p : Page} {s t : State} (h : exec (.pendingExpiry p) s = .next t) :
    t.pending = s.pending ∧ t.mode = s.mode ∧ t.port = s.port ∧ t.lastRead = s.lastRead ∧
    t.cfg = s.cfg ∧ t.groups = s.groups ∧ t.link = s.link ∧ t.pageMem = s.pageMem ∧
    t.responder = s.responder ∧ t.inbound = s.inbound ∧ t.jobs = s.jobs ∧ t.pool = s.pool ∧
    t.lists = s.lists ∧ t.submission = s.submission ∧ t.completions = s.completions ∧
    t.initiator = s.initiator ∧ t.peers = s.peers := by
  rcases expiryRow_next h with rfl | ⟨_, _, _, rfl⟩
  · simp
  · simp only [State.takeShare, State.applyShare]
    split <;> simp

theorem refreshWindowExpiry_row {p : Page} {s t : State} (h : exec (.refreshWindowExpiry p) s = .next t) :
    t.pending = s.pending ∧ t.mode = s.mode ∧ t.port = s.port ∧ t.lastRead = s.lastRead ∧
    t.cfg = s.cfg ∧ t.groups = s.groups ∧ t.link = s.link ∧ t.pageMem = s.pageMem ∧
    t.responder = s.responder ∧ t.inbound = s.inbound ∧ t.jobs = s.jobs ∧ t.pool = s.pool ∧
    t.lists = s.lists ∧ t.submission = s.submission ∧ t.completions = s.completions ∧
    t.initiator = s.initiator ∧ t.peers = s.peers ∧ t.events = s.events := by
  rcases expiryRow_next h with rfl | ⟨_, _, _, rfl⟩
  · simp
  · simp only [State.takeShare, State.applyShare]
    split <;> simp

theorem freshLifetimeExpiry_row {p : Page} {s t : State} (h : exec (.freshLifetimeExpiry p) s = .next t) :
    t.pending = s.pending ∧ t.mode = s.mode ∧ t.port = s.port ∧ t.lastRead = s.lastRead ∧
    t.cfg = s.cfg ∧ t.groups = s.groups ∧ t.link = s.link ∧ t.pageMem = s.pageMem ∧
    t.responder = s.responder ∧ t.inbound = s.inbound ∧ t.jobs = s.jobs ∧ t.pool = s.pool ∧
    t.lists = s.lists ∧ t.submission = s.submission ∧ t.completions = s.completions ∧
    t.initiator = s.initiator ∧ t.peers = s.peers ∧ t.events = s.events := by
  rcases expiryRow_next h with rfl | ⟨_, _, _, rfl⟩
  · simp
  · simp only [State.takeShare, State.applyShare]
    split <;> simp

theorem retryCountdownExpiry_row {j : Slot} {s t : State} (h : exec (.retryCountdownExpiry j) s = .next t) :
    t.pending = s.pending ∧ t.mode = s.mode ∧ t.port = s.port ∧ t.lastRead = s.lastRead ∧
    t.cfg = s.cfg ∧ t.groups = s.groups ∧ t.link = s.link ∧ t.pages = s.pages ∧
    t.pageMem = s.pageMem ∧ t.responder = s.responder ∧ t.inbound = s.inbound ∧ t.pool = s.pool ∧
    t.submission = s.submission ∧ t.completions = s.completions ∧ t.initiator = s.initiator ∧
    t.peers = s.peers ∧ t.events = s.events := by
  rcases expiryRow_next h with rfl | ⟨_, _, _, rfl⟩
  · simp
  · simp only [State.takeShare, State.applyShare]
    split <;> simp

theorem deadlineExpiry_row {j : Slot} {s t : State} (h : exec (.deadlineExpiry j) s = .next t) :
    t.pending = s.pending ∧ t.mode = s.mode ∧ t.port = s.port ∧ t.lastRead = s.lastRead ∧
    t.cfg = s.cfg ∧ t.groups = s.groups ∧ t.link = s.link ∧ t.pages = s.pages ∧
    t.pageMem = s.pageMem ∧ t.responder = s.responder ∧ t.inbound = s.inbound ∧ t.pool = s.pool ∧
    t.initiator = s.initiator ∧ t.peers = s.peers ∧ t.events = s.events := by
  rcases expiryRow_next h with rfl | ⟨_, _, _, rfl⟩
  · simp
  · simp only [State.takeShare, State.applyShare]
    split <;> simp

end Sys2Proof.Machine
end

