-- ==== Sys2Proof/Laws/Kept.lean ====
section
/-!
SUPPORT. What the shared operations do to the laws of Safety.lean: which state a law reads, and that each
operation over that state keeps it.
-/

namespace Sys2Proof.Machine

/-! ### A law speaks of some fields only -/

theorem memoryForm_congr {s t : State} (hp : t.pageMem = s.pageMem) (hr : t.inbound.ring = s.inbound.ring)
    (hb : t.pool = s.pool) (hs : t.port.staging = s.port.staging) (h : s.memoryForm) :
    t.memoryForm := by simpa only [State.memoryForm, hp, hr, hb, hs] using h

theorem eventLaw_congr {s t : State} (he : t.events = s.events) (h : s.eventLaw) : t.eventLaw := by
  obtain ⟨a, b, c, d, e⟩ := h
  constructor <;> rw [he] <;> assumption

theorem peerLaw_congr {s t : State} (hp : t.peers = s.peers)
    (hc : t.cfg.degradeThreshold = s.cfg.degradeThreshold) (h : s.peerLaw) : t.peerLaw := by
  obtain ⟨a, b, c, d, e⟩ := h
  constructor <;> simp only [hp, hc] <;> assumption

theorem portLaw_congr {s t : State} (hp : t.port = s.port) (h : s.portLaw) : t.portLaw := by
  obtain ⟨a, b, c, d⟩ := h
  constructor <;> rw [hp] <;> assumption

/-! ### Memory -/

theorem memoryForm_blocksReset {s : State} {m : Memory} (hm : m.wf Config.pageMemorySize = true)
    (mode : ResetMode) : State.memoryForm { s.blocksReset m with mode := mode } := by
  refine ⟨hm, ?_, ?_, ?_⟩ <;> rfl

theorem wf_commit {i : InboundStore} (h : i.ring.wf Config.ringSize = true) (payload : List Byte)
    (stamp : Stamp) : (i.commit payload stamp).ring.wf Config.ringSize = true := by
  simp only [InboundStore.commit]
  split
  · exact h
  · exact Memory.wf_writeRing _ h

theorem wf_landWrite {s : State} (hm : s.pageMem.wf Config.pageMemorySize = true) (h : Header) :
    (s.landWrite h).pageMem.wf Config.pageMemorySize = true := by
  simp only [State.landWrite, postNotice_pageMem]
  exact Memory.wf_writeBytes _ hm

theorem wf_operationEffects {s : State} (hs : s.memoryForm) (h : Header) :
    (s.operationEffects h).memoryForm := by
  obtain ⟨hp, hr, hb, hg⟩ := hs
  have hw := wf_landWrite hp h
  simp only [State.operationEffects, State.memoryForm]
  repeat' split
  all_goals simp_all [wf_commit]

theorem memoryForm_applyEffects {s : State} (hs : s.memoryForm) (h : Header) :
    (s.applyEffects h).memoryForm := by
  have hk : (s.operationEffects h).clearAccepted.memoryForm :=
    memoryForm_congr (by simp) (by simp) (by simp) (by simp) (wf_operationEffects hs h)
  simp only [State.applyEffects]
  split
  · exact memoryForm_congr (by simp) (by simp) (by simp) (by simp) hk
  all_goals exact hk

theorem memoryForm_reachEnd {s : State} (hs : s.memoryForm) : s.reachEnd.memoryForm := by
  have hk : s.endEffects.memoryForm := by
    simp only [State.endEffects]
    split
    · exact memoryForm_congr (by simp) (by simp) (by simp) (by simp) hs
    · exact memoryForm_applyEffects hs _
    · exact memoryForm_applyEffects hs _
    all_goals exact hs
  simp only [State.reachEnd]
  split
  · exact memoryForm_congr (by simp) (by simp) (by simp) (by simp) hk
  · exact hs

theorem wf_takeBlock {s : State} (hs : s.pool.wf Config.poolSize = true) (data : Vector Byte 8)
    (check : Byte) (x y : Level) : (s.takeBlock data check x y).pool.wf Config.poolSize = true := by
  simp only [State.takeBlock, State.receiveBlock, State.sendBlock, State.stageBlock, State.placeBlock,
    State.targetAdvance, State.initiatorAdvance]
  repeat' split
  all_goals simp [hs]

/-! ### The Event Unit -/

theorem writtenSubjects_append {l : List EventRecord} (r : EventRecord) :
    ((l ++ [r]).filter fun r => r.kind == .pageWritten).map EventRecord.subject =
      (l.filter fun r => r.kind == .pageWritten).map EventRecord.subject ++
        if r.kind = .pageWritten then [r.subject] else [] := by
  by_cases h : r.kind = .pageWritten <;> simp [h]

theorem eventLaw_postNotice {s : State} (hs : s.eventLaw) (n : Notice) : (s.postNotice n).eventLaw := by
  obtain ⟨room, once, counts, index, empty⟩ := hs
  rcases post_cases s.events n s.ticks.stamp with ⟨hany, hp⟩ | ⟨hany, hroom, hp⟩ | ⟨_, _, hp⟩
  · have hk : ∀ r : EventRecord, (if r.takes n then r.coalesce n s.ticks.stamp else r).kind = r.kind := by
      intro r; split <;> rfl
    have hj : ∀ r : EventRecord,
        (if r.takes n then r.coalesce n s.ticks.stamp else r).subject = r.subject := by
      intro r; split <;> rfl
    constructor
    · simpa [hp] using room
    · simp only [postNotice_events, hp, List.filter_map, List.map_map]
      convert once using 3
      · funext r; exact hj r
      · funext r; simp [hk r]
    · simp only [postNotice_events, hp, List.mem_map]
      rintro r ⟨r', hr', rfl⟩
      obtain ⟨h1, h2⟩ := counts r' hr'
      split
      next ht =>
        simp only [EventRecord.takes, Bool.and_eq_true, beq_iff_eq] at ht
        obtain ⟨h3, h4⟩ := h1 ht.1.2
        refine ⟨fun _ => ?_, fun h => absurd ht.1.2 h⟩
        simp only [EventRecord.coalesce]
        omega
      next => exact ⟨h1, h2⟩
    · simpa [hp] using index
    · simpa [hp] using empty
  · constructor
    · simp [hp]; omega
    · simp only [postNotice_events, hp, writtenSubjects_append]
      split
      next hk =>
        rw [List.nodup_append]
        refine ⟨once, by simp, ?_⟩
        rintro a ha b hb rfl
        simp only [List.mem_singleton] at hb
        obtain ⟨r, hr, rfl⟩ := List.mem_map.1 ha
        rw [List.mem_filter] at hr
        rw [List.any_eq_false] at hany
        apply hany r hr.1
        have hk' : n.kind = .pageWritten := hk
        have hr2 := hr.2
        simp only [beq_iff_eq] at hr2
        simp [EventRecord.takes, hk', hr2, hb, Notice.record]
      next => simpa using once
    · simp only [postNotice_events, hp, List.mem_append, List.mem_singleton]
      rintro r (hr | rfl)
      · exact counts r hr
      · by_cases hk : n.kind = .pageWritten <;> simp [Notice.record, hk]
    · simpa [hp] using index
    · simp [hp]
  · constructor <;> simpa only [postNotice_events, hp]

/-- The queue `v` is the queue `u` after some notices, in some order, taken one after the other. -/
inductive Posted (u : EventUnit) : EventUnit → Prop
  | refl : Posted u u
  | post {v : EventUnit} (h : Posted u v) (n : Notice) (stamp : Stamp) : Posted u (v.post n stamp)

theorem Posted.trans {u v w : EventUnit} (h : Posted u v) (k : Posted v w) : Posted u w := by
  induction k with
  | refl => exact h
  | post _ n stamp ih => exact .post ih n stamp

theorem eventLaw_posted {s t : State} (h : Posted s.events t.events) (hs : s.eventLaw) : t.eventLaw := by
  generalize hv : t.events = v at h
  induction h generalizing t with
  | refl => exact eventLaw_congr hv hs
  | @post v _ n stamp ih =>
    have hk := @ih { s with events := v, ticks := { s.ticks with stamp := stamp } } rfl
    exact eventLaw_congr (by rw [hv]; rfl) (eventLaw_postNotice hk n)

theorem changeLink_posts {s : State} (l : LinkEngine) (c : Cause) {u : EventUnit} (h : Posted u s.events) :
    Posted u (s.changeLink l c).events := by
  exact .post h _ _

theorem enterSyncing_posts {s : State} (c : Cause) {u : EventUnit} (h : Posted u s.events) :
    Posted u (s.enterSyncing c).events := by
  exact .post h _ _

theorem enterOffline_posts {s : State} (c : Cause) {u : EventUnit} (h : Posted u s.events) :
    Posted u (s.enterOffline c).events := by
  exact .post h _ _

theorem enterFaulted_posts {s : State} (c : Cause) {u : EventUnit} (h : Posted u s.events) :
    Posted u (s.enterFaulted c).events := by
  exact .post h _ _

theorem leaveTelegram_posts {s : State} (r : Role) {u : EventUnit} (h : Posted u s.events) :
    Posted u (s.leaveTelegram r).events := by
  simp only [State.leaveTelegram]
  repeat' split
  all_goals first
    | exact h
    | exact enterOffline_posts _ h

theorem expireClaim_posts {s : State} (p : Page) (a : Addr) (d : Byte) {u : EventUnit} (h : Posted u s.events) :
    Posted u (s.expireClaim p a d).events := by
  exact .post h _ _

theorem resolvePending_posts {s : State} (p : Page) {u : EventUnit} (h : Posted u s.events) :
    Posted u (s.resolvePending p).events := by
  simp only [State.resolvePending]
  repeat' split
  all_goals first
    | exact h
    | exact expireClaim_posts _ _ _ h

theorem abandonAccepted_posts {s : State} {u : EventUnit} (h : Posted u s.events) :
    Posted u (s.abandonAccepted).events := by
  simp only [State.abandonAccepted]
  repeat' split
  all_goals first
    | exact h
    | exact resolvePending_posts _ h

theorem reportPeer_posts {s : State} (a : Addr) (o : Attempt) {u : EventUnit} (h : Posted u s.events) :
    Posted u (s.reportPeer a o).events := by
  simp only [State.reportPeer]
  repeat' split
  all_goals first
    | exact h
    | exact .post h _ _

theorem takeOutcome_posts {s : State} (j : Slot) (o : Attempt) {u : EventUnit} (h : Posted u s.events) :
    Posted u (s.takeOutcome j o).events := by
  simp only [State.takeOutcome]
  split
  · simpa only [dispose_keeps, endAttempt_keeps] using h
  · refine reportPeer_posts _ _ ?_
    simpa only [dispose_keeps, endAttempt_keeps] using h

theorem requestRefresh_posts {s : State} (hd : Header) {u : EventUnit} (h : Posted u s.events) :
    Posted u (s.requestRefresh hd).events := by
  simp only [State.requestRefresh]
  repeat' split
  all_goals first
    | exact h
    | exact .post h _ _

theorem applyDecision_posts {s : State} (hd : Header) (d : Decision) {u : EventUnit} (h : Posted u s.events) :
    Posted u (s.applyDecision hd d).events := by
  simp only [State.applyDecision]
  split
  · exact h
  · exact requestRefresh_posts _ h
  all_goals exact h

theorem handOver_posts {s : State} (hd : Header) {u : EventUnit} (h : Posted u s.events) :
    Posted u (s.handOver hd).events := by
  exact applyDecision_posts _ _ h

theorem landWrite_posts {s : State} (hd : Header) {u : EventUnit} (h : Posted u s.events) :
    Posted u (s.landWrite hd).events := by
  exact .post h _ _

theorem grantClaim_posts {s : State} (hd : Header) {u : EventUnit} (h : Posted u s.events) :
    Posted u (s.grantClaim hd).events := by
  simp only [State.grantClaim]
  split
  · exact .post h _ _
  · simpa only [renewLease_keeps] using h

theorem releaseClaim_posts {s : State} (hd : Header) {u : EventUnit} (h : Posted u s.events) :
    Posted u (s.releaseClaim hd).events := by
  simp only [State.releaseClaim]
  repeat' split
  all_goals first
    | exact h
    | exact .post h _ _

theorem operationEffects_posts {s : State} (hd : Header) {u : EventUnit} (h : Posted u s.events) :
    Posted u (s.operationEffects hd).events := by
  simp only [State.operationEffects]
  repeat' split
  · simpa only [renewLease_keeps, consumeFreshness_keeps] using h
  · exact landWrite_posts _ h
  · simpa only [renewLease_keeps] using landWrite_posts _ h
  · exact grantClaim_posts _ h
  · exact grantClaim_posts _ (by simpa only [consumeFreshness_keeps] using h)
  · exact releaseClaim_posts _ h
  · exact releaseClaim_posts _ (landWrite_posts _ h)
  all_goals exact h

theorem applyEffects_posts {s : State} (hd : Header) {u : EventUnit} (h : Posted u s.events) :
    Posted u (s.applyEffects hd).events := by
  have hk : Posted u (s.operationEffects hd).clearAccepted.events := operationEffects_posts hd h
  simp only [State.applyEffects]
  split
  · exact resolvePending_posts _ hk
  all_goals exact hk

theorem abandonPart_posts {s : State} (o : Attempt) {u : EventUnit} (h : Posted u s.events) :
    Posted u (s.abandonPart o).events := by
  simp only [State.abandonPart]
  repeat' split
  all_goals first
    | exact h
    | exact takeOutcome_posts _ _ h
    | exact abandonAccepted_posts h

theorem meetBitError_posts {s : State} (r : Role) {u : EventUnit} (h : Posted u s.events) :
    Posted u (s.meetBitError r).events := by
  simp only [State.meetBitError]
  split
  · exact leaveTelegram_posts _ (abandonPart_posts _ h)
  · exact enterFaulted_posts _ (abandonPart_posts _ h)

theorem partLost_posts {s : State} {u : EventUnit} (h : Posted u s.events) :
    Posted u (s.partLost).events := by
  simp only [State.partLost]
  repeat' split
  all_goals first
    | exact h
    | exact meetBitError_posts _ h
    | exact leaveTelegram_posts _ (abandonAccepted_posts h)
    | exact leaveTelegram_posts _ h

theorem loseSync_posts {s : State} {u : EventUnit} (h : Posted u s.events) :
    Posted u (s.loseSync).events := by
  simp only [State.loseSync]
  repeat' split
  all_goals first
    | exact h
    | exact partLost_posts h

theorem loseArbitration_posts {s : State} {u : EventUnit} (h : Posted u s.events) :
    Posted u (s.loseArbitration).events := by
  simp only [State.loseArbitration]
  repeat' split
  all_goals first
    | exact h
    | exact leaveTelegram_posts _ (takeOutcome_posts _ _ h)

theorem abandonTelegram_posts {s : State} (o : Attempt) {u : EventUnit} (h : Posted u s.events) :
    Posted u (s.abandonTelegram o).events := by
  exact leaveTelegram_posts _ (abandonPart_posts _ h)

theorem targetNak_posts {s : State} {u : EventUnit} (h : Posted u s.events) :
    Posted u (s.targetNak).events := by
  simp only [State.targetNak]
  repeat' split
  all_goals first
    | exact h
    | exact abandonTelegram_posts _ h

theorem initiatorNak_posts {s : State} {u : EventUnit} (h : Posted u s.events) :
    Posted u (s.initiatorNak).events := by
  simp only [State.initiatorNak]
  repeat' split
  all_goals first
    | exact h
    | exact abandonTelegram_posts _ h

theorem takeBlock_posts {s : State} (data : Vector Byte 8) (check : Byte) (x y : Level) {u : EventUnit} (h : Posted u s.events) :
    Posted u (s.takeBlock data check x y).events := by
  simp only [State.takeBlock, State.receiveBlock, State.sendBlock, State.memberBlock,
    State.sendCollective]
  repeat' split
  all_goals first
    | exact h
    | exact meetBitError_posts _ h
    | exact targetNak_posts h
    | exact initiatorNak_posts h
    | exact abandonTelegram_posts _ h

theorem fifthNak_posts {s : State} {u : EventUnit} (h : Posted u s.events) :
    Posted u (s.fifthNak).events := by
  simp only [State.fifthNak]
  repeat' split
  all_goals first
    | exact h
    | exact targetNak_posts h
    | exact initiatorNak_posts h

theorem endEffects_posts {s : State} {u : EventUnit} (h : Posted u s.events) :
    Posted u (s.endEffects).events := by
  simp only [State.endEffects]
  repeat' split
  all_goals first
    | exact h
    | exact takeOutcome_posts _ _ h
    | exact applyEffects_posts _ h

theorem reachEnd_posts {s : State} {u : EventUnit} (h : Posted u s.events) :
    Posted u (s.reachEnd).events := by
  simp only [State.reachEnd]
  split
  · exact leaveTelegram_posts _ (endEffects_posts h)
  · exact h

theorem takeHeaderBits_posts {s : State} (bits : BitVec 48) {u : EventUnit} (h : Posted u s.events) :
    Posted u (s.takeHeaderBits bits).events := by
  simp only [State.takeHeaderBits]
  repeat' split
  all_goals first
    | exact h
    | exact handOver_posts _ h
    | exact meetBitError_posts _ h

theorem takeSlotBit_posts {s : State} (l : Level) {u : EventUnit} (h : Posted u s.events) :
    Posted u (s.takeSlotBit l).events := by
  simp only [State.takeSlotBit]
  repeat' split
  all_goals first
    | exact h
    | simpa only [readSlotBit_keeps] using h
    | exact meetBitError_posts _ h
    | exact leaveTelegram_posts _ h

theorem takeHeaderPart_posts {s : State} (part : HeaderPart) {u : EventUnit} (h : Posted u s.events) :
    Posted u (s.takeHeaderPart part).events := by
  cases part
  · simpa only [State.takeHeaderPart, winArbitration_keeps] using h
  · exact takeHeaderBits_posts _ h
  · exact takeSlotBit_posts _ h

theorem meetStuck_posts {s : State} {u : EventUnit} (h : Posted u s.events) :
    Posted u (s.meetStuck).events := by
  simp only [State.meetStuck]
  split
  iterate 3 exact enterFaulted_posts _ (partLost_posts h)
  all_goals exact partLost_posts h

theorem joinLink_posts {s : State} {u : EventUnit} (h : Posted u s.events) :
    Posted u (s.joinLink).events := by
  simp only [State.joinLink]
  repeat' split
  all_goals first
    | exact h
    | exact changeLink_posts _ _ h

theorem recoveryTick_posts {s : State} (b : Bool) {u : EventUnit} (h : Posted u s.events) :
    Posted u (s.recoveryTick b).events := by
  simp only [State.recoveryTick]
  repeat' split
  all_goals first
    | exact h
    | exact enterSyncing_posts _ h

theorem leaseTick_posts {s : State} (p : Page) {u : EventUnit} (h : Posted u s.events) :
    Posted u (s.leaseTick p).events := by
  simp only [State.leaseTick]
  repeat' split
  all_goals first
    | exact h
    | exact expireClaim_posts _ _ _ h

theorem applyShare_posts {s : State} (b : Bool) (x : TickShare) {u : EventUnit} (h : Posted u s.events) :
    Posted u (s.applyShare b x).events := by
  cases x
  · exact recoveryTick_posts _ h
  · exact leaseTick_posts _ h
  · simpa only [State.applyShare, freshnessTick_keeps] using h
  · simpa only [State.applyShare, deadlineTick_keeps] using h
  · simpa only [State.applyShare, retryTick_keeps] using h

theorem takeShare_posts {s : State} (b : Bool) (x : TickShare) {u : EventUnit} (h : Posted u s.events) :
    Posted u (s.takeShare b x).events := by
  simp only [State.takeShare]
  split
  · exact h
  · exact applyShare_posts _ _ h

theorem tickBoundary_posts {s : State} (l : List TickShare) (b : Bool) {u : EventUnit} (h : Posted u s.events) :
    Posted u (s.tickBoundary l b).events := by
  exact tickBoundary_induct (P := fun t => Posted u t.events) (fun _ _ h => h)
    (fun _ _ h => applyShare_posts _ _ h) l h

end Sys2Proof.Machine
end

