-- ==== Sys2Proof/Laws/Peers.lean ====
section
/-!
SUPPORT. The Peer Health Table: what eviction, creation and a report do to the table's law (R138 to R143).
-/

namespace Sys2Proof.Machine

/-- The addresses that jobs refer to are at most as many as there are slots (R140). -/
theorem referenced_few (s : State) {l : List Addr} (hn : l.Nodup)
    (hr : ∀ a ∈ l, s.referenced a = true) : l.length ≤ 16 := by
  have hsub : l ⊆ s.jobs.toList.map JobSlot.target := by
    intro a ha
    have h := hr a ha
    simp only [State.referenced, List.any_eq_true, Bool.and_eq_true, beq_iff_eq] at h
    obtain ⟨job, hj, _, rfl⟩ := h
    exact List.mem_map_of_mem hj
  have h := (hn.subperm hsub).length_le
  simpa using h

theorem removeLast_sublist (p : PeerEntry → Bool) (l : List PeerEntry) : (removeLast p l).Sublist l := by
  have h := (List.eraseP_sublist (p := p) (l := l.reverse)).reverse
  simpa [removeLast] using h

theorem removeLast_length {p : PeerEntry → Bool} {l : List PeerEntry} (h : ∃ e ∈ l, p e = true) :
    (removeLast p l).length + 1 = l.length := by
  obtain ⟨e, he, hp⟩ := h
  have h := List.length_eraseP_of_mem (l := l.reverse) (p := p) (List.mem_reverse.2 he) hp
  have hl : 0 < l.length := List.length_pos_of_mem he
  simp only [removeLast, List.length_reverse, h]
  omega

/-- An entry is found under its own address. -/
theorem peer_some {s : State} {a : Addr} {e : PeerEntry} (h : s.peer a = some e) :
    e ∈ s.peers ∧ e.address = a := by
  refine ⟨List.mem_of_find?_eq_some h, ?_⟩
  simpa using List.find?_some h

theorem peer_none {s : State} {a : Addr} (h : s.peer a = none) : ∀ e ∈ s.peers, e.address ≠ a := by
  simpa [State.peer] using h

theorem addresses_filter {l : List PeerEntry} (a : Addr) :
    (l.filter fun x => x.address != a).map PeerEntry.address =
      (l.map PeerEntry.address).filter (· != a) := by
  rw [List.filter_map]; rfl

/-- The entry that moves to the front replaces the one of its address: the table's law is kept (R139). -/
theorem peerLaw_movedToFront {s : State} (hs : s.peerLaw) {e x : PeerEntry} (hx : x ∈ s.peers)
    (ha : e.address = x.address) (hc : e.score ≤ 100) :
    State.peerLaw { s with peers := movedToFront s.peers e } := by
  obtain ⟨room, distinct, addresses, scores, threshold⟩ := hs
  constructor
  · have hlt : (s.peers.filter fun y => y.address != e.address).length < s.peers.length := by
      rw [List.length_filter_lt_length_iff_exists]
      exact ⟨x, hx, by simp [ha]⟩
    simp only [movedToFront, List.length_cons]
    omega
  · simp only [movedToFront, List.map_cons, addresses_filter, List.nodup_cons]
    exact ⟨by simp, distinct.filter _⟩
  · simp only [movedToFront, List.mem_cons, List.mem_filter]
    rintro y (rfl | ⟨hy, _⟩)
    · rw [ha]; exact addresses x hx
    · exact addresses y hy
  · simp only [movedToFront, List.mem_cons, List.mem_filter]
    rintro y (rfl | ⟨hy, _⟩)
    · exact hc
    · exact scores y hy
  · exact threshold

theorem peerLaw_ensurePeer {s : State} (hs : s.peerLaw) {a : Addr} (h0 : a ≠ 0) (h127 : a ≠ 127) :
    (s.ensurePeer a).peerLaw := by
  simp only [State.ensurePeer]
  split
  next e he => exact peerLaw_movedToFront hs (peer_some he).1 rfl (hs.scores _ (peer_some he).1)
  next hn =>
    have hnone := peer_none hn
    obtain ⟨room, distinct, addresses, scores, threshold⟩ := hs
    have hsub : ((if s.peers.length < Config.peerTableSize then s.peers
        else removeLast (fun e => !s.referenced e.address) s.peers)).Sublist s.peers := by
      split
      · exact List.Sublist.refl _
      · exact removeLast_sublist _ _
    constructor
    · simp only [List.length_cons]
      split
      next hlt => exact hlt
      next hge =>
        have hex : ∃ e ∈ s.peers, (!s.referenced e.address) = true := by
          by_contra hall
          push Not at hall
          have h16 := referenced_few s distinct (fun b hb => by
            obtain ⟨e, he, rfl⟩ := List.mem_map.1 hb
            simpa using hall e he)
          rw [List.length_map] at h16
          simp only [Config.peerTableSize] at hge
          omega
        have := removeLast_length hex
        omega
    · simp only [List.map_cons, List.nodup_cons]
      refine ⟨?_, distinct.sublist (hsub.map _)⟩
      intro hm
      obtain ⟨e, he, hea⟩ := List.mem_map.1 hm
      exact hnone e (hsub.subset he) hea
    · intro e he
      rcases List.mem_cons.1 he with rfl | he
      · exact ⟨h0, h127⟩
      · exact addresses e (hsub.subset he)
    · intro e he
      rcases List.mem_cons.1 he with rfl | he
      · exact Nat.le_refl _
      · exact scores e (hsub.subset he)
    · exact threshold

theorem score_le {e : PeerEntry} {dt : Nat} (he : e.score ≤ 100) (hd : dt ≤ 100) (o : Attempt) :
    e.scoreAfter o dt ≤ 100 := by
  cases o <;> simp only [PeerEntry.scoreAfter] <;> (try split) <;> omega

theorem peerLaw_reportPeer {s : State} (hs : s.peerLaw) (a : Addr) (o : Attempt) :
    (s.reportPeer a o).peerLaw := by
  simp only [State.reportPeer]
  split
  · exact hs
  next e he =>
    have hk := peerLaw_movedToFront hs (peer_some he).1
      (e := e.reported o s.cfg.degradeThreshold s.cfg.unreachableThreshold) rfl
      (score_le (hs.scores _ (peer_some he).1) hs.threshold o)
    split
    · exact hk
    · exact peerLaw_congr (by rfl) (by rfl) hk

theorem peerLaw_takeOutcome {s : State} (hs : s.peerLaw) (j : Slot) (o : Attempt) :
    (s.takeOutcome j o).peerLaw := by
  simp only [State.takeOutcome]
  split
  · exact peerLaw_congr (by simp) (by simp) hs
  · exact peerLaw_reportPeer (peerLaw_congr (by simp) (by simp) hs) _ _
end Sys2Proof.Machine
end

