-- ==== Sys2Proof/Laws/Telegram.lean ====
section
/-!
SUPPORT. What an event of the link can do to the jobs: nothing, or the answer to or the outcome of the one attempt
whose telegram the node is sending (R121, R127).
-/

namespace Sys2Proof.Machine

/-- The end of a part is the one the claims spell out (R20, R33, R36). -/
theorem leaveTelegram_eq_partOver (s : State) (r : Role) : s.leaveTelegram r = s.partOver r := rfl

/-- The job whose telegram the node is sending, and the header it sends. -/
def Role.sending : Role → Option (Slot × Header)
  | .contender j h | .initiator j h => some (j, h)
  | .idle | .receiving | .bystander | .target _ _ | .member _ _ => none

theorem sending_job (r : Role) : r.sending.map Prod.fst = r.job := by cases r <;> rfl

/-- Two states with the same jobs, lists, completion queue, peers and configuration. -/
structure SameJobs (s t : State) : Prop where
  jobs : t.jobs = s.jobs
  lists : t.lists = s.lists
  submission : t.submission = s.submission
  completions : t.completions = s.completions
  peers : t.peers = s.peers
  cfg : t.cfg = s.cfg

theorem SameJobs.refl (s : State) : SameJobs s s := ⟨rfl, rfl, rfl, rfl, rfl, rfl⟩

theorem SameJobs.trans {s t u : State} (h : SameJobs s t) (k : SameJobs t u) : SameJobs s u :=
  ⟨k.jobs.trans h.jobs, k.lists.trans h.lists, k.submission.trans h.submission,
    k.completions.trans h.completions, k.peers.trans h.peers, k.cfg.trans h.cfg⟩

/-- The two states agree on what the telegram in progress is to the jobs. -/
structure SameTelegram (s t : State) : Prop where
  same : SameJobs s t
  role : t.link.role = s.link.role
  slot : t.link.slot = s.link.slot
  initiator : t.initiator = s.initiator

theorem SameTelegram.refl (s : State) : SameTelegram s s := ⟨.refl s, rfl, rfl, rfl⟩

/-- `t` has the jobs of `s`, which sends no telegram, or those after one outcome of the attempt in progress. -/
inductive Ended (s t : State) : Prop
  | untouched (h : SameJobs s t) (none : s.link.role.sending = none)
  | outcome (u : State) (j : Slot) (o : Attempt) (same : SameTelegram s u)
      (role : s.link.role.job = some j) (h : SameJobs (u.takeOutcome j o) t)

/-- `t` has the jobs of `s`, but for the last response of the attempt in progress, and sends the same telegram, if
any; or it has the jobs after one outcome of that attempt, and sends none. -/
inductive Attempted (s t : State) : Prop
  | untouched (h : SameJobs s t) (sends : t.link.role.sending = s.link.role.sending)
  | answered (j : Slot) (r : LastResponse) (role : s.link.role.job = some j)
      (h : SameJobs (s.setJob j { s.job j with lastResponse := r }) t)
      (sends : t.link.role.sending = s.link.role.sending)
  | outcome (u : State) (j : Slot) (o : Attempt) (same : SameTelegram s u)
      (role : s.link.role.job = some j) (h : SameJobs (u.takeOutcome j o) t)
      (sends : t.link.role.sending = none)

theorem Ended.then {s t u : State} (h : Ended s t) (k : SameJobs t u)
    (r : u.link.role.sending = none) : Attempted s u := by
  cases h with
  | untouched h n => exact .untouched (h.trans k) (by rw [r, n])
  | outcome v j o a b e => exact .outcome v j o a b (e.trans k) r

theorem Attempted.refl (s : State) : Attempted s s := .untouched (.refl s) rfl

theorem leaveTelegram_jobs (s : State) (r : Role) : SameJobs s (s.leaveTelegram r) := by
  constructor <;> simp

theorem leaveTelegram_sending (s : State) {r : Role} (h : r.sending = none) :
    (s.leaveTelegram r).link.role.sending = none := by
  simp only [State.leaveTelegram]
  repeat' split
  · rfl
  · rfl
  · exact h

theorem enterFaulted_jobs (s : State) (c : Cause) : SameJobs s (s.enterFaulted c) := by
  constructor <;> simp

theorem abandonAccepted_jobs (s : State) : SameJobs s s.abandonAccepted := by
  constructor <;> simp

theorem abandonPart_ends {s u : State} (hu : SameTelegram s u) (o : Attempt) :
    Ended s (u.abandonPart o) := by
  simp only [State.abandonPart]
  rw [hu.role]
  split
  next j h hrole => exact .outcome u j o hu (by rw [hrole]; rfl) (.refl _)
  next j h hrole => exact .outcome u j o hu (by rw [hrole]; rfl) (.refl _)
  next hrole => exact .untouched (hu.same.trans (abandonAccepted_jobs u)) (by rw [hrole]; rfl)
  next hrole => exact .untouched (hu.same.trans (abandonAccepted_jobs u)) (by rw [hrole]; rfl)
  all_goals next hrole => exact .untouched hu.same (by rw [hrole]; rfl)

theorem meetBitError_jobs (s : State) {follow : Role} (hf : follow.sending = none) :
    Attempted s (s.meetBitError follow) := by
  have hc : SameTelegram s { s with link := { s.link with
      txErrors := min Config.txErrorLimit (s.link.txErrors + 1) } } :=
    ⟨⟨rfl, rfl, rfl, rfl, rfl, rfl⟩, rfl, rfl, rfl⟩
  simp only [State.meetBitError]
  split
  · exact (abandonPart_ends hc _).then (leaveTelegram_jobs _ _) (leaveTelegram_sending _ hf)
  · exact (abandonPart_ends hc _).then (enterFaulted_jobs _ _) rfl

theorem partLost_jobs (s : State) :
    Attempted s s.partLost ∧ s.partLost.link.role.sending = none := by
  have hk : ∀ t, Attempted s t → t.link.role.sending = none →
      Attempted s t ∧ t.link.role.sending = none := fun _ a b => ⟨a, b⟩
  simp only [State.partLost]
  split
  iterate 2
    refine hk _ (meetBitError_jobs s rfl) ?_
    simp only [State.meetBitError]
    split
    · exact leaveTelegram_sending _ rfl
    · rfl
  iterate 2
    next hr =>
      have hn := leaveTelegram_sending s.abandonAccepted (r := .idle) rfl
      exact hk _ (.untouched (by constructor <;> simp) (by rw [hr, hn]; rfl)) hn
  iterate 2
    next hr =>
      have hn := leaveTelegram_sending s (r := .idle) rfl
      exact hk _ (.untouched (by constructor <;> simp) (by rw [hr, hn]; rfl)) hn
  next hr => exact hk _ (.refl s) (by rw [hr]; rfl)

theorem loseSync_jobs (s : State) : Attempted s s.loseSync := by
  simp only [State.loseSync]
  split
  · exact .refl s
  · exact (partLost_jobs s).1

theorem loseArbitration_jobs (s : State) : Attempted s s.loseArbitration := by
  simp only [State.loseArbitration]
  split
  next j h hrole =>
    exact .outcome s j _ (.refl s) (by rw [hrole]; rfl) (leaveTelegram_jobs _ _)
      (leaveTelegram_sending _ rfl)
  all_goals exact .refl s

theorem abandonTelegram_jobs {s u : State} (hu : SameTelegram s u) (o : Attempt) :
    Attempted s (u.abandonTelegram o) :=
  (abandonPart_ends hu o).then (leaveTelegram_jobs _ _) (leaveTelegram_sending _ rfl)

theorem targetNak_jobs (s : State) : Attempted s s.targetNak := by
  simp only [State.targetNak]
  split
  · exact .untouched ⟨rfl, rfl, rfl, rfl, rfl, rfl⟩ rfl
  · refine abandonTelegram_jobs ?_ _
    exact ⟨⟨rfl, rfl, rfl, rfl, rfl, rfl⟩, rfl, rfl, rfl⟩

theorem initiatorNak_jobs (s : State) : Attempted s s.initiatorNak := by
  simp only [State.initiatorNak]
  split
  · exact .untouched ⟨rfl, rfl, rfl, rfl, rfl, rfl⟩ rfl
  · exact abandonTelegram_jobs (.refl s) _

theorem takeBlock_jobs (s : State) (data : Vector Byte 8) (check : Byte) (x y : Level) :
    Attempted s (s.takeBlock data check x y) := by
  simp only [State.takeBlock, State.receiveBlock, State.sendBlock, State.memberBlock,
    State.sendCollective]
  repeat' split
  all_goals first
    | exact meetBitError_jobs s rfl
    | exact targetNak_jobs s
    | exact initiatorNak_jobs s
    | (refine abandonTelegram_jobs ?_ _
       exact ⟨⟨rfl, rfl, rfl, rfl, rfl, rfl⟩, rfl, rfl, rfl⟩)
    | (refine .untouched ?_ ?_; exact ⟨rfl, rfl, rfl, rfl, rfl, rfl⟩; rfl)

theorem fifthNak_jobs (s : State) : Attempted s s.fifthNak := by
  simp only [State.fifthNak]
  repeat' split
  all_goals first
    | exact targetNak_jobs s
    | exact initiatorNak_jobs s
    | exact .refl s

theorem endEffects_ends {s : State} (h : s.atEnd = true) : Ended s s.endEffects := by
  simp only [State.endEffects]
  split
  next j h hrole => exact .outcome s j _ (.refl s) (by rw [hrole]; rfl) (.refl _)
  next hr => exact .untouched (by constructor <;> simp) (by rw [hr]; rfl)
  next hr => exact .untouched (by constructor <;> simp) (by rw [hr]; rfl)
  iterate 6 next hr => exact .untouched (.refl s) (by rw [hr]; rfl)
  next hr => simp [State.atEnd, hr] at h

theorem reachEnd_jobs (s : State) : Attempted s s.reachEnd := by
  simp only [State.reachEnd]
  split
  next h =>
    exact (endEffects_ends h).then (by constructor <;> simp) (leaveTelegram_sending _ rfl)
  · exact .refl s

theorem takeHeaderPart_jobs (s : State) (part : HeaderPart) : Attempted s (s.takeHeaderPart part) := by
  cases part <;> simp only [State.takeHeaderPart]
  · refine .untouched (by constructor <;> simp) ?_
    simp only [State.winArbitration]
    split
    next hr => rw [hr]; rfl
    all_goals rfl
  · simp only [State.takeHeaderBits]
    split
    next hr =>
      split
      · refine .untouched (by constructor <;> simp) ?_
        simp only [State.handOver, Header.roleFor]
        rw [hr]
        split <;> rfl
      · exact .untouched ⟨rfl, rfl, rfl, rfl, rfl, rfl⟩ (by rw [hr]; rfl)
    · repeat' split
      · exact .refl s
      · exact .untouched ⟨rfl, rfl, rfl, rfl, rfl, rfl⟩ rfl
      · exact meetBitError_jobs s rfl
    all_goals exact .refl s
  next l =>
    have hp : SameJobs s (s.pushSlot l) := ⟨rfl, rfl, rfl, rfl, rfl, rfl⟩
    simp only [State.takeSlotBit]
    split
    · exact .refl s
    split
    · split
      · exact .untouched hp rfl
      · exact meetBitError_jobs s rfl
    · exact .untouched hp rfl
    next hr =>
      exact .untouched (hp.trans (leaveTelegram_jobs _ _))
        (by rw [leaveTelegram_sending _ rfl, hr]; rfl)
    next j h hr =>
      split
      · simp only [State.readSlotBit]
        split
        · exact .answered j _ (by rw [hr]; rfl) ⟨rfl, rfl, rfl, rfl, rfl, rfl⟩ rfl
        · exact .untouched ⟨rfl, rfl, rfl, rfl, rfl, rfl⟩ rfl
      · exact .refl s
    all_goals exact .refl s

theorem meetStuck_jobs (s : State) : Attempted s s.meetStuck := by
  obtain ⟨ha, hn⟩ := partLost_jobs s
  have hk : ∀ u, SameJobs s.partLost u → u.link.role.sending = none → Attempted s u := by
    intro u hu hr
    cases ha with
    | untouched h k => exact .untouched (h.trans hu) (by rw [hr, ← k, hn])
    | answered j r a h k => exact .answered j r a (h.trans hu) (by rw [hr, ← k, hn])
    | outcome v j o a b c d => exact .outcome v j o a b (c.trans hu) hr
  simp only [State.meetStuck]
  split
  iterate 3 exact hk _ (enterFaulted_jobs _ _) rfl
  · exact hk _ ⟨rfl, rfl, rfl, rfl, rfl, rfl⟩ hn
  · exact ha

/-- A law of the jobs that an outcome of the attempt in progress keeps. -/
theorem Attempted.keeps {P : State → Prop} {s t : State} (h : Attempted s t)
    (congr : ∀ s t, SameJobs s t → P s → P t)
    (answered : ∀ j r, s.link.role.job = some j → P s → P (s.setJob j { s.job j with lastResponse := r }))
    (outcome : ∀ u j o, SameTelegram s u → s.link.role.job = some j → P u → P (u.takeOutcome j o))
    (hs : P s) : P t := by
  cases h with
  | untouched h _ => exact congr _ _ h hs
  | answered j r role h _ => exact congr _ _ h (answered j r role hs)
  | outcome u j o same role h _ => exact congr _ _ h (outcome u j o same role (congr _ _ same.same hs))

end Sys2Proof.Machine
end

