-- ==== Sys2Proof/Laws/Link.lean ====
section
/-!
SUPPORT. The Link Engine's law under the operations that change the link state, the role or the transmit
error count (R25 to R36).
-/

namespace Sys2Proof.Machine

theorem linkLaw_congr {s t : State} (hm : t.mode = s.mode) (hc : t.cfg = s.cfg)
    (hg : t.groups = s.groups) (hl : t.link = s.link) (h : s.linkLaw) : t.linkLaw := by
  obtain ⟨a, b, c, d, e, f, g, i, j, k, l, m⟩ := h
  constructor <;> simp only [hm, hc, hg, hl] <;> assumption

/-- On the link: the two states in which a telegram can be in progress (R25). -/
theorem onLink {s : State} (hs : s.linkLaw) (hm : s.mode = .running) (hr : s.link.role ≠ .idle) :
    s.link.state = .online ∨ s.link.state = .stopping :=
  (hs.part hm hr).imp_right And.left

theorem linkLaw_enterSyncing {s : State} (hs : s.linkLaw) (ha : s.cfg.address ≠ 0) (c : Cause) :
    (s.enterSyncing c).linkLaw := by
  obtain ⟨_, _, _, _, _, _, _, _, j, _, l, m⟩ := hs
  constructor <;> simp_all [State.enterSyncing, State.changeLink]

theorem linkLaw_enterOffline {s : State} (hs : s.linkLaw) (c : Cause) :
    (s.enterOffline c).linkLaw := by
  obtain ⟨a, _, _, _, _, _, _, _, j, _, l, m⟩ := hs
  constructor <;> simp_all [State.enterOffline, State.changeLink]

theorem linkLaw_enterFaulted {s : State} (he : s.link.txErrors ≤ 8) (hj : s.cfg.address ≠ 127)
    (ha : s.cfg.address ≠ 0) (hd : 1 ≤ s.cfg.lease ∧ 1 ≤ s.cfg.busyRetry ∧ 1 ≤ s.cfg.refreshWindow)
    (hg : s.groups.getLsbD 0 = false) (c : Cause) : (s.enterFaulted c).linkLaw := by
  constructor <;> simp_all [State.enterFaulted, State.changeLink, Config.recoveryTicks]

theorem linkLaw_leaveTelegram {s : State} (hs : s.linkLaw) (follow : Role)
    (h : s.link.state = .online ∨ s.link.state = .stopping ∨ follow = .idle) :
    (s.leaveTelegram follow).linkLaw := by
  simp only [State.leaveTelegram]
  split
  · exact linkLaw_enterOffline hs _
  next hns =>
    obtain ⟨a, b, c, d, e, f, g, i, j, k, l, m⟩ := hs
    split
    · constructor <;> simp_all
    next hf =>
      have ho : s.link.state = .online := by simpa [hns, hf] using h
      constructor <;> simp_all

theorem linkLaw_meetBitError {s : State} (hs : s.linkLaw) (hm : s.mode = .running)
    (hr : s.link.role ≠ .idle) (follow : Role) : (s.meetBitError follow).linkLaw := by
  have hon := onLink hs hm hr
  simp only [State.meetBitError]
  split
  next hlt =>
    refine linkLaw_leaveTelegram (linkLaw_congr (s := { s with link := { s.link with
      txErrors := min Config.txErrorLimit (s.link.txErrors + 1) } }) ?_ ?_ ?_ ?_ ?_) _ ?_
    · simp
    · simp
    · simp
    · simp
    · obtain ⟨a, b, c, d, e, f, g, i, j, k, l, m⟩ := hs
      simp only [Config.txErrorLimit] at hlt
      constructor <;> simp_all [Config.txErrorLimit] <;> omega
    · simp only [abandonPart_keeps]
      rcases hon with h | h <;> simp [h]
  next hge =>
    apply linkLaw_enterFaulted
    · simp [Config.txErrorLimit]
    · simpa using hs.address
    · simpa using hs.configured (by rcases hon with h | h <;> simp [h])
    · simpa using hs.durations
    · simpa using hs.noGroupZero

theorem linkLaw_partLost {s : State} (hs : s.linkLaw) (hm : s.mode = .running) :
    s.partLost.linkLaw := by
  simp only [State.partLost]
  split
  next h => exact linkLaw_meetBitError hs hm (by simp [h]) _
  next h => exact linkLaw_meetBitError hs hm (by simp [h]) _
  next h => exact linkLaw_leaveTelegram (linkLaw_congr (by simp) (by simp) (by simp) (by simp) hs) _ (by simp)
  next h => exact linkLaw_leaveTelegram (linkLaw_congr (by simp) (by simp) (by simp) (by simp) hs) _ (by simp)
  next h => exact linkLaw_leaveTelegram hs _ (by simp)
  next h => exact linkLaw_leaveTelegram hs _ (by simp)
  next h => exact hs

theorem linkLaw_abandonTelegram {s : State} (hs : s.linkLaw) (hm : s.mode = .running)
    (hr : s.link.role ≠ .idle) (o : Attempt) : (s.abandonTelegram o).linkLaw := by
  refine linkLaw_leaveTelegram (linkLaw_congr (by simp) (by simp) (by simp) (by simp) hs) _ ?_
  simp only [abandonPart_keeps]
  rcases onLink hs hm hr with h | h <;> simp [h]

theorem linkLaw_targetNak {s : State} (hs : s.linkLaw) (hm : s.mode = .running)
    (hr : s.link.role ≠ .idle) : s.targetNak.linkLaw := by
  simp only [State.targetNak]
  split
  · exact linkLaw_congr (by rfl) (by rfl) (by rfl) (by rfl) hs
  · refine linkLaw_abandonTelegram ?_ ?_ ?_ _
    · exact linkLaw_congr (by rfl) (by rfl) (by rfl) (by rfl) hs
    · exact hm
    · exact hr

theorem linkLaw_initiatorNak {s : State} (hs : s.linkLaw) (hm : s.mode = .running)
    (hr : s.link.role ≠ .idle) : s.initiatorNak.linkLaw := by
  simp only [State.initiatorNak]
  split
  · exact linkLaw_congr (by rfl) (by rfl) (by rfl) (by rfl) hs
  · exact linkLaw_abandonTelegram hs hm hr _

theorem linkLaw_takeBlock {s : State} (hs : s.linkLaw) (hm : s.mode = .running)
    (data : Vector Byte 8) (check : Byte) (x y : Level) : (s.takeBlock data check x y).linkLaw := by
  have hr : s.link.role = .idle ∨ s.link.role ≠ .idle := by tauto
  rcases hr with hr | hr
  · simp only [State.takeBlock, hr]
    split <;> exact hs
  simp only [State.takeBlock, State.receiveBlock, State.sendBlock, State.memberBlock,
    State.sendCollective]
  repeat' split
  all_goals first
    | exact hs
    | exact linkLaw_meetBitError hs hm hr _
    | exact linkLaw_targetNak hs hm hr
    | exact linkLaw_initiatorNak hs hm hr
    | exact linkLaw_congr (by rfl) (by rfl) (by rfl) (by rfl) hs
    | (refine linkLaw_abandonTelegram (linkLaw_congr (by rfl) (by rfl) (by rfl) (by rfl) hs) ?_ ?_ _;
        (exact hm); (exact hr))

theorem linkLaw_fifthNak {s : State} (hs : s.linkLaw) (hm : s.mode = .running) : s.fifthNak.linkLaw := by
  simp only [State.fifthNak]
  split
  · exact hs
  split
  next hr => split
             · exact linkLaw_targetNak hs hm (by simp [hr])
             · exact hs
  next hr => split
             · exact linkLaw_initiatorNak hs hm (by simp [hr])
             · exact hs
  all_goals exact hs

theorem linkLaw_reachEnd {s : State} (hs : s.linkLaw) : s.reachEnd.linkLaw := by
  simp only [State.reachEnd]
  split
  · refine linkLaw_leaveTelegram ?_ _ (by simp)
    have hk : s.endEffects.linkLaw := linkLaw_congr (by simp) (by simp) (by simp) (by simp) hs
    obtain ⟨a, b, c, d, e, f, g, i, j, k, l, m⟩ := hk
    simp only [State.cleanTelegram]
    constructor <;> simp only <;> first | assumption | omega
  · exact hs

theorem linkLaw_takeHeaderPart {s : State} (hs : s.linkLaw) (hm : s.mode = .running) (part : HeaderPart) :
    (s.takeHeaderPart part).linkLaw := by
  cases part <;> simp only [State.takeHeaderPart]
  case arbitrationWon =>
    simp only [State.winArbitration]
    split
    next hr =>
      obtain ⟨a, b, c, d, e, f, g, i, j, k, l, m⟩ := hs
      constructor <;> simp_all [Role.hasPart]
    all_goals exact hs
  case headerBits bits =>
    simp only [State.takeHeaderBits]
    split
    next hr =>
      split
      next ho =>
        have hk : (s.applyDecision (Header.ofBits bits) (s.decision (Header.ofBits bits))).linkLaw :=
          linkLaw_congr (by simp) (by simp) (by simp) (by simp) hs
        have hst : (s.applyDecision (Header.ofBits bits) (s.decision (Header.ofBits bits))).link.state = .online := by simp [ho.1]
        simp only [State.handOver]
        generalize s.applyDecision (Header.ofBits bits) (s.decision (Header.ofBits bits)) = u at *
        obtain ⟨a, b, c, d, e, f, g, i, j, k, l, m⟩ := hk
        constructor <;> simp_all
      next =>
        rcases hs.part hm (by simp [hr]) with ho | ho
        · obtain ⟨a, b, c, d, e, f, g, i, j, k, l, m⟩ := hs
          constructor <;> simp_all
        · simp [hr, Role.hasPart] at ho
    next hr =>
      repeat' split
      · exact hs
      · exact linkLaw_congr (by rfl) (by rfl) (by rfl) (by rfl) hs
      · exact linkLaw_meetBitError hs hm (by simp [hr]) _
    all_goals exact hs
  case slotBit l =>
    simp only [State.takeSlotBit]
    split
    · exact hs
    next hslot =>
      have hpush : ∀ l, (s.pushSlot l).linkLaw := by
        intro l
        obtain ⟨a, b, c, d, e, f, g, i, j, k, l, m⟩ := hs
        simp only [State.pushSlot]
        constructor <;> simp only [List.length_append, List.length_singleton] <;> first | assumption | omega
      split
      next hr => split
                 · exact hpush _
                 · exact linkLaw_meetBitError hs hm (by simp [hr]) _
      · exact hpush _
      next hr =>
        refine linkLaw_leaveTelegram (hpush _) _ ?_
        rcases onLink hs hm (by simp [hr]) with h | h <;> simp [State.pushSlot, h]
      · split
        · exact linkLaw_congr (by simp; rfl) (by simp; rfl) (by simp; rfl) (by simp) (hpush l)
        · exact hs
      all_goals exact hs

theorem linkLaw_meetStuck {s : State} (hs : s.linkLaw) (hm : s.mode = .running) : s.meetStuck.linkLaw := by
  have hk := linkLaw_partLost hs hm
  simp only [State.meetStuck]
  generalize s.partLost = u at *
  split
  iterate 3
    next hst =>
      exact linkLaw_enterFaulted hk.errors hk.address (hk.configured (by simp [hst])) hk.durations hk.noGroupZero _
  next hst =>
    obtain ⟨a, b, c, d, e, f, g, i, j, k, l, m⟩ := hk
    constructor <;> simp_all [Config.recoveryTicks]
  · exact hk

theorem linkLaw_recoveryTick {s : State} (hs : s.linkLaw) (b : Bool) : (s.recoveryTick b).linkLaw := by
  simp only [State.recoveryTick]
  split
  · exact hs
  next hst =>
    simp only [ne_eq, not_not] at hst
    split
    · obtain ⟨a, b, c, d, e, f, g, i, j, k, l, m⟩ := hs
      constructor <;> simp_all [Config.recoveryTicks]
    · have hk : State.linkLaw { s with link := { s.link with
          dominance := .running
          recoveryTimer := s.link.recoveryTimer - 1 } } := by
        obtain ⟨a, b, c, d, e, f, g, i, j, k, l, m⟩ := hs
        constructor <;> simp_all <;> omega
      split
      · exact linkLaw_enterSyncing hk (hs.configured (by simp [hst])) _
      · exact hk

theorem linkLaw_applyShare {s : State} (hs : s.linkLaw) (b : Bool) (x : TickShare) :
    (s.applyShare b x).linkLaw := by
  cases x
  · exact linkLaw_recoveryTick hs b
  all_goals
    refine linkLaw_congr ?_ ?_ ?_ ?_ hs
    all_goals simp [State.applyShare]

end Sys2Proof.Machine
end

