-- ==== Sys2Proof/Laws/Jobs.lean ====
section
/-!
SUPPORT. What the Job Manager's operations store, and that they keep the lists (R115 to R135).
-/

namespace Sys2Proof.Machine

/-! ### What the job operations store -/

theorem completeJob_job (s : State) (i j : Slot) (r : JobResult) :
    (s.completeJob j r).job i = if i = j then (s.job j).completed r else s.job i := by
  show (s.setJob j ((s.job j).completed r)).job i = _
  rw [job_setJob]

theorem unlist_list (s : State) (j : Slot) (p : BitVec 2) :
    (s.unlist j).list p =
      if p = (s.job j).priority then (s.list p).filter (· != j) else s.list p := by
  rw [State.unlist, list_setList]
  split <;> simp_all

theorem completeJob_list (s : State) (j : Slot) (r : JobResult) (p : BitVec 2) :
    (s.completeJob j r).list p =
      if p = (s.job j).priority then (s.list p).filter (· != j) else s.list p :=
  unlist_list s j p

theorem completeJob_submission (s : State) (j : Slot) (r : JobResult) :
    (s.completeJob j r).submission = s.submission.filter (· != j) := rfl

theorem completeJob_completions (s : State) (j : Slot) (r : JobResult) :
    (s.completeJob j r).completions = { s.completions with
      records := s.completions.records ++ [(s.job j).record j r s.ticks.stamp] } := rfl

theorem requeueHead_job (s : State) (i j : Slot) :
    (s.requeueHead j).job i =
      if i = j then { s.job j with state := .queued, retryCountdown := 0 } else s.job i := by
  show (s.setJob j _).job i = _
  rw [job_setJob]

theorem requeueTail_job (s : State) (i j : Slot) :
    (s.requeueTail j).job i =
      if i = j then { s.job j with state := .queued, retryCountdown := 0 } else s.job i := by
  show (s.setJob j _).job i = _
  rw [job_setJob]

theorem requeueHead_list (s : State) (j : Slot) (p : BitVec 2) :
    (s.requeueHead j).list p =
      if p = (s.job j).priority then j :: s.list p else s.list p := by
  rw [State.requeueHead, list_setList]
  split
  next h => rw [h]
  · rfl

theorem requeueTail_list (s : State) (j : Slot) (p : BitVec 2) :
    (s.requeueTail j).list p =
      if p = (s.job j).priority then s.list p ++ [j] else s.list p := by
  rw [State.requeueTail, list_setList]
  split
  next h => rw [h]
  · rfl

theorem activate_job (s : State) (i j : Slot) :
    (s.activate j).job i =
      if i = j then (s.job j).dispatched (s.peerStateOf (s.job j)) else s.job i := by
  show ((s.unlist j).setJob j _).job i = _
  rw [job_setJob]
  rfl

theorem activate_list (s : State) (j : Slot) (p : BitVec 2) :
    (s.activate j).list p =
      if p = (s.job j).priority then (s.list p).filter (· != j) else s.list p :=
  unlist_list s j p

theorem takeJob_job (s : State) (i j : Slot) (job : JobSlot) :
    (s.takeJob j job).job i = if i = j then placedJob s j job else s.job i := by
  show (s.setJob j _).job i = _
  rw [job_setJob]

theorem takeJob_list (s : State) (j : Slot) (job : JobSlot) (p : BitVec 2) :
    (s.takeJob j job).list p = if p = job.priority then s.list p ++ [j] else s.list p := by
  rw [State.takeJob, list_setList]
  split
  next h => rw [h]
  · simp only [State.list]; split <;> simp

theorem takeJob_submission (s : State) (j : Slot) (job : JobSlot) :
    (s.takeJob j job).submission = s.submission ++ [j] := rfl

/-- A job's fields after an outcome has been counted: its place in the tables is the same (R123 to R128). -/
@[simp] theorem counted_keeps (job : JobSlot) (o : Attempt) (slot : List Level) :
    (job.counted o slot).state = job.state ∧ (job.counted o slot).priority = job.priority ∧
    (job.counted o slot).generation = job.generation ∧ (job.counted o slot).blocks = job.blocks ∧
    (job.counted o slot).operation = job.operation ∧ (job.counted o slot).length = job.length ∧
    (job.counted o slot).group = job.group ∧ (job.counted o slot).target = job.target ∧
    (job.counted o slot).ordered = job.ordered ∧ (job.counted o slot).unread = job.unread := by
  simp [JobSlot.counted]

/-! ### The lists -/

theorem listLaw_congr {s t : State} (hj : t.jobs = s.jobs) (hl : t.lists = s.lists)
    (hs : t.submission = s.submission) (h : s.listLaw) : t.listLaw := by
  obtain ⟨a, b, c, d⟩ := h
  constructor <;> simp only [job_congr hj, list_congr hl, hs] <;> assumption

/-- Rewriting a job without moving it between the lists. -/
theorem listLaw_setJob {s : State} (hs : s.listLaw) {j : Slot} {job : JobSlot}
    (hq : job.state = .queued ↔ (s.job j).state = .queued) (hp : job.priority = (s.job j).priority)
    (hk : job.pending = (s.job j).pending) : (s.setJob j job).listLaw := by
  obtain ⟨a, b, c, d⟩ := hs
  refine ⟨fun p i => ?_, b, fun i => ?_, d⟩
  · rw [job_setJob]
    split
    next h => subst h; rw [hq, hp]; exact a p i
    · exact a p i
  · rw [job_setJob]
    split
    next h => subst h; rw [hk]; exact c i
    · exact c i

theorem listLaw_completeJob {s : State} (hs : s.listLaw) (j : Slot) (r : JobResult) :
    (s.completeJob j r).listLaw := by
  obtain ⟨a, b, c, d⟩ := hs
  constructor
  · intro p i
    rw [completeJob_list, completeJob_job]
    have := a p i
    split <;> split <;> simp_all [JobSlot.completed]
    tauto
  · intro p
    rw [completeJob_list]
    split
    · exact (b p).filter _
    · exact b p
  · intro i
    rw [completeJob_submission, completeJob_job]
    split <;> simp_all [JobSlot.completed, JobSlot.pending]
  · exact d.filter _

theorem listLaw_requeue {s t : State} (hs : s.listLaw) {j : Slot}
    (hj : (s.job j).state = .waiting ∨ (s.job j).state = .active)
    (ht : ∀ i, t.job i = if i = j then { s.job j with state := .queued, retryCountdown := 0 } else s.job i)
    (hl : ∀ p, (t.list p).Perm (if p = (s.job j).priority then j :: s.list p else s.list p))
    (hsub : t.submission = s.submission) : t.listLaw := by
  obtain ⟨a, b, c, d⟩ := hs
  have hnq : (s.job j).state ≠ .queued := by rcases hj with h | h <;> simp [h]
  constructor
  · intro p i
    rw [(hl p).mem_iff, ht]
    have hp := a p i
    by_cases hi : i = j
    · subst hi
      split <;> simp_all
      tauto
    · split <;> simp_all
  · intro p
    rw [(hl p).nodup_iff]
    split
    · rw [List.nodup_cons]
      exact ⟨fun h => hnq ((a p j).1 h).1, b p⟩
    · exact b p
  · intro i
    rw [hsub, ht]
    split
    next h =>
      subst h
      rw [c]
      rcases hj with h | h <;> simp [JobSlot.pending, h]
    · exact c i
  · rw [hsub]; exact d

theorem listLaw_requeueHead {s : State} (hs : s.listLaw) {j : Slot}
    (hj : (s.job j).state = .waiting ∨ (s.job j).state = .active) : (s.requeueHead j).listLaw :=
  listLaw_requeue hs hj (requeueHead_job s · j) (fun p => by rw [requeueHead_list]) rfl

theorem listLaw_requeueTail {s : State} (hs : s.listLaw) {j : Slot}
    (hj : (s.job j).state = .waiting ∨ (s.job j).state = .active) : (s.requeueTail j).listLaw :=
  listLaw_requeue hs hj (requeueTail_job s · j) (fun p => by
    rw [requeueTail_list]
    split
    · exact List.perm_append_singleton _ _
    · exact .refl _) rfl

theorem listLaw_activate {s : State} (hs : s.listLaw) {j : Slot} (hj : (s.job j).state = .queued) :
    (s.activate j).listLaw := by
  obtain ⟨a, b, c, d⟩ := hs
  constructor
  · intro p i
    rw [activate_list, activate_job]
    have := a p i
    split <;> split <;> simp_all [JobSlot.dispatched]
    tauto
  · intro p
    rw [activate_list]
    split
    · exact (b p).filter _
    · exact b p
  · intro i
    show i ∈ s.submission ↔ _
    rw [activate_job]
    split
    next h => subst h; rw [c]; simp [JobSlot.dispatched, JobSlot.pending, hj]
    · exact c i
  · exact d

theorem listLaw_takeJob {s : State} (hs : s.listLaw) {j : Slot} (hj : (s.job j).state = .free)
    {job : JobSlot} (hq : job.state = .queued) : (s.takeJob j job).listLaw := by
  obtain ⟨a, b, c, d⟩ := hs
  have hpend : (s.job j).pending = false := by simp [JobSlot.pending, hj]
  constructor
  · intro p i
    rw [takeJob_list, takeJob_job]
    have := a p i
    by_cases hi : i = j
    · subst hi
      have hp : i ∉ s.list p := fun h => by
        have := (this.1 h).1
        simp [hj] at this
      by_cases hpr : p = job.priority
      · subst hpr; simp [placedJob, hq]
      · simp [placedJob, hpr, hp, Ne.symm hpr]
    · split <;> simp_all
  · intro p
    rw [takeJob_list]
    split
    · refine (b p).append (by simp) ?_
      simp only [List.disjoint_singleton]
      intro h
      have := ((a p j).1 h).1
      simp [hj] at this
    · exact b p
  · intro i
    rw [takeJob_submission, takeJob_job]
    by_cases hi : i = j
    · subst hi; simp [placedJob, JobSlot.pending, hq]
    · simp [hi, c]
  · rw [takeJob_submission]
    refine d.append (by simp) ?_
    simp only [List.disjoint_singleton]
    intro h
    have := (c j).1 h
    simp [hpend] at this

theorem endAttempt_job (s : State) (i j : Slot) (o : Attempt) :
    (s.endAttempt j o).job i =
      if i = j then (s.job j).counted o s.link.slot else s.job i := by
  show (s.setJob j _).job i = _
  rw [job_setJob]

/-- What the outcome of the ACTIVE job's attempt does to the jobs (R121 to R131): the job's counters take it,
and the job returns to its list, waits, or completes. A law of the jobs that each of these keeps is kept. -/
theorem takeOutcome_induct {P : State → Prop} {s : State} {j : Slot} {o : Attempt}
    (active : (s.job j).state = .active)
    (congr : ∀ s t : State, t.jobs = s.jobs → t.lists = s.lists → t.submission = s.submission →
      t.completions = s.completions → P s → P t)
    (counted : P s → P (s.setJob j ((s.job j).counted o s.link.slot)))
    (head : ∀ u, (u.job j).state = .active → P u → P (u.requeueHead j))
    (tail : ∀ u, (u.job j).state = .active → P u → P (u.requeueTail j))
    (wait : ∀ u n, (u.job j).state = .active → P u →
      P (u.setJob j { u.job j with state := .waiting, retryCountdown := n }))
    (complete : ∀ u r, (u.job j).state = .active → P u → P (u.completeJob j r)) (hs : P s) :
    P (s.takeOutcome j o) := by
  have ha : ((s.endAttempt j o).job j).state = .active := by simp [endAttempt_job, active]
  have hu : P (s.endAttempt j o) := by
    refine congr (s.setJob j ((s.job j).counted o s.link.slot)) _ ?_ ?_ ?_ ?_ (counted hs)
    all_goals rfl
  have hd : P ((s.endAttempt j o).dispose j (s.verdict j o)) := by
    generalize s.endAttempt j o = u at *
    cases s.verdict j o
    · exact head u ha hu
    · exact tail u ha hu
    · exact wait u _ ha hu
    · exact complete u _ ha hu
  simp only [State.takeOutcome]
  split
  · exact hd
  · refine congr _ _ ?_ ?_ ?_ ?_ hd
    all_goals simp

/-- The ACTIVE job's outcome (R121). -/
theorem listLaw_takeOutcome {s : State} (hs : s.listLaw) {j : Slot} (hj : (s.job j).state = .active)
    (o : Attempt) : (s.takeOutcome j o).listLaw :=
  takeOutcome_induct hj (fun _ _ a b c _ h => listLaw_congr a b c h)
    (fun h => listLaw_setJob h (by simp) (by simp) (by simp [JobSlot.pending]))
    (fun _ ha h => listLaw_requeueHead h (.inr ha)) (fun _ ha h => listLaw_requeueTail h (.inr ha))
    (fun _ _ ha h => listLaw_setJob h (by simp [ha]) rfl (by simp [JobSlot.pending, ha]))
    (fun _ _ _ h => listLaw_completeJob h _ _) hs

/-- What an outcome makes of the job itself: the counters and the last response as counted, whatever requests are
pending, and the state its verdict names (R121 to R128, R131). -/
theorem takeOutcome_ownJob (s : State) (j : Slot) (o : Attempt) :
    let a := (s.takeOutcome j o).job j
    let c := (s.job j).counted o s.link.slot
    a.transportFailures = c.transportFailures ∧ a.busyResponses = c.busyResponses ∧
    a.arbitrationLosses = c.arbitrationLosses ∧ a.lastResponse = c.lastResponse ∧
    (∀ r, s.verdict j o = .complete r → a.state = .complete ∧ a.result = r) ∧
    (s.verdict j o = .queueHead → a.state = .queued) ∧ (s.verdict j o = .queueTail → a.state = .queued) ∧
    (s.verdict j o = .wait → a.state = .waiting ∧ a.retryCountdown = s.cfg.busyRetry) := by
  intro a c
  have same : a = ((s.endAttempt j o).dispose j (s.verdict j o)).job j := by
    simp only [a, State.takeOutcome]
    split <;> simp [State.job]
  rw [same]
  cases s.verdict j o <;>
    simp [State.dispose, State.requeueHead, State.requeueTail, State.completeJob, State.setJob, State.setList,
      State.job, JobSlot.completed, State.endAttempt, c]

/-! ### The scan -/

/-- The candidates are the QUEUED jobs, each once (R115, R118). -/
theorem candidates_queued {s : State} (hs : s.listLaw) :
    s.candidates.Nodup ∧ ∀ j ∈ s.candidates, (s.job j).state = .queued := by
  have hmem : ∀ l ∈ s.lists.toList, ∃ p, l = s.list p := by
    intro l hl
    obtain ⟨k, hk, rfl⟩ := List.mem_iff_getElem.1 hl
    simp only [Vector.length_toList] at hk
    exact ⟨BitVec.ofFin ⟨k, by omega⟩, by simp [State.list]⟩
  constructor
  · rw [State.candidates, List.nodup_flatten]
    constructor
    · intro l hl
      obtain ⟨p, rfl⟩ := hmem l hl
      exact hs.listOnce p
    · rw [List.pairwise_iff_getElem]
      intro a b ha hb hab x hx hy
      simp only [Vector.length_toList] at ha hb
      simp only [Vector.getElem_toList] at hx hy
      have h1 := (hs.listed (BitVec.ofFin ⟨a, by omega⟩) x).1 (by simpa [State.list] using hx)
      have h2 := (hs.listed (BitVec.ofFin ⟨b, by omega⟩) x).1 (by simpa [State.list] using hy)
      have h3 := h1.2.symm.trans h2.2
      simp only [BitVec.ofFin.injEq, Fin.mk.injEq] at h3
      omega
  · intro j hj
    obtain ⟨l, hl, hjl⟩ := List.mem_flatten.1 hj
    obtain ⟨p, rfl⟩ := hmem l hl
    exact ((hs.listed p j).1 hjl).1

/-- A law that a fast failure of a QUEUED job and the dispatch of one keep is kept by the scan (R118, R120). -/
theorem scan_induct {P : State → Prop}
    (fail : ∀ s j, (s.job j).state = .queued → P s → P (s.completeJob j .peerUnreachable))
    (go : ∀ s j, (s.job j).state = .queued → s.heldBack j = false → P s → P (s.activate j)) :
    ∀ (l : List Slot) (s : State), l.Nodup → (∀ j ∈ l, (s.job j).state = .queued) → P s →
      P (s.scan l) := by
  intro l
  induction l with
  | nil => exact fun s _ _ h => h
  | cons j l ih =>
    intro s hn hq h
    rw [List.nodup_cons] at hn
    simp only [State.scan]
    split
    · exact ih s hn.2 (fun i hi => hq i (by simp [hi])) h
    next hb =>
      split
      · refine ih _ hn.2 (fun i hi => ?_) (fail s j (hq j (by simp)) h)
        rw [completeJob_job, if_neg (by rintro rfl; exact hn.1 hi)]
        exact hq i (by simp [hi])
      · exact go s j (hq j (by simp)) (by simpa using hb) h

/-- The scan walks past jobs that are held back or fail, each judged in the state that the failures before it have
left, and goes on with the rest (R118, R120). The flag of a pair says that its job fails. -/
theorem scan_passes (passed : List (Slot × Bool)) : ∀ (s : State) (rest : List Slot),
    (∀ k (hk : k < passed.length),
      let u := (((passed.take k).filter Prod.snd).map Prod.fst).foldl
        (fun u i => u.completeJob i .peerUnreachable) s
      if passed[k].2 then u.heldBack passed[k].1 = false ∧ u.failsFast passed[k].1 = true
      else u.heldBack passed[k].1 = true) →
    s.scan (passed.map Prod.fst ++ rest) =
      (((passed.filter Prod.snd).map Prod.fst).foldl (fun u i => u.completeJob i .peerUnreachable) s).scan
        rest := by
  induction passed with
  | nil => exact fun _ _ _ => rfl
  | cons p l ih =>
    obtain ⟨i, fails⟩ := p
    intro s rest h
    have first := h 0 (by simp)
    have later : ∀ k (hk : k < l.length), _ := fun k hk => h (k + 1) (by simpa using hk)
    cases fails
    · simp only [List.map_cons, List.cons_append, State.scan, show s.heldBack i = true from first, if_true]
      simpa using ih s rest (by simpa using later)
    · obtain ⟨free, fast⟩ : s.heldBack i = false ∧ s.failsFast i = true := first
      simp only [List.map_cons, List.cons_append, State.scan, free, fast, if_true, Bool.false_eq_true, if_false]
      simpa using ih (s.completeJob i .peerUnreachable) rest (by simpa using later)

theorem listLaw_scan {s : State} (hs : s.listLaw) : (s.scan s.candidates).listLaw :=
  scan_induct (P := State.listLaw) (fun _ j _ h => listLaw_completeJob h j _)
    (fun _ _ hq _ h => listLaw_activate h hq) _ s (candidates_queued hs).1 (candidates_queued hs).2 hs

/-! ### Countdowns of jobs -/

theorem listLaw_deadlineTick {s : State} (hs : s.listLaw) (j : Slot) : (s.deadlineTick j).listLaw := by
  simp only [State.deadlineTick]
  repeat' split
  · exact hs
  · exact listLaw_setJob hs (by simp) rfl (by simp [JobSlot.pending])
  · exact listLaw_setJob hs (by simp) rfl (by simp [JobSlot.pending])
  · refine listLaw_completeJob (listLaw_setJob hs ?_ ?_ ?_) _ _
    all_goals simp [JobSlot.pending]

theorem listLaw_retryTick {s : State} (hs : s.listLaw) (j : Slot) : (s.retryTick j).listLaw := by
  simp only [State.retryTick]
  split
  · exact hs
  next hw =>
    simp only [ne_eq, not_not] at hw
    repeat' split
    · exact listLaw_setJob hs (by simp) rfl (by simp [JobSlot.pending])
    · exact hs
    · exact listLaw_requeueTail hs (.inl hw)

theorem listLaw_applyShare {s : State} (hs : s.listLaw) (b : Bool) (x : TickShare) :
    (s.applyShare b x).listLaw := by
  cases x
  case deadline j => exact listLaw_deadlineTick hs j
  case retry j => exact listLaw_retryTick hs j
  all_goals
    refine listLaw_congr ?_ ?_ ?_ hs
    all_goals simp [State.applyShare]

end Sys2Proof.Machine
end

