-- ==== Sys2Proof/Laws/Active.lean ====
section
/-!
SUPPORT. The ACTIVE job is the one whose telegram the node is sending, under the operations of the Job Manager
and of the Link Engine (R112, R118, R121).
-/

namespace Sys2Proof.Machine

/-! ### The ACTIVE job -/

theorem takeOutcome_job {s : State} {i j : Slot} (o : Attempt) :
    (i ≠ j → (s.takeOutcome j o).job i = s.job i) ∧ ((s.takeOutcome j o).job j).state ≠ .active := by
  have hd : ∀ u d, (i ≠ j → (State.dispose u j d).job i = u.job i) ∧
      ((State.dispose u j d).job j).state ≠ .active := by
    intro u d
    cases d <;>
      simp +contextual [State.dispose, requeueHead_job, requeueTail_job, completeJob_job, job_setJob,
        JobSlot.completed]
  obtain ⟨h1, h2⟩ := hd (s.endAttempt j o) (s.verdict j o)
  have hk : ∀ k, (s.takeOutcome j o).job k = ((s.endAttempt j o).dispose j (s.verdict j o)).job k := by
    intro k
    simp only [State.takeOutcome]
    split
    · rfl
    · exact job_congr (by simp) k
  rw [hk, hk]
  refine ⟨fun hi => ?_, h2⟩
  rw [h1 hi, endAttempt_job, if_neg hi]

/-- The law of the ACTIVE job speaks of the telegram the node is sending. -/
theorem activeLaw_iff {s : State} : s.activeLaw ↔
    (s.mode = .running → ∀ j, (s.job j).state = .active ↔ s.link.role.job = some j) ∧
      ∀ j h, s.link.role.sending = some (j, h) → h = (s.job j).header h.initiator := by
  constructor
  · rintro ⟨a, b⟩
    refine ⟨a, fun j h hr => b j h ?_⟩
    revert hr
    cases s.link.role <;> simp +contextual [Role.sending]
  · rintro ⟨a, b⟩
    refine ⟨a, fun j h hr => b j h ?_⟩
    rcases hr with hr | hr <;> rw [hr] <;> rfl

/-- A state that sends the same telegram, with the same job ACTIVE and the fields of that job's header. -/
theorem activeLaw_of {s t : State} (hs : s.activeLaw) (hm : t.mode = s.mode)
    (hr : t.link.role.sending = s.link.role.sending)
    (ha : ∀ i, (t.job i).state = .active ↔ (s.job i).state = .active)
    (hh : ∀ i a, (t.job i).state ≠ .free → (s.job i).state ≠ .free →
      (t.job i).header a = (s.job i).header a)
    (hn : s.mode = .running ∨ s.link.role.sending = none) : t.activeLaw := by
  rw [activeLaw_iff] at hs ⊢
  rw [← sending_job] at *
  refine ⟨fun h j => ?_, fun j h hj => ?_⟩
  · rw [ha, hr]; exact hs.1 (by rw [← hm, h]) j
  · rw [hr] at hj
    rcases hn with hn | hn
    · have hk := (hs.1 hn j).2 (by rw [hj]; rfl)
      rw [hh j _ (by rw [(ha j).2 hk]; simp) (by rw [hk]; simp)]
      exact hs.2 j h hj
    · simp [hn] at hj

theorem activeLaw_congr {s t : State} (hm : t.mode = s.mode) (hr : t.link.role = s.link.role)
    (hj : t.jobs = s.jobs) (hs : s.activeLaw) : t.activeLaw := by
  obtain ⟨a, b⟩ := hs
  constructor <;> simp only [hm, hr, job_congr hj] <;> assumption

/-- What an event of the link does to the ACTIVE job (R121). -/
theorem activeLaw_attempted {s t : State} (hs : s.activeLaw) (hm : s.mode = .running)
    (hk : t.mode = s.mode) (h : Attempted s t) : t.activeLaw := by
  cases h with
  | untouched h r =>
    exact activeLaw_of hs hk r (fun i => by rw [job_congr h.jobs])
      (fun i a _ _ => by rw [job_congr h.jobs]) (.inl hm)
  | answered j r role h sends =>
    refine activeLaw_of hs hk sends (fun i => ?_) (fun i a _ _ => ?_) (.inl hm)
    all_goals
      rw [job_congr h.jobs, job_setJob]
      split
      · subst_vars; rfl
      · rfl
  | outcome u j o same role h sends =>
    rw [activeLaw_iff, ← sending_job, sends]
    refine ⟨fun _ i => ?_, by simp⟩
    rw [job_congr h.jobs]
    by_cases hi : i = j
    · subst hi
      simpa using (takeOutcome_job (s := u) (i := i) (j := i) o).2
    · rw [(takeOutcome_job o).1 hi, job_congr same.same.jobs, hs.active hm, role]
      simp [Ne.symm hi]

theorem activeLaw_finish {s : State} (hs : s.activeLaw) (r : Result) (d : List Byte) :
    (s.finish r d).activeLaw := activeLaw_congr (by rfl) (by rfl) (by rfl) hs

theorem activeLaw_reset (q : List Instr) (l : Option Byte) (m : Memory) (mode : ResetMode) :
    State.activeLaw
      { State.reset with pending := q, lastRead := l, pageMem := m, mode := mode } := by
  constructor
  · intro _ j
    have : ∀ j : Slot, (State.job
        { State.reset with pending := q, lastRead := l, pageMem := m, mode := mode } j).state = .free := by
      intro j
      simp [State.job, State.reset, JobSlot.free]
    rw [this]
    simp [State.reset, LinkEngine.reset, Role.job]
  · intro j h hr
    simp [State.reset, LinkEngine.reset] at hr

/-- Rewriting a job that stays ACTIVE, with the fields of its header, or was not and is not. -/
theorem activeLaw_setJob {s : State} (hs : s.activeLaw) (hm : s.mode = .running) {j : Slot} {job : JobSlot}
    (ha : job.state = .active ↔ (s.job j).state = .active)
    (hh : ∀ a, job.state ≠ .free → (s.job j).state ≠ .free → job.header a = (s.job j).header a) :
    (s.setJob j job).activeLaw := by
  refine activeLaw_of hs (by rfl) (by rfl) (fun i => ?_) (fun i a => ?_) (.inl hm)
  · rw [job_setJob]; split
    next h => subst h; exact ha
    · exact Iff.rfl
  · rw [job_setJob]; split
    next h => subst h; exact hh a
    · exact fun _ _ => rfl

theorem activeLaw_completeJob {s : State} (hs : s.activeLaw) (hm : s.mode = .running) {j : Slot}
    (r : JobResult) (ha : (s.job j).state ≠ .active) : (s.completeJob j r).activeLaw := by
  refine activeLaw_of hs (by rfl) (by rfl) (fun i => ?_) (fun i a => ?_) (.inl hm)
  · rw [completeJob_job]; split
    next h => subst h; simp [ha, JobSlot.completed]
    · exact Iff.rfl
  · rw [completeJob_job]; split
    next h => subst h; exact fun _ _ => rfl
    · exact fun _ _ => rfl

theorem activeLaw_activate {s : State} (hr : ∀ i, (s.job i).state ≠ .active) (j : Slot) :
    (s.activate j).activeLaw := by
  constructor
  · intro _ i
    rw [activate_job]
    show _ ↔ (Role.contender j _).job = some i
    simp only [Role.job]
    split
    next h => subst h; simp [JobSlot.dispatched]
    next h => simp [hr, Ne.symm h]
  · intro i h hh
    have : (s.activate j).link.role = .contender j ((s.job j).header s.cfg.address) := rfl
    rw [this] at hh
    simp at hh
    obtain ⟨rfl, rfl⟩ := hh
    rw [activate_job, if_pos rfl]
    rfl

/-- The scan of an idle node makes at most one job ACTIVE (R118). -/
theorem activeLaw_scan (l : List Slot) : ∀ {s : State} (_ : s.activeLaw) (_ : s.mode = .running)
    (_ : ∀ i, (s.job i).state ≠ .active), (s.scan l).activeLaw := by
  induction l with
  | nil => exact fun h _ _ => h
  | cons j l ih =>
    intro s hs hm hr
    simp only [State.scan]
    split
    · exact ih hs hm hr
    · split
      · refine ih (activeLaw_completeJob hs hm _ (hr j)) (by simpa) ?_
        intro i; rw [completeJob_job]; split
        · simp [JobSlot.completed]
        · exact hr i
      · exact activeLaw_activate hr j

theorem activeLaw_deadlineTick {s : State} (hs : s.activeLaw) (hm : s.mode = .running) (j : Slot) :
    (s.deadlineTick j).activeLaw := by
  simp only [State.deadlineTick]
  repeat' split
  · exact hs
  · exact activeLaw_setJob hs hm (by simp) (fun a _ _ => rfl)
  · exact activeLaw_setJob hs hm (by simp) (fun a _ _ => rfl)
  · refine activeLaw_completeJob (activeLaw_setJob hs hm ?_ ?_) (by simpa) _ ?_
    · simp
    · intro _ _ _; rfl
    · simpa [job_setJob]

theorem activeLaw_retryTick {s : State} (hs : s.activeLaw) (hm : s.mode = .running) (j : Slot) :
    (s.retryTick j).activeLaw := by
  simp only [State.retryTick]
  split
  · exact hs
  next hw =>
    simp only [ne_eq, not_not] at hw
    repeat' split
    · exact activeLaw_setJob hs hm (by simp) (fun a _ _ => rfl)
    · exact hs
    · refine activeLaw_of hs (by rfl) (by rfl) (fun i => ?_) (fun i a => ?_) (.inl hm)
      · rw [requeueTail_job]; split
        next h => subst h; simp [hw]
        · exact Iff.rfl
      · rw [requeueTail_job]; split
        next h => subst h; exact fun _ _ => rfl
        · exact fun _ _ => rfl

theorem activeLaw_applyShare {s : State} (hs : s.activeLaw ∧ s.linkLaw ∧ s.mode = .running) (b : Bool)
    (x : TickShare) :
    (s.applyShare b x).activeLaw ∧ (s.applyShare b x).linkLaw ∧
      (s.applyShare b x).mode = .running := by
  refine ⟨?_, linkLaw_applyShare hs.2.1 b x, by simpa using hs.2.2⟩
  cases x
  case deadline j => exact activeLaw_deadlineTick hs.1 hs.2.2 j
  case retry j => exact activeLaw_retryTick hs.1 hs.2.2 j
  case lease | freshness =>
    exact activeLaw_congr (by simp [State.applyShare])
      (by simp [State.applyShare]) (by simp [State.applyShare]) hs.1
  case recovery =>
    simp only [State.applyShare, State.recoveryTick]
    split
    · exact hs.1
    next hf =>
      simp only [ne_eq, not_not] at hf
      have hi : s.link.role = .idle := by
        by_contra h
        have := hs.2.1.part hs.2.2 h
        simp [hf] at this
      repeat' split
      · exact activeLaw_congr (by rfl) (by rfl) (by rfl) hs.1
      · exact activeLaw_congr (by rfl) (by simp [hi, State.enterSyncing, State.changeLink]) (by simp) hs.1
      · exact activeLaw_congr (by rfl) (by rfl) (by rfl) hs.1

/-- An idle node has no ACTIVE job. -/
theorem noActive {s : State} (hs : s.activeLaw) (hm : s.mode = .running) (hr : s.link.role = .idle) :
    ∀ i, (s.job i).state ≠ .active := by
  intro i h
  have := (hs.active hm i).1 h
  simp [hr, Role.job] at this

end Sys2Proof.Machine
end

