-- ==== Sys2Proof/Laws/Step.lean ====
section
/-!
SUPPORT. The one way into a step: the command at the front, or one bit period.
-/

namespace Sys2Proof.Machine

theorem step_next {s t : State} (h : step s = .next t) :
    (s.pending = [] ∧ t = s.bitPeriod) ∨
      ∃ c rest, s.pending = c :: rest ∧ exec c { s with pending := rest } = .next t := by
  simp only [step] at h
  split at h
  next hp => cases h; exact .inl ⟨hp, rfl⟩
  next c rest hp => exact .inr ⟨c, rest, hp, h⟩

/-- A bit period: nothing in a reset, the phase and what it has spared alone, or a tick (R40, R42). -/
theorem bitPeriod_cases (s : State) :
    s.bitPeriod = s ∨
      s.bitPeriod = { s with ticks := { s.ticks with phase := s.ticks.phase + 1, spared := [] } } ∨
      (s.mode = .running ∧ s.bitPeriod = s.tickBoundary [] (s.link.dominance == .exceeded)) := by
  simp only [State.bitPeriod]
  split
  · exact .inl rfl
  next hm =>
    split
    · exact .inr (.inr ⟨by simpa using hm, rfl⟩)
    · exact .inr (.inl rfl)

/-- A law that neither the queue, the byte last read nor the tick generator concerns, and that every command and
every countdown's share keeps, is kept by every step. -/
theorem step_keeps {P : State → Prop}
    (other : ∀ (s : State) (q : List Instr) (g : TickGenerator), P s → P { s with pending := q, ticks := g })
    (share : ∀ (s : State) b x, s.mode = .running → P s → P (s.applyShare b x))
    (row : ∀ c s t, P s → exec c s = .next t → P t) {s t : State} (hs : P s) (h : step s = .next t) :
    P t := by
  rcases step_next h with ⟨_, rfl⟩ | ⟨c, rest, _, hc⟩
  · rcases bitPeriod_cases s with hb | hb | ⟨hm, hb⟩
    · rw [hb]; exact hs
    · rw [hb]; exact other s _ _ hs
    · rw [hb]
      exact (tickBoundary_induct (P := fun s => s.mode = .running ∧ P s)
        (fun s g h => ⟨h.1, other s _ g h.2⟩)
        (fun s x h => ⟨by simpa using h.1, share s _ x h.1 h.2⟩) [] ⟨hm, hs⟩).2
  · exact row c _ t (other s rest s.ticks hs) hc

end Sys2Proof.Machine
end

