-- ==== Sys2Proof/Laws/JobMoves.lean ====
section
/-!
SUPPORT. The ways in which any step moves jobs, said once: a law of the jobs is kept by every step when each of
the moves of the Job Manager keeps it (R115 to R135, R151).
-/

namespace Sys2Proof.Machine

/-- What stays the same of a job whose counters and countdowns alone change. -/
structure SameJob (a b : JobSlot) : Prop where
  generation : a.generation = b.generation
  state : a.state = b.state
  operation : a.operation = b.operation
  group : a.group = b.group
  target : a.target = b.target
  length : a.length = b.length
  priority : a.priority = b.priority
  ordered : a.ordered = b.ordered
  blocks : a.blocks = b.blocks
  unread : a.unread = b.unread

/-- Every entry of the peer table of `s` is still there in `t`. -/
def PeersKept (s t : State) : Prop := ∀ a, (s.peer a).isSome = true → (t.peer a).isSome = true

/-- The commands that can free a job slot (R135, R137). -/
def freeingCommands : List Instr := [.retire, .controllerResetEnd, .resetAsserted, .powerOnResetEnd]

/-- `P` is kept by every move of the Job Manager, whatever the rest of the state; by the moves that free a slot
where `frees` holds. -/
structure KeptByJobs (frees : Prop) (P : State → Prop) : Prop where
  congr : ∀ s t : State, t.jobs = s.jobs → t.lists = s.lists → t.submission = s.submission →
    t.completions = s.completions → PeersKept s t → P s → P t
  note : ∀ s j job, (s.job j).pending = true → SameJob job (s.job j) → P s → P (s.setJob j job)
  head : ∀ s j, (s.job j).state = .active → P s → P (s.requeueHead j)
  tail : ∀ s j, (s.job j).state = .active ∨ (s.job j).state = .waiting → P s → P (s.requeueTail j)
  wait : ∀ s j n, (s.job j).state = .active → P s →
    P (s.setJob j { s.job j with state := .waiting, retryCountdown := n })
  complete : ∀ s j r, (s.job j).pending = true → P s → P (s.completeJob j r)
  activate : ∀ s j, (s.job j).state = .queued → s.heldBack j = false →
    (∀ i, (s.job i).state ≠ .active) → P s → P (s.activate j)
  take : ∀ s p job j rest, submittedJob p = some job → s.freeSlots = j :: rest →
    job.blocksNeeded ≤ s.freeBlocks.length → P s → P (s.takeJob j job)
  retire : frees → ∀ s j, (s.job j).state = .complete → (s.job j).unread = false → P s →
    P (s.setJob j (.free (s.job j).generation))
  readOn : ∀ (s : State), s.completions.records ≠ [] → s.completions.readIndex < 7 → P s →
    P { s with completions := { s.completions with readIndex := s.completions.readIndex + 1 } }
  pop : ∀ (s : State) r rest, s.completions.records = r :: rest → P s →
    P { s.setJob (tagSlot r.tag) { s.job (tagSlot r.tag) with unread := false } with
      completions := ⟨rest, 0⟩ }
  reset : frees → ∀ s : State, s.jobs = State.reset.jobs → s.lists = State.reset.lists →
    s.submission = [] → s.completions = ⟨[], 0⟩ → P s

theorem peersKept_of {s t : State} (h : t.peers = s.peers) : PeersKept s t := by
  intro a ha
  rw [State.peer, h]
  exact ha

theorem peersKept_reportPeer (s : State) (b : Addr) (o : Attempt) : PeersKept s (s.reportPeer b o) := by
  have hp : (s.reportPeer b o).peers = s.peers ∨
      ∃ e, s.peer b = some e ∧ (s.reportPeer b o).peers =
        movedToFront s.peers (e.reported o s.cfg.degradeThreshold s.cfg.unreachableThreshold) := by
    simp only [State.reportPeer]
    split
    · exact .inl rfl
    next e he =>
      refine .inr ⟨e, he, ?_⟩
      split <;> rfl
  rcases hp with hp | ⟨e, he, hp⟩
  · exact peersKept_of hp
  intro a ha
  simp only [State.peer, hp, List.find?_isSome] at ha ⊢
  obtain ⟨x, hx, hxa⟩ := ha
  by_cases hb : x.address = e.address
  · exact ⟨_, List.mem_cons_self, by
      have hxa' : x.address = a := by simpa using hxa
      have : (e.reported o s.cfg.degradeThreshold s.cfg.unreachableThreshold).address = e.address := rfl
      simp [this, ← hb, hxa']⟩
  · refine ⟨x, List.mem_cons_of_mem _ (List.mem_filter.2 ⟨hx, ?_⟩), hxa⟩
    have : (e.reported o s.cfg.degradeThreshold s.cfg.unreachableThreshold).address = e.address := rfl
    simp [this, hb]

/-- The outcome of an attempt (R121 to R131). -/
theorem KeptByJobs.outcome {frees : Prop} {P : State → Prop} (k : KeptByJobs frees P) {s : State} {j : Slot}
    (active : (s.job j).state = .active) (o : Attempt) (hs : P s) : P (s.takeOutcome j o) := by
  have ha : ((s.endAttempt j o).job j).state = .active := by simp [endAttempt_job, active]
  have hu : P (s.endAttempt j o) :=
    k.congr (s.setJob j ((s.job j).counted o s.link.slot)) _ rfl rfl rfl rfl (peersKept_of rfl)
      (k.note s j _ (by simp [JobSlot.pending, active]) (by constructor <;> simp [JobSlot.counted]) hs)
  have hd : P ((s.endAttempt j o).dispose j (s.verdict j o)) := by
    generalize s.endAttempt j o = u at *
    cases s.verdict j o
    · exact k.head u j ha hu
    · exact k.tail u j (.inl ha) hu
    · exact k.wait u j _ ha hu
    · exact k.complete u j _ (by simp [JobSlot.pending, ha]) hu
  simp only [State.takeOutcome]
  split
  · exact hd
  · exact k.congr _ _ (by simp) (by simp) (by simp) (by simp) (peersKept_reportPeer _ _ _) hd

theorem KeptByJobs.attempted {frees : Prop} {P : State → Prop} (k : KeptByJobs frees P) {s t : State}
    (hm : s.mode = .running)
    (ha : s.activeLaw) (h : Attempted s t) (hs : P s) : P t :=
  h.keeps (fun _ _ e => k.congr _ _ e.jobs e.lists e.submission e.completions (peersKept_of e.peers))
    (fun j r role hu => k.note s j _ (by simp [JobSlot.pending, (ha.active hm _).2 role])
      (by constructor <;> rfl) hu)
    (fun _ _ o same role hu => k.outcome (by
      rw [job_congr same.same.jobs]
      exact (ha.active hm _).2 role) o hu) hs

theorem KeptByJobs.scan {frees : Prop} {P : State → Prop} (k : KeptByJobs frees P) {s : State} (hl : s.listLaw)
    (hn : ∀ i, (s.job i).state ≠ .active) (hs : P s) : P (s.scan s.candidates) := by
  obtain ⟨hnd, hq⟩ := candidates_queued hl
  generalize s.candidates = l at *
  induction l generalizing s with
  | nil => exact hs
  | cons j l ih =>
    rw [List.nodup_cons] at hnd
    simp only [State.scan]
    split
    · exact ih hl hn hs hnd.2 (fun i hi => hq i (by simp [hi]))
    next hb =>
      split
      · refine ih (listLaw_completeJob hl j _) ?_
          (k.complete s j _ (by simp [JobSlot.pending, hq j]) hs) hnd.2 ?_
        · intro i
          rw [completeJob_job]
          split
          · simp [JobSlot.completed]
          · exact hn i
        · intro i hi
          rw [completeJob_job, if_neg (by rintro rfl; exact hnd.1 hi)]
          exact hq i (by simp [hi])
      · exact k.activate s j (hq j (by simp)) (by simpa using hb) hn hs

theorem KeptByJobs.share {frees : Prop} {P : State → Prop} (k : KeptByJobs frees P) {s : State} (b : Bool)
    (x : TickShare)
    (hs : P s) : P (s.applyShare b x) := by
  cases x
  case deadline j =>
    simp only [State.applyShare, State.deadlineTick]
    split
    · exact hs
    next hr =>
      have hp : (s.job j).pending = true := by
        simp only [JobSlot.deadlineRuns, Bool.not_eq_eq_eq_not, Bool.not_true, Bool.not_eq_false,
          Bool.and_eq_true] at hr
        exact hr.1.1
      have hn : P (s.setJob j { s.job j with deadlineRemaining := (s.job j).deadlineRemaining - 1 }) :=
        k.note s j _ hp (by constructor <;> rfl) hs
      split
      · exact hn
      · split
        · exact k.note s j _ hp (by constructor <;> rfl) hs
        · exact k.complete _ j _ (by simpa [job_setJob, JobSlot.pending] using hp) hn
  case retry j =>
    simp only [State.applyShare, State.retryTick]
    split
    · exact hs
    next hw =>
      simp only [ne_eq, not_not] at hw
      repeat' split
      · exact k.note s j _ (by simp [JobSlot.pending, hw]) (by constructor <;> rfl) hs
      · exact hs
      · exact k.tail s j (.inr hw) hs
  all_goals
    refine k.congr s _ ?_ ?_ ?_ ?_ (peersKept_of ?_) hs
    all_goals simp [State.applyShare]

/-! ### Every step -/

theorem KeptByJobs.same {frees : Prop} {P : State → Prop} (k : KeptByJobs frees P) (s : State) {t : State}
    (hj : t.jobs = s.jobs)
    (hl : t.lists = s.lists) (hsub : t.submission = s.submission)
    (hc : t.completions = s.completions) (hp : t.peers = s.peers) (hs : P s) : P t :=
  k.congr s t hj hl hsub hc (peersKept_of hp) hs

theorem freeSlots_head {s : State} {j : Slot} {rest : List Slot} (h : s.freeSlots = j :: rest) :
    (s.job j).state = .free := by
  have : j ∈ s.freeSlots := by rw [h]; simp
  simpa [State.freeSlots] using this

theorem knownTag_some {s : State} {t : Byte} {j : Slot} (h : s.knownTag t = some j) :
    (s.job j).state ≠ .free ∧ j = tagSlot t ∧ (s.job j).generation = tagGeneration t := by
  simp only [State.knownTag] at h
  split at h
  · cases h
  · split at h
    · cases h; exact ⟨by assumption, rfl, by assumption⟩
    · cases h

/-- Every command keeps a law of the jobs that the moves keep. -/
theorem KeptByJobs.row {frees : Prop} {P : State → Prop} (k : KeptByJobs frees P) {c : Instr} {s t : State}
    (ha : s.activeLaw) (hl : s.listLaw) (hf : c ∈ freeingCommands → frees) (hs : P s)
    (h : exec c s = .next t) : P t := by
  have done : ∀ {u : State} r d, P u → P (u.finish r d) := fun {u} _ _ hu =>
    k.same u rfl rfl rfl rfl rfl hu
  have hs' : P s.momentOver := k.same s rfl rfl rfl rfl rfl hs
  have ha' : s.momentOver.activeLaw := activeLaw_congr (s := s) rfl rfl rfl ha
  cases c
  case submit =>
    rcases completing_next h with rfl | ⟨p, hm, _, rfl⟩
    · exact hs
    · simp only [submitEffect]
      repeat' split
      all_goals first
        | exact done _ _ hs
        | exact done _ _ (k.take s p _ _ _ (by assumption) (by assumption) (by omega) hs)
  case cancel =>
    rcases completing_next h with rfl | ⟨p, hm, _, rfl⟩
    · exact hs
    · simp only [cancelEffect]
      repeat' split
      all_goals first
        | exact done _ _ hs
        | (next hst => exact done _ _ (k.complete s _ _ (by simp [JobSlot.pending, hst]) hs))
        | (next hst => exact done _ _ (k.note s _ _ (by simp [JobSlot.pending, hst]) (by constructor <;> rfl) hs))
  case retire =>
    rcases completing_next h with rfl | ⟨p, hm, _, rfl⟩
    · exact hs
    · simp only [retireEffect]
      repeat' split
      all_goals first
        | exact done _ _ hs
        | exact done _ _ (k.retire (hf (by simp [freeingCommands])) s _ (by simp_all) (by simp_all) hs)
  case peerReset =>
    rcases completing_next h with rfl | ⟨p, hm, _, rfl⟩
    · exact hs
    · simp only [peerResetEffect]
      repeat' split
      all_goals first
        | exact done _ _ hs
        | skip
      refine done _ _ (k.congr s _ rfl rfl rfl rfl ?_ hs)
      intro a ha
      simp only [State.peer, List.find?_isSome] at ha ⊢
      obtain ⟨x, hx, hxa⟩ := ha
      refine ⟨_, List.mem_map_of_mem hx, ?_⟩
      split
      next hb =>
        simp only [beq_iff_eq] at hb hxa
        simp [PeerEntry.new, ← hb, hxa]
      · exact hxa
  case completionRead =>
    simp only [exec, execCompletionRead] at h
    have hk : P s.advanceCompletion := by
      simp only [State.advanceCompletion]
      repeat' split
      · exact hs
      next hr hi => exact k.readOn s (by rw [hr]; simp) hi hs
      next hr _ => exact k.pop s _ _ hr hs
    rcases hostRead_next h with ⟨_, rfl⟩ | ⟨hm, rfl⟩
    · exact k.same s rfl rfl rfl rfl rfl hs
    · exact k.same s.advanceCompletion rfl rfl rfl rfl rfl hk
  case controllerResetEnd =>
    simp only [exec, execControllerResetEnd] at h
    split at h <;> cases h
    · exact k.reset (hf (by simp [freeingCommands])) _ rfl rfl rfl rfl
    · exact hs
  case resetAsserted =>
    cases h
    exact k.reset (hf (by simp [freeingCommands])) _ rfl rfl rfl rfl
  case powerOnResetEnd =>
    simp only [exec, execPowerOnResetEnd] at h
    split at h <;> cases h
    · exact k.reset (hf (by simp [freeingCommands])) _ rfl rfl rfl rfl
    · exact hs
  case transmitOpportunity =>
    simp only [exec, execTransmitOpportunity] at h
    rcases onLink_next h with ⟨_, rfl⟩ | ⟨hm, rfl⟩
    · exact hs
    · simp only [State.offerLink]
      split
      next ho =>
        exact k.scan (listLaw_congr (s := s) rfl rfl rfl hl)
          (show ∀ i, (s.job i).state ≠ .active from noActive ha hm ho.2.1)
          (k.same s rfl rfl rfl rfl rfl hs)
      · exact hs'
  case arbitrationLost =>
    simp only [exec, execArbitrationLost] at h
    rcases onLink_next h with ⟨_, rfl⟩ | ⟨hm, rfl⟩
    · exact hs
    · exact k.attempted (s := s.momentOver) hm ha' (loseArbitration_jobs _) hs'
  case header =>
    simp only [exec, execHeader] at h
    rcases onLink_next h with ⟨_, rfl⟩ | ⟨hm, rfl⟩
    · exact hs
    · exact k.attempted (s := s.momentOver) hm ha' (takeHeaderPart_jobs _ _) hs'
  case blockSlot =>
    simp only [exec, execBlockSlot] at h
    rcases onLink_next h with ⟨_, rfl⟩ | ⟨hm, rfl⟩
    · exact hs
    · exact k.attempted (s := s.momentOver) hm ha' (takeBlock_jobs _ _ _ _ _) hs'
  case resendExhaustion =>
    simp only [exec, execResendExhaustion] at h
    rcases onLink_next h with ⟨_, rfl⟩ | ⟨hm, rfl⟩
    · exact hs
    · exact k.attempted (s := s.momentOver) hm ha' (fifthNak_jobs _) hs'
  case bitError =>
    simp only [exec, execBitError] at h
    rcases onLink_next h with ⟨_, rfl⟩ | ⟨hm, rfl⟩
    · exact hs
    · split
      · exact k.attempted (s := s.momentOver) hm ha' (meetBitError_jobs _ rfl) hs'
      · exact hs'
  case lossOfSyncEdges =>
    simp only [exec, execLossOfSyncEdges] at h
    rcases onLink_next h with ⟨_, rfl⟩ | ⟨hm, rfl⟩
    · exact hs
    · exact k.attempted (s := s.momentOver) hm ha' (loseSync_jobs _) hs'
  case normalEnd =>
    simp only [exec, execNormalEnd] at h
    rcases onLink_next h with ⟨_, rfl⟩ | ⟨hm, rfl⟩
    · exact hs
    · exact k.attempted (s := s.momentOver) hm ha' (reachEnd_jobs _) hs'
  case stuckDominant =>
    simp only [exec, execStuckDominant] at h
    rcases onLink_next h with ⟨_, rfl⟩ | ⟨hm, rfl⟩
    · exact hs
    · exact k.attempted (s := s.momentOver) hm ha' (meetStuck_jobs _) hs'
  case tick =>
    simp only [exec, execTick] at h
    rcases whenRunning_next h with ⟨_, rfl⟩ | ⟨hm, rfl⟩
    · exact hs
    · exact tickBoundary_induct (P := P) (fun u _ h => k.same u rfl rfl rfl rfl rfl h)
        (fun _ _ h => k.share _ _ h) _ hs
  case retryCountdownExpiry =>
    rcases expiryRow_next h with rfl | ⟨hm, _, _, rfl⟩
    · exact hs
    · simp only [State.takeShare]
      split
      · exact hs
      · exact k.same (s.applyShare false _) rfl rfl rfl rfl rfl (k.share false _ hs)
  case deadlineExpiry =>
    rcases expiryRow_next h with rfl | ⟨hm, _, _, rfl⟩
    · exact hs
    · simp only [State.takeShare]
      split
      · exact hs
      · exact k.same (s.applyShare false _) rfl rfl rfl rfl rfl (k.share false _ hs)
  case configure =>
    obtain hk := configure_row h
    exact k.same s (by simp [hk]) (by simp [hk]) (by simp [hk]) (by simp [hk]) (by simp [hk]) hs
  case setGroups =>
    obtain hk := setGroups_row h
    exact k.same s (by simp [hk]) (by simp [hk]) (by simp [hk]) (by simp [hk]) (by simp [hk]) hs
  case linkStart =>
    obtain hk := linkStart_row h
    exact k.same s (by simp [hk]) (by simp [hk]) (by simp [hk]) (by simp [hk]) (by simp [hk]) hs
  case linkStop =>
    obtain hk := linkStop_row h
    exact k.same s (by simp [hk]) (by simp [hk]) (by simp [hk]) (by simp [hk]) (by simp [hk]) hs
  case pageDefine =>
    obtain hk := pageDefine_row h
    exact k.same s (by simp [hk]) (by simp [hk]) (by simp [hk]) (by simp [hk]) (by simp [hk]) hs
  case pageClose =>
    obtain hk := pageClose_row h
    exact k.same s (by simp [hk]) (by simp [hk]) (by simp [hk]) (by simp [hk]) (by simp [hk]) hs
  case pageFetch =>
    obtain hk := pageFetch_row h
    exact k.same s (by simp [hk]) (by simp [hk]) (by simp [hk]) (by simp [hk]) (by simp [hk]) hs
  case pageCommit =>
    obtain hk := pageCommit_row h
    exact k.same s (by simp [hk]) (by simp [hk]) (by simp [hk]) (by simp [hk]) (by simp [hk]) hs
  case localClaim =>
    obtain hk := localClaim_row h
    exact k.same s (by simp [hk]) (by simp [hk]) (by simp [hk]) (by simp [hk]) (by simp [hk]) hs
  case localRelease =>
    obtain hk := localRelease_row h
    exact k.same s (by simp [hk]) (by simp [hk]) (by simp [hk]) (by simp [hk]) (by simp [hk]) hs
  case breakClaim =>
    obtain hk := breakClaim_row h
    exact k.same s (by simp [hk]) (by simp [hk]) (by simp [hk]) (by simp [hk]) (by simp [hk]) hs
  case jobQuery =>
    obtain hk := jobQuery_row h
    exact k.same s (by simp [hk]) (by simp [hk]) (by simp [hk]) (by simp [hk]) (by simp [hk]) hs
  case jobFetch =>
    obtain hk := jobFetch_row h
    exact k.same s (by simp [hk]) (by simp [hk]) (by simp [hk]) (by simp [hk]) (by simp [hk]) hs
  case peerRead =>
    obtain hk := peerRead_row h
    exact k.same s (by simp [hk]) (by simp [hk]) (by simp [hk]) (by simp [hk]) (by simp [hk]) hs
  case inboundDrop =>
    obtain hk := inboundDrop_row h
    exact k.same s (by simp [hk]) (by simp [hk]) (by simp [hk]) (by simp [hk]) (by simp [hk]) hs
  case badCommand =>
    obtain hk := badCommand_row h
    exact k.same s (by simp [hk]) (by simp [hk]) (by simp [hk]) (by simp [hk]) (by simp [hk]) hs
  case statusRead =>
    obtain hk := statusRead_row h
    exact k.same s (by simp [hk]) (by simp [hk]) (by simp [hk]) (by simp [hk]) (by simp [hk]) hs
  case resultRead =>
    obtain hk := resultRead_row h
    exact k.same s (by simp [hk]) (by simp [hk]) (by simp [hk]) (by simp [hk]) (by simp [hk]) hs
  case resultDataRead =>
    obtain hk := resultDataRead_row h
    exact k.same s (by simp [hk]) (by simp [hk]) (by simp [hk]) (by simp [hk]) (by simp [hk]) hs
  case paramWrite =>
    obtain hk := paramWrite_row h
    exact k.same s (by simp [hk]) (by simp [hk]) (by simp [hk]) (by simp [hk]) (by simp [hk]) hs
  case dataRead =>
    obtain hk := dataRead_row h
    exact k.same s (by simp [hk]) (by simp [hk]) (by simp [hk]) (by simp [hk]) (by simp [hk]) hs
  case dataWrite =>
    obtain hk := dataWrite_row h
    exact k.same s (by simp [hk]) (by simp [hk]) (by simp [hk]) (by simp [hk]) (by simp [hk]) hs
  case dataPtrWrite =>
    obtain hk := dataPtrWrite_row h
    exact k.same s (by simp [hk]) (by simp [hk]) (by simp [hk]) (by simp [hk]) (by simp [hk]) hs
  case eventRead =>
    obtain hk := eventRead_row h
    exact k.same s (by simp [hk]) (by simp [hk]) (by simp [hk]) (by simp [hk]) (by simp [hk]) hs
  case inboundRead =>
    obtain hk := inboundRead_row h
    exact k.same s (by simp [hk]) (by simp [hk]) (by simp [hk]) (by simp [hk]) (by simp [hk]) hs
  case irqClear =>
    obtain hk := irqClear_row h
    exact k.same s (by simp [hk]) (by simp [hk]) (by simp [hk]) (by simp [hk]) (by simp [hk]) hs
  case irqEnableWrite =>
    obtain hk := irqEnableWrite_row h
    exact k.same s (by simp [hk]) (by simp [hk]) (by simp [hk]) (by simp [hk]) (by simp [hk]) hs
  case ignoredWrite =>
    obtain hk := ignoredWrite_row h
    exact k.same s (by simp [hk]) (by simp [hk]) (by simp [hk]) (by simp [hk]) (by simp [hk]) hs
  case controllerReset =>
    obtain hk := controllerReset_row h
    exact k.same s (by simp [hk]) (by simp [hk]) (by simp [hk]) (by simp [hk]) (by simp [hk]) hs
  case powerOnResetSequence =>
    obtain hk := powerOnResetSequence_row h
    exact k.same s (by simp [hk]) (by simp [hk]) (by simp [hk]) (by simp [hk]) (by simp [hk]) hs
  case enterOnline =>
    obtain hk := enterOnline_row h
    exact k.same s (by simp [hk]) (by simp [hk]) (by simp [hk]) (by simp [hk]) (by simp [hk]) hs
  case startMarker =>
    obtain hk := startMarker_row h
    exact k.same s (by simp [hk]) (by simp [hk]) (by simp [hk]) (by simp [hk]) (by simp [hk]) hs
  case recoveryTimerExpiry =>
    obtain hk := recoveryTimerExpiry_row h
    exact k.same s (by simp [hk]) (by simp [hk]) (by simp [hk]) (by simp [hk]) (by simp [hk]) hs
  case leaseExpiry =>
    obtain hk := leaseExpiry_row h
    exact k.same s (by simp [hk]) (by simp [hk]) (by simp [hk]) (by simp [hk]) (by simp [hk]) hs
  case pendingExpiry =>
    obtain hk := pendingExpiry_row h
    exact k.same s (by simp [hk]) (by simp [hk]) (by simp [hk]) (by simp [hk]) (by simp [hk]) hs
  case refreshWindowExpiry =>
    obtain hk := refreshWindowExpiry_row h
    exact k.same s (by simp [hk]) (by simp [hk]) (by simp [hk]) (by simp [hk]) (by simp [hk]) hs
  case freshLifetimeExpiry =>
    obtain hk := freshLifetimeExpiry_row h
    exact k.same s (by simp [hk]) (by simp [hk]) (by simp [hk]) (by simp [hk]) (by simp [hk]) hs
  case cmdWrite =>
    obtain hk := cmdWrite_row h
    exact k.same s (by simp [hk]) (by simp [hk]) (by simp [hk]) (by simp [hk]) (by simp [hk]) hs
  case gapMeasurementRestart =>
    obtain hk := gapMeasurementRestart_row h
    exact k.same s (by simp [hk]) (by simp [hk]) (by simp [hk]) (by simp [hk]) (by simp [hk]) hs

/-- Every step keeps a law of the jobs that the moves keep. -/
theorem KeptByJobs.step {frees : Prop} {P : State → Prop} (k : KeptByJobs frees P) {s t : State} (ha : s.activeLaw)
    (hl : s.listLaw) (hf : ∀ c rest, s.pending = c :: rest → c ∈ freeingCommands → frees) (hs : P s)
    (h : step s = .next t) : P t := by
  rcases step_next h with ⟨_, rfl⟩ | ⟨c, rest, hq, hc⟩
  · rcases bitPeriod_cases s with hb | hb | ⟨_, hb⟩
    · rw [hb]; exact hs
    · rw [hb]; exact k.same s rfl rfl rfl rfl rfl hs
    · rw [hb]
      exact tickBoundary_induct (P := P) (fun u _ h => k.same u rfl rfl rfl rfl rfl h)
        (fun _ _ h => k.share _ _ h) [] hs
  · refine k.row (s := { s with pending := rest }) (activeLaw_congr (s := s) rfl rfl rfl ha)
      (listLaw_congr (s := s) rfl rfl rfl hl) (hf c rest hq) (k.same s rfl rfl rfl rfl rfl hs) hc

end Sys2Proof.Machine
end

