-- ==== Sys2Proof/Tests/Slice0.lean ====
section
/-!
SUPPORT. The model's own tests: what WellFormed refuses, codes and checks worked out in the manual, one small step
per command, and for every claim with hypotheses a state and operands that meet them.
-/

namespace Sys2Proof.Slice0

open Sys2Proof Sys2Proof.Machine

/-! ### States for the tests -/

/-- The next state of an outcome. -/
def nextState : Host.Outcome State Fault Refusal → Option State
  | .next t => some t
  | .fault _ => none
  | .refused _ => none

/-- What a command leaves of one thing looked at. -/
def sees {α : Type} (c : Instr) (s : State) (look : State → α) : Option α :=
  (nextState (exec c s)).map look

/-- Eight parameter bytes: those given, then 00h. -/
def params (l : List Byte) : Params := Vector.ofFn fun i => l.getD i.val 0

/-- A command in progress. -/
def taking (code : Byte) (l : List Byte) (s : State) : State :=
  { s with port := { s.port with taken := some ⟨code, params l⟩ } }

/-- Node 5, OFFLINE. -/
def configured : State := { State.reset with cfg := { NodeConfig.reset with address := 5 } }

/-- Node 5 in a link state, with a part. -/
def linked (l : LinkState) (r : Role) : State :=
  { configured with link := { LinkEngine.reset with state := l, role := r, gap := .running } }

/-- Node 5, idle in ONLINE with the gap complete. -/
def onlineIdle : State :=
  { configured with link := { LinkEngine.reset with state := .online, gap := .complete } }

/-- An OPEN page of 16 bytes. -/
def openPage : PageEntry := { PageEntry.default with mode := .opened, length := 16, claimable := true }

/-- A WRITE of 8 bytes to page 3 of node 9, from node 5. -/
def writeHeader : Header := ⟨1, 5, false, 9, 2, 3, 0, 8⟩

/-- The same write from node 9 to node 5. -/
def toUs : Header := ⟨1, 9, false, 5, 2, 3, 0, 8⟩

/-- A write of 8 bytes to page 3 of every node. -/
def toAll : Header := ⟨1, 9, false, 127, 2, 3, 0, 8⟩

/-- The job of `writeHeader`, QUEUED. -/
def writeJob : JobSlot :=
  { JobSlot.free 1 with
    state := .queued, operation := .write, target := 9, page := 3, length := 8, priority := 1
    blocks := [0], transportLimit := 1, busyLimit := 1 }

/-- A job in slot 0, in the lists its state asks for, and the peer entry of its target. -/
def withJob (job : JobSlot) (s : State) : State :=
  { s.setJob 0 job with
    lists := if job.state = .queued then s.lists.set job.priority.toFin [0] else s.lists
    submission := if job.pending then [0] else []
    peers := [PeerEntry.new 9] }

/-- Node 5 as the initiator of job 0 in the data phase, its header acknowledged. -/
def sending : State :=
  withJob { writeJob with state := .active, attempts := 1 }
    { linked .online (.initiator 0 writeHeader) with
      link := { LinkEngine.reset with
        state := .online, role := .initiator 0 writeHeader, slot := [.dominant, .dominant] }
      initiator := ⟨.data, 0, 0, false⟩ }

/-- Node 5 as the target of an accepted write of 8 bytes to page 3. -/
def receivingWrite : State :=
  { (linked .online (.target toUs .ack)).setPage 3 openPage with
    link := { LinkEngine.reset with
      state := .online, role := .target toUs .ack, slot := [.dominant, .dominant] }
    responder := { Responder.reset with marker := .page 3 } }

/-! ### WellFormed refuses -/

theorem test_wf_controllerReset : Instr.wellFormed (.controllerReset 0xFE) = false := by decide
theorem test_wf_ignoredWrite_low : Instr.wellFormed (.ignoredWrite 4 1) = false := by decide
theorem test_wf_ignoredWrite_mid : Instr.wellFormed (.ignoredWrite 8 1) = false := by decide
theorem test_wf_ignoredWrite_nine : Instr.wellFormed (.ignoredWrite 9 1) = false := by decide
theorem test_wf_tick : Instr.wellFormed (.tick [.recovery, .recovery] false) = false := by decide
theorem test_wf_accepts :
    [Instr.controllerReset 1, .ignoredWrite 5 1, .ignoredWrite 7 1, .ignoredWrite 10 1, .ignoredWrite 15 1,
      .tick [.recovery, .lease 3] true].all Instr.wellFormed = true := by decide

/-! ### Checks and codes -/

/-- R10's own examples. -/
theorem test_crc : crc [0x00] = 0xA8 ∧ crc [0x12, 0x34] = 0x3F := by decide +kernel

/-- The header of section 12.2's example. -/
theorem test_header :
    fieldBytes (Header.fields ⟨1, 12, false, 21, 1, 12, 0, 16⟩) = [0x46, 0x0A, 0x89, 0x80, 0x10] := by
  decide

/-- The data bytes at the edges of the length field, by operation and addressing (R13). -/
theorem test_dataBytes :
    [((1 : BitVec 4), (64 : BitVec 7), (9 : Addr)), (1, 65, 9), (2, 0, 9), (3, 8, 9), (7, 127, 9), (9, 8, 9),
      (2, 9, 127), (6, 8, 127), (7, 8, 127)].map (fun (op, len, target) =>
        let h : Header := ⟨1, 5, false, target, op, 3, 0, len⟩
        (h.dataBytes, h.blocks, h.initiatorSends)) =
      [(64, 8, false), (0, 0, false), (0, 0, true), (0, 0, false), (8, 1, false), (0, 0, false), (9, 2, true),
        (0, 0, true), (0, 0, false)] := by decide

/-- Blocks of a job by operation (R114). -/
theorem test_blocksNeeded :
    [(Operation.read, (1 : BitVec 7)), (.write, 64), (.message, 0), (.status, 0), (.claim, 8), (.release, 64)].map
      (fun (op, len) => { JobSlot.free 0 with operation := op, length := len }.blocksNeeded) =
      [1, 8, 0, 1, 0, 0] := by decide

theorem test_decode_none : decodeTableWord 8 0x55 = none := by decide

/-! ### States in which every law holds -/

/-- A state with something in every block: an accepted write in progress on a page with a pending expiry, a job in
three states, an unread completion, an inbound record that runs round the ring, two events. -/
def lawful : State :=
  { receivingWrite with
    pending := [.statusRead]
    pages := (receivingWrite.pages.set 3 { openPage with holder := .node 9 }).set 4
      { openPage with mode := .deferred, freshness := .requested, countdown := 3, holder := .local }
    pageMem := [(192, 7)]
    inbound := ⟨[(1020, 1), (1021, 9), (1022, 5), (1023, 1)], 1020, 7, 1, none, 2⟩
    jobs := ((receivingWrite.jobs.set 0 writeJob).set 1
      { writeJob with state := .complete, result := .done, bytesDone := 8, unread := true, blocks := [1] }).set 2
      { writeJob with state := .waiting, ordered := true, retryCountdown := 2, blocks := [2] }
    pool := [(0, 0xAA)]
    lists := receivingWrite.lists.set 1 [0]
    submission := [0, 2]
    completions := ⟨[⟨0x11, .done, 1, 8, 0, .ack, 3⟩], 2⟩
    peers := [PeerEntry.new 9]
    events := ⟨[⟨.pageWritten, false, 2, 3, 9, 2, 1⟩, ⟨.linkState, true, 0, 2, 5, 1, 1⟩], 5, true⟩ }

theorem lawful_memory : lawful.memoryForm := by
  refine ⟨?_, ?_, ?_, ?_⟩ <;> decide
theorem lawful_port : lawful.portLaw := by constructor <;> decide
theorem lawful_events : lawful.eventLaw := by constructor <;> decide
theorem lawful_peers : lawful.peerLaw := by constructor <;> decide
theorem lawful_link : lawful.linkLaw := by constructor <;> decide
theorem lawful_accept : lawful.acceptLaw := by constructor <;> decide
theorem lawful_pages : lawful.pageLaw := by constructor <;> decide +kernel
theorem lawful_active : lawful.activeLaw := by
  refine activeLaw_iff.2 ⟨by decide, fun j h hr => ?_⟩
  have hs : lawful.link.role.sending = none := rfl
  simp [hs] at hr
theorem lawful_lists : lawful.listLaw := by constructor <;> decide +kernel
theorem lawful_completions : lawful.completionLaw := by constructor <;> decide +kernel
theorem lawful_pool : lawful.poolLaw := by constructor <;> decide +kernel
theorem lawful_ordered : lawful.orderedLaw := by intro j; revert j; decide +kernel
theorem lawful_references : lawful.peerReferences := by intro j; revert j; decide +kernel

/-! ### More states -/

/-- A broadcast write of node 5. -/
def allHeader : Header := ⟨1, 5, false, 127, 2, 3, 0, 8⟩

/-- Node 5 in the header slot of its broadcast write, its first bit sampled. -/
def sendingAll : State :=
  { withJob { writeJob with state := .active, target := 127 } (linked .online (.initiator 0 allHeader)) with
    pending := [.bitError]
    link := { LinkEngine.reset with
      state := .online, role := .initiator 0 allHeader, slot := [.recessive] }
    initiator := ⟨.headerSlot, 0, 0, false⟩ }

theorem sendingAll_link : sendingAll.linkLaw := by constructor <;> decide
theorem sendingAll_active : sendingAll.activeLaw := by
  refine activeLaw_iff.2 ⟨by decide, fun j h hr => ?_⟩
  have hs : sendingAll.link.role.sending = some (0, allHeader) := rfl
  rw [hs] at hr
  obtain ⟨rfl, rfl⟩ := Prod.mk.inj (Option.some.inj hr)
  decide
theorem sendingAll_one : sendingAll.oneActive := by
  intro i j; revert i j; decide +kernel

/-- The accepted write with its one block staged. -/
def blockStaged : State :=
  { receivingWrite with responder := { receivingWrite.responder with
      staging := [1, 2, 3, 4, 5, 6, 7, 8], blockIndex := 1 } }

/-- The parameter write index at a place. -/
def indexed (n : Nat) : State := { configured with port := { configured.port with writeIndex := n } }

/-- One byte of RESULT_DATA, the read index at a place. -/
def answered (n : Nat) : State :=
  { configured with port := { configured.port with resultData := [7], resultIndex := n } }

/-- DATA_PTR at a place. -/
def pointed (n : Nat) : State := { configured with port := { configured.port with dataPtr := n } }

/-- An event queue of so many records. -/
def queued (n : Nat) : EventUnit := ⟨List.replicate n ⟨.linkState, false, 0, 1, 5, 1, 0⟩, 0, false⟩

/-- Page 3 open with a remote claim. -/
def held : State := configured.setPage 3 { openPage with holder := .node 9, lease := 4 }

/-- Page 3 open with the LOCAL claim. -/
def heldLocal : State := configured.setPage 3 { openPage with holder := .local }

/-- Page 3 DEFERRED. -/
def refreshing (f : Freshness) : State :=
  configured.setPage 3 { openPage with mode := .deferred, freshness := f, countdown := 1 }

/-- All sixteen slots taken. -/
def full : State := { configured with jobs := Vector.replicate 16 { writeJob with blocks := [] } }

/-- Slot 15 alone is free. -/
def withRoom : State := { full with jobs := full.jobs.set 15 (.free 3) }

/-- Every pool block taken. -/
def crowded : State := configured.setJob 0 { writeJob with blocks := List.finRange 64 }

/-- Slot 1 stands first in its list and behind the ORDERED job 0 of the same target. -/
def heldBehind : State :=
  { onlineIdle with
    jobs := ((onlineIdle.jobs.set 0 { writeJob with ordered := true }).set 1
      { writeJob with ordered := true, priority := 0, blocks := [1] }).set 2
        { writeJob with state := .waiting, ordered := true, target := 7, blocks := [2] }
    lists := (onlineIdle.lists.set 0 [1]).set 1 [0]
    submission := [0, 2, 1]
    peers := [PeerEntry.new 9] }

/-- The same, with the peer of both UNREACHABLE. -/
def failingAhead : State :=
  { heldBehind with peers := [{ PeerEntry.new 9 with state := .unreachable }] }

/-- Job 0 fails fast, and with it the ORDERED probe behind it is free to go. -/
def releasing : State :=
  { failingAhead with
    jobs := failingAhead.jobs.set 1
      { writeJob with ordered := true, probe := true, operation := .status, blocks := [1] }
    lists := (failingAhead.lists.set 0 []).set 1 [0, 1] }

/-- Two peers, node 9 the less recently used. -/
def twoPeers : State := { configured with peers := [PeerEntry.new 1, PeerEntry.new 9] }

/-- A peer table of so many entries, the least recently used one that of a QUEUED job's target. -/
def crowdedTable (n : Nat) : State :=
  { withJob writeJob configured with
    peers := ((List.range (n - 1)).map fun k => PeerEntry.new (BitVec.ofNat 7 (40 + k))) ++ [PeerEntry.new 9] }

/-- Page 3 DEFERRED with a fresh lifetime, its countdown about to run out. -/
def timed (f : Freshness) (lifetime : Nat) : State :=
  configured.setPage 3
    { openPage with mode := .deferred, freshness := f, countdown := 1, lifetime := lifetime }

/-- SYNCING after LINK_START. -/
def joining : State :=
  { configured with link := ⟨.syncing, .idle, [], .running, .running, 0, 0, some .command⟩ }

/-- A telegram has begun. -/
def listening : State := linked .online .receiving

/-- In the header slot, or just past it. -/
def inSlot (r : Role) (slot : List Level) : State :=
  { configured with
    link := { LinkEngine.reset with state := .online, role := r, slot := slot }
    initiator := ⟨.headerSlot, 0, 0, false⟩ }

/-- A read of 8 bytes of page 3 of node 9. -/
def readHeader : Header := ⟨1, 5, false, 9, 1, 3, 0, 8⟩

/-- Node 5 as the initiator of a read, its header acknowledged. -/
def fetching : State :=
  { withJob { writeJob with state := .active, operation := .read } configured with
    link := { LinkEngine.reset with
      state := .online, role := .initiator 0 readHeader, slot := [.dominant, .dominant] }
    initiator := ⟨.data, 0, 0, false⟩ }

/-- A header from node 9 to page 3 of node 5, by its operation code. -/
def ended (op : BitVec 4) : Header := { toUs with operation := op }

/-- The accepted telegram of that header at its end, page 3 as given. -/
def ending (op : BitVec 4) (e : PageEntry) : State :=
  { (configured.setPage 3 e) with
    link := { LinkEngine.reset with
      state := .online, role := .target (ended op) .ack, slot := [.dominant, .dominant] }
    responder := { Responder.reset with
      marker := (ended op).marker
      staging := if (ended op).initiatorSends then [1, 2, 3, 4, 5, 6, 7, 8] else []
      blockIndex := (ended op).blocks }
    inbound := { InboundStore.reset with
      reservation := if (ended op).marker = .inbound then some ⟨14, 0, ended op⟩ else none } }

/-- Every countdown about to run out, or one before it. -/
def counting : State :=
  { configured with
    cfg := { configured.cfg with autoRecover := true }
    link := { LinkEngine.reset with state := .faulted, recoveryTimer := 1 }
    pages := ((configured.pages.set 3 { openPage with holder := .node 9, lease := 1 }).set 4
      { openPage with mode := .deferred, freshness := .requested, countdown := 1 }).set 5
        { openPage with mode := .deferred, freshness := .fresh, countdown := 1 }
    jobs := ((configured.jobs.set 0
      { writeJob with state := .waiting, retryCountdown := 1, deadline := 9, deadlineRemaining := 2 }).set 1
        { writeJob with state := .active, deadline := 9, deadlineRemaining := 1, blocks := [1] }).set 2
          { writeJob with deadline := 9, deadlineRemaining := 1, blocks := [2] }
    lists := configured.lists.set 1 [2]
    submission := [0, 1, 2] }

/-! ### One small step per command -/

theorem test_configure :
    sees .configure (taking 0x01 [7, 2, 16, 2, 8, 60, 20, 1] State.reset)
      (fun t => (t.cfg.address, t.cfg.grade, t.cfg.autoRecover, t.port.result, t.cmdBusy)) =
      some (7, .c, true, .ok, false) := by decide

theorem test_setGroups :
    sees .setGroups (taking 0x02 [0x80, 0, 0, 0x03] configured) (fun t => t.groups) =
      some 0x80000002 := by decide

theorem test_linkStart :
    sees .linkStart (taking 0x03 [] configured)
      (fun t => (t.link.state, t.link.cause, t.events.records.map EventRecord.bytes)) =
      some (.syncing, some .command, [[0x07, 1, 5, 1, 0, 0]]) := by decide

theorem test_linkStop :
    sees .linkStop (taking 0x04 [] receivingWrite) (fun t => (t.link.state, t.link.role)) =
      some (.stopping, .target toUs .ack) := by decide

theorem test_pageDefine :
    sees .pageDefine (taking 0x10 [3, 1, 16, 3, 0, 1, 0] configured) (fun t => t.page 3) =
      some openPage := by decide

theorem test_pageClose :
    sees .pageClose (taking 0x11 [3, 1] held) (fun t => (t.page 3, t.port.result)) =
      some (.default, .ok) := by decide

theorem test_pageFetch :
    sees .pageFetch (taking 0x12 [3] lawful)
      (fun t => (t.port.staging, t.port.dataPtr, t.port.resultData)) =
      some ([(0, 7)], 0, [0, 16, 1, 0]) := by decide +kernel

theorem test_pageCommit :
    sees .pageCommit (taking 0x13 [4]
        { lawful with port := { lawful.port with staging := [(0, 0xAB)] } })
      (fun t => (t.pageMem, (t.page 4).sequence, (t.page 4).freshness)) =
      some ([(192, 7), (256, 0xAB)], 1, .fresh) := by decide +kernel

theorem test_localClaim :
    sees .localClaim (taking 0x18 [3] (configured.setPage 3 openPage))
      (fun t => ((t.page 3).holder, t.port.resultData)) = some (.local, [0x7F, 0]) := by decide

theorem test_localRelease :
    sees .localRelease (taking 0x19 [4] lawful) (fun t => (t.page 4).holder) = some .none := by decide

theorem test_breakClaim :
    sees .breakClaim (taking 0x1A [3]
        (configured.setPage 3 { openPage with holder := .node 9, lease := 4 }))
      (fun t => ((t.page 3).holder, t.port.resultData, t.events.records)) =
      some (.none, [9, 4], []) := by decide

theorem test_submit :
    sees .submit (taking 0x20 [0x20, 9, 3, 0x40, 8, 0x11] configured)
      (fun t => ((t.job 0).state, t.list 1, t.submission, t.port.resultData)) =
      some (.queued, [0], [0], [0x10, 15, 63]) := by decide +kernel

theorem test_cancel :
    sees .cancel (taking 0x21 [0x10] lawful) (fun t => ((t.job 0).result, t.list 1, t.submission)) =
      some (.cancelled, [], [2]) := by decide

theorem test_jobQuery :
    sees .jobQuery (taking 0x22 [0x12] lawful) (fun t => t.port.staging) =
      some [(0, 2), (6, 2)] := by decide

theorem test_jobFetch :
    sees .jobFetch (taking 0x23 [0x11] lawful) (fun t => t.port.resultData) = some [8] := by decide

theorem test_retire :
    sees .retire (taking 0x24 [0x10] (withJob { writeJob with state := .complete } configured))
      (fun t => (t.job 0, t.port.resultData)) = some (.free 1, [16, 64]) := by decide +kernel

theorem test_peerRead :
    sees .peerRead (taking 0x28 [9] lawful) (fun t => (t.port.staging, t.port.resultData)) =
      some ([(0, 9), (2, 100)], [0, 100, 1, 0]) := by decide

theorem test_peerReset :
    sees .peerReset (taking 0x29 [9]
        { configured with peers := [{ PeerEntry.new 9 with score := 3, state := .unreachable }] })
      (fun t => (t.peers, t.port.resultData)) = some ([PeerEntry.new 9], [2, 3]) := by decide

theorem test_inboundDrop :
    sees .inboundDrop (taking 0x30 [] lawful) (fun t => (t.inbound.head, t.inbound.committedBytes)) =
      some (3, 0) := by decide

theorem test_badCommand :
    sees .badCommand (taking 0x05 [] configured) (fun t => (t.port.result, t.port.cmdDone)) =
      some (.badCommand, true) := by decide

theorem test_statusRead :
    sees .statusRead (taking 0x03 [] { configured with port := { configured.port with reject := true } })
      (fun t => (t.lastRead, t.port.reject)) = some (some 3, false) := by decide

theorem test_resultRead :
    sees .resultRead { configured with port := { configured.port with cmdDone := true, resultIndex := 2 } }
      (fun t => (t.lastRead, t.port.cmdDone, t.port.resultIndex)) = some (some 0, false, 0) := by decide

theorem test_resultDataRead :
    sees .resultDataRead { configured with port := { configured.port with resultData := [7] } }
      (fun t => (t.lastRead, t.port.resultIndex)) = some (some 7, 1) := by decide

theorem test_paramWrite :
    sees (.paramWrite 0xAB) configured (fun t => (t.port.params[0], t.port.writeIndex)) =
      some (0xAB, 1) := by decide

theorem test_cmdWrite :
    sees (.cmdWrite 0x03) configured (fun t => t.port.taken) = some (some ⟨0x03, params []⟩) := by decide

theorem test_dataWrite :
    sees (.dataWrite 9) configured (fun t => (t.port.staging, t.port.dataPtr)) =
      some ([(0, 9)], 1) := by decide

theorem test_dataRead :
    sees .dataRead { configured with port := { configured.port with staging := [(0, 9)] } }
      (fun t => (t.lastRead, t.port.dataPtr)) = some (some 9, 1) := by decide

theorem test_dataPtrWrite :
    sees (.dataPtrWrite 200) configured (fun t => t.port.dataPtr) = some 64 := by decide

theorem test_completionRead :
    sees .completionRead { lawful with completions := { lawful.completions with readIndex := 7 } }
      (fun t => (t.lastRead, t.completions, (t.job 1).unread)) =
      some (some 3, ⟨[], 0⟩, false) := by decide

theorem test_eventRead :
    sees .eventRead lawful (fun t => (t.lastRead, t.events.records.length, t.events.readIndex)) =
      some (some 1, 1, 0) := by decide

theorem test_inboundRead :
    sees .inboundRead lawful (fun t => (t.lastRead, t.inbound.readIndex)) = some (some 5, 3) := by decide

theorem test_irqClear :
    sees (.irqClear 0x0F) { lawful with port := { lawful.port with cmdDone := true } }
      (fun t => (t.port.cmdDone, t.irqSources)) = some (false, 0xE) := by decide

theorem test_irqEnableWrite :
    sees (.irqEnableWrite 0xF8) lawful (fun t => (t.port.irqEnable, t.irqLow)) = some (8, true) := by decide

theorem test_ignoredWrite : exec (.ignoredWrite 12 0xFF) lawful = .next lawful := by rfl

theorem test_controllerReset :
    sees (.controllerReset 1) lawful (fun t => (t.mode, t.readRegister 0, t.link.role)) =
      some (.controller, some 0x80, .idle) := by decide

theorem test_controllerResetEnd :
    sees .controllerResetEnd { lawful with mode := .controller }
      (fun t => (t.mode, t.pageMem, (t.page 3).mode, t.peers)) =
      some (.running, [(192, 7)], .closed, []) := by decide

theorem test_resetAsserted :
    sees .resetAsserted lawful (fun t => (t.mode, t.readRegister 0, t.submission)) =
      some (.held, none, []) := by decide

theorem test_powerOnResetSequence :
    sees .powerOnResetSequence { lawful with mode := .held } (fun t => t.mode) = some .powerOn := by decide

theorem test_powerOnResetEnd :
    sees .powerOnResetEnd { lawful with mode := .powerOn } (fun t => (t.mode, t.pageMem)) =
      some (.running, []) := by decide

theorem test_enterOnline :
    sees .enterOnline
      { configured with link := { LinkEngine.reset with state := .syncing, cause := some .recovery } }
      (fun t => (t.link.state, t.link.gap, t.events.records.map EventRecord.detail)) =
      some (.online, .complete, [4]) := by decide

theorem test_transmitOpportunity :
    sees .transmitOpportunity (withJob writeJob onlineIdle)
      (fun t => (t.link.role, (t.job 0).state, (t.job 0).attempts, t.list 1, t.submission)) =
      some (.contender 0 writeHeader, .active, 1, [], [0]) := by decide

theorem test_startMarker :
    sees .startMarker onlineIdle (fun t => (t.link.role, t.link.gap)) =
      some (.receiving, .notRunning) := by decide

theorem test_arbitrationLost :
    sees .arbitrationLost
      (withJob { writeJob with state := .active } (linked .online (.contender 0 writeHeader)))
      (fun t => (t.link.role, (t.job 0).arbitrationLosses, t.list 1)) =
      some (.receiving, 1, [0]) := by decide

theorem test_header_accepted :
    sees (.header (.headerBits toUs.bits)) ((linked .online .receiving).setPage 3 openPage)
      (fun t => (t.link.role, t.responder.marker)) = some (.target toUs .ack, .page 3) := by decide +kernel

theorem test_header_slot :
    sees (.header (.slotBit .recessive)) (linked .online (.target toUs .refuse))
      (fun t => (t.link.slot, t.link.txErrors)) = some ([.recessive], 0) := by decide

/-- A collective job shows its answer from the first slot bit on, an individual one not yet (R127). -/
theorem test_header_slot_collective :
    sees (.header (.slotBit .dominant)) { sendingAll with link := { sendingAll.link with slot := [] } }
      (fun t => (t.link.slot, (t.job 0).lastResponse, (t.job 0).state, t.initiator.dissent)) =
      some ([.dominant], .dissent, .active, true) ∧
    sees (.header (.slotBit .dominant)) (inSlot (.initiator 0 writeHeader) [])
      (fun t => (t.link.slot, (t.job 0).lastResponse)) = some ([.dominant], .none) := by decide

/-- A collective bit error after the slot: no transport failure (log entry 30). -/
theorem test_bitError_collective :
    sees .bitError sendingAll (fun t =>
      ((t.job 0).result, (t.job 0).transportFailures, (t.job 0).lastResponse, t.link.txErrors)) =
      some (.checkFailed, 0, .noDissent, 1) := by decide

theorem test_blockSlot_received :
    sees (.blockSlot (params [1, 2, 3, 4, 5, 6, 7, 8]) (crc [1, 2, 3, 4, 5, 6, 7, 8]) .dominant .dominant)
      receivingWrite (fun t => (t.responder.staging, t.responder.blockIndex)) =
      some ([1, 2, 3, 4, 5, 6, 7, 8], 1) := by decide +kernel

theorem test_blockSlot_nak :
    sees (.blockSlot (params []) (crc (List.replicate 8 0)) .recessive .recessive) sending
      (fun t => (t.initiator.blockIndex, t.initiator.resendCount)) = some (0, 1) := by decide +kernel

theorem test_resendExhaustion :
    sees .resendExhaustion { sending with initiator := ⟨.data, 0, 4, false⟩ }
      (fun t => ((t.job 0).state, (t.job 0).transportFailures, t.link.role, t.peers.map PeerEntry.score)) =
      some (.queued, 1, .bystander, [90]) := by decide

theorem test_bitError :
    sees .bitError { sending with link := { sending.link with txErrors := 7 } }
      (fun t => (t.link.state, t.link.recoveryTimer, (t.job 0).state, (t.job 0).transportFailures)) =
      some (.faulted, 64, .queued, 0) := by decide

theorem test_lossOfSyncEdges :
    sees .lossOfSyncEdges receivingWrite
      (fun t => (t.link.role, t.link.gap, t.responder.marker, t.link.txErrors)) =
      some (.idle, .running, .clear, 0) := by decide

theorem test_normalEnd_target :
    sees .normalEnd { receivingWrite with responder := { receivingWrite.responder with
        staging := [1, 2, 3, 4, 5, 6, 7, 8], blockIndex := 1 } }
      (fun t => (t.link.role, t.pageMem.length, (t.page 3).sequence, t.events.records.length)) =
      some (.idle, 8, 1, 1) := by decide +kernel

theorem test_normalEnd_initiator :
    sees .normalEnd { sending with initiator := ⟨.data, 1, 0, false⟩ }
      (fun t => ((t.job 0).result, (t.job 0).bytesDone, t.completions.records.map CompletionRecord.bytes)) =
      some (.done, 8, [[0x10, 1, 1, 8, 0, 1, 0, 0]]) := by decide

theorem test_stuckDominant :
    sees .stuckDominant onlineIdle (fun t => (t.link.state, t.events.records.map EventRecord.detail)) =
      some (.faulted, [3]) := by decide

theorem test_recoveryTimerExpiry :
    sees .recoveryTimerExpiry counting (fun t => (t.link.state, t.link.cause, t.ticks.taken)) =
      some (.syncing, some .recovery, [.recovery]) := by decide

theorem test_tick :
    sees (.tick [] false) counting
      (fun t => (t.ticks, (t.page 3).holder, (t.page 4).freshness, (t.job 0).state, (t.job 2).result)) =
      some (⟨0, 1, [], []⟩, .none, .stale, .queued, .expired) := by decide +kernel

theorem test_tick_order :
    sees (.tick [.retry 0, .deadline 0] true) counting
      (fun t => ((t.job 0).state, (t.job 0).deadlineRemaining, t.link.recoveryTimer)) =
      some (.queued, 1, 64) := by decide +kernel

theorem test_leaseExpiry :
    sees (.leaseExpiry 3) counting (fun t => ((t.page 3).holder, t.events.records.map EventRecord.bytes)) =
      some (.none, [[4, 3, 9, 1, 0, 0]]) := by decide

theorem test_pendingExpiry :
    sees (.pendingExpiry 3) { counting with responder := { Responder.reset with marker := .page 3 } }
      (fun t => ((t.page 3).holder, (t.page 3).lease, t.events.records)) = some (.node 9, 0, []) := by decide

theorem test_refreshWindowExpiry :
    sees (.refreshWindowExpiry 4) counting (fun t => ((t.page 4).freshness, (t.page 4).countdown)) =
      some (.stale, 0) := by decide

theorem test_freshLifetimeExpiry :
    sees (.freshLifetimeExpiry 5) counting (fun t => ((t.page 5).freshness, (t.page 4).freshness)) =
      some (.stale, .requested) := by decide

theorem test_retryCountdownExpiry :
    sees (.retryCountdownExpiry 0) counting (fun t => ((t.job 0).state, t.list 1)) =
      some (.queued, [2, 0]) := by decide

theorem test_deadlineExpiry :
    sees (.deadlineExpiry 1) counting (fun t => ((t.job 1).state, (t.job 1).expiryRequested)) =
      some (.active, true) := by decide

theorem test_gapMeasurementRestart :
    sees .gapMeasurementRestart onlineIdle (fun t => t.link.gap) = some .running := by decide

theorem test_step_front :
    (nextState (step { configured with pending := [.paramWrite 7, .statusRead] })).map
      (fun t => (t.pending, t.port.params[0])) = some ([.statusRead], 7) := by decide

theorem test_step_idle :
    (nextState (step State.reset)).map (fun t => t.ticks.phase) = some 1 := by decide


/-- R58: a commit on the last tick of the refresh window spares the page the tick of its bit period. -/
theorem test_pageCommit_spares :
    sees .pageCommit (taking 0x13 [3] (timed .requested 5))
      (fun t => (t.ticks.spared, (t.page 3).freshness, (t.page 3).countdown)) =
      some ([3], .fresh, 5) := by decide +kernel

/-- R58: a FRESH countdown of 1 that the commit has reloaded is not ended. -/
theorem test_spared_lifetime :
    sees (.freshLifetimeExpiry 3) { timed .fresh 1 with ticks := ⟨0, 0, [], [3]⟩ } (fun t => t.page 3) =
      some ((timed .fresh 1).page 3) := by decide

/-- R57: a row of the link ends the moment of a commit, so that the tick after it steps the FRESH countdown. -/
theorem test_link_row_ends_the_moment :
    ((nextState (exec .startMarker { timed .fresh 1 with ticks := ⟨0, 0, [], [3]⟩ })).bind fun t =>
      (nextState (exec (.freshLifetimeExpiry 3) t)).map fun u => (u.page 3).freshness) = some .stale := by decide

/-- R69, R31, R129, R125: what a tick posts, and the list a job returns to. -/
theorem test_tick_posts :
    sees (.tick [] false) counting (fun t => (t.events.records.map EventRecord.kind, t.completions.records.map
      CompletionRecord.result, t.list 1)) =
      some ([.linkState, .claimExpired], [.expired], [0]) := by decide +kernel

/-- R118 to R120: the failure of job 0 releases job 1 in the same scan. -/
theorem test_scan_goes_on :
    sees .transmitOpportunity releasing (fun t => (t.jobs.toList.take 2).map fun job => (job.state, job.result)) =
      some [(.complete, .peerUnreachable), (.active, .none)] := by decide +kernel

/-- R131: a cancelled job that met silence shows the transport failure. -/
theorem test_cancelled_counts :
    let t := (withJob { writeJob with state := .active, cancelRequested := true } configured).takeOutcome 0 .silence
    ((t.job 0).result, (t.job 0).transportFailures, (t.job 0).lastResponse) = (.cancelled, 1, .silence) := by decide

/-- R19: a member drives dissent in the first bit of the block slot when its check fails, and nothing else. -/
theorem test_member_dissent :
    [true, false].map (inSlot (.member toAll true) [.recessive, .recessive]).blockSlotDriven =
      [(.recessive, .recessive), (.dominant, .recessive)] := by decide

/-- R143: CONFIGURE has moved the thresholds, and the step into FAULTED posts no PEER_STATE. -/
theorem test_link_lost_keeps_the_peer :
    sees .bitError
      { sending with
        cfg := { sending.cfg with degradeThreshold := 100 }
        link := { sending.link with txErrors := 7 }
        peers := [{ PeerEntry.new 9 with score := 80 }] }
      (fun t => (t.link.state, t.peers.map PeerEntry.state, t.events.records.map EventRecord.kind)) =
      some (.faulted, [.normal], [.linkState]) := by decide +kernel

/-! ### A state and operands for every hypothesis of every claim -/

theorem witness_StepTakesTheFront :
    ∃ (s : State) (c : Instr) (rest : List Instr), s.pending = c :: rest :=
  ⟨lawful, .statusRead, [], rfl⟩

theorem witness_IdleStepIsOneBitPeriod :
    (∃ s : State, s.pending = [] ∧ s.mode ≠ .running) ∧
    (∃ s : State, s.pending = [] ∧ s.mode = .running ∧ s.ticks.phase ≠ 1023) ∧
    (∃ s : State, s.pending = [] ∧ s.mode = .running ∧ s.ticks.phase = 1023) :=
  ⟨⟨{ configured with mode := .controller }, by decide⟩,
    ⟨{ configured with ticks := ⟨1022, 7, [], [3]⟩ }, by decide⟩,
    ⟨{ configured with ticks := ⟨1023, 7, [], [3]⟩ }, by decide⟩⟩

theorem witness_FormsAndRangesKept :
    ∃ s t : State, s.memoryForm ∧ s.portLaw ∧ step s = .next t :=
  ⟨lawful, _, lawful_memory, lawful_port, rfl⟩

theorem witness_EventLawKept :
    ∃ s t : State, s.eventLaw ∧ step s = .next t :=
  ⟨lawful, _, lawful_events, rfl⟩

theorem witness_PeerTableLawKept :
    ∃ s t : State, s.peerLaw ∧ s.activeLaw ∧ s.listLaw ∧ s.peerReferences ∧ step s = .next t :=
  ⟨lawful, _, lawful_peers, lawful_active, lawful_lists, lawful_references, rfl⟩

theorem witness_LinkLawKept :
    ∃ s t : State, s.linkLaw ∧ step s = .next t :=
  ⟨lawful, _, lawful_link, rfl⟩

theorem witness_AcceptLawKept :
    ∃ s t : State, s.linkLaw ∧ s.acceptLaw ∧ step s = .next t :=
  ⟨lawful, _, lawful_link, lawful_accept, rfl⟩

theorem witness_PageLawKept :
    ∃ s t : State, s.linkLaw ∧ s.acceptLaw ∧ s.pageLaw ∧ step s = .next t :=
  ⟨lawful, _, lawful_link, lawful_accept, lawful_pages, rfl⟩

theorem witness_ActiveJobLawKept :
    ∃ s t : State, s.linkLaw ∧ s.activeLaw ∧ s.oneActive ∧ step s = .next t :=
  ⟨sendingAll, _, sendingAll_link, sendingAll_active, sendingAll_one, rfl⟩

theorem witness_JobListLawsKept :
    ∃ s t : State, s.activeLaw ∧ s.listLaw ∧ s.orderedLaw ∧ step s = .next t :=
  ⟨lawful, _, lawful_active, lawful_lists, lawful_ordered, rfl⟩

theorem witness_CompletionAndPoolLawsKept :
    ∃ s t : State, s.activeLaw ∧ s.listLaw ∧ s.completionLaw ∧ s.poolLaw ∧ step s = .next t :=
  ⟨lawful, _, lawful_active, lawful_lists, lawful_completions, lawful_pool, rfl⟩

theorem witness_InFlightPageKeepsItsEntry :
    ∃ (s t : State) (p : Page), s.inFlight p = true ∧ (s.page p).mode ≠ .closed ∧ step s = .next t ∧
      t.inFlight p = true :=
  ⟨lawful, _, 3, by decide, by decide, rfl, by decide⟩

theorem witness_PageMemoryHasThreeWriters :
    ∃ s t : State, step s = .next t ∧ t.pageMem ≠ s.pageMem :=
  ⟨{ blockStaged with pending := [.normalEnd] }, _, rfl, by decide⟩

theorem witness_CollectiveJobIsNotSentAgain :
    ∃ (s t : State) (j : Slot) (h : Header), s.linkLaw ∧ s.activeLaw ∧ s.mode = .running ∧
      s.link.role = .initiator j h ∧ (s.job j).collective = true ∧ s.link.slot ≠ [] ∧ step s = .next t :=
  ⟨sendingAll, _, 0, allHeader, sendingAll_link, sendingAll_active, rfl, rfl, by decide, by decide, rfl⟩

theorem witness_CollectiveJobIsNotSentAgain_stays :
    (∃ (s t : State) (j : Slot), s.activeLaw ∧ s.listLaw ∧ (s.job j).state = .complete ∧ step s = .next t ∧
      t.job j = s.job j) ∧
    (∃ (s t : State) (j : Slot), s.activeLaw ∧ s.listLaw ∧ (s.job j).state = .complete ∧ step s = .next t ∧
      (t.job j).state = .free) :=
  ⟨⟨lawful, _, 1, lawful_active, lawful_lists, by decide, rfl, by decide⟩,
    ⟨{ lawful with pending := [.resetAsserted] }, _, 1,
      activeLaw_congr (s := lawful) rfl rfl rfl lawful_active,
      listLaw_congr (s := lawful) rfl rfl rfl lawful_lists, by decide, rfl, by decide⟩⟩

theorem witness_LinkStateMovesByTheTable :
    ∃ s t : State, s.linkLaw ∧ s.mode = .running ∧ step s = .next t ∧ t.mode = .running ∧
      t.link.state ≠ s.link.state :=
  ⟨{ taking 0x04 [] lawful with pending := [.linkStop] }, _, by constructor <;> decide, rfl, rfl, rfl, by decide⟩

theorem witness_ParamAndCmdWrites :
    (∃ s : State, s.mode = .running ∧ s.port.writeIndex = 7) ∧
    (∃ s : State, s.mode = .running ∧ s.port.writeIndex = 8) ∧
    (∃ s : State, s.mode = .running ∧ s.cmdBusy = false) ∧
    (∃ s : State, s.mode = .running ∧ s.cmdBusy = true) :=
  ⟨⟨indexed 7, by decide⟩,
    ⟨indexed 8, by decide⟩,
    ⟨configured, by decide⟩,
    ⟨taking 0x03 [] configured, by decide⟩⟩

theorem witness_TakenCommandsComplete :
    (∃ (s : State) (p : Params), s.inProgress 0x00 p ∧ (0x00 : Byte) ∉ commandCodes) ∧
    (∃ (s : State) (p : Params), s.inProgress 0x30 p) :=
  ⟨⟨taking 0x00 [] configured, params [], ⟨rfl, rfl⟩, by decide⟩,
    ⟨taking 0x30 [] configured, params [], rfl, rfl⟩⟩

theorem witness_ResultPortsReadTheOutcome :
    (∃ s : State, s.mode = .running ∧ s.port.resultIndex < s.port.resultData.length) ∧
    (∃ s : State, s.mode = .running ∧ s.port.resultData.length ≤ s.port.resultIndex) :=
  ⟨⟨answered 0, by decide⟩,
    ⟨answered 1, by decide⟩⟩

theorem witness_DataAndDataPtr :
    (∃ s : State, s.mode = .running ∧ s.memoryForm ∧ s.cmdBusy = false ∧ s.port.dataPtr = 63) ∧
    (∃ s : State, s.mode = .running ∧ s.memoryForm ∧ s.port.dataPtr = 64) ∧
    (∃ s : State, s.mode = .running ∧ s.memoryForm ∧ s.cmdBusy = true) ∧
    (∃ v w : Byte, v.toNat < 64 ∧ v.toNat = 63 ∧ 64 ≤ w.toNat ∧ w.toNat = 64) :=
  ⟨⟨pointed 63, by decide, ⟨by decide, by decide, by decide, by decide⟩, by decide⟩,
    ⟨pointed 64, by decide, ⟨by decide, by decide, by decide, by decide⟩, by decide⟩,
    ⟨taking 0x03 [] configured, by decide, ⟨by decide, by decide, by decide, by decide⟩, by decide⟩,
    ⟨63, 64, by decide⟩⟩

theorem witness_StatusAndStateRegisters :
    (∃ s : State, s.mode = .running ∧ s.link.txErrors ≤ 8 ∧ s.link.txErrors = 8) ∧
    (∃ a b : BitVec 4, readOnlyAddress a = true ∧ a = 5 ∧ readOnlyAddress b = true ∧ b = 15) ∧
    (∃ v : Byte, v.getLsbD 0 = false ∧ v = 0xFE) :=
  ⟨⟨{ configured with link := { LinkEngine.reset with txErrors := 8 } }, by decide⟩,
    ⟨5, 15, by decide⟩,
    ⟨0xFE, by decide⟩⟩

theorem witness_CompletionAndEventPorts :
    (∃ s : State, s.mode = .running ∧ s.completions.readIndex ≤ 7 ∧ s.completions.records = []) ∧
    (∃ (s : State) (r : CompletionRecord) (rest : List CompletionRecord), s.mode = .running ∧
      s.completions.records = r :: rest ∧ s.completions.readIndex = 6) ∧
    (∃ (s : State) (r : CompletionRecord) (rest : List CompletionRecord), s.mode = .running ∧
      s.completions.records = r :: rest ∧ s.completions.readIndex = 7) ∧
    (∃ s : State, s.mode = .running ∧ s.events.readIndex ≤ 5 ∧ s.events.records = []) ∧
    (∃ (s : State) (r : EventRecord) (rest : List EventRecord), s.mode = .running ∧
      s.events.records = r :: rest ∧ s.events.readIndex = 4) ∧
    (∃ (s : State) (r : EventRecord) (rest : List EventRecord), s.mode = .running ∧
      s.events.records = r :: rest ∧ s.events.readIndex = 5) :=
  ⟨⟨configured, by decide⟩,
    ⟨{ lawful with completions := { lawful.completions with readIndex := 6 } }, _, _, rfl, rfl, rfl⟩,
    ⟨{ lawful with completions := { lawful.completions with readIndex := 7 } }, _, _, rfl, rfl, rfl⟩,
    ⟨configured, by decide⟩,
    ⟨{ lawful with events := { lawful.events with readIndex := 4 } }, _, _, rfl, rfl, rfl⟩,
    ⟨lawful, _, _, rfl, rfl, rfl⟩⟩

theorem witness_NoticesAreCoalescedStoredOrLost :
    (∃ (u : EventUnit) (n : Notice) (pre : List EventRecord) (r : EventRecord) (post : List EventRecord),
      n.kind = .pageWritten ∧ u.records = pre ++ r :: post ∧ r.kind = .pageWritten ∧ r.subject = n.subject ∧
      ∀ x ∈ pre ++ post, ¬(x.kind = .pageWritten ∧ x.subject = n.subject)) ∧
    (∃ (u : EventUnit) (n : Notice), (∀ r ∈ u.records, ¬(n.kind = .pageWritten ∧ r.kind = .pageWritten ∧
      r.subject = n.subject)) ∧ u.records.length = 31) ∧
    (∃ (u : EventUnit) (n : Notice), (∀ r ∈ u.records, ¬(n.kind = .pageWritten ∧ r.kind = .pageWritten ∧
      r.subject = n.subject)) ∧ u.records.length = 32) :=
  ⟨⟨lawful.events, ⟨.pageWritten, 3, 9, 3⟩, [], lawful.events.records[0], lawful.events.records.tail, by decide⟩,
    ⟨queued 31, ⟨.pageWritten, 3, 9, 3⟩, by decide⟩,
    ⟨queued 32, ⟨.pageWritten, 3, 9, 3⟩, by decide⟩⟩

theorem witness_InterruptLineAndLatch :
    (∃ s : State, s.mode = .running ∧ s.irqLow = true) ∧
    (∃ (s : State) (v : Byte), s.mode = .running ∧ v.getLsbD 0 = true) ∧
    (∃ (s : State) (v : Byte), s.mode = .running ∧ v.getLsbD 0 = false) :=
  ⟨⟨{ lawful with port := { lawful.port with irqEnable := 8 } }, by decide⟩,
    ⟨configured, 1, by decide⟩,
    ⟨configured, 0xFE, by decide⟩⟩

theorem witness_WindowDuringAReset :
    (∃ s : State, s.mode ≠ .running ∧ s.mode = .held) ∧
    (∃ s : State, s.mode ≠ .running ∧ s.mode ≠ .held) :=
  ⟨⟨{ configured with mode := .held }, by decide⟩,
    ⟨{ configured with mode := .powerOn }, by decide⟩⟩

theorem witness_ControllerReset :
    (∃ (v : Byte) (s : State), v.getLsbD 0 = true ∧ s.mode = .running) ∧
    (∃ s : State, s.mode = .controller) :=
  ⟨⟨1, lawful, by decide⟩,
    ⟨{ configured with mode := .controller }, by decide⟩⟩

theorem witness_PowerOnReset :
    (∃ s : State, s.mode = .held) ∧
    (∃ s : State, s.mode = .powerOn) :=
  ⟨⟨{ configured with mode := .held }, by decide⟩,
    ⟨{ configured with mode := .powerOn }, by decide⟩⟩

theorem witness_NodeConfiguration :
    (∃ (s : State) (p : Params), s.inProgress 0x01 p ∧ s.link.state ≠ .offline) ∧
    (∃ (s : State) (p : Params), s.inProgress 0x01 p ∧ s.link.state = .offline ∧ ¬(1 ≤ p[0].toNat ∧ p[0].toNat ≤ 126 ∧ p[1].toNat ≤ 3 ∧ 1 ≤ p[2].toNat ∧
      1 ≤ p[3].toNat ∧ 1 ≤ p[4].toNat ∧ 1 ≤ p[5].toNat ∧ p[5].toNat ≤ 100 ∧ p[6].toNat < p[5].toNat)) ∧
    (∃ (s : State) (p : Params), s.inProgress 0x01 p ∧ s.link.state = .offline ∧ 1 ≤ p[0].toNat ∧ p[0].toNat ≤ 126 ∧ p[1].toNat ≤ 3 ∧ 1 ≤ p[2].toNat ∧
      1 ≤ p[3].toNat ∧ 1 ≤ p[4].toNat ∧ 1 ≤ p[5].toNat ∧ p[5].toNat ≤ 100 ∧ p[6].toNat < p[5].toNat) ∧
    (∃ (s : State) (p : Params), s.inProgress 0x01 p ∧ s.link.state = .offline ∧ 1 ≤ p[0].toNat ∧ p[0].toNat ≤ 126 ∧ p[1].toNat ≤ 3 ∧ 1 ≤ p[2].toNat ∧
      1 ≤ p[3].toNat ∧ 1 ≤ p[4].toNat ∧ 1 ≤ p[5].toNat ∧ p[5].toNat ≤ 100 ∧ p[6].toNat < p[5].toNat) :=
  ⟨⟨taking 0x01 [126, 3, 1, 1, 1, 1, 0, 3] onlineIdle, params [126, 3, 1, 1, 1, 1, 0, 3], ⟨rfl, rfl⟩, by decide⟩,
    ⟨taking 0x01 [127, 1, 1, 1, 1, 60, 20, 0] configured, params [127, 1, 1, 1, 1, 60, 20, 0], ⟨rfl, rfl⟩, by decide⟩,
    ⟨taking 0x01 [126, 3, 1, 1, 1, 1, 0, 3] State.reset, params [126, 3, 1, 1, 1, 1, 0, 3], ⟨rfl, rfl⟩, by decide⟩,
    ⟨taking 0x01 [1, 0, 255, 255, 255, 100, 99, 0] State.reset, params [1, 0, 255, 255, 255, 100, 99, 0], ⟨rfl, rfl⟩, by decide⟩⟩

theorem witness_NodeConfiguration_groups :
    (∃ (s : State) (p : Params), s.inProgress 0x02 p) :=
  ⟨taking 0x02 [255, 255, 255, 255] onlineIdle, params [255, 255, 255, 255], rfl, rfl⟩

theorem witness_LinkCommands_start :
    (∃ (s : State) (p : Params), s.inProgress 0x03 p ∧ s.cfg.address = 0) ∧
    (∃ (s : State) (p : Params), s.inProgress 0x03 p ∧ s.cfg.address ≠ 0 ∧ s.link.state = .stopping) ∧
    (∃ (s : State) (p : Params), s.inProgress 0x03 p ∧ s.cfg.address ≠ 0 ∧ (s.link.state = .syncing ∨ s.link.state = .online)) ∧
    (∃ (s : State) (p : Params), s.inProgress 0x03 p ∧ s.cfg.address ≠ 0 ∧ (s.link.state = .offline ∨ s.link.state = .faulted)) :=
  ⟨⟨taking 0x03 [] State.reset, params [], ⟨rfl, rfl⟩, by decide⟩,
    ⟨taking 0x03 [] (linked .stopping .idle), params [], ⟨rfl, rfl⟩, by decide⟩,
    ⟨taking 0x03 [] onlineIdle, params [], ⟨rfl, rfl⟩, by decide⟩,
    ⟨taking 0x03 [] configured, params [], ⟨rfl, rfl⟩, by decide⟩⟩

theorem witness_LinkCommands_stop :
    (∃ (s : State) (p : Params), s.inProgress 0x04 p ∧ (s.link.state = .offline ∨ s.link.state = .stopping)) ∧
    (∃ (s : State) (p : Params), s.inProgress 0x04 p ∧ s.link.state = .online ∧ s.link.role.hasPart = true) ∧
    (∃ (s : State) (p : Params), s.inProgress 0x04 p ∧ (s.link.state = .syncing ∨ s.link.state = .faulted)) ∧
    (∃ (s : State) (p : Params), s.inProgress 0x04 p ∧ s.link.state = .online ∧ s.link.role.hasPart = false) :=
  ⟨⟨taking 0x04 [] configured, params [], ⟨rfl, rfl⟩, by decide⟩,
    ⟨taking 0x04 [] receivingWrite, params [], ⟨rfl, rfl⟩, by decide⟩,
    ⟨taking 0x04 [] (linked .faulted .idle), params [], ⟨rfl, rfl⟩, by decide⟩,
    ⟨taking 0x04 [] onlineIdle, params [], ⟨rfl, rfl⟩, by decide⟩⟩

theorem witness_PageDefineOpensAClosedPage :
    (∃ (s : State) (p : Params), s.inProgress 0x10 p ∧ ¬(p[0].toNat < 64 ∧ (p[1].toNat = 1 ∨ p[1].toNat = 2) ∧ 1 ≤ p[2].toNat ∧
      p[2].toNat ≤ 64 ∧ (1 ≤ p[3].toNat ∧ p[3].toNat ≤ 3) ∧ p[4].toNat ≤ 126 ∧
      ¬(p[1].toNat = 2 ∧ p[3].toNat = 2))) ∧
    (∃ (s : State) (p : Params), s.inProgress 0x10 p ∧ (p[0].toNat < 64 ∧ (p[1].toNat = 1 ∨ p[1].toNat = 2) ∧ 1 ≤ p[2].toNat ∧
      p[2].toNat ≤ 64 ∧ (1 ≤ p[3].toNat ∧ p[3].toNat ≤ 3) ∧ p[4].toNat ≤ 126 ∧
      ¬(p[1].toNat = 2 ∧ p[3].toNat = 2)) ∧ (3 : Page).val = p[0].toNat ∧ (s.page 3).mode ≠ .closed) ∧
    (∃ (s : State) (p : Params), s.inProgress 0x10 p ∧ (p[0].toNat < 64 ∧ (p[1].toNat = 1 ∨ p[1].toNat = 2) ∧ 1 ≤ p[2].toNat ∧
      p[2].toNat ≤ 64 ∧ (1 ≤ p[3].toNat ∧ p[3].toNat ≤ 3) ∧ p[4].toNat ≤ 126 ∧
      ¬(p[1].toNat = 2 ∧ p[3].toNat = 2)) ∧ (63 : Page).val = p[0].toNat ∧ (s.page 63).mode = .closed) :=
  ⟨⟨taking 0x10 [63, 2, 64, 2, 126, 1, 255] configured, params [63, 2, 64, 2, 126, 1, 255], ⟨rfl, rfl⟩, by decide⟩,
    ⟨taking 0x10 [3, 1, 64, 3, 0, 0, 0] receivingWrite, params [3, 1, 64, 3, 0, 0, 0], ⟨rfl, rfl⟩, by decide⟩,
    ⟨taking 0x10 [63, 2, 64, 1, 126, 1, 255] configured, params [63, 2, 64, 1, 126, 1, 255], ⟨rfl, rfl⟩, by decide⟩⟩

theorem witness_PageCloseRestoresTheDefault :
    (∃ (s : State) (p : Params), s.inProgress 0x11 p ∧ 64 ≤ p[0].toNat) ∧
    (∃ (s : State) (p : Params), s.inProgress 0x11 p ∧ (63 : Page).val = p[0].toNat ∧ (s.page 63).mode = .closed) ∧
    (∃ (s : State) (p : Params), s.inProgress 0x11 p ∧ (3 : Page).val = p[0].toNat ∧ (s.page 3).mode ≠ .closed ∧ s.inFlight 3 = true) ∧
    (∃ (s : State) (p : Params), s.inProgress 0x11 p ∧ (3 : Page).val = p[0].toNat ∧ (s.page 3).mode ≠ .closed ∧ s.inFlight 3 = false ∧
      (s.page 3).holder.remote = true ∧ p[1].getLsbD 0 = false) ∧
    (∃ (s : State) (p : Params), s.inProgress 0x11 p ∧ (3 : Page).val = p[0].toNat ∧ (s.page 3).mode ≠ .closed ∧ s.inFlight 3 = false ∧
      p[1].getLsbD 0 = true) :=
  ⟨⟨taking 0x11 [64] configured, params [64], ⟨rfl, rfl⟩, by decide⟩,
    ⟨taking 0x11 [63] configured, params [63], ⟨rfl, rfl⟩, by decide⟩,
    ⟨taking 0x11 [3] receivingWrite, params [3], ⟨rfl, rfl⟩, by decide⟩,
    ⟨taking 0x11 [3] held, params [3], ⟨rfl, rfl⟩, by decide⟩,
    ⟨taking 0x11 [3, 1] held, params [3, 1], ⟨rfl, rfl⟩, by decide⟩⟩

theorem witness_PageFetchCopiesThePage :
    (∃ (s : State) (p : Params), s.inProgress 0x12 p ∧ s.memoryForm ∧ 64 ≤ p[0].toNat) ∧
    (∃ (s : State) (p : Params), s.inProgress 0x12 p ∧ s.memoryForm ∧ (63 : Page).val = p[0].toNat ∧ (s.page 63).mode = .closed) ∧
    (∃ (s : State) (p : Params), s.inProgress 0x12 p ∧ s.memoryForm ∧ (3 : Page).val = p[0].toNat ∧ (s.page 3).mode ≠ .closed) :=
  ⟨⟨taking 0x12 [64] configured, params [64], ⟨rfl, rfl⟩, ⟨by decide, by decide, by decide, by decide⟩, by decide⟩,
    ⟨taking 0x12 [63] configured, params [63], ⟨rfl, rfl⟩, ⟨by decide, by decide, by decide, by decide⟩, by decide⟩,
    ⟨taking 0x12 [3] held, params [3], ⟨rfl, rfl⟩, ⟨by decide, by decide, by decide, by decide⟩, by decide⟩⟩

theorem witness_PageCommitReplacesTheContents :
    (∃ (s : State) (p : Params), s.inProgress 0x13 p ∧ s.memoryForm ∧ 64 ≤ p[0].toNat) ∧
    (∃ (s : State) (p : Params), s.inProgress 0x13 p ∧ s.memoryForm ∧ (63 : Page).val = p[0].toNat ∧ (s.page 63).mode = .closed) ∧
    (∃ (s : State) (p : Params), s.inProgress 0x13 p ∧ s.memoryForm ∧ (3 : Page).val = p[0].toNat ∧ (s.page 3).mode ≠ .closed ∧ s.inFlight 3 = true) ∧
    (∃ (s : State) (p : Params), s.inProgress 0x13 p ∧ s.memoryForm ∧ (3 : Page).val = p[0].toNat ∧ (s.page 3).mode ≠ .closed ∧ s.inFlight 3 = false ∧
      (s.page 3).holder.remote = true ∧ p[1].getLsbD 0 = false) ∧
    (∃ (s : State) (p : Params), s.inProgress 0x13 p ∧ s.memoryForm ∧ (3 : Page).val = p[0].toNat ∧ (s.page 3).mode ≠ .closed ∧ s.inFlight 3 = false ∧
      ¬((s.page 3).holder.remote = true ∧ p[1].getLsbD 0 = false) ∧ p[1].getLsbD 1 = true ∧
      (s.page 3).sequence ≠ p[2]) ∧
    (∃ (s : State) (p : Params), s.inProgress 0x13 p ∧ s.memoryForm ∧ (3 : Page).val = p[0].toNat ∧ (s.page 3).mode ≠ .closed ∧ s.inFlight 3 = false ∧
      ¬((s.page 3).holder.remote = true ∧ p[1].getLsbD 0 = false) ∧ (s.page 3).sequence = p[2] ∧
      (s.page 3).length ≤ 64) :=
  ⟨⟨taking 0x13 [64] configured, params [64], ⟨rfl, rfl⟩, ⟨by decide, by decide, by decide, by decide⟩, by decide⟩,
    ⟨taking 0x13 [63] configured, params [63], ⟨rfl, rfl⟩, ⟨by decide, by decide, by decide, by decide⟩, by decide⟩,
    ⟨taking 0x13 [3] receivingWrite, params [3], ⟨rfl, rfl⟩, ⟨by decide, by decide, by decide, by decide⟩, by decide⟩,
    ⟨taking 0x13 [3] held, params [3], ⟨rfl, rfl⟩, ⟨by decide, by decide, by decide, by decide⟩, by decide⟩,
    ⟨taking 0x13 [3, 3, 1] held, params [3, 3, 1], ⟨rfl, rfl⟩, ⟨by decide, by decide, by decide, by decide⟩, by decide⟩,
    ⟨taking 0x13 [3, 3, 0] held, params [3, 3, 0], ⟨rfl, rfl⟩, ⟨by decide, by decide, by decide, by decide⟩, by decide⟩⟩

theorem witness_ClaimCommands_claim :
    (∃ (s : State) (p : Params), s.inProgress 0x18 p ∧ 64 ≤ p[0].toNat) ∧
    (∃ (s : State) (p : Params), s.inProgress 0x18 p ∧ (63 : Page).val = p[0].toNat ∧ (s.page 63).mode = .closed) ∧
    (∃ (s : State) (p : Params), s.inProgress 0x18 p ∧ (3 : Page).val = p[0].toNat ∧ (s.page 3).mode ≠ .closed ∧ (s.page 3).holder = .local) ∧
    (∃ (s : State) (p : Params), s.inProgress 0x18 p ∧ (3 : Page).val = p[0].toNat ∧ (s.page 3).mode ≠ .closed ∧ (s.page 3).holder ≠ .local ∧
      s.inFlight 3 = true) ∧
    (∃ (s : State) (p : Params), s.inProgress 0x18 p ∧ (3 : Page).val = p[0].toNat ∧ (s.page 3).mode ≠ .closed ∧ (s.page 3).holder.remote = true ∧
      s.inFlight 3 = false) ∧
    (∃ (s : State) (p : Params), s.inProgress 0x18 p ∧ (3 : Page).val = p[0].toNat ∧ (s.page 3).mode ≠ .closed ∧ (s.page 3).holder = .none ∧
      s.inFlight 3 = false) :=
  ⟨⟨taking 0x18 [64] configured, params [64], ⟨rfl, rfl⟩, by decide⟩,
    ⟨taking 0x18 [63] configured, params [63], ⟨rfl, rfl⟩, by decide⟩,
    ⟨taking 0x18 [3] heldLocal, params [3], ⟨rfl, rfl⟩, by decide⟩,
    ⟨taking 0x18 [3] receivingWrite, params [3], ⟨rfl, rfl⟩, by decide⟩,
    ⟨taking 0x18 [3] held, params [3], ⟨rfl, rfl⟩, by decide⟩,
    ⟨taking 0x18 [3] (configured.setPage 3 openPage), params [3], ⟨rfl, rfl⟩, by decide⟩⟩

theorem witness_ClaimCommands_release :
    (∃ (s : State) (p : Params), s.inProgress 0x19 p ∧ 64 ≤ p[0].toNat) ∧
    (∃ (s : State) (p : Params), s.inProgress 0x19 p ∧ (3 : Page).val = p[0].toNat ∧ (s.page 3).holder ≠ .local) ∧
    (∃ (s : State) (p : Params), s.inProgress 0x19 p ∧ (3 : Page).val = p[0].toNat ∧ (s.page 3).holder = .local ∧ s.inFlight 3 = true) ∧
    (∃ (s : State) (p : Params), s.inProgress 0x19 p ∧ (3 : Page).val = p[0].toNat ∧ (s.page 3).holder = .local ∧ s.inFlight 3 = false) :=
  ⟨⟨taking 0x19 [64] configured, params [64], ⟨rfl, rfl⟩, by decide⟩,
    ⟨taking 0x19 [3] held, params [3], ⟨rfl, rfl⟩, by decide⟩,
    ⟨taking 0x19 [3] (receivingWrite.setPage 3 { openPage with holder := .local }), params [3], ⟨rfl, rfl⟩, by decide⟩,
    ⟨taking 0x19 [3] heldLocal, params [3], ⟨rfl, rfl⟩, by decide⟩⟩

theorem witness_ClaimCommands_break :
    (∃ (s : State) (p : Params), s.inProgress 0x1A p ∧ 64 ≤ p[0].toNat) ∧
    (∃ (s : State) (p : Params), s.inProgress 0x1A p ∧ (63 : Page).val = p[0].toNat ∧ (s.page 63).mode = .closed) ∧
    (∃ (s : State) (p : Params), s.inProgress 0x1A p ∧ (3 : Page).val = p[0].toNat ∧ (s.page 3).mode ≠ .closed ∧ s.inFlight 3 = true) ∧
    (∃ (s : State) (p : Params), s.inProgress 0x1A p ∧ (3 : Page).val = p[0].toNat ∧ (s.page 3).mode ≠ .closed ∧ s.inFlight 3 = false ∧
      (s.page 3).holder.remote = false) ∧
    (∃ (s : State) (p : Params), s.inProgress 0x1A p ∧ (3 : Page).val = p[0].toNat ∧ (s.page 3).mode ≠ .closed ∧ s.inFlight 3 = false ∧
      (s.page 3).holder.remote = true) :=
  ⟨⟨taking 0x1A [64] configured, params [64], ⟨rfl, rfl⟩, by decide⟩,
    ⟨taking 0x1A [63] configured, params [63], ⟨rfl, rfl⟩, by decide⟩,
    ⟨taking 0x1A [3] receivingWrite, params [3], ⟨rfl, rfl⟩, by decide⟩,
    ⟨taking 0x1A [3] heldLocal, params [3], ⟨rfl, rfl⟩, by decide⟩,
    ⟨taking 0x1A [3] held, params [3], ⟨rfl, rfl⟩, by decide⟩⟩

theorem witness_InboundRecordsAreReadAndDropped :
    (∃ s : State, s.mode = .running ∧ s.inbound.committedRecords = 0) ∧
    (∃ s : State, s.mode = .running ∧ s.inbound.committedRecords ≠ 0 ∧ s.inbound.readIndex = 6 ∧
      s.inbound.readIndex < 6 + (s.inbound.ring.read ((s.inbound.head + 3) % 1024)).toNat) ∧
    (∃ s : State, s.mode = .running ∧ s.inbound.committedRecords ≠ 0 ∧ s.inbound.readIndex = 7 ∧
      6 + (s.inbound.ring.read ((s.inbound.head + 3) % 1024)).toNat ≤ s.inbound.readIndex) ∧
    (∃ (s : State) (p : Params), s.inProgress 0x30 p ∧ s.mode = .running ∧ s.inbound.committedRecords ≠ 0) ∧
    (∃ (s : State) (p : Params), s.inProgress 0x30 p ∧ s.mode = .running ∧ s.inbound.committedRecords = 0) :=
  ⟨⟨configured, by decide⟩,
    ⟨{ lawful with inbound := { lawful.inbound with readIndex := 6 } }, by decide⟩,
    ⟨{ lawful with inbound := { lawful.inbound with readIndex := 7 } }, by decide⟩,
    ⟨taking 0x30 [] lawful, params [], ⟨rfl, rfl⟩, by decide⟩,
    ⟨taking 0x30 [] configured, params [], ⟨rfl, rfl⟩, by decide⟩⟩

theorem witness_SubmitIsCheckedInOrder :
    (∃ (s : State) (p : Params), s.inProgress 0x20 p ∧ s.cfg.address = 0) ∧
    (∃ (s : State) (p : Params), s.inProgress 0x20 p ∧ s.cfg.address ≠ 0 ∧ Operation.ofCode (p[0].extractLsb' 4 4) = none) ∧
    (∃ (s : State) (p : Params) (job : JobSlot), s.inProgress 0x20 p ∧ submittedJob p = some job ∧ s.cfg.address ≠ 0 ∧ (job.group = false ∧ job.target = s.cfg.address)) ∧
    (∃ (s : State) (p : Params) (job : JobSlot), s.inProgress 0x20 p ∧ submittedJob p = some job ∧ s.cfg.address ≠ 0 ∧ job.offset.toNat + job.length.toNat = 65) ∧
    (∃ (s : State) (p : Params) (job : JobSlot), s.inProgress 0x20 p ∧ submittedJob p = some job ∧ s.cfg.address ≠ 0 ∧ job.illegal s.cfg.address = false ∧ ∀ j, (s.job j).state ≠ .free) ∧
    (∃ (s : State) (p : Params) (job : JobSlot), s.inProgress 0x20 p ∧ submittedJob p = some job ∧ s.cfg.address ≠ 0 ∧ job.illegal s.cfg.address = false ∧ (∃ j, (s.job j).state = .free) ∧
      s.freeBlocks.length < job.blocksNeeded) :=
  ⟨⟨taking 0x20 [] State.reset, params [], ⟨rfl, rfl⟩, by decide⟩,
    ⟨taking 0x20 [0x90] configured, params [0x90], ⟨rfl, rfl⟩, by decide⟩,
    ⟨taking 0x20 [0x20, 5, 3, 0x40, 8, 0x11] configured, params [0x20, 5, 3, 0x40, 8, 0x11], _, ⟨rfl, rfl⟩, rfl, by decide⟩,
    ⟨taking 0x20 [0x20, 9, 3, 0x79, 8, 0x11] configured, params [0x20, 9, 3, 0x79, 8, 0x11], _, ⟨rfl, rfl⟩, rfl, by decide⟩,
    ⟨taking 0x20 [0x20, 9, 3, 0x40, 8, 0x11] full, params [0x20, 9, 3, 0x40, 8, 0x11], _, ⟨rfl, rfl⟩, rfl, by decide⟩,
    ⟨taking 0x20 [0x20, 9, 3, 0x40, 8, 0x11] crowded, params [0x20, 9, 3, 0x40, 8, 0x11], _, ⟨rfl, rfl⟩, rfl, by decide⟩⟩

theorem witness_SubmitTakesTheJob :
    (∃ (s : State) (p : Params) (job : JobSlot) (j : Slot), s.inProgress 0x20 p ∧ s.memoryForm ∧ submittedJob p = some job ∧ s.cfg.address ≠ 0 ∧
      job.illegal s.cfg.address = false ∧ (s.job j).state = .free ∧ (∀ i < j, (s.job i).state ≠ .free) ∧
      job.blocksNeeded ≤ s.freeBlocks.length ∧ job.operation = .write ∧ job.collective = false) ∧
    (∃ (s : State) (p : Params) (job : JobSlot) (j : Slot), s.inProgress 0x20 p ∧ s.memoryForm ∧ submittedJob p = some job ∧ s.cfg.address ≠ 0 ∧
      job.illegal s.cfg.address = false ∧ (s.job j).state = .free ∧ (∀ i < j, (s.job i).state ≠ .free) ∧
      job.blocksNeeded ≤ s.freeBlocks.length ∧ job.operation = .message ∧ job.collective = true) ∧
    (∃ (s : State) (pre : List PeerEntry) (e : PeerEntry) (post : List PeerEntry) (a : Addr),
      s.peers = pre ++ e :: post ∧ e.address = a ∧ (∀ x ∈ pre ++ post, x.address ≠ a) ∧ pre ≠ []) ∧
    (∃ (s : State) (a : Addr), s.peer a = none ∧ s.peers.length = 31) ∧
    (∃ (s : State) (pre : List PeerEntry) (e : PeerEntry) (post : List PeerEntry) (a : Addr),
      s.peer a = none ∧ s.peers.length = 32 ∧ s.peers = pre ++ e :: post ∧ s.referenced e.address = false ∧
      (∀ x ∈ post, s.referenced x.address = true) ∧ post ≠ []) ∧
    (∃ (job : JobSlot) (k : Nat) (b : Block), job.blocks[k / 8]? = some b ∧ k = 15) :=
  ⟨⟨taking 0x20 [0x20, 9, 3, 0x40, 8, 0x11] withRoom, params [0x20, 9, 3, 0x40, 8, 0x11], _, 15, ⟨rfl, rfl⟩, ⟨by decide, by decide, by decide, by decide⟩, rfl, by decide⟩,
    ⟨taking 0x20 [0x80, 0x9F] configured, params [0x80, 0x9F], _, 0, ⟨rfl, rfl⟩, ⟨by decide, by decide, by decide, by decide⟩, rfl, by decide⟩,
    ⟨twoPeers, [PeerEntry.new 1], PeerEntry.new 9, [], 9, by decide⟩,
    ⟨crowdedTable 31, 100, by decide⟩,
    ⟨crowdedTable 32, (List.range 30).map fun k => PeerEntry.new (BitVec.ofNat 7 (40 + k)), PeerEntry.new 70,
      [PeerEntry.new 9], 100, by decide⟩,
    ⟨{ writeJob with blocks := [2, 9] }, 15, 9, by decide⟩⟩

theorem witness_CancelByJobState :
    (∃ (s : State) (p : Params), s.inProgress 0x21 p ∧ (s.job (tagSlot p[0])).state = .free) ∧
    (∃ (s : State) (p : Params), s.inProgress 0x21 p ∧ (s.job (tagSlot p[0])).state = .complete ∧ (s.job (tagSlot p[0])).generation ≠ tagGeneration p[0]) ∧
    (∃ (s : State) (p : Params), s.inProgress 0x21 p ∧ (s.job (tagSlot p[0])).generation = tagGeneration p[0] ∧ (s.job (tagSlot p[0])).state = .queued) ∧
    (∃ (s : State) (p : Params), s.inProgress 0x21 p ∧ (s.job (tagSlot p[0])).generation = tagGeneration p[0] ∧ (s.job (tagSlot p[0])).state = .waiting) ∧
    (∃ (s : State) (p : Params), s.inProgress 0x21 p ∧ (s.job (tagSlot p[0])).generation = tagGeneration p[0] ∧ (s.job (tagSlot p[0])).state = .active) ∧
    (∃ (s : State) (p : Params), s.inProgress 0x21 p ∧ (s.job (tagSlot p[0])).generation = tagGeneration p[0] ∧ (s.job (tagSlot p[0])).state = .complete) :=
  ⟨⟨taking 0x21 [0x00] configured, params [0x00], ⟨rfl, rfl⟩, by decide⟩,
    ⟨taking 0x21 [0x01] lawful, params [0x01], ⟨rfl, rfl⟩, by decide⟩,
    ⟨taking 0x21 [0x10] lawful, params [0x10], ⟨rfl, rfl⟩, by decide⟩,
    ⟨taking 0x21 [0x12] lawful, params [0x12], ⟨rfl, rfl⟩, by decide⟩,
    ⟨taking 0x21 [0x10] sending, params [0x10], ⟨rfl, rfl⟩, by decide⟩,
    ⟨taking 0x21 [0x11] lawful, params [0x11], ⟨rfl, rfl⟩, by decide⟩⟩

theorem witness_JobQueryAndFetch_query :
    (∃ (s : State) (p : Params), s.inProgress 0x22 p ∧ s.memoryForm ∧ (s.job (tagSlot p[0])).state = .free) ∧
    (∃ (s : State) (p : Params), s.inProgress 0x22 p ∧ s.memoryForm ∧ (s.job (tagSlot p[0])).state ≠ .free ∧ (s.job (tagSlot p[0])).generation = tagGeneration p[0]) :=
  ⟨⟨taking 0x22 [0x00] configured, params [0x00], ⟨rfl, rfl⟩, ⟨by decide, by decide, by decide, by decide⟩, by decide⟩,
    ⟨taking 0x22 [0x12] lawful, params [0x12], ⟨rfl, rfl⟩, ⟨by decide, by decide, by decide, by decide⟩, by decide⟩⟩

theorem witness_JobQueryAndFetch_fetch :
    (∃ (s : State) (p : Params), s.inProgress 0x23 p ∧ s.memoryForm ∧ (s.job (tagSlot p[0])).state = .free) ∧
    (∃ (s : State) (p : Params), s.inProgress 0x23 p ∧ s.memoryForm ∧ (s.job (tagSlot p[0])).state ≠ .free ∧ (s.job (tagSlot p[0])).generation = tagGeneration p[0] ∧
      (s.job (tagSlot p[0])).state ≠ .complete) ∧
    (∃ (s : State) (p : Params), s.inProgress 0x23 p ∧ s.memoryForm ∧ (s.job (tagSlot p[0])).state = .complete ∧ (s.job (tagSlot p[0])).generation = tagGeneration p[0]) :=
  ⟨⟨taking 0x23 [0x00] configured, params [0x00], ⟨rfl, rfl⟩, ⟨by decide, by decide, by decide, by decide⟩, by decide⟩,
    ⟨taking 0x23 [0x12] lawful, params [0x12], ⟨rfl, rfl⟩, ⟨by decide, by decide, by decide, by decide⟩, by decide⟩,
    ⟨taking 0x23 [0x11] lawful, params [0x11], ⟨rfl, rfl⟩, ⟨by decide, by decide, by decide, by decide⟩, by decide⟩⟩

theorem witness_RetireFreesTheSlot :
    (∃ (s : State) (p : Params), s.inProgress 0x24 p ∧ (s.job (tagSlot p[0])).state = .free) ∧
    (∃ (s : State) (p : Params), s.inProgress 0x24 p ∧ (s.job (tagSlot p[0])).state = .waiting ∧ (s.job (tagSlot p[0])).generation = tagGeneration p[0]) ∧
    (∃ (s : State) (p : Params), s.inProgress 0x24 p ∧ (s.job (tagSlot p[0])).state = .complete ∧ (s.job (tagSlot p[0])).generation = tagGeneration p[0] ∧
      (s.job (tagSlot p[0])).unread = true) ∧
    (∃ (s : State) (p : Params), s.inProgress 0x24 p ∧ (s.job (tagSlot p[0])).state = .complete ∧ (s.job (tagSlot p[0])).generation = tagGeneration p[0] ∧
      (s.job (tagSlot p[0])).unread = false) :=
  ⟨⟨taking 0x24 [0x00] configured, params [0x00], ⟨rfl, rfl⟩, by decide⟩,
    ⟨taking 0x24 [0x12] lawful, params [0x12], ⟨rfl, rfl⟩, by decide⟩,
    ⟨taking 0x24 [0x11] lawful, params [0x11], ⟨rfl, rfl⟩, by decide⟩,
    ⟨taking 0x24 [0x10] (withJob { writeJob with state := .complete } configured), params [0x10], ⟨rfl, rfl⟩, by decide⟩⟩

theorem witness_OpportunityActivatesTheFirstEligibleJob :
    ∃ (s : State) (pre : List Slot) (j : Slot) (post : List Slot), s.mode = .running ∧ s.link.state = .online ∧ s.link.role = .idle ∧ s.link.gap ≠ .notRunning ∧
      s.lists.toList.flatten = pre ++ j :: post ∧ (∀ i ∈ pre, s.heldBack i = true) ∧ s.heldBack j = false ∧
      s.failsFast j = false :=
  ⟨heldBehind, [1], 0, [], by decide⟩

/-- A walk of the scan as the claim on it puts it. -/
abbrev walks (s : State) (passed : List (Slot × Bool)) (rest : List Slot) : Prop :=
  s.mode = .running ∧ s.link.state = .online ∧ s.link.role = .idle ∧ s.link.gap ≠ .notRunning ∧
    s.lists.toList.flatten = passed.map Prod.fst ++ rest ∧
    ∀ k (hk : k < passed.length),
      let judged := (((passed.take k).filter Prod.snd).map Prod.fst).foldl
        (fun u i => u.completeJob i .peerUnreachable) { s with link := { s.link with gap := .complete } }
      if passed[k].2 then judged.heldBack passed[k].1 = false ∧ judged.failsFast passed[k].1 = true
      else judged.heldBack passed[k].1 = true

theorem witness_OpportunityPassesJobsOver :
    (∃ s : State, s.mode = .running ∧ s.link.state = .online ∧ s.link.role = .idle ∧ s.link.gap ≠ .notRunning ∧
      s.lists.toList.flatten ≠ [] ∧ ∀ j ∈ s.lists.toList.flatten, s.heldBack j = true) ∧
    walks failingAhead [(1, false), (0, true)] [] ∧
    (walks releasing [(0, true)] [1] ∧
      let u := State.completeJob { releasing with link := { releasing.link with gap := .complete } } 0
        .peerUnreachable
      u.heldBack 1 = false ∧ u.failsFast 1 = false) ∧
    (∃ (s : State) (pre : List Slot) (j : Slot) (post : List Slot), s.submission = pre ++ j :: post ∧ j ∉ pre ∧
      s.heldBack j = true) :=
  ⟨⟨{ heldBehind with lists := heldBehind.lists.set 1 [] }, by decide⟩, by decide +kernel, by decide +kernel,
    ⟨heldBehind, [0, 2], 1, [], by decide⟩⟩

theorem witness_OutcomesOfAnIndividualJob :
    (∃ (s : State) (j : Slot), (s.job j).collective = false ∧ (s.job j).cancelRequested = true) ∧
    (∃ (s : State) (j : Slot), (s.job j).collective = false ∧ (s.job j).cancelRequested = false ∧
      (s.job j).expiryRequested = false ∧ s.link.slot.length = 2) ∧
    (∃ (s : State) (j : Slot), (s.job j).collective = false ∧ (s.job j).cancelRequested = false ∧
      (s.job j).expiryRequested = false ∧ s.link.slot.length ≠ 2) :=
  ⟨⟨withJob { writeJob with state := .active, cancelRequested := true } configured, 0, by decide⟩,
    ⟨sending, 0, by decide⟩,
    ⟨configured, 0, by decide⟩⟩

theorem witness_OutcomesOfACollectiveJob :
    (∃ (s : State) (j : Slot) (l : Level) (rest : List Level), (s.job j).collective = true ∧
      (s.job j).cancelRequested = false ∧ (s.job j).expiryRequested = false ∧ s.link.slot = l :: rest) ∧
    (∃ (s : State) (j : Slot), (s.job j).collective = true ∧ (s.job j).cancelRequested = false ∧
      (s.job j).expiryRequested = false ∧ s.link.slot = []) :=
  ⟨⟨sendingAll, 0, _, _, rfl, rfl, rfl, rfl⟩,
    ⟨{ sendingAll with link := { sendingAll.link with slot := [] } }, 0, by decide⟩⟩

theorem witness_RequestsAndRequeueing :
    (∃ (s : State) (j : Slot) (o : Attempt), (s.job j).cancelRequested = true ∧ o ≠ .normalEnd) ∧
    (∃ (s : State) (j : Slot) (o : Attempt), (s.job j).cancelRequested = false ∧
      (s.job j).expiryRequested = true ∧ o ≠ .normalEnd) ∧
    (∃ (s : State) (j : Slot) (o : Attempt), ((s.takeOutcome j o).job j).state = .queued ∧
      o = .arbitrationLost) ∧
    (∃ (s : State) (j : Slot) (o : Attempt), ((s.takeOutcome j o).job j).state = .queued ∧ o = .silence) ∧
    (∃ (s : State) (j : Slot) (o : Attempt), ((s.takeOutcome j o).job j).state = .complete) ∧
    (∃ (s : State) (j : Slot) (o : Attempt), ((s.takeOutcome j o).job j).state = .waiting) :=
  ⟨⟨withJob { writeJob with state := .active, cancelRequested := true } configured, 0, .busy, by decide⟩,
    ⟨withJob { writeJob with state := .active, expiryRequested := true } configured, 0, .linkLost, by decide⟩,
    ⟨sending, 0, .arbitrationLost, by decide⟩,
    ⟨sending, 0, .silence, by decide⟩,
    ⟨sending, 0, .refuse, by decide⟩,
    ⟨sending, 0, .busy, by decide⟩⟩

theorem witness_OutcomesScoreThePeer :
    (∃ (s : State) (a : Addr) (e : PeerEntry), s.peer a = some e ∧ e.state = .normal) ∧
    (∃ (s : State) (a : Addr) (e : PeerEntry), s.peer a = some e ∧ e.state = .unreachable) :=
  ⟨⟨sending, 9, _, rfl, rfl⟩,
    ⟨{ sending with peers := [{ PeerEntry.new 9 with state := .unreachable }] }, 9, _, rfl, rfl⟩⟩

theorem witness_PeerCommands_read :
    (∃ (s : State) (p : Params), s.inProgress 0x28 p ∧ s.memoryForm ∧ 127 ≤ p[0].toNat) ∧
    (∃ (s : State) (p : Params), s.inProgress 0x28 p ∧ s.memoryForm ∧ (126 : Addr).toNat = p[0].toNat ∧ s.peer 126 = none) :=
  ⟨⟨taking 0x28 [127] configured, params [127], ⟨rfl, rfl⟩, ⟨by decide, by decide, by decide, by decide⟩, by decide⟩,
    ⟨taking 0x28 [126] configured, params [126], ⟨rfl, rfl⟩, ⟨by decide, by decide, by decide, by decide⟩, by decide⟩⟩

theorem witness_PeerCommands_found :
    (∃ (s : State) (p : Params) (pre : List PeerEntry) (e : PeerEntry) (post : List PeerEntry),
      s.inProgress 0x28 p ∧ s.memoryForm ∧ (9 : Addr).toNat = p[0].toNat ∧ s.peers = pre ++ e :: post ∧
      e.address = 9 ∧ ∀ x ∈ pre ++ post, x.address ≠ 9) ∧
    (∃ (s : State) (p : Params) (pre : List PeerEntry) (e : PeerEntry) (post : List PeerEntry),
      s.inProgress 0x29 p ∧ (9 : Addr).toNat = p[0].toNat ∧ s.peers = pre ++ e :: post ∧
      e.address = 9 ∧ ∀ x ∈ pre ++ post, x.address ≠ 9) :=
  ⟨⟨taking 0x28 [9] twoPeers, params [9], [PeerEntry.new 1], PeerEntry.new 9, [], ⟨rfl, rfl⟩, ⟨by decide, by decide, by decide, by decide⟩, by decide⟩,
    ⟨taking 0x29 [9] twoPeers, params [9], [PeerEntry.new 1], PeerEntry.new 9, [], ⟨rfl, rfl⟩, by decide⟩⟩

theorem witness_PeerCommands_reset :
    (∃ (s : State) (p : Params), s.inProgress 0x29 p ∧ p[0].toNat = 0) ∧
    (∃ (s : State) (p : Params), s.inProgress 0x29 p ∧ (1 : Addr).toNat = p[0].toNat ∧ s.peer 1 = none) :=
  ⟨⟨taking 0x29 [0] configured, params [0], ⟨rfl, rfl⟩, by decide⟩,
    ⟨taking 0x29 [1] configured, params [1], ⟨rfl, rfl⟩, by decide⟩⟩

theorem witness_JoiningAndStartMarkers :
    (∃ (s : State) (c : Cause), s.mode = .running ∧ s.link.state = .syncing ∧ s.link.cause = some c) ∧
    (∃ s : State, s.mode = .running ∧ s.link.state = .online ∧ s.link.role = .idle) :=
  ⟨⟨joining, .command, by decide⟩,
    ⟨onlineIdle, by decide⟩⟩

theorem witness_ResponderDecidesInOrder :
    (∃ h : Header, Operation.ofCode h.operation = none) ∧
    (∃ (h : Header) (op : Operation), Operation.ofCode h.operation = some op ∧
      (h.group = true ∨ h.target = 127) ∧ op ≠ .write ∧ op ≠ .message) ∧
    (∃ h : Header, Operation.ofCode h.operation = some .message) ∧
    (∃ h : Header, Operation.ofCode h.operation = some .status ∧ ¬(h.group = true ∨ h.target = 127)) ∧
    (∃ (s : State) (h : Header), (s.page h.pageNumber).mode = .closed ∧ s.decision h = .refuse .noPage) ∧
    (∃ (s : State) (h : Header), (s.page h.pageNumber).access = .readOnly ∧ s.decision h = .refuse .access) ∧
    (∃ (s : State) (h : Header), (s.page h.pageNumber).length = 16 ∧ h.offset.toNat + h.length.toNat = 17 ∧
      s.decision h = .refuse .range) ∧
    (∃ (s : State) (h : Header), Operation.ofCode h.operation = some .release ∧
      (s.page h.pageNumber).holder = .none ∧ s.decision h = .refuse .notHolder) ∧
    (∃ (s : State) (h : Header), (s.page h.pageNumber).holder = .local ∧ s.decision h = .busy .claimed) ∧
    (∃ (s : State) (h : Header), (s.page h.pageNumber).freshness = .requested ∧
      s.decision h = .busy .refreshing) ∧
    (∃ (s : State) (h : Header), h.offset.toNat + h.length.toNat = (s.page h.pageNumber).length ∧
      s.decision h = .accept) :=
  ⟨⟨{ toUs with operation := 9 }, by decide⟩,
    ⟨{ toAll with operation := 1 }, .read, by decide⟩,
    ⟨{ toUs with operation := 8 }, by decide⟩,
    ⟨{ toUs with operation := 7 }, by decide⟩,
    ⟨configured, toUs, by decide⟩,
    ⟨configured.setPage 3 { openPage with access := .readOnly }, toUs, by decide⟩,
    ⟨configured.setPage 3 openPage, { toUs with offset := 9 }, by decide⟩,
    ⟨configured.setPage 3 openPage, { toUs with operation := 4 }, by decide⟩,
    ⟨heldLocal, toUs, by decide⟩,
    ⟨refreshing .requested, { toUs with operation := 1 }, by decide⟩,
    ⟨configured.setPage 3 openPage, { toUs with offset := 8 }, by decide⟩⟩

theorem witness_HeaderGivesTheNodeItsRole :
    (∃ (s : State) (j : Slot) (h : Header), s.mode = .running ∧ s.link.role = .contender j h) ∧
    (∃ (s : State) (bits : BitVec 48), s.mode = .running ∧ s.link.role = .receiving ∧
      headerCheckPasses bits = false) ∧
    (∃ (s : State) (bits : BitVec 48), s.mode = .running ∧ s.link.role = .receiving ∧ s.link.state = .online ∧
      headerCheckPasses bits = true ∧ s.concerns (Header.ofBits bits) = true ∧
      s.decision (Header.ofBits bits) = .refuse .noPage) ∧
    (∃ (s : State) (bits : BitVec 48), s.mode = .running ∧ s.link.role = .receiving ∧ s.link.state = .online ∧
      headerCheckPasses bits = true ∧ s.concerns (Header.ofBits bits) = true ∧
      s.decision (Header.ofBits bits) = .busy .claimed) ∧
    (∃ (s : State) (bits : BitVec 48), s.mode = .running ∧ s.link.role = .receiving ∧ s.link.state = .online ∧
      headerCheckPasses bits = true ∧ s.concerns (Header.ofBits bits) = true ∧
      s.decision (Header.ofBits bits) = .busy .refreshing ∧ (s.page (Header.ofBits bits).pageNumber).freshness = .stale) ∧
    (∃ (s : State) (bits : BitVec 48), s.mode = .running ∧ s.link.role = .receiving ∧ s.link.state = .online ∧
      headerCheckPasses bits = true ∧ s.concerns (Header.ofBits bits) = true ∧
      s.decision (Header.ofBits bits) = .accept) :=
  ⟨⟨linked .online (.contender 0 writeHeader), 0, writeHeader, by decide⟩,
    ⟨listening, 0, by decide +kernel⟩,
    ⟨listening, toUs.bits, by decide +kernel⟩,
    ⟨listening.setPage 3 { openPage with holder := .local }, toAll.bits, by decide +kernel⟩,
    ⟨listening.setPage 3 { openPage with mode := .deferred }, Header.bits { toUs with operation := 1 }, by decide +kernel⟩,
    ⟨listening.setPage 3 openPage, toUs.bits, by decide +kernel⟩⟩

theorem witness_HeaderSlotBitByBit :
    (∃ (s : State) (j : Slot) (h : Header) (bits : BitVec 48), s.mode = .running ∧
      s.link.role = .initiator j h ∧ s.initiator.phase = .header ∧ s.link.slot = [] ∧ bits ≠ h.bits) ∧
    (∃ (s : State) (h : Header) (l : Level), s.mode = .running ∧ s.link.role = .target h .ack ∧
      s.link.slot.length = 1 ∧ l ≠ s.slotDriven) ∧
    (∃ (s : State) (j : Slot) (h : Header), s.mode = .running ∧ s.link.role = .initiator j h ∧
      s.initiator.phase = .header) ∧
    (∃ (s : State) (h : Header), s.mode = .running ∧ s.link.role = .target h .busy ∧ s.link.slot.length = 1) ∧
    (∃ (s : State) (h : Header), s.mode = .running ∧ s.link.role = .target h .ack ∧ s.link.slot.length = 0) ∧
    (∃ (s : State) (h : Header), s.mode = .running ∧ s.link.role = .member h true ∧ s.link.slot.length < 2) ∧
    (∃ (s : State) (h : Header), s.mode = .running ∧ s.link.role = .member h false ∧ s.link.slot = []) ∧
    (∃ (s : State) (j : Slot) (h : Header), s.mode = .running ∧ s.link.role = .initiator j h ∧
      s.initiator.phase = .headerSlot ∧ s.link.slot = []) ∧
    (∃ (s : State) (j : Slot) (h : Header), s.mode = .running ∧ s.link.role = .initiator j h ∧
      s.initiator.phase = .headerSlot ∧ s.link.slot = [] ∧ h.collective = true) ∧
    (∃ (s : State) (j : Slot) (h : Header) (m : Level), s.mode = .running ∧ s.link.role = .initiator j h ∧
      s.initiator.phase = .headerSlot ∧ s.link.slot = [m]) :=
  ⟨⟨{ inSlot (.initiator 0 writeHeader) [] with initiator := ⟨.header, 0, 0, false⟩ }, 0, writeHeader, 0,
      by decide +kernel⟩,
    ⟨inSlot (.target toUs .ack) [.dominant], toUs, .recessive, by decide⟩,
    ⟨{ sending with initiator := ⟨.header, 0, 0, false⟩ }, 0, writeHeader, by decide⟩,
    ⟨inSlot (.target toUs .busy) [.dominant], toUs, by decide⟩,
    ⟨inSlot (.target toUs .ack) [], toUs, by decide⟩,
    ⟨inSlot (.member toAll true) [.recessive], toAll, by decide⟩,
    ⟨inSlot (.member toAll false) [], toAll, by decide⟩,
    ⟨inSlot (.initiator 0 writeHeader) [], 0, writeHeader, by decide⟩,
    ⟨inSlot (.initiator 0 allHeader) [], 0, allHeader, by decide⟩,
    ⟨inSlot (.initiator 0 writeHeader) [.dominant], 0, writeHeader, .dominant, by decide⟩⟩

theorem witness_BlocksAreDeliveredOrNaked :
    (∃ (s : State) (h : Header), s.mode = .running ∧ s.link.slot.length = 2 ∧ s.link.role = .target h .ack ∧
      s.responder.blockIndex < h.blocks ∧ h.initiatorSends = true ∧ s.responder.nakCount = 3) ∧
    (∃ (s : State) (h : Header), s.mode = .running ∧ s.link.slot.length = 2 ∧ s.link.role = .target h .ack ∧
      s.responder.blockIndex < h.blocks ∧ s.responder.nakCount = 4 ∧ s.link.state = .stopping) ∧
    (∃ (s : State) (h : Header) (data : Vector Byte 8) (check : Byte) (x y : Level), s.mode = .running ∧
      s.link.slot.length = 2 ∧ s.link.role = .target h .ack ∧ s.responder.blockIndex < h.blocks ∧
      h.initiatorSends = true ∧ check ≠ crc (data.toList.take 8) ∧ (x, y) ≠ (.recessive, .recessive)) ∧
    (∃ (s : State) (h : Header) (data : Vector Byte 8) (check : Byte), s.mode = .running ∧
      s.link.slot.length = 2 ∧ s.link.role = .target h .ack ∧ s.responder.blockIndex < h.blocks ∧
      h.initiatorSends = false ∧
      data.toList.take (min 8 (h.dataBytes - 8 * s.responder.blockIndex)) =
        s.targetBlock h s.responder.blockIndex ∧ check = crc (s.targetBlock h s.responder.blockIndex)) ∧
    (∃ (s : State) (h : Header), s.mode = .running ∧ s.link.slot.length = 2 ∧ s.link.role = .member h true ∧
      s.responder.blockIndex < h.blocks) ∧
    (∃ (s : State) (j : Slot) (h : Header), s.mode = .running ∧ s.link.slot.length = 2 ∧
      s.link.role = .initiator j h ∧ s.initiator.phase = .data ∧ s.initiator.blockIndex < h.blocks ∧
      h.collective = false ∧ h.initiatorSends = true ∧ s.initiator.resendCount = 3) ∧
    (∃ (s : State) (j : Slot) (h : Header), s.mode = .running ∧ s.link.slot.length = 2 ∧
      s.link.role = .initiator j h ∧ s.initiator.phase = .data ∧ s.initiator.blockIndex < h.blocks ∧
      h.collective = false ∧ s.initiator.resendCount = 4 ∧
      s.link.slot = [.dominant, .dominant]) ∧
    (∃ (s : State) (j : Slot) (h : Header), s.mode = .running ∧ s.link.slot.length = 2 ∧
      s.link.role = .initiator j h ∧ s.initiator.phase = .data ∧ s.initiator.blockIndex < h.blocks ∧
      h.collective = true ∧ h.initiatorSends = true) ∧
    (∃ (s : State) (j : Slot) (h : Header), s.mode = .running ∧ s.link.slot.length = 2 ∧
      s.link.role = .initiator j h ∧ s.initiator.phase = .data ∧ s.initiator.blockIndex < h.blocks ∧
      h.initiatorSends = false ∧ s.memoryForm ∧ (s.job j).blocks.Nodup ∧
      8 * s.initiator.blockIndex + min 8 (h.dataBytes - 8 * s.initiator.blockIndex) ≤ 8 * (s.job j).blocks.length) :=
  ⟨⟨{ receivingWrite with responder := { receivingWrite.responder with nakCount := 3 } }, toUs, by decide⟩,
    ⟨{ receivingWrite with
        link := { receivingWrite.link with state := .stopping }
        responder := { receivingWrite.responder with nakCount := 4 } }, toUs, by decide⟩,
    ⟨receivingWrite, toUs, params [], 0, .recessive, .dominant, by decide +kernel⟩,
    ⟨inSlot (.target { toUs with operation := 1 } .ack) [.dominant, .dominant], { toUs with operation := 1 },
      params [], crc (List.replicate 8 0), by decide +kernel⟩,
    ⟨inSlot (.member toAll true) [.recessive, .recessive], toAll, by decide⟩,
    ⟨{ sending with initiator := ⟨.data, 0, 3, false⟩ }, 0, writeHeader, by decide⟩,
    ⟨{ sending with initiator := ⟨.data, 0, 4, false⟩ }, 0, writeHeader, by decide⟩,
    ⟨{ sendingAll with
        link := { sendingAll.link with slot := [.recessive, .recessive] }, initiator := ⟨.data, 0, 0, false⟩ },
      0, allHeader, by decide⟩,
    ⟨fetching, 0, readHeader, by decide, by decide, by decide, by decide, by decide, by decide,
      ⟨by decide, by decide, by decide, by decide⟩, by decide⟩⟩

theorem witness_NormalEndAppliesTheEffects :
    (∃ (s : State) (j : Slot) (h : Header) (x y : Level), s.mode = .running ∧ s.link.slot.length = 2 ∧
      s.link.role = .initiator j h ∧ s.link.slot = [x, y] ∧ h.collective = false ∧
      ¬(x = .dominant ∧ y = .dominant)) ∧
    (∃ (s : State) (j : Slot) (h : Header) (x y : Level), s.mode = .running ∧ s.link.slot.length = 2 ∧
      s.link.role = .initiator j h ∧ s.link.slot = [x, y] ∧ s.initiator.blockIndex = h.blocks) ∧
    (∃ (s : State) (h : Header) (a : Answer), s.mode = .running ∧ s.link.slot.length = 2 ∧
      s.link.role = .target h a ∧ a ≠ .ack) ∧
    (∃ (s : State) (h : Header), s.mode = .running ∧ s.link.slot.length = 2 ∧
      (s.link.role = .target h .ack ∨ s.link.role = .member h true) ∧ s.responder.blockIndex = h.blocks ∧
      s.memoryForm ∧
      Operation.ofCode h.operation = some .read ∧ (s.page h.pageNumber).holder = .node 7 ∧
      (s.page h.pageNumber).lease = 0) ∧
    (∃ (s : State) (h : Header), s.mode = .running ∧ s.link.slot.length = 2 ∧
      (s.link.role = .target h .ack ∨ s.link.role = .member h true) ∧ s.responder.blockIndex = h.blocks ∧
      s.memoryForm ∧
      Operation.ofCode h.operation = some .write ∧ (s.page h.pageNumber).holder = .node h.initiator) ∧
    (∃ (s : State) (h : Header), s.mode = .running ∧ s.link.slot.length = 2 ∧
      (s.link.role = .target h .ack ∨ s.link.role = .member h true) ∧ s.responder.blockIndex = h.blocks ∧
      s.memoryForm ∧
      Operation.ofCode h.operation = some .claim ∧ (s.page h.pageNumber).holder = .none) ∧
    (∃ (s : State) (h : Header), s.mode = .running ∧ s.link.slot.length = 2 ∧
      (s.link.role = .target h .ack ∨ s.link.role = .member h true) ∧ s.responder.blockIndex = h.blocks ∧
      s.memoryForm ∧
      Operation.ofCode h.operation = some .release ∧ (s.page h.pageNumber).holder = .node h.initiator) ∧
    (∃ (s : State) (h : Header), s.mode = .running ∧ s.link.slot.length = 2 ∧
      (s.link.role = .target h .ack ∨ s.link.role = .member h true) ∧ s.responder.blockIndex = h.blocks ∧
      s.memoryForm ∧
      Operation.ofCode h.operation = some .writeRelease ∧ (s.page h.pageNumber).holder = .node h.initiator) ∧
    (∃ (s : State) (h : Header), s.mode = .running ∧ s.link.slot.length = 2 ∧
      (s.link.role = .target h .ack ∨ s.link.role = .member h true) ∧ s.responder.blockIndex = h.blocks ∧
      s.memoryForm ∧
      Operation.ofCode h.operation = some .readClaim ∧ (s.page h.pageNumber).holder = .none) ∧
    (∃ (s : State) (h : Header), s.mode = .running ∧ s.link.slot.length = 2 ∧
      (s.link.role = .target h .ack ∨ s.link.role = .member h true) ∧ s.responder.blockIndex = h.blocks ∧
      s.memoryForm ∧
      Operation.ofCode h.operation = some .message ∧ s.inbound.reservation.isSome = true) :=
  ⟨⟨inSlot (.initiator 0 writeHeader) [.recessive, .dominant], 0, writeHeader, .recessive, .dominant,
      by decide⟩,
    ⟨{ sending with initiator := ⟨.data, 1, 0, false⟩ }, 0, writeHeader, .dominant, .dominant,
      by decide⟩,
    ⟨inSlot (.target toUs .busy) [.dominant, .recessive], toUs, .busy, by decide⟩,
    ⟨ending 1 { openPage with holder := .node 7, lease := 0 }, ended 1, by decide, by decide, by decide, by decide, ⟨by decide, by decide, by decide, by decide⟩,
      by decide⟩,
    ⟨ending 2 { openPage with holder := .node 9, lease := 1 }, ended 2, by decide, by decide, by decide, by decide, ⟨by decide, by decide, by decide, by decide⟩,
      by decide⟩,
    ⟨ending 3 { openPage with holder := .none }, ended 3, by decide, by decide, by decide, by decide, ⟨by decide, by decide, by decide, by decide⟩,
      by decide⟩,
    ⟨ending 4 { openPage with holder := .node 9, lease := 1 }, ended 4, by decide, by decide, by decide, by decide, ⟨by decide, by decide, by decide, by decide⟩,
      by decide⟩,
    ⟨ending 6 { openPage with holder := .node 9, lease := 1 }, ended 6, by decide, by decide, by decide, by decide, ⟨by decide, by decide, by decide, by decide⟩,
      by decide⟩,
    ⟨ending 5 { openPage with holder := .none, mode := .deferred, freshness := .fresh }, ended 5, by decide, by decide, by decide, by decide, ⟨by decide, by decide, by decide, by decide⟩,
      by decide⟩,
    ⟨ending 8 { openPage with holder := .none }, ended 8, by decide, by decide, by decide, by decide, ⟨by decide, by decide, by decide, by decide⟩,
      by decide⟩⟩

theorem witness_PartsEndAsTheRulesSay :
    (∃ (s : State) (j : Slot) (h : Header), s.mode = .running ∧ s.link.role = .contender j h ∧ s.atEnd = false ∧
      s.link.state = .online ∧ s.link.txErrors + 1 < 8) ∧
    (∃ (s : State) (j : Slot) (h : Header), s.mode = .running ∧ s.link.role = .initiator j h ∧ s.atEnd = false ∧
      s.link.state = .stopping ∧ s.link.txErrors + 1 < 8) ∧
    (∃ (s : State) (j : Slot) (h : Header), s.mode = .running ∧ s.link.role = .initiator j h ∧ s.atEnd = false ∧
      s.link.txErrors + 1 = 8) ∧
    (∃ (s : State) (h : Header) (a : Answer), s.mode = .running ∧ s.link.role = .target h a ∧ s.atEnd = false ∧
      s.link.txErrors + 1 < 8) ∧
    (∃ (s : State) (h : Header) (a : Bool), s.mode = .running ∧ s.link.role = .member h a ∧ s.atEnd = false) ∧
    (∃ s : State, s.mode = .running ∧ s.link.role = .receiving ∧ s.link.state = .online) ∧
    (∃ s : State, s.mode = .running ∧ s.link.role = .idle ∧ s.link.state = .syncing) ∧
    (∃ s : State, s.mode = .running ∧ s.link.role = .idle ∧ s.link.state = .faulted) ∧
    (∃ s : State, s.mode = .running ∧ s.link.role = .idle ∧ s.link.state = .offline) ∧
    (∃ (s : State) (p : Page), s.mode = .running ∧ s.responder.marker = .page p ∧
      ∀ a, (s.page p).holder = .node a → (s.page p).lease ≠ 0) ∧
    (∃ (s : State) (p : Page) (a : Addr), s.mode = .running ∧ s.responder.marker = .page p ∧
      (s.page p).holder = .node a ∧ (s.page p).lease = 0) ∧
    (∃ s : State, s.mode = .running ∧ s.responder.marker = .inbound) :=
  ⟨⟨linked .online (.contender 0 writeHeader), 0, writeHeader, by decide⟩,
    ⟨{ sending with link := { sending.link with state := .stopping, txErrors := 6 } }, 0, writeHeader, by decide⟩,
    ⟨{ sending with link := { sending.link with txErrors := 7 } }, 0, writeHeader, by decide⟩,
    ⟨receivingWrite, toUs, .ack, by decide⟩,
    ⟨inSlot (.member toAll false) [], toAll, false, by decide⟩,
    ⟨listening, by decide⟩,
    ⟨joining, by decide⟩,
    ⟨linked .faulted .idle, by decide⟩,
    ⟨configured, by decide⟩,
    ⟨receivingWrite, 3, by decide⟩,
    ⟨lawful, 3, 9, by decide⟩,
    ⟨ending 8 openPage, by decide⟩⟩

theorem witness_TickTakesOneStepOfEveryCountdown_commit :
    (∃ (s : State) (p : Params) (e : PageEntry), s.inProgress 0x13 p ∧ p[0].toNat = 3 ∧ s.page 3 = e ∧ e.mode = .deferred ∧
      s.inFlight 3 = false ∧ e.holder.remote = false ∧ p[1].getLsbD 1 = false ∧ .freshness 3 ∉ s.ticks.taken ∧
      3 ∉ s.ticks.spared ∧ e.freshness = .requested ∧ e.countdown = 1) ∧
    (∃ (s : State) (p : Params) (e : PageEntry), s.inProgress 0x13 p ∧ p[0].toNat = 3 ∧ s.page 3 = e ∧ e.mode = .deferred ∧
      s.inFlight 3 = false ∧ e.holder.remote = false ∧ p[1].getLsbD 1 = false ∧ .freshness 3 ∉ s.ticks.taken ∧
      3 ∉ s.ticks.spared ∧ e.freshness = .fresh ∧ 1 < e.lifetime) ∧
    (∃ (s : State) (p : Params) (e : PageEntry), s.inProgress 0x13 p ∧ p[0].toNat = 3 ∧ s.page 3 = e ∧ e.mode = .deferred ∧
      s.inFlight 3 = false ∧ e.holder.remote = false ∧ p[1].getLsbD 1 = false ∧ .freshness 3 ∉ s.ticks.taken ∧
      3 ∉ s.ticks.spared ∧ e.freshness = .fresh ∧ e.lifetime = 1 ∧ e.countdown = 1) :=
  ⟨⟨taking 0x13 [3] (timed .requested 5), params [3], _, ⟨rfl, rfl⟩, by decide, rfl, by decide⟩,
    ⟨taking 0x13 [3] (timed .fresh 2), params [3], _, ⟨rfl, rfl⟩, by decide, rfl, by decide⟩,
    ⟨taking 0x13 [3] (timed .fresh 1), params [3], _, ⟨rfl, rfl⟩, by decide, rfl, by decide⟩⟩

theorem witness_TickTakesOneStepOfEveryCountdown_moment :
    (∃ s t : State, s.mode = .running ∧ exec .startMarker s = .next t ∧ s.ticks.spared = [3]) ∧
    (∃ (s t : State) (part : HeaderPart), s.mode = .running ∧ exec (.header part) s = .next t) ∧
    (∃ (s t : State) (data : Vector Byte 8), s.mode = .running ∧
      exec (.blockSlot data 0 .recessive .recessive) s = .next t) :=
  ⟨⟨{ onlineIdle with ticks := ⟨0, 0, [], [3]⟩ }, _, rfl, rfl, rfl⟩,
    ⟨onlineIdle, _, .arbitrationWon, rfl, rfl⟩,
    ⟨onlineIdle, _, .replicate 8 0, rfl, rfl⟩⟩

theorem witness_TickTakesOneStepOfEveryCountdown :
    (∃ (s : State) (p : Page), s.mode = .running ∧ .freshness p ∉ s.ticks.taken ∧
      (s.page p).freshness = .fresh ∧ p ∈ s.ticks.spared) ∧
    (∃ s : State, s.mode = .running ∧ s.ticks.taken = [] ∧ s.link.state = .faulted ∧ s.link.recoveryTimer = 1 ∧
      s.cfg.autoRecover = true) ∧
    (∃ (s : State) (p : Page) (a : Addr), s.mode = .running ∧ s.ticks.taken = [] ∧ (s.page p).holder = .node a ∧
      (s.page p).lease = 1) ∧
    (∃ (s : State) (p : Page), s.mode = .running ∧ s.ticks.taken = [] ∧ (s.page p).mode = .deferred ∧
      (s.page p).freshness ≠ .stale ∧ (s.page p).countdown = 1) ∧
    (∃ (s : State) (j : Slot), s.mode = .running ∧ s.ticks.taken = [] ∧ (s.job j).state = .waiting ∧
      (s.job j).deadline ≠ 0 ∧ (s.job j).deadlineRemaining = 2 ∧ (s.job j).retryCountdown = 1) ∧
    (∃ (s : State) (j : Slot), s.mode = .running ∧ s.ticks.taken = [] ∧ (s.job j).state = .active ∧
      (s.job j).deadline ≠ 0 ∧ (s.job j).deadlineRemaining = 1) ∧
    (∃ (s : State) (j : Slot), s.mode = .running ∧ s.ticks.taken = [] ∧ (s.job j).state = .queued ∧
      (s.job j).deadline ≠ 0 ∧ (s.job j).deadlineRemaining = 1) :=
  ⟨⟨{ timed .fresh 1 with ticks := ⟨0, 0, [], [3]⟩ }, 3, by decide⟩,
    ⟨counting, by decide⟩,
    ⟨counting, 3, 9, by decide⟩,
    ⟨counting, 4, by decide⟩,
    ⟨counting, 0, by decide⟩,
    ⟨counting, 1, by decide⟩,
    ⟨counting, 2, by decide⟩⟩

theorem witness_ExpiryRowsTakeTheirShare :
    (∃ s : State, s.mode = .running ∧ s.link.state = .faulted ∧ s.link.recoveryTimer = 1 ∧
      .recovery ∉ s.ticks.taken) ∧
    (∃ (s : State) (p : Page) (a : Addr), s.mode = .running ∧ (s.page p).holder = .node a ∧
      (s.page p).lease = 1 ∧ .lease p ∉ s.ticks.taken ∧ s.inFlight p = false) ∧
    (∃ (s : State) (p : Page) (a : Addr), s.mode = .running ∧ (s.page p).holder = .node a ∧
      (s.page p).lease = 1 ∧ .lease p ∉ s.ticks.taken ∧ s.inFlight p = true) ∧
    (∃ (s : State) (p : Page), s.mode = .running ∧ (s.page p).mode = .deferred ∧ (s.page p).countdown = 1 ∧
      .freshness p ∉ s.ticks.taken ∧ (s.page p).freshness = .requested) ∧
    (∃ (s : State) (p : Page), s.mode = .running ∧ (s.page p).mode = .deferred ∧ (s.page p).countdown = 1 ∧
      .freshness p ∉ s.ticks.taken ∧ (s.page p).freshness = .fresh ∧ p ∉ s.ticks.spared) ∧
    (∃ (s : State) (p : Page), s.mode = .running ∧ (s.page p).mode = .deferred ∧ (s.page p).countdown = 1 ∧
      .freshness p ∉ s.ticks.taken ∧ (s.page p).freshness = .fresh ∧ p ∈ s.ticks.spared) ∧
    (∃ (s : State) (j : Slot), s.mode = .running ∧ (s.job j).deadline ≠ 0 ∧ (s.job j).deadlineRemaining = 1 ∧
      .deadline j ∉ s.ticks.taken ∧ (s.job j).state = .queued) ∧
    (∃ (s : State) (j : Slot), s.mode = .running ∧ (s.job j).deadline ≠ 0 ∧ (s.job j).deadlineRemaining = 1 ∧
      .deadline j ∉ s.ticks.taken ∧ (s.job j).state = .active) ∧
    (∃ (s : State) (j : Slot), s.mode = .running ∧ (s.job j).state = .waiting ∧ (s.job j).retryCountdown = 1 ∧
      .retry j ∉ s.ticks.taken ∧ (s.job j).deadlineRemaining ≠ 1) :=
  ⟨⟨counting, by decide⟩,
    ⟨counting, 3, 9, by decide⟩,
    ⟨{ counting with responder := { Responder.reset with marker := .page 3 } }, 3, 9, by decide⟩,
    ⟨counting, 4, by decide⟩,
    ⟨counting, 5, by decide⟩,
    ⟨{ timed .fresh 1 with ticks := ⟨0, 0, [], [3]⟩ }, 3, by decide⟩,
    ⟨counting, 2, by decide⟩,
    ⟨counting, 1, by decide⟩,
    ⟨counting, 0, by decide⟩⟩

end Sys2Proof.Slice0
end

section
/-!
SUPPORT. The rows of the link outside a reset: each is its operation on the state whose commit moment is over (log
entry 28).
-/

namespace Sys2Proof.Machine

theorem onLink_running {s t : State} (f : State → State) (hm : s.mode = .running)
    (h : f s.momentOver = t) : s.onLink f = .next t :=
  h ▸ whenRunning_running (fun s => f s.momentOver) hm

section
variable {s t : State} (hm : s.mode = .running)
include hm

theorem exec_enterOnline (h : s.momentOver.joinLink = t) : exec .enterOnline s = .next t :=
  onLink_running _ hm h

theorem exec_startMarker (h : s.momentOver.recogniseStart = t) : exec .startMarker s = .next t :=
  onLink_running _ hm h

theorem exec_gapMeasurementRestart (h : s.momentOver.restartGap = t) :
    exec .gapMeasurementRestart s = .next t := onLink_running _ hm h

theorem exec_arbitrationLost (h : s.momentOver.loseArbitration = t) :
    exec .arbitrationLost s = .next t := onLink_running _ hm h

theorem exec_arbitrationWon (h : s.momentOver.winArbitration = t) :
    exec (.header .arbitrationWon) s = .next t := onLink_running _ hm h

theorem exec_headerBits {bits : BitVec 48} (h : s.momentOver.takeHeaderBits bits = t) :
    exec (.header (.headerBits bits)) s = .next t := onLink_running (·.takeHeaderBits bits) hm h

theorem exec_slotBit {l : Level} (h : s.momentOver.takeSlotBit l = t) :
    exec (.header (.slotBit l)) s = .next t := onLink_running (·.takeSlotBit l) hm h

theorem exec_blockSlot {data : Vector Byte 8} {check : Byte} {x y : Level}
    (h : s.momentOver.takeBlock data check x y = t) :
    exec (.blockSlot data check x y) s = .next t := onLink_running (·.takeBlock data check x y) hm h

theorem exec_resendExhaustion (h : s.momentOver.fifthNak = t) : exec .resendExhaustion s = .next t :=
  onLink_running _ hm h

theorem exec_lossOfSyncEdges (h : s.momentOver.loseSync = t) : exec .lossOfSyncEdges s = .next t :=
  onLink_running _ hm h

theorem exec_normalEnd (h : s.momentOver.reachEnd = t) : exec .normalEnd s = .next t :=
  onLink_running _ hm h

theorem exec_stuckDominant (h : s.momentOver.meetStuck = t) : exec .stuckDominant s = .next t :=
  onLink_running _ hm h

/-- A bit error comes only to a node whose part it can end (R3, R15). -/
theorem exec_bitError (hb : s.momentOver.mayMeetBitError = true)
    (h : s.momentOver.meetBitError .bystander = t) : exec .bitError s = .next t :=
  onLink_running _ hm ((if_pos hb).trans h)

/-- A row that samples a bit the node drives otherwise has the effect of BIT_ERROR (log entries 9 and 26). -/
theorem eq_exec_bitError {o : Host.Outcome State Fault Refusal}
    (hb : s.momentOver.mayMeetBitError = true)
    (h : o = .next (s.momentOver.meetBitError .bystander)) : o = exec .bitError s :=
  h.trans (exec_bitError hm hb rfl).symm

end

end Sys2Proof.Machine
end

section
/-!
PROOFS. Joining the link and start markers (R4, R5, R26, R33).
-/

namespace Sys2Proof.Machine

theorem joinLink_syncing {s : State} {c : Cause} (hst : s.link.state = .syncing)
    (hc : s.link.cause = some c) :
    s.joinLink =
      s.changeLink { s.link with state := .online, role := .idle, slot := [], gap := .complete } c := by
  simp only [State.joinLink, hst, hc]

theorem recogniseStart_idle {s : State} (hst : s.link.state = .online) (hr : s.link.role = .idle) :
    s.recogniseStart =
      { s with link := { s.link with role := .receiving, slot := [], gap := .notRunning } } :=
  if_pos ⟨hst, hr⟩

theorem restartGap_measuring {s : State}
    (h : s.link.state = .syncing ∨ s.link.state = .online ∧ s.link.role = .idle) :
    s.restartGap = { s with link := { s.link with gap := .running, dominance := .running } } :=
  if_pos (by simpa [State.measuresGap] using h)

/-- Settles O51. -/
theorem joiningAndStartMarkers : Obligations.JoiningAndStartMarkers := by
  intro s₀ s (hm : s₀.mode = .running)
  refine ⟨fun c hst hc => ?_, fun hst hr => ?_, fun h => ?_⟩
  · exact exec_enterOnline hm (joinLink_syncing hst hc)
  · exact exec_startMarker hm (recogniseStart_idle hst hr)
  · exact exec_gapMeasurementRestart hm (restartGap_measuring h)

end Sys2Proof.Machine
end

section
/-!
SUPPORT. Where a node's part in a telegram is at its end, and where a bit error can come to it (R3, R20).
-/

namespace Sys2Proof.Machine

theorem atEnd_of_slot {s : State} (hs : s.link.slot.length ≠ 2) : s.atEnd = false := by
  simp [State.atEnd, hs]

theorem mayMeetBitError_sending {s : State} {j : Slot} {h : Header}
    (hr : s.link.role = .contender j h ∨ s.link.role = .initiator j h) (he : s.atEnd = false) :
    s.mayMeetBitError = true := by
  rcases hr with hr | hr <;> simp [State.mayMeetBitError, hr, he]

theorem mayMeetBitError_target {s : State} {h : Header} {a : Answer} (hr : s.link.role = .target h a)
    (he : s.atEnd = false) : s.mayMeetBitError = true := by
  simp [State.mayMeetBitError, hr, he]

end Sys2Proof.Machine
end

section
/-!
PROOFS. The header slot, bit by bit (R3, R14, R15, R29, R86, R121, R127).
-/

namespace Sys2Proof.Machine

section
variable {s : State} {j : Slot} {h : Header} {a : Answer} {l : Level}

/-! ### The initiator's own header -/

theorem takeHeaderBits_own (hr : s.link.role = .initiator j h) (hp : s.initiator.phase = .header) :
    s.takeHeaderBits h.bits = { s with initiator := { s.initiator with phase := .headerSlot } } := by
  simp [State.takeHeaderBits, hr, hp]

theorem takeHeaderBits_foreign {bits : BitVec 48} (hr : s.link.role = .initiator j h)
    (hp : s.initiator.phase = .header) (hb : bits ≠ h.bits) :
    s.takeHeaderBits bits = s.meetBitError .bystander := by
  simp [State.takeHeaderBits, hr, hp, hb]

/-! ### A target's slot bit -/

/-- The first bit is dominant but for REFUSE, the second but for BUSY (R14). -/
theorem Answer.levels_eq (a : Answer) :
    a.levels = [a != .refuse, a != .busy].map fun d => if d then Level.dominant else .recessive := by
  cases a <;> rfl

theorem slotDriven_target (hr : s.link.role = .target h a) (k : s.link.slot.length < 2) :
    s.slotDriven = ([a != .refuse, a != .busy].map fun d =>
      if d then Level.dominant else .recessive)[s.link.slot.length]'(by simpa using k) := by
  simp only [State.slotDriven, hr, Answer.levels_eq]
  exact List.getD_eq_getElem _ _ _

theorem takeSlotBit_asDriven (hr : s.link.role = .target h a) (k : s.link.slot.length < 2)
    (hl : l = s.slotDriven) : s.takeSlotBit l = s.pushSlot l := by
  simp [State.takeSlotBit, hr, ← hl, Nat.not_le.2 k]

theorem takeSlotBit_notDriven (hr : s.link.role = .target h a) (k : s.link.slot.length < 2)
    (hl : l ≠ s.slotDriven) : s.takeSlotBit l = s.meetBitError .bystander := by
  simp [State.takeSlotBit, hr, hl, Nat.not_le.2 k]

/-! ### A member's slot bit -/

theorem slotDriven_member {accepts : Bool} (hr : s.link.role = .member h accepts) :
    s.slotDriven = if accepts = false ∧ s.link.slot = [] then .dominant else .recessive := by
  cases accepts <;> simp [State.slotDriven, hr]

theorem takeSlotBit_accepting (hr : s.link.role = .member h true) (k : s.link.slot.length < 2) :
    s.takeSlotBit l = s.pushSlot l := by
  simp [State.takeSlotBit, hr, Nat.not_le.2 k]

theorem takeSlotBit_dissenting (hr : s.link.role = .member h false) (hs : s.link.slot = []) :
    s.takeSlotBit l =
      State.partOver { s with link := { s.link with slot := [l] } } .bystander := by
  simp [State.takeSlotBit, hr, hs, leaveTelegram_eq_partOver, State.pushSlot]

/-! ### The initiator's slot bit -/

theorem takeSlotBit_initiator (hr : s.link.role = .initiator j h)
    (hp : s.initiator.phase = .headerSlot) (k : s.link.slot.length < 2) :
    s.takeSlotBit l = s.readSlotBit j h l := by
  simp [State.takeSlotBit, hr, hp, Nat.not_le.2 k]

/-- The first bit of a collective slot is its answer; no data phase begins after it (R15, R127). -/
theorem readSlotBit_first (hs : s.link.slot = []) :
    s.readSlotBit j h l = { s with
      link := { s.link with slot := [l] }
      initiator := { s.initiator with
        dissent := s.initiator.dissent || (h.collective && l == .dominant) }
      jobs := if h.collective then
          s.jobs.set j { s.job j with lastResponse := if l = .dominant then .dissent else .noDissent }
        else s.jobs } := by
  have reading : collectiveReading [l] = if l = .dominant then .dissent else .noDissent := by
    cases l <;> rfl
  cases hc : h.collective <;> simp [State.readSlotBit, State.pushSlot, State.setJob, hs, hc, reading]

/-- The data phase begins after the second bit, where blocks follow (R13 to R15). -/
theorem readSlotBit_second {m : Level} (hs : s.link.slot = [m]) (hp : s.initiator.phase = .headerSlot) :
    s.readSlotBit j h l = { s with
      link := { s.link with slot := [m, l] }
      initiator := { s.initiator with
        phase := if 0 < h.blocks ∧ (h.collective = true ∨ m = .dominant ∧ l = .dominant) then .data
          else .headerSlot } } := by
  simp [State.readSlotBit, State.pushSlot, hs, hp]

end

/-- Settles O55: each moment of the slot is one of the cases above, for the role that meets it. -/
theorem headerSlotBitByBit : Obligations.HeaderSlotBitByBit := by
  intro s₀ l s (hm : s₀.mode = .running)
  refine ⟨?own, ?foreign, ?target, ?drives, ?accepting, ?dissenting, ?initiator⟩
  case own => exact fun j h hr hp => exec_headerBits hm (takeHeaderBits_own hr hp)
  case foreign =>
    intro j h bits hr hp hs hb
    have hend : s.atEnd = false := atEnd_of_slot (by simp [hs])
    exact eq_exec_bitError hm (mayMeetBitError_sending (.inr hr) hend)
      (exec_headerBits hm (takeHeaderBits_foreign hr hp hb))
  case target =>
    intro h a hr k driven
    have hd : s.slotDriven = driven := slotDriven_target hr k
    have hend : s.atEnd = false := atEnd_of_slot (by omega)
    exact ⟨hd, fun hl => exec_slotBit hm (takeSlotBit_asDriven hr k (hl.trans hd.symm)),
      fun hl => eq_exec_bitError hm (mayMeetBitError_target hr hend)
        (exec_slotBit hm (takeSlotBit_notDriven hr k (hd ▸ hl)))⟩
  case drives => exact fun h accepts hr => slotDriven_member hr
  case accepting => exact fun h hr k => exec_slotBit hm (takeSlotBit_accepting hr k)
  case dissenting => exact fun h hr hs => exec_slotBit hm (takeSlotBit_dissenting hr hs)
  case initiator =>
    intro j h hr hp
    refine ⟨fun hs => ?first, fun m hs => ?second⟩
    case first =>
      exact exec_slotBit hm
        ((takeSlotBit_initiator hr hp (by simp [hs])).trans (readSlotBit_first hs))
    case second =>
      exact exec_slotBit hm
        ((takeSlotBit_initiator hr hp (by simp [hs])).trans (readSlotBit_second hs hp))

end Sys2Proof.Machine
end

section
/-!
PROOFS. What a complete header makes of the node (R7, R11, R56, R79, R80, R86 to R88, R93).
-/

namespace Sys2Proof.Machine

section
variable {s : State} {h : Header} {bits : BitVec 48}

theorem winArbitration_contender {j : Slot} (hr : s.link.role = .contender j h) :
    s.winArbitration = { s with
      link := { s.link with role := .initiator j h }
      initiator := { s.initiator with phase := .header } } := by
  simp only [State.winArbitration, hr]

/-! ### Whether the header concerns the node -/

theorem concerns_iff : s.concerns h = true ↔
    if h.group then h.target ≠ 0 ∧ h.target.toNat < 32 ∧ s.groups.getLsbD h.target.toNat = true
    else h.target = 127 ∨ h.target ≠ 0 ∧ h.target = s.cfg.address := by
  cases hg : h.group <;> simp [State.concerns, hg, and_assoc]

theorem takeHeaderBits_concerned (hr : s.link.role = .receiving)
    (hc : s.link.state = .online ∧ headerCheckPasses bits = true ∧
      s.concerns (Header.ofBits bits) = true) :
    s.takeHeaderBits bits = s.handOver (Header.ofBits bits) := by
  simp [State.takeHeaderBits, hr, hc]

theorem takeHeaderBits_unconcerned (hr : s.link.role = .receiving)
    (hc : ¬(s.link.state = .online ∧ headerCheckPasses bits = true ∧
      s.concerns (Header.ofBits bits) = true)) :
    s.takeHeaderBits bits = { s with link := { s.link with role := .bystander } } := by
  simp only [State.takeHeaderBits, hr, if_neg hc]

/-! ### The Responder's answer -/

/-- The role is that of the answer: a member accepts exactly where a target says ACK (R86). -/
theorem roleFor_eq (d : Decision) :
    h.roleFor d = if h.collective then Role.member h (d.answer == .ack) else .target h d.answer := by
  cases d <;> rfl

theorem handOver_eq : s.handOver h = { s.applyDecision h (s.decision h) with
    link := { s.link with
      role := if h.collective then Role.member h ((s.decision h).answer == .ack)
        else .target h (s.decision h).answer
      slot := [] } } := by
  have hl : (s.applyDecision h (s.decision h)).link = s.link := by simp
  simp only [State.handOver, hl, roleFor_eq]

theorem applyDecision_refuse (r : Reason) :
    s.applyDecision h (.refuse r) = s.recordResponse r h.initiator := rfl

theorem requestRefresh_notStale (hf : (s.page h.pageNumber).freshness ≠ .stale) :
    s.requestRefresh h = s := if_neg hf

/-- A BUSY changes the record alone, unless it finds a STALE page to refresh (R56, R88). -/
theorem applyDecision_busy {r : Reason}
    (hr : r ≠ .refreshing ∨ (s.page h.pageNumber).freshness ≠ .stale) :
    s.applyDecision h (.busy r) = s.recordResponse r h.initiator := by
  by_cases hq : r = .refreshing
  · subst hq
    simp [State.applyDecision, requestRefresh_notStale (hr.resolve_left (by simp))]
  · simp [State.applyDecision]

theorem applyDecision_refreshing (hf : (s.page h.pageNumber).freshness = .stale) :
    s.applyDecision h (.busy .refreshing) = { s with
      responder := { s.responder with lastReason := .refreshing, lastInitiator := h.initiator }
      pages := s.pages.set h.pageNumber { s.page h.pageNumber with
        freshness := .requested, countdown := s.cfg.refreshWindow }
      events := s.events.post ⟨.refreshRequest, byte h.pageNumber.val,
        h.initiator.setWidth 8, byte s.cfg.refreshWindow⟩ s.ticks.stamp } := by
  simp [State.applyDecision, State.requestRefresh, hf, State.recordResponse, State.postNotice,
    State.setPage]

theorem marker_inbound_iff : h.marker = .inbound ↔ Operation.ofCode h.operation = some .message := by
  rcases ho : Operation.ofCode h.operation with _ | op
  · simp [Header.marker, ho]
  · cases op <;> simp [Header.marker, ho]

theorem marker_of_defined (hd : Operation.ofCode h.operation ≠ none) :
    h.marker = if Operation.ofCode h.operation = some .message then .inbound
      else if Operation.ofCode h.operation = some .status then .clear else .page h.pageNumber := by
  obtain ⟨op, ho⟩ := Option.ne_none_iff_exists'.1 hd
  cases op <;> simp [Header.marker, ho]

/-- An accepted header's operation is defined: check 1 of R81 refuses every other. -/
theorem defined_of_accept (hd : s.decision h = .accept) : Operation.ofCode h.operation ≠ none := by
  intro ho
  simp [State.decision, ho] at hd

/-- What an accepted header binds, reserves and records (R84, R87, R103). -/
theorem applyDecision_accept (hd : s.decision h = .accept) :
    s.applyDecision h .accept = { s with
      responder := { s.responder with
        marker := if Operation.ofCode h.operation = some .message then .inbound
          else if Operation.ofCode h.operation = some .status then .clear else .page h.pageNumber
        staging := []
        blockIndex := 0
        nakCount := 0
        snapshot := if Operation.ofCode h.operation = some .status then some s.statusRecord else none }
      inbound := { s.inbound with
        reservation := if Operation.ofCode h.operation = some .message then some ⟨6 + h.length.toNat,
            (s.inbound.head + s.inbound.committedBytes) % 1024, h⟩
          else s.inbound.reservation } } := by
  simp only [State.applyDecision, State.acceptHeader, marker_inbound_iff,
    ← marker_of_defined (defined_of_accept hd)]
  rfl

/-! ### The status record -/

theorem linkState_code_low (st : LinkState) : (st.code.extractLsb' 0 3).toNat = st.code.toNat := by
  cases st <;> rfl

/-- Byte 0 of the status record: two flags, three zeros, the link state (R93). -/
theorem statusByte_bits (x y : Bool) (c : BitVec 3) :
    let b : Byte := BitVec.ofBool x ++ BitVec.ofBool y ++ 0#3 ++ c
    b.getLsbD 7 = x ∧ b.getLsbD 6 = y ∧ b.extractLsb' 3 3 = 0 ∧ b.extractLsb' 0 3 = c := by
  revert x y c; decide

end

/-- Settles O54. -/
theorem headerGivesTheNodeItsRole : Obligations.HeaderGivesTheNodeItsRole := by
  intro s₀ s (hm : s₀.mode = .running)
  refine ⟨?won, ?status, rfl, ?header⟩
  case won => exact fun j h hr => exec_arbitrationWon hm (winArbitration_contender hr)
  case status =>
    obtain ⟨accepts, recovers, zeros, state⟩ := statusByte_bits s.cfg.acceptMessages s.cfg.autoRecover
      (s.link.state.code.extractLsb' 0 3)
    exact ⟨_, rfl, accepts, recovers, zeros, (congrArg _ state).trans (linkState_code_low _)⟩
  case header =>
    intro bits hr h named concerned role link recorded
    have hc : concerned ↔ s.link.state = .online ∧ headerCheckPasses bits = true ∧
        s.concerns h = true := by
      simp only [concerned, named, concerns_iff]
    refine ⟨fun hn => ?_, fun hy => ?_⟩
    · exact exec_headerBits hm (takeHeaderBits_unconcerned hr (mt hc.2 hn))
    have taken : ∀ d, s.decision h = d → exec (.header (.headerBits bits)) s₀ =
        .next { s.applyDecision h d with link := link d.answer } := by
      rintro d rfl
      exact exec_headerBits hm ((takeHeaderBits_concerned hr (hc.1 hy)).trans handOver_eq)
    refine ⟨fun r hd => ?_, fun r hd hf => ?_, fun hd hf => ?_, fun hd => ?_⟩
    · rw [taken _ hd, applyDecision_refuse]; rfl
    · rw [taken _ hd, applyDecision_busy hf]; rfl
    · rw [taken _ hd, applyDecision_refreshing hf]; rfl
    · rw [taken _ hd, applyDecision_accept hd]; rfl

end Sys2Proof.Machine
end

section
/-!
PROOFS. How a part in a telegram ends short of its normal end (R7, R18, R20, R21, R28 to R31, R36, R97).
-/

namespace Sys2Proof.Machine

section
variable {s : State} {j : Slot} {h : Header} {a : Answer} {p : Page}

/-! ### The Responder's accepted telegram is discarded (R97) -/

theorem resolvePending_notPending (hl : ∀ a, (s.page p).holder = .node a → (s.page p).lease ≠ 0) :
    s.resolvePending p = s := by
  rcases resolvePending_cases s p with ⟨a, ha, hz, _⟩ | ⟨_, kept⟩
  · exact absurd hz (hl a ha)
  · exact kept

theorem resolvePending_pending {a : Addr} (ha : (s.page p).holder = .node a)
    (hl : (s.page p).lease = 0) : s.resolvePending p = s.expireClaim p a 2 := by
  simp [State.resolvePending, ha, hl]

theorem abandonAccepted_page (hk : s.responder.marker = .page p) :
    s.abandonAccepted = s.clearAccepted.resolvePending p := by
  simp [State.abandonAccepted, State.clearAccepted, hk]

theorem abandonAccepted_inboundMarker (hk : s.responder.marker = .inbound) :
    s.abandonAccepted = { s with
      responder := { s.responder with marker := .clear, staging := [], snapshot := none }
      inbound := { s.inbound with reservation := none } } := by
  simp [State.abandonAccepted, hk]

theorem abandonAccepted_clear (hk : s.responder.marker = .clear) :
    s.abandonAccepted = s.clearAccepted := by
  simp [State.abandonAccepted, State.clearAccepted, hk]

theorem abandonAccepted_responder : s.abandonAccepted.responder =
    { s.responder with marker := .clear, staging := [], snapshot := none } := by
  cases hk : s.responder.marker with
  | page p => simp [abandonAccepted_page hk, State.clearAccepted]
  | inbound => simp [abandonAccepted_inboundMarker hk]
  | clear => simp [abandonAccepted_clear hk, State.clearAccepted]

/-! ### The part is given up -/

theorem abandonPart_sending (hr : s.link.role = .contender j h ∨ s.link.role = .initiator j h)
    (o : Attempt) : s.abandonPart o = s.takeOutcome j o := by
  rcases hr with hr | hr <;> simp only [State.abandonPart, hr]

theorem abandonPart_target (hr : s.link.role = .target h a) (o : Attempt) :
    s.abandonPart o = s.abandonAccepted := by
  simp only [State.abandonPart, hr]

theorem abandonPart_member {accepts : Bool} (hr : s.link.role = .member h accepts) (o : Attempt) :
    s.abandonPart o = s.abandonAccepted := by
  simp only [State.abandonPart, hr]

theorem loseArbitration_contender (hr : s.link.role = .contender j h) :
    s.loseArbitration = (s.takeOutcome j .arbitrationLost).partOver .receiving := by
  simp only [State.loseArbitration, hr, leaveTelegram_eq_partOver]

/-! ### Bit errors (R28, R29) -/

/-- The state with the transmit error count it has after a bit error. -/
def State.withErrors (s : State) (n : Nat) : State := { s with link := { s.link with txErrors := n } }

theorem meetBitError_counted {u : State} {follow : Role} (hn : s.link.txErrors + 1 < 8)
    (hu : (s.withErrors (s.link.txErrors + 1)).abandonPart .bitError = u) :
    s.meetBitError follow = u.partOver follow := by
  have hmin : min Config.txErrorLimit (s.link.txErrors + 1) = s.link.txErrors + 1 :=
    Nat.min_eq_right (Nat.le_of_lt hn)
  simp only [State.meetBitError, hmin, leaveTelegram_eq_partOver, ← hu]
  exact if_pos hn

/-- The eighth bit error makes the node FAULTED, whatever it would have followed. -/
theorem meetBitError_eighth {u : State} {follow : Role} (hn : s.link.txErrors + 1 = 8)
    (hu : (s.withErrors 8).abandonPart .linkLost = u) :
    s.meetBitError follow = u.enterFaulted .bitErrors := by
  simp only [State.meetBitError, hn, ← hu]
  exact if_neg (by decide)

/-! ### Lost sync edges (R21) -/

theorem loseSync_sending (hr : s.link.role = .contender j h ∨ s.link.role = .initiator j h)
    (he : s.atEnd = false) : s.loseSync = s.meetBitError .idle := by
  rcases hr with hr | hr <;> simp [State.loseSync, he, State.partLost, hr]

theorem loseSync_answering
    (hr : (∃ a, s.link.role = .target h a) ∨ ∃ a, s.link.role = .member h a) (he : s.atEnd = false) :
    s.loseSync = s.abandonAccepted.partOver .idle := by
  rcases hr with ⟨a, hr⟩ | ⟨a, hr⟩ <;>
    simp [State.loseSync, he, State.partLost, hr, leaveTelegram_eq_partOver]

theorem loseSync_following (hr : s.link.role = .receiving ∨ s.link.role = .bystander) :
    s.loseSync = s.partOver .idle := by
  rcases hr with hr | hr <;>
    simp [State.loseSync, State.atEnd, State.partLost, hr, leaveTelegram_eq_partOver]

/-! ### A stuck line (R30, R31) -/

theorem meetStuck_idle (hr : s.link.role = .idle) : s.meetStuck =
    match s.link.state with
    | .syncing | .online | .stopping => s.enterFaulted .stuck
    | .faulted => { s with link := { s.link with dominance := .exceeded, recoveryTimer := 64 } }
    | .offline => s := by
  simp only [State.meetStuck, State.partLost, hr]
  rfl

/-! ### The end of the part (R20) -/

theorem atEnd_target (hr : s.link.role = .target h a) : s.atEnd = true ↔
    s.link.slot.length = 2 ∧ (a ≠ .ack ∨ s.responder.blockIndex = h.blocks) := by
  simp [State.atEnd, hr]

theorem atEnd_member {accepts : Bool} (hr : s.link.role = .member h accepts) : s.atEnd = true ↔
    s.link.slot.length = 2 ∧ accepts = true ∧ s.responder.blockIndex = h.blocks := by
  simp [State.atEnd, hr]

theorem atEnd_initiator (hr : s.link.role = .initiator j h) : s.atEnd = true ↔
    s.link.slot.length = 2 ∧ (h.collective = false ∧ s.link.slot ≠ [.dominant, .dominant] ∨
      s.initiator.blockIndex = h.blocks) := by
  simp [State.atEnd, hr]

theorem atEnd_iff : s.atEnd = true ↔ s.link.slot.length = 2 ∧
    ((∃ h a, s.link.role = .target h a ∧ (a ≠ .ack ∨ s.responder.blockIndex = h.blocks)) ∨
      (∃ h, s.link.role = .member h true ∧ s.responder.blockIndex = h.blocks) ∨
      ∃ j h, s.link.role = .initiator j h ∧
        (h.collective = false ∧ s.link.slot ≠ [.dominant, .dominant] ∨
          s.initiator.blockIndex = h.blocks)) := by
  cases hr : s.link.role with
  | target h a => simp [atEnd_target hr]
  | member h accepts => cases accepts <;> simp [atEnd_member hr]
  | initiator j h => simp [atEnd_initiator hr]
  | idle | receiving | bystander | contender => simp [State.atEnd, hr]

end

/-- Settles O58: the ends of a part, one by one, each a rule above for the role it comes to. -/
theorem partsEndAsTheRulesSay : Obligations.PartsEndAsTheRulesSay := by
  intro s₀ s (hm : s₀.mode = .running) errors faults
  refine ⟨?lost, ?sending, ?target, ?answering, ?following, ?stuck, ?kept, ?expires, ?reserved,
    fun hk => abandonAccepted_clear hk, atEnd_iff⟩
  case lost => exact fun j h hr => exec_arbitrationLost hm (loseArbitration_contender hr)
  case sending =>
    intro j h hr he n u
    have mayMeet := mayMeetBitError_sending hr he
    have lost : exec .lossOfSyncEdges s₀ = .next (s.meetBitError .idle) :=
      exec_lossOfSyncEdges hm (loseSync_sending hr he)
    have given : ∀ m o, (s.withErrors m).abandonPart o = (s.withErrors m).takeOutcome j o :=
      fun m => abandonPart_sending hr
    refine ⟨fun hn => ⟨?_, ?_⟩, fun hn i hi => ?_⟩
    · exact exec_bitError hm mayMeet (meetBitError_counted hn (given _ _))
    · exact lost.trans (congrArg _ (meetBitError_counted hn (given _ _)))
    · rcases List.mem_pair.1 hi with rfl | rfl
      · exact exec_bitError hm mayMeet (meetBitError_eighth hn (given _ _))
      · exact lost.trans (congrArg _ (meetBitError_eighth hn (given _ _)))
  case target =>
    intro h a hr he n u
    have mayMeet := mayMeetBitError_target hr he
    have given : ∀ m o, (s.withErrors m).abandonPart o = (s.withErrors m).abandonAccepted :=
      fun m => abandonPart_target hr
    refine ⟨fun hn => ?_, fun hn => ?_⟩
    · exact exec_bitError hm mayMeet (meetBitError_counted hn (given _ _))
    · have eighth : s.withErrors 8 = errors n := congrArg s.withErrors hn.symm
      exact exec_bitError hm mayMeet
        (meetBitError_eighth hn ((given _ _).trans (congrArg _ eighth)))
  case answering => exact fun h hr he => exec_lossOfSyncEdges hm (loseSync_answering hr he)
  case following => exact fun hr => exec_lossOfSyncEdges hm (loseSync_following hr)
  case stuck =>
    intro hr
    have row : exec .stuckDominant s₀ = .next s.meetStuck := exec_stuckDominant hm rfl
    rw [row, meetStuck_idle hr]
    refine ⟨?_, fun hst => ?_, fun hst => ?_⟩
    · rintro (hst | hst) <;> rw [hst] <;> rfl
    · rw [hst]
    · rw [hst]
  case kept =>
    intro p hk hl
    exact (abandonAccepted_page hk).trans (resolvePending_notPending hl)
  case expires =>
    intro p a hk ha hl
    exact (abandonAccepted_page hk).trans (resolvePending_pending ha hl)
  case reserved => exact fun hk => abandonAccepted_inboundMarker hk

end Sys2Proof.Machine
end

section
/-!
SUPPORT. Bytes written at a row of addresses: the page writes, the inbound ring and the job buffers are three cases of
it.
-/

namespace Sys2Proof.Machine

/-- Bytes written at the addresses of consecutive positions. -/
def Memory.writeAt (size : Nat) (addr : Nat → Nat) : Memory → Nat → List Byte → Memory
  | m, _, [] => m
  | m, k, b :: bs => Memory.writeAt size addr (m.write size (addr k) b) (k + 1) bs

section
variable {size : Nat} {addr : Nat → Nat} {bs : List Byte}

theorem Memory.writeBytes_eq_writeAt (m : Memory) (k : Nat) :
    Memory.writeBytes size m k bs = Memory.writeAt size id m k bs := by
  induction bs generalizing m k with
  | nil => rfl
  | cons b bs ih => exact ih _ _

theorem Memory.writeRing_eq_writeAt (m : Memory) (k : Nat) :
    Memory.writeRing size m k bs = Memory.writeAt size (· % size) m k bs := by
  induction bs generalizing m k with
  | nil => rfl
  | cons b bs ih => exact ih _ _

theorem writeBuffer_eq_writeAt (job : JobSlot) (m : Memory) (k : Nat) :
    writeBuffer job m k bs = Memory.writeAt Config.poolSize job.bufferAddress m k bs := by
  induction bs generalizing m k with
  | nil => rfl
  | cons b bs ih => exact ih _ _

/-- A write leaves every other address alone, and one past the RAM's size leaves all of them. -/
theorem Memory.read_write_other {m : Memory} (hm : Memory.wf size m = true) {a x : Nat} {b : Byte}
    (h : a = x → size ≤ x) : Memory.read (Memory.write size m a b) x = Memory.read m x := by
  by_cases ha : a < size
  · rw [Memory.read_write hm ha, if_neg (by omega)]
  · rw [Memory.write, if_neg ha]

theorem Memory.read_writeAt_other {m : Memory} {k x : Nat} (hm : Memory.wf size m = true)
    (h : ∀ i < bs.length, addr (k + i) = x → size ≤ x) :
    Memory.read (Memory.writeAt size addr m k bs) x = Memory.read m x := by
  induction bs generalizing m k with
  | nil => rfl
  | cons b bs ih =>
    have tail : ∀ i < bs.length, addr (k + 1 + i) = x → size ≤ x := fun i hi he =>
      h (i + 1) (Nat.succ_lt_succ hi) (Nat.succ_add_eq_add_succ k i ▸ he)
    rw [Memory.writeAt, ih (Memory.wf_write hm _ b) tail,
      Memory.read_write_other hm (by simpa using h 0 (by simp))]

/-- Each byte reads back, where its position has an address in the RAM that no other of them has. -/
theorem Memory.read_writeAt {m : Memory} {k i : Nat} (hm : Memory.wf size m = true)
    (hi : i < bs.length) (hlt : addr (k + i) < size)
    (apart : ∀ j < bs.length, addr (k + j) = addr (k + i) → j = i) :
    Memory.read (Memory.writeAt size addr m k bs) (addr (k + i)) = bs[i] := by
  induction bs generalizing m k i with
  | nil => simp at hi
  | cons b bs ih =>
    have shift : ∀ j, k + 1 + j = k + (j + 1) := Nat.succ_add_eq_add_succ k
    cases i with
    | zero =>
      have later : ∀ j < bs.length, addr (k + 1 + j) = addr k → size ≤ addr k := fun j hj he =>
        absurd (apart (j + 1) (Nat.succ_lt_succ hj) (shift j ▸ he)) (Nat.succ_ne_zero j)
      exact (Memory.read_writeAt_other (Memory.wf_write hm _ b) later).trans
        ((Memory.read_write hm hlt b _).trans (if_pos rfl))
    | succ i =>
      rw [← shift] at hlt ⊢
      exact ih (Memory.wf_write hm _ b) (Nat.lt_of_succ_lt_succ hi) hlt fun j hj he =>
        Nat.succ.inj (apart (j + 1) (Nat.succ_lt_succ hj) (by rwa [← shift j, ← shift i]))

end

end Sys2Proof.Machine
end

section
/-!
PROOFS. Blocks and their slots (R3, R16 to R19, R90 to R92, R121).
-/

namespace Sys2Proof.Machine

section
variable {s : State} {j : Slot} {h : Header} {data : Vector Byte 8} {check : Byte} {x y : Level}

/-! ### The data phase -/

theorem inData_target (hr : s.link.role = .target h .ack) (hs : s.link.slot.length = 2)
    (hk : s.responder.blockIndex < h.blocks) : s.inData = true := by
  simp [State.inData, hr, hs, hk]

theorem inData_member (hr : s.link.role = .member h true) (hs : s.link.slot.length = 2)
    (hk : s.responder.blockIndex < h.blocks) : s.inData = true := by
  simp [State.inData, hr, hs, hk]

theorem inData_initiator (hr : s.link.role = .initiator j h) (hs : s.link.slot.length = 2)
    (hp : s.initiator.phase = .data) (hk : s.initiator.blockIndex < h.blocks) : s.inData = true := by
  simp [State.inData, hr, hs, hp, hk]

/-! ### The two roles in an individual block (R17) -/

section
variable {passes : Bool} {store advance nak : State → State}

theorem receiveBlock_notDriven (hd : (x, y) ≠ s.blockSlotDriven passes) :
    s.receiveBlock passes x y store nak = s.meetBitError .bystander := if_pos hd

theorem receiveBlock_stores (hd : (x, y) = s.blockSlotDriven true) :
    s.receiveBlock true x y store nak = store s := by
  simp [State.receiveBlock, hd]

theorem receiveBlock_naks (hd : (x, y) = s.blockSlotDriven false) :
    s.receiveBlock false x y store nak = nak s := by
  simp [State.receiveBlock, hd]

theorem sendBlock_notAsSent : s.sendBlock false x y advance nak = s.meetBitError .bystander := rfl

theorem sendBlock_acked (ha : (x, y) = (.dominant, .dominant)) :
    s.sendBlock true x y advance nak = advance s := by
  obtain ⟨rfl, rfl⟩ := Prod.mk.inj ha
  rfl

theorem sendBlock_naked (ha : (x, y) ≠ (.dominant, .dominant)) :
    s.sendBlock true x y advance nak = nak s := by
  rw [ne_eq, Prod.mk.injEq] at ha
  simp [State.sendBlock, ha]

end

/-- A block as sent: its bytes and its check. -/
theorem asSent_iff {bytes sent : List Byte} :
    (bytes == sent && check == crc sent) = true ↔ bytes = sent ∧ check = crc sent := by simp

/-! ### What the node drives in the slot -/

theorem blockSlotDriven_target (hr : s.link.role = .target h .ack) (hd : s.inData = true)
    (passes : Bool) : s.blockSlotDriven passes =
      if h.initiatorSends then (if passes then (.dominant, .dominant) else (.recessive, .recessive))
      else (.recessive, .recessive) := by
  cases passes <;> simp [State.blockSlotDriven, hd, hr, blockAnswer]

theorem blockSlotDriven_member (hr : s.link.role = .member h true) (hd : s.inData = true)
    (passes : Bool) :
    s.blockSlotDriven passes = (if passes then .recessive else .dominant, .recessive) := by
  simp [State.blockSlotDriven, hd, hr, memberAnswer]

theorem blockSlotDriven_initiator (hr : s.link.role = .initiator j h) (hd : s.inData = true)
    (passes : Bool) : s.blockSlotDriven passes =
      if h.initiatorSends then (.recessive, .recessive)
      else if passes then (.dominant, .dominant) else (.recessive, .recessive) := by
  cases passes <;> simp [State.blockSlotDriven, hd, hr, blockAnswer]

/-! ### A block, for each role -/

theorem takeBlock_targetReceives (hr : s.link.role = .target h .ack) (hd : s.inData = true)
    (hi : h.initiatorSends = true) :
    let bytes := data.toList.take (h.blockLength s.responder.blockIndex)
    s.takeBlock data check x y =
      s.receiveBlock (check == crc bytes) x y (·.stageBlock bytes) State.targetNak := by
  simp [State.takeBlock, hd, hr, hi, BEq.comm (a := check)]

theorem takeBlock_targetSends (hr : s.link.role = .target h .ack) (hd : s.inData = true)
    (hi : h.initiatorSends = false) :
    let sent := s.targetBlock h s.responder.blockIndex
    s.takeBlock data check x y =
      s.sendBlock (data.toList.take (h.blockLength s.responder.blockIndex) == sent &&
        check == crc sent) x y State.targetAdvance State.targetNak := by
  simp [State.takeBlock, hd, hr, hi]

theorem takeBlock_member (hr : s.link.role = .member h true) (hd : s.inData = true) :
    let bytes := data.toList.take (h.blockLength s.responder.blockIndex)
    s.takeBlock data check x y = s.memberBlock h (check == crc bytes) bytes := by
  simp [State.takeBlock, hd, hr, BEq.comm (a := check)]

theorem takeBlock_initiatorSends (hr : s.link.role = .initiator j h) (hd : s.inData = true)
    (hi : h.initiatorSends = true) :
    let sent := s.bufferBytes (s.job j) (8 * s.initiator.blockIndex)
      (h.blockLength s.initiator.blockIndex)
    let asSent := data.toList.take (h.blockLength s.initiator.blockIndex) == sent && check == crc sent
    s.takeBlock data check x y =
      if h.collective then s.sendCollective asSent x
      else s.sendBlock asSent x y State.initiatorAdvance State.initiatorNak := by
  simp [State.takeBlock, hd, hr, hi]

theorem takeBlock_initiatorReceives (hr : s.link.role = .initiator j h) (hd : s.inData = true)
    (hi : h.initiatorSends = false) :
    let bytes := data.toList.take (h.blockLength s.initiator.blockIndex)
    s.takeBlock data check x y =
      s.receiveBlock (check == crc bytes) x y (·.placeBlock j bytes) State.initiatorNak := by
  simp [State.takeBlock, hd, hr, hi, BEq.comm (a := check)]

/-! ### NAKs (R18) -/

theorem targetNak_counted (hn : s.responder.nakCount < 4) :
    s.targetNak = { s with
      responder := { s.responder with nakCount := s.responder.nakCount + 1 } } :=
  if_pos (Nat.succ_lt_succ hn)

/-- The fifth NAK abandons the telegram with what the Responder has accepted of it. -/
theorem targetNak_fifth {a : Answer} (hr : s.link.role = .target h a)
    (hn : s.responder.nakCount = 4) :
    s.targetNak = (State.abandonAccepted { s with
      responder := { s.responder with nakCount := s.responder.nakCount + 1 } }).partOver .bystander := by
  have fifth : ¬s.responder.nakCount + 1 < Config.nakLimit := by simp [hn, Config.nakLimit]
  exact (if_neg fifth).trans
    (congrArg (State.leaveTelegram · .bystander) (abandonPart_target (s := { s with
      responder := { s.responder with nakCount := s.responder.nakCount + 1 } }) hr _))

theorem initiatorNak_counted (hn : s.initiator.resendCount < 4) :
    s.initiatorNak = { s with
      initiator := { s.initiator with resendCount := s.initiator.resendCount + 1 } } :=
  if_pos (Nat.succ_lt_succ hn)

theorem initiatorNak_fifth (hr : s.link.role = .initiator j h) (hn : s.initiator.resendCount = 4) :
    s.initiatorNak = (s.takeOutcome j .resendExhaustion).partOver .bystander := by
  have fifth : ¬s.initiator.resendCount + 1 < Config.nakLimit := by simp [hn, Config.nakLimit]
  exact (if_neg fifth).trans
    (congrArg (State.leaveTelegram · .bystander) (abandonPart_sending (.inr hr) _))

theorem fifthNak_target {a : Answer} (hr : s.link.role = .target h a) (hd : s.inData = true)
    (hn : s.responder.nakCount = 4) : s.fifthNak = s.targetNak := by
  simp [State.fifthNak, hd, hr, hn, Config.nakLimit]

theorem fifthNak_initiator (hr : s.link.role = .initiator j h) (hd : s.inData = true)
    (hc : h.collective = false) (hn : s.initiator.resendCount = 4) : s.fifthNak = s.initiatorNak := by
  simp [State.fifthNak, hd, hr, hn, hc, Config.nakLimit]

/-! ### A member (R19, R91) -/

theorem memberBlock_fails {bytes : List Byte} {accepts : Bool} (hr : s.link.role = .member h accepts) :
    s.memberBlock h false bytes = (State.abandonAccepted { s with
      responder := { s.responder with
        lastReason := .blockCheck, lastInitiator := h.initiator } }).partOver .bystander :=
  congrArg (State.leaveTelegram · .bystander)
    (abandonPart_member (s := s.recordResponse .blockCheck h.initiator) hr _)

/-! ### The bytes of a block -/

/-- Block `k` of a page or of a status record (R92). -/
theorem targetBlock_page (k : Nat) (hs : s.responder.snapshot = none) :
    s.targetBlock h k = (List.range (h.blockLength k)).map fun i =>
      s.pageMem.read (64 * h.pageNumber.val + (h.offset.toNat + 8 * k) + i) := by
  simp [State.targetBlock, hs, Memory.readBytes, pageAddress, Config.pageRegion,
    Nat.mul_comm 64]

theorem targetBlock_snapshot {k : Nat} {record : List Byte} (hs : s.responder.snapshot = some record) :
    s.targetBlock h k = record := by
  simp [State.targetBlock, hs]

/-- A job's bytes 8k to 8k + 7 are those of its block `k`, in order (R114). -/
theorem bufferAddress_block (job : JobSlot) (k : Nat) {i : Nat} (hi : i < 8) :
    job.bufferAddress (8 * k + i) = 8 * (job.blocks.map Fin.val).getD k 64 + i := by
  have hq : (8 * k + i) / 8 = k := by omega
  have hm : (8 * k + i) % 8 = i := by omega
  simp only [JobSlot.bufferAddress, hq, hm, Config.blockSize]

theorem bufferAddress_lt {job : JobSlot} {k i : Nat} (hi : i < 8) (hk : k < job.blocks.length) :
    job.bufferAddress (8 * k + i) < Config.poolSize := by
  have hb : (job.blocks.map Fin.val).getD k 64 < 64 := by
    rw [List.getD_eq_getElem _ _ (by simpa using hk)]
    simp
  rw [bufferAddress_block job k hi, Config.poolSize]
  omega

/-- A block placed in a job's buffer: its bytes in their places, every other byte of the pool as before. -/
theorem writeBuffer_block {job : JobSlot} {m : Memory} {k : Nat} {bytes : List Byte}
    (hm : m.wf Config.poolSize = true) (h8 : bytes.length ≤ 8)
    (hk : 8 * k + bytes.length ≤ 8 * job.blocks.length) :
    (∀ i (hi : i < bytes.length),
      (writeBuffer job m (8 * k) bytes).read (job.bufferAddress (8 * k + i)) = bytes[i]) ∧
    ∀ a, (∀ i < bytes.length, a ≠ job.bufferAddress (8 * k + i)) →
      (writeBuffer job m (8 * k) bytes).read a = m.read a := by
  rw [writeBuffer_eq_writeAt]
  refine ⟨fun i hi => ?_, fun a ha => ?_⟩
  · refine Memory.read_writeAt hm hi (bufferAddress_lt (by omega) (by omega)) fun j hj he => ?_
    rw [bufferAddress_block job k (by omega), bufferAddress_block job k (by omega)] at he
    omega
  · exact Memory.read_writeAt_other hm fun i hi he => absurd he.symm (ha i hi)

end

/-- Settles O56: for each role in its data phase, the block and its slot take one of the ways above. -/
theorem blocksAreDeliveredOrNaked : Obligations.BlocksAreDeliveredOrNaked := by
  intro s₀ data check x y s (hm : s₀.mode = .running) hslot block answer silent
  have row : ∀ {t}, s.takeBlock data check x y = t → exec block s₀ = .next t := exec_blockSlot hm
  refine ⟨?target, ?member, ?initiator⟩
  case target =>
    intro h hr hk k bytes sent asSent advanced naked nak
    have hd : s.inData = true := inData_target hr hslot hk
    have mayMeet : s.mayMeetBitError = true :=
      mayMeetBitError_target hr (Bool.eq_false_iff.2 fun he => by
        simp [atEnd_target hr, Nat.ne_of_lt hk] at he)
    have hsent : s.targetBlock h k = sent := by
      rcases hsn : s.responder.snapshot with _ | record
      · simp only [sent, hsn]; exact targetBlock_page k hsn
      · simp only [sent, hsn]; exact targetBlock_snapshot hsn
    have driven := blockSlotDriven_target hr hd
    have receives : h.initiatorSends = true → s.takeBlock data check x y =
        s.receiveBlock (check == crc bytes) x y (·.stageBlock bytes) State.targetNak :=
      takeBlock_targetReceives hr hd
    have sends : h.initiatorSends = false → s.takeBlock data check x y =
        s.sendBlock (bytes == sent && check == crc sent) x y State.targetAdvance State.targetNak := by
      rw [← hsent]; exact takeBlock_targetSends hr hd
    have naks : nak → s.takeBlock data check x y = s.targetNak := by
      rintro (⟨hi, hc, hxy⟩ | ⟨hi, has, hxy⟩)
      · rw [receives hi, beq_false_of_ne hc]
        exact receiveBlock_naks (hxy.trans (by simp [driven, hi, silent]))
      · rw [sends hi, asSent_iff.2 has]
        exact sendBlock_naked hxy
    refine ⟨driven, fun hi hc hxy => row ?stored, fun hi has hxy => row ?acked,
      fun hnak hn => row ((naks hnak).trans (targetNak_counted hn)), fun hn => ?fifth,
      fun hi hxy => eq_exec_bitError hm mayMeet (row ?slotError),
      fun hi has => eq_exec_bitError hm mayMeet (row ?byteError)⟩
    case stored =>
      rw [receives hi, beq_iff_eq.2 hc]
      exact receiveBlock_stores (hxy.trans (by simp [driven, hi, answer]))
    case acked =>
      rw [sends hi, asSent_iff.2 has]
      exact sendBlock_acked hxy
    case fifth =>
      have fifth : s.targetNak = naked.abandonAccepted.partOver .bystander := targetNak_fifth hr hn
      exact ⟨_, exec_resendExhaustion hm ((fifthNak_target hr hd hn).trans fifth),
        fun hnak => row ((naks hnak).trans fifth), rfl, by simp [naked, abandonAccepted_responder]⟩
    case slotError =>
      rw [receives hi]
      exact receiveBlock_notDriven (by rwa [driven, if_pos hi])
    case byteError =>
      rw [sends hi, Bool.eq_false_iff.2 (mt asSent_iff.1 has)]
      exact sendBlock_notAsSent
  case member =>
    intro h hr hk k bytes
    have hd : s.inData = true := inData_member hr hslot hk
    have checks : s.takeBlock data check x y = s.memberBlock h (check == crc bytes) bytes :=
      takeBlock_member hr hd
    refine ⟨blockSlotDriven_member hr hd, fun hc => row ?staged, fun hc => ?failed⟩
    case staged => rw [checks, beq_iff_eq.2 hc]; rfl
    case failed =>
      refine ⟨_, row ?_, rfl, by simp [abandonAccepted_responder]⟩
      rw [checks, beq_false_of_ne hc]
      exact memberBlock_fails hr
  case initiator =>
    intro j h hr hp hk k n bytes sent asSent advanced resent nak
    have hd : s.inData = true := inData_initiator hr hslot hp hk
    have mayMeet : h.collective = true ∨ s.link.slot = [.dominant, .dominant] →
        s.mayMeetBitError = true := fun hend =>
      mayMeetBitError_sending (.inr hr) (Bool.eq_false_iff.2 fun he => by
        obtain ⟨_, ⟨hc, hs⟩ | he⟩ := (atEnd_initiator hr).1 he
        · exact hend.elim (by simp [hc]) hs
        · exact absurd he (Nat.ne_of_lt hk))
    have driven := blockSlotDriven_initiator hr hd
    have sends : h.initiatorSends = true → s.takeBlock data check x y =
        if h.collective then s.sendCollective (bytes == sent && check == crc sent) x
        else s.sendBlock (bytes == sent && check == crc sent) x y State.initiatorAdvance
          State.initiatorNak := takeBlock_initiatorSends hr hd
    have receives : h.initiatorSends = false → s.takeBlock data check x y =
        s.receiveBlock (check == crc bytes) x y (·.placeBlock j bytes) State.initiatorNak :=
      takeBlock_initiatorReceives hr hd
    have naks : nak → s.takeBlock data check x y = s.initiatorNak := by
      rintro (⟨hi, hc, has, hxy⟩ | ⟨hi, hc, hxy⟩)
      · rw [sends hi, hc, asSent_iff.2 has]
        exact sendBlock_naked hxy
      · rw [receives hi, beq_false_of_ne hc]
        exact receiveBlock_naks (hxy.trans (by simp [driven, hi, silent]))
    refine ⟨driven, fun hc hi has => row ?collective, fun hc hi has hxy => row ?acked,
      fun hnak hn => row ((naks hnak).trans (initiatorNak_counted hn)),
      fun hi hc hxy hmem _ hfit => ?placed, fun hc hn => ?fifth, fun hend =>
        ⟨fun hi has => eq_exec_bitError hm (mayMeet hend) (row ?byteError),
          fun hi hxy => eq_exec_bitError hm (mayMeet hend) (row ?slotError)⟩⟩
    case collective => rw [sends hi, hc, asSent_iff.2 has]; rfl
    case acked =>
      rw [sends hi, hc, asSent_iff.2 has]
      exact sendBlock_acked hxy
    case placed =>
      have stored : s.takeBlock data check x y = s.placeBlock j bytes := by
        rw [receives hi, beq_iff_eq.2 hc]
        exact receiveBlock_stores (hxy.trans (by simp [driven, hi, answer]))
      have hlen : bytes.length = n := by simp [bytes, n]
      obtain ⟨_, _, hpool, _⟩ := hmem
      obtain ⟨placed, others⟩ := writeBuffer_block (job := s.job j) (k := k) (bytes := bytes)
        hpool (by omega) (by omega)
      refine ⟨_, row stored, fun i hin h8 => (placed i (by omega)).trans ?_,
        fun a ha => others a (hlen ▸ ha)⟩
      simp [bytes]
    case fifth =>
      intro u
      have fifth : s.initiatorNak = u.partOver .bystander := initiatorNak_fifth hr hn
      exact ⟨exec_resendExhaustion hm ((fifthNak_initiator hr hd hc hn).trans fifth),
        fun hnak => row ((naks hnak).trans fifth)⟩
    case byteError =>
      rw [sends hi, Bool.eq_false_iff.2 (mt asSent_iff.1 has)]
      exact ite_self _
    case slotError =>
      rw [receives hi]
      exact receiveBlock_notDriven (by rwa [driven, hi])

end Sys2Proof.Machine
end

section
/-!
PROOFS. The header: its 48 bits, its check and what its fields say of the data phase (R9, R10, R12, R13, R16).
-/

namespace Sys2Proof.Machine

/-! ### The checking register (R10) -/

/-- A bit fed in that equals the register's own leading bit only shifts; any other leaves an odd register. -/
theorem crcBit_eq_shift {r d : Byte} : crcBit r d.msb = d <<< 1 ↔ r = d := by
  constructor
  · intro h
    by_cases hm : r.msb = d.msb
    · have shifted : r <<< 1 = d <<< 1 := by simpa [crcBit, hm] using h
      refine BitVec.eq_of_getLsbD_eq fun i hi => ?_
      by_cases h7 : i = 7
      · subst h7; simpa [BitVec.msb_eq_getLsbD_last] using hm
      · have bit := congrArg (BitVec.getLsbD · (i + 1)) shifted
        simpa [show i + 1 < 8 by omega, hi] using bit
    · have odd := congrArg (BitVec.getLsbD · 0) h
      simp [crcBit, hm, Config.crcPolynomial] at odd
  · rintro rfl
    simp [crcBit]

/-- The register is 0 after a byte exactly when it held that byte: its bits went out as the byte's came in. -/
theorem crcByte_eq_zero {r d : Byte} : crcByte r d = 0 ↔ r = d := by
  have bit : ∀ {r : Byte} (n : Nat), n < 8 →
      (crcBit r (d.getLsbD (7 - n)) = d <<< (n + 1) ↔ r = d <<< n) := fun {r} n hn => by
    have leading : d.getLsbD (7 - n) = (d <<< n).msb := by
      simp [BitVec.msb_eq_getLsbD_last, show ¬7 < n by omega, show 7 - n < 8 by omega]
    rw [leading, BitVec.shiftLeft_add, crcBit_eq_shift]
  have start : d <<< 8 = 0 := BitVec.shiftLeft_eq_zero (by decide)
  calc crcByte r d = 0 ↔ crcByte r d = d <<< 8 := by rw [start]
    _ ↔ r = d <<< 0 := by
      simp only [crcByte, List.foldl]
      rw [bit 7 (by decide), bit 6 (by decide), bit 5 (by decide), bit 4 (by decide),
        bit 3 (by decide), bit 2 (by decide), bit 1 (by decide), bit 0 (by decide)]
    _ ↔ r = d := by rw [BitVec.shiftLeft_zero]

theorem crc_append_eq_zero (bytes : List Byte) (check : Byte) :
    crc (bytes ++ [check]) = 0 ↔ check = crc bytes := by
  have last : crc (bytes ++ [check]) = crcByte (crc bytes) check := by
    rw [crc, List.foldl_append, List.foldl_cons, List.foldl_nil, crc]
  rw [last, crcByte_eq_zero, eq_comm]

/-! ### Bits and fields (R9) -/

theorem ofBool_getLsbD {w : Nat} (b : BitVec w) (i : Nat) :
    BitVec.ofBool (b.getLsbD i) = b.extractLsb' i 1 := by
  refine BitVec.eq_of_getLsbD_eq fun k hk => ?_
  obtain rfl : k = 0 := by omega
  simp

/-- The eight fields of 48 bits lie side by side in the first forty. -/
theorem fields_ofBits (b : BitVec 48) : (Header.ofBits b).fields = b.extractLsb' 8 40 := by
  simp only [Header.fields, Header.ofBits, ofBool_getLsbD]
  iterate 7 rw [BitVec.extractLsb'_append_extractLsb'_eq_extractLsb']
  all_goals rfl

theorem append_inj {v w : Nat} {x y : BitVec v} {a b : BitVec w} (h : x ++ a = y ++ b) :
    x = y ∧ a = b := by
  have high := congrArg (BitVec.extractLsb' w v) h
  have low := congrArg (BitVec.extractLsb' 0 w) h
  rw [BitVec.extractLsb'_append_eq_left, BitVec.extractLsb'_append_eq_left] at high
  rw [BitVec.extractLsb'_append_eq_right, BitVec.extractLsb'_append_eq_right] at low
  exact ⟨high, low⟩

theorem fields_injective {h k : Header} (e : h.fields = k.fields) : h = k := by
  obtain ⟨e, length⟩ := append_inj e
  obtain ⟨e, offset⟩ := append_inj e
  obtain ⟨e, page⟩ := append_inj e
  obtain ⟨e, operation⟩ := append_inj e
  obtain ⟨e, target⟩ := append_inj e
  obtain ⟨e, group⟩ := append_inj e
  obtain ⟨priority, initiator⟩ := append_inj e
  have group : h.group = k.group := by simpa using congrArg (BitVec.getLsbD · 0) group
  cases h; cases k
  simp_all

theorem ofBits_bits (h : Header) : Header.ofBits h.bits = h :=
  fields_injective ((fields_ofBits _).trans BitVec.extractLsb'_append_eq_left)

/-- The check passes exactly on the bits that the fields themselves send. -/
theorem headerCheckPasses_iff (b : BitVec 48) :
    headerCheckPasses b = true ↔ b = (Header.ofBits b).bits := by
  have parts : b = b.extractLsb' 8 40 ++ b.extractLsb' 0 8 := by
    rw [BitVec.extractLsb'_append_extractLsb'_eq_extractLsb']
    · exact BitVec.extractLsb'_eq_self.symm
    · rfl
  rw [headerCheckPasses, beq_iff_eq, Header.bits, fields_ofBits]
  constructor
  · intro h
    rw [h]
    exact parts
  · intro h
    have low := congrArg (BitVec.extractLsb' 0 8) h
    rw [BitVec.extractLsb'_append_eq_right] at low
    exact low.symm

theorem headerCheckPasses_bits (h : Header) : headerCheckPasses h.bits = true :=
  (headerCheckPasses_iff _).2 (by rw [ofBits_bits])

/-! ### The data phase (R12, R13, R16) -/

theorem collective_iff (h : Header) : h.collective = true ↔ h.group = true ∨ h.target = 127 := by
  simp [Header.collective]

/-- How many data bytes follow the header, by its operation code (R13). -/
theorem dataBytes_eq (h : Header) : h.dataBytes =
    let code := h.operation.toNat
    let given := if 1 ≤ h.length.toNat ∧ h.length.toNat ≤ 64 then h.length.toNat else 0
    if code = 2 ∨ code = 8 then given
    else if h.collective = true then 0
    else if code = 1 ∨ code = 5 ∨ code = 6 then given
    else if code = 7 then 8 else 0 := by
  simp only [Header.dataBytes, Operation.ofCode]
  generalize h.operation.toNat = code
  obtain _ | _ | _ | _ | _ | _ | _ | _ | _ | code := code
  all_goals simp

theorem initiatorSends_iff (h : Header) : h.initiatorSends = true ↔
    h.operation.toNat = 2 ∨ h.operation.toNat = 6 ∨ h.operation.toNat = 8 := by
  simp only [Header.initiatorSends]
  generalize h.operation = c
  revert c
  decide

/-- Settles O52: a header and its bits determine each other, and each of its fields is read as the rules say. -/
theorem headerBitsCarryTheFields : Obligations.HeaderBitsCarryTheFields := by
  refine ⟨fun h => ⟨ofBits_bits h, headerCheckPasses_bits h⟩, crc_append_eq_zero, ?examples,
    headerCheckPasses_iff, fun h => ?fields⟩
  case examples =>
    have bits := BitVec.msb_eq_getLsbD_last (w := 8)
    refine ⟨rfl, ?_, rfl⟩
    simp [crc, crcByte, crcBit, bits, Config.crcPreset, Config.crcPolynomial]
  case fields =>
    exact ⟨collective_iff h, dataBytes_eq h, rfl, initiatorSends_iff h, rfl⟩

end Sys2Proof.Machine
end

section
/-!
PROOFS. The normal end of a telegram (R14, R20, R23, R28, R53, R57, R64, R66 to R68, R71, R94, R95, R104).
-/

namespace Sys2Proof.Machine

section
variable {s : State} {j : Slot} {h : Header} {p : Page} {e : PageEntry} {u : EventUnit}

/-! ### The page a telegram acts on -/

/-- The state in which one page holds `e` and the Event Unit is `u`: the form of every effect on a page. -/
def State.withPage (s : State) (p : Page) (e : PageEntry) (u : EventUnit) : State :=
  { s with pages := s.pages.set p e, events := u }

@[simp] theorem withPage_page : (s.withPage p e u).page p = e := by
  simp [State.withPage, State.page]

@[simp] theorem withPage_withPage (e' : PageEntry) (u' : EventUnit) :
    (s.withPage p e u).withPage p e' u' = s.withPage p e' u' := by
  simp [State.withPage]

@[simp] theorem withPage_setPage (e' : PageEntry) :
    (s.withPage p e u).setPage p e' = s.withPage p e' u := withPage_withPage e' u

@[simp] theorem withPage_postNotice (n : Notice) :
    (s.withPage p e u).postNotice n = s.withPage p e (u.post n s.ticks.stamp) := rfl

@[simp] theorem withPage_cfg : (s.withPage p e u).cfg = s.cfg := rfl

theorem withPage_self (s : State) (p : Page) : s.withPage p (s.page p) s.events = s := by
  simp [State.withPage, State.page]

/-- The entry after the normal end of a served read (R57). -/
def PageEntry.consumed (e : PageEntry) : PageEntry :=
  if e.mode = .deferred ∧ e.lifetime = 0 then { e with freshness := .stale, countdown := 0 } else e

theorem withPage_consumeFreshness :
    (s.withPage p e u).consumeFreshness p = s.withPage p e.consumed u := by
  simp only [State.consumeFreshness, PageEntry.consumed, withPage_page, withPage_setPage]
  split <;> rfl

/-- A read never touches the claim. -/
theorem consumed_holder : e.consumed.holder = e.holder := by
  unfold PageEntry.consumed
  split <;> rfl

theorem withPage_renewLease : (s.withPage h.pageNumber e u).renewLease h =
    s.withPage h.pageNumber
      (if e.holder = .node h.initiator then { e with lease := s.cfg.lease } else e) u := by
  simp only [State.renewLease, withPage_page, withPage_setPage, withPage_cfg]
  split <;> rfl

theorem withPage_grantClaim_free (hf : e.holder = .none) :
    (s.withPage h.pageNumber e u).grantClaim h =
      s.withPage h.pageNumber { e with holder := .node h.initiator, lease := s.cfg.lease }
        (u.post (claimNotice .claimTaken h.pageNumber h.initiator (byte s.cfg.lease)) s.ticks.stamp) := by
  simp [State.grantClaim, hf]

theorem withPage_grantClaim_mine (hf : e.holder = .node h.initiator) :
    (s.withPage h.pageNumber e u).grantClaim h =
      s.withPage h.pageNumber { e with lease := s.cfg.lease } u := by
  simp [State.grantClaim, hf, withPage_renewLease]

theorem withPage_releaseClaim_mine (hf : e.holder = .node h.initiator) :
    (s.withPage h.pageNumber e u).releaseClaim h =
      s.withPage h.pageNumber { e with holder := .none, lease := 0 }
        (u.post (claimNotice .claimReleased h.pageNumber h.initiator (h.operation.setWidth 8))
          s.ticks.stamp) := by
  simp [State.releaseClaim, hf]

theorem withPage_releaseClaim_other (hf : e.holder ≠ .node h.initiator) :
    (s.withPage h.pageNumber e u).releaseClaim h = s.withPage h.pageNumber e u := by
  simp [State.releaseClaim, hf]

/-- Page memory after the write of the accepted telegram (R53). -/
def State.landed (s : State) (h : Header) : Memory :=
  s.pageMem.writeBytes Config.pageMemorySize (pageAddress h.pageNumber h.offset.toNat)
    s.responder.staging

theorem landWrite_eq : s.landWrite h = State.withPage { s with pageMem := s.landed h } h.pageNumber
    { s.page h.pageNumber with sequence := (s.page h.pageNumber).sequence + 1 }
    (s.events.post ⟨.pageWritten, byte h.pageNumber.val, h.initiator.setWidth 8,
      (s.page h.pageNumber).sequence + 1⟩ s.ticks.stamp) := rfl

/-- Bytes that would lie past the RAM's end land nowhere (log entry 22). -/
theorem Memory.read_writeBytes_clipped {size : Nat} {m : Memory} (hm : Memory.wf size m = true)
    (a : Nat) (bs : List Byte) (x : Nat) :
    Memory.read (Memory.writeBytes size m a bs) x =
      if a ≤ x ∧ x < a + bs.length ∧ x < size then bs.getD (x - a) 0 else Memory.read m x := by
  rw [Memory.writeBytes_eq_writeAt]
  split
  next hx =>
    obtain ⟨hle, hlt, hsize⟩ := hx
    obtain ⟨i, rfl⟩ := Nat.exists_eq_add_of_le hle
    have hi : i < bs.length := by omega
    rw [Nat.add_sub_cancel_left, List.getD_eq_getElem _ _ hi]
    exact Memory.read_writeAt (addr := id) hm hi hsize fun k _ hk => Nat.add_left_cancel hk
  next hx =>
    refine Memory.read_writeAt_other hm fun i hi he => ?_
    simp only [id] at he
    omega

theorem landed_read (hm : s.pageMem.wf Config.pageMemorySize = true) (a : Nat) : (s.landed h).read a =
    if 64 * h.pageNumber.val + h.offset.toNat ≤ a ∧
        a < 64 * h.pageNumber.val + h.offset.toNat + s.responder.staging.length ∧ a < 4096 then
      s.responder.staging.getD (a - (64 * h.pageNumber.val + h.offset.toNat)) 0
    else s.pageMem.read a := by
  rw [State.landed, Memory.read_writeBytes_clipped hm, pageAddress, Nat.mul_comm]
  rfl

/-! ### The accepted operation -/

theorem marker_page {op : Operation} (ho : Operation.ofCode h.operation = some op)
    (hs : op ≠ .status) (hm : op ≠ .message) : h.marker = .page h.pageNumber := by
  cases op <;> simp_all [Header.marker]

theorem operationEffects_read (ho : Operation.ofCode h.operation = some .read) :
    s.operationEffects h = s.withPage h.pageNumber
      (if (s.page h.pageNumber).holder = .node h.initiator then
        { (s.page h.pageNumber).consumed with lease := s.cfg.lease }
      else (s.page h.pageNumber).consumed) s.events := by
  simp only [State.operationEffects, ho]
  conv_lhs => rw [← withPage_self s h.pageNumber]
  rw [withPage_consumeFreshness, withPage_renewLease, consumed_holder]

/-- A write renews the writer's own claim, but for a collective one (R66). -/
theorem operationEffects_write (ho : Operation.ofCode h.operation = some .write) :
    let written := { s.page h.pageNumber with sequence := (s.page h.pageNumber).sequence + 1 }
    s.operationEffects h = State.withPage { s with pageMem := s.landed h } h.pageNumber
      (if (s.page h.pageNumber).holder = .node h.initiator ∧ h.collective = false then
        { written with lease := s.cfg.lease } else written)
      (s.events.post ⟨.pageWritten, byte h.pageNumber.val, h.initiator.setWidth 8,
        (s.page h.pageNumber).sequence + 1⟩ s.ticks.stamp) := by
  cases hc : h.collective <;>
    simp [State.operationEffects, ho, hc, landWrite_eq, withPage_renewLease]

/-- CLAIM and READ_CLAIM grant on the page as READ_CLAIM's read has left it (R64, R94). -/
theorem operationEffects_claims
    (ho : Operation.ofCode h.operation = some .claim ∨ Operation.ofCode h.operation = some .readClaim) :
    s.operationEffects h = (s.withPage h.pageNumber
      (if Operation.ofCode h.operation = some .readClaim then (s.page h.pageNumber).consumed
        else s.page h.pageNumber) s.events).grantClaim h := by
  rcases ho with ho | ho
  · simp [State.operationEffects, ho, withPage_self]
  · simp only [State.operationEffects, ho, if_true]
    rw [← withPage_consumeFreshness, withPage_self]

theorem operationEffects_release (ho : Operation.ofCode h.operation = some .release) :
    s.operationEffects h =
      (s.withPage h.pageNumber (s.page h.pageNumber) s.events).releaseClaim h := by
  simp [State.operationEffects, ho, withPage_self]

theorem operationEffects_writeRelease (ho : Operation.ofCode h.operation = some .writeRelease) :
    s.operationEffects h = (State.withPage { s with pageMem := s.landed h } h.pageNumber
      { s.page h.pageNumber with sequence := (s.page h.pageNumber).sequence + 1 }
      (s.events.post ⟨.pageWritten, byte h.pageNumber.val, h.initiator.setWidth 8,
        (s.page h.pageNumber).sequence + 1⟩ s.ticks.stamp)).releaseClaim h := by
  simp [State.operationEffects, ho, landWrite_eq]

theorem operationEffects_message (ho : Operation.ofCode h.operation = some .message) :
    s.operationEffects h =
      { s with inbound := s.inbound.commit s.responder.staging s.ticks.stamp } := by
  simp [State.operationEffects, ho]

/-! ### What an operation leaves alone -/

theorem operationEffects_inbound (ho : Operation.ofCode h.operation ≠ some .message) :
    (s.operationEffects h).inbound = s.inbound := by
  unfold State.operationEffects
  split
  case h_7 hm => exact absurd hm ho
  all_goals simp [apply_ite]

theorem operationEffects_pageMem
    (ho : Operation.ofCode h.operation ∉ [some Operation.write, some .writeRelease]) :
    (s.operationEffects h).pageMem = s.pageMem := by
  unfold State.operationEffects
  split
  case h_2 hw => simp [hw] at ho
  case h_6 hw => simp [hw] at ho
  all_goals simp

/-! ### All of the accepted telegram's effects (R71, R94) -/

theorem applyEffects_pageMem : (s.applyEffects h).pageMem = (s.operationEffects h).pageMem := by
  unfold State.applyEffects
  split <;> simp

theorem applyEffects_inbound : (s.applyEffects h).inbound = (s.operationEffects h).inbound := by
  unfold State.applyEffects
  split <;> simp

theorem applyEffects_responder : (s.applyEffects h).responder =
    { s.responder with marker := .clear, staging := [], snapshot := none } := by
  unfold State.applyEffects
  split <;> simp [State.clearAccepted]

/-- The effects are on pages, page memory, the Inbound Store and the Event Unit; the Responder is clear again. -/
theorem applyEffects_frame : s.applyEffects h = { s with
    responder := { s.responder with marker := .clear, staging := [], snapshot := none }
    pages := (s.applyEffects h).pages
    pageMem := (s.applyEffects h).pageMem
    inbound := (s.applyEffects h).inbound
    events := (s.applyEffects h).events } := by
  have kept := applyEffects_keeps s h
  have cleared : (s.applyEffects h).responder = _ := applyEffects_responder
  generalize s.applyEffects h = t at *
  cases t
  simp_all

/-- Without a page there is nothing to resolve: MESSAGE, STATUS and undefined codes change no page. -/
theorem applyEffects_noPage
    (ho : Operation.ofCode h.operation ∈ [some Operation.message, some .status, none]) :
    (s.applyEffects h).pages = s.pages ∧ (s.applyEffects h).events = s.events := by
  rcases hop : Operation.ofCode h.operation with _ | op
  · simp [State.applyEffects, State.operationEffects, Header.marker, hop]
  · have hop' : op = .message ∨ op = .status := by simpa [hop] using ho
    rcases hop' with rfl | rfl <;>
      simp [State.applyEffects, State.operationEffects, Header.marker, hop]

/-- The page is left holding `last` and the Event Unit `events`, or, where `last` carries a pending expiry, the
page without its claim and the notice of that after them (R71). -/
def State.Leaves (s t : State) (p : Page) (last : PageEntry) (events : EventUnit) : Prop :=
  (∀ a, last.holder = .node a → last.lease = 0 →
    t.pages = s.pages.set p { last with holder := .none, lease := 0 } ∧
    t.events = events.post ⟨.claimExpired, byte p.val, a.setWidth 8, 2⟩ s.ticks.stamp) ∧
  ((∀ a, last.holder = .node a → last.lease ≠ 0) → t.pages = s.pages.set p last ∧ t.events = events)

theorem resolvePending_leaves {t : State} (hp : t.page p = e) (ht : t.ticks = s.ticks)
    (hs : ∀ e', t.pages.set p e' = s.pages.set p e') : s.Leaves (t.resolvePending p) p e t.events := by
  subst hp
  have same : t.pages = s.pages.set p (t.page p) := by
    rw [← hs]
    exact (Vector.set_getElem_self _).symm
  refine ⟨fun a ha hl => ?_, fun hl => ?_⟩
  · rw [resolvePending_pending ha hl, ← hs, ← ht]
    exact ⟨rfl, rfl⟩
  · rw [resolvePending_notPending hl]
    exact ⟨same, rfl⟩

theorem applyEffects_leaves {w : State} (hk : h.marker = .page p)
    (ho : s.operationEffects h = w.withPage p e u) (hp : w.pages = s.pages) (ht : w.ticks = s.ticks) :
    s.Leaves (s.applyEffects h) p e u := by
  have resolved : s.applyEffects h = (w.withPage p e u).clearAccepted.resolvePending p := by
    simp only [State.applyEffects, ho, hk]
  rw [resolved]
  exact resolvePending_leaves (t := (w.withPage p e u).clearAccepted)
    (withPage_page (u := u)) ht
    fun e' => by simp [State.withPage, hp]

/-! ### The record of a message (R102, R104) -/

theorem recordHeaderBytes_eq (h : Header) (stamp : Stamp) : recordHeaderBytes h stamp =
    [if h.group then 2 else if h.target = 127 then 3 else 1,
      h.initiator.setWidth 8, BitVec.ofBool h.group ++ h.target,
      h.length.setWidth 8, stamp.extractLsb' 8 8, stamp.extractLsb' 0 8] := by
  simp [recordHeaderBytes, Header.recordKind, Header.targetByte]

/-- Bytes written round the ring: each at its place, if they fit it once, and no other place touched. -/
theorem Memory.read_writeRing {size : Nat} {m : Memory} (hm : Memory.wf size m = true) (hz : 0 < size)
    (a : Nat) (bs : List Byte) :
    (bs.length ≤ size → ∀ k (hk : k < bs.length),
      Memory.read (Memory.writeRing size m a bs) ((a + k) % size) = bs[k]) ∧
    ∀ x, (∀ k < bs.length, x ≠ (a + k) % size) →
      Memory.read (Memory.writeRing size m a bs) x = Memory.read m x := by
  rw [Memory.writeRing_eq_writeAt]
  refine ⟨fun hl k hk => ?_, fun x hx => ?_⟩
  · refine Memory.read_writeAt (addr := (· % size)) hm hk (Nat.mod_lt _ hz) fun i hi he => ?_
    have same : i % size = k % size := Nat.ModEq.add_left_cancel' a he
    rwa [Nat.mod_eq_of_lt (by omega), Nat.mod_eq_of_lt (by omega)] at same
  · exact Memory.read_writeAt_other hm fun i hi he => absurd he.symm (hx i hi)

/-! ### The end of a telegram (R14, R20, R23) -/

theorem endOutcome_eq {x y : Level} : endOutcome h [x, y] =
    if h.collective then .normalEnd
    else if x = .recessive ∧ y = .recessive then .silence
    else if x = .dominant ∧ y = .recessive then .busy
    else if x = .recessive ∧ y = .dominant then .refuse else .normalEnd := by
  cases x <;> cases y <;> rfl

theorem reachEnd_initiator (hr : s.link.role = .initiator j h) (he : s.atEnd = true) :
    s.reachEnd = (s.takeOutcome j (endOutcome h s.link.slot)).cleanTelegram.partOver .idle := by
  simp only [State.reachEnd, he, if_true, State.endEffects, hr, leaveTelegram_eq_partOver]

theorem reachEnd_notAccepted {a : Answer} (hr : s.link.role = .target h a) (ha : a ≠ .ack)
    (he : s.atEnd = true) : s.reachEnd = s.cleanTelegram.partOver .idle := by
  cases a
  case ack => exact absurd rfl ha
  all_goals simp only [State.reachEnd, he, if_true, State.endEffects, hr, leaveTelegram_eq_partOver]

theorem reachEnd_accepted (hr : s.link.role = .target h .ack ∨ s.link.role = .member h true)
    (he : s.atEnd = true) : s.reachEnd = (s.applyEffects h).cleanTelegram.partOver .idle := by
  rcases hr with hr | hr <;>
    simp only [State.reachEnd, he, if_true, State.endEffects, hr, leaveTelegram_eq_partOver]

end

/-- Settles O57. The accepted telegram's end is `applyEffects` and then the clean count; each operation's effect is
one page entry, resolved last, or one record in the ring. -/
theorem normalEndAppliesTheEffects : Obligations.NormalEndAppliesTheEffects := by
  intro s₀ s (hm : s₀.mode = .running) hslot clean
  refine ⟨?own, ?notAccepted, ?accepted⟩
  case own =>
    intro j h hr x y hxy hend outcome
    have he : s.atEnd = true := (atEnd_initiator hr).2 ⟨hslot, hend.imp_left fun ⟨hc, hn⟩ =>
      ⟨hc, by simpa [hxy] using hn⟩⟩
    refine exec_normalEnd hm ((reachEnd_initiator hr he).trans ?_)
    rw [hxy, endOutcome_eq]
    rfl
  case notAccepted =>
    intro h a hr ha
    exact exec_normalEnd hm (reachEnd_notAccepted hr ha ((atEnd_target hr).2 ⟨hslot, .inl ha⟩))
  case accepted =>
    intro h hr hk ⟨hpages, hring, _, _⟩ op p e mine note consumed written lands leaves
    have he : s.atEnd = true := by
      rcases hr with hr | hr
      · exact (atEnd_target hr).2 ⟨hslot, .inr hk⟩
      · exact (atEnd_member hr).2 ⟨hslot, rfl, hk⟩
    have onPage : ∀ {o w last ev}, op = some o → o ≠ .status → o ≠ .message →
        s.operationEffects h = State.withPage w p last ev → w.pages = s.pages → w.ticks = s.ticks →
        leaves (s.applyEffects h).cleanTelegram last ev :=
      fun ho h₁ h₂ hq hp ht => applyEffects_leaves (marker_page ho h₁ h₂) hq hp ht
    refine ⟨(s.applyEffects h).cleanTelegram, exec_normalEnd hm (reachEnd_accepted hr he),
      congrArg clean applyEffects_frame,
      fun ho => applyEffects_inbound.trans (operationEffects_inbound ho),
      fun ho => applyEffects_pageMem.trans (operationEffects_pageMem ho), applyEffects_noPage,
      ?read, ?write, ?claim, ?release, ?writeRelease, ?message⟩
    case read => exact fun ho => onPage ho (by decide) (by decide) (operationEffects_read ho) rfl rfl
    case write =>
      intro ho
      have wrote := operationEffects_write (s := s) ho
      have mem : (s.applyEffects h).pageMem = s.landed h :=
        applyEffects_pageMem.trans (congrArg State.pageMem wrote)
      exact ⟨fun a => (congrArg (Memory.read · a) mem).trans (landed_read hpages a),
        onPage ho (by decide) (by decide) wrote rfl rfl⟩
    case claim =>
      intro ho base
      have claims := operationEffects_claims (s := s) ho
      have holder : base.holder = e.holder := by
        simp only [base]
        split
        · exact consumed_holder
        · rfl
      have onClaimed : ∀ {w last ev}, s.operationEffects h = State.withPage w p last ev →
          w.pages = s.pages → w.ticks = s.ticks → leaves (s.applyEffects h).cleanTelegram last ev :=
        fun hq => ho.elim (onPage · (by decide) (by decide) hq) (onPage · (by decide) (by decide) hq)
      exact ⟨fun hf => onClaimed (claims.trans (withPage_grantClaim_free (holder.trans hf))) rfl rfl,
        fun hf => onClaimed (claims.trans (withPage_grantClaim_mine (holder.trans hf))) rfl rfl⟩
    case release =>
      intro ⟨ho, hf⟩
      exact onPage ho (by decide) (by decide)
        ((operationEffects_release ho).trans (withPage_releaseClaim_mine hf)) rfl rfl
    case writeRelease =>
      intro ho
      have both := operationEffects_writeRelease (s := s) ho
      have mem : (s.applyEffects h).pageMem = s.landed h :=
        (applyEffects_pageMem.trans (congrArg State.pageMem both)).trans (by simp [State.withPage])
      refine ⟨fun a => (congrArg (Memory.read · a) mem).trans (landed_read hpages a),
        fun hf => ?_, fun hf => ?_⟩
      · exact onPage ho (by decide) (by decide)
          (both.trans (withPage_releaseClaim_mine hf)) rfl rfl
      · exact onPage ho (by decide) (by decide)
          (both.trans (withPage_releaseClaim_other hf)) rfl rfl
    case message =>
      intro ho r hres record
      have committed : (s.applyEffects h).inbound = s.inbound.commit s.responder.staging s.ticks.stamp :=
        applyEffects_inbound.trans (congrArg State.inbound (operationEffects_message ho))
      refine ⟨s.inbound.ring.writeRing Config.ringSize r.start record, ?_,
        Memory.read_writeRing hring (by decide) r.start record⟩
      refine committed.trans ?_
      simp only [InboundStore.commit, hres, recordHeaderBytes_eq, record]

end Sys2Proof.Machine
end

section
/-!
PROOFS. The Responder's checks, in their order (R45, R63, R81 to R85).
-/

namespace Sys2Proof.Machine

section
variable {s : State} {h : Header} {op : Operation} {e : PageEntry}

/-! ### The kinds of operation (R45) -/

theorem readType_iff : op.readType = true ↔ op = .read ∨ op = .readClaim := by
  cases op <;> simp [Operation.readType]

theorem writeType_iff : op.writeType = true ↔ op = .write ∨ op = .writeRelease := by
  cases op <;> simp [Operation.writeType]

theorem claimType_iff : op.claimType = true ↔ op = .claim ∨ op = .readClaim := by
  cases op <;> simp [Operation.claimType]

/-! ### The checks on the page's entry (steps 5, 6 and 8) -/

theorem forbids_iff : e.forbids h op = true ↔
    (e.allowed ≠ 0 ∧ e.allowed ≠ h.initiator) ∨
      ((op = .read ∨ op = .readClaim) ∧ e.access = .writeOnly) ∨
      ((op = .write ∨ op = .writeRelease) ∧ e.access = .readOnly) ∨
      ((op = .claim ∨ op = .readClaim) ∧ e.claimable = false) := by
  simp [PageEntry.forbids, readType_iff, writeType_iff, claimType_iff, or_assoc]

theorem outOfRange_iff : e.outOfRange h op = true ↔
    ((op = .read ∨ op = .readClaim) ∨ (op = .write ∨ op = .writeRelease)) ∧
      (h.length.toNat = 0 ∨ e.length < h.offset.toNat + h.length.toNat) := by
  simp [PageEntry.outOfRange, readType_iff, writeType_iff, BitVec.toNat_eq]

theorem conflicts_iff : e.conflicts h op = true ↔
    op ≠ .read ∧ e.holder ≠ .none ∧ e.holder ≠ .node h.initiator := by
  simp [PageEntry.conflicts, and_assoc]

/-! ### Which check a header comes to -/

theorem decision_undefined (ho : Operation.ofCode h.operation = none) :
    s.decision h = .refuse .badOp := by simp [State.decision, ho]

theorem decision_groupOp (ho : Operation.ofCode h.operation = some op) (hc : h.collective = true)
    (hw : op ≠ .write) (hm : op ≠ .message) : s.decision h = .refuse .groupOp := by
  simp [State.decision, ho, hc, hw, hm]

theorem decision_message (ho : Operation.ofCode h.operation = some .message) :
    s.decision h = s.messageDecision h := by simp [State.decision, ho]

theorem decision_status (ho : Operation.ofCode h.operation = some .status)
    (hc : h.collective = false) : s.decision h = .accept := by simp [State.decision, ho, hc]

/-- A page operation that check 1 lets pass is decided by the page's entry. -/
theorem decision_page (ho : Operation.ofCode h.operation = some op)
    (hc : h.collective = false ∨ op = .write) (hm : op ≠ .message) (hs : op ≠ .status) :
    s.decision h = (s.page h.pageNumber).decision h op := by
  have passes : ¬(h.collective = true ∧ op ≠ .write ∧ op ≠ .message) := fun ⟨hg, hw, _⟩ =>
    hc.elim (by simp [hg]) hw
  simp only [State.decision, ho, if_neg passes]
  cases op <;> first | rfl | contradiction

end

/-- Settles O53: the operation names the group of checks, and a page operation's checks are passed one by one. -/
theorem responderDecidesInOrder : Obligations.ResponderDecidesInOrder := by
  intro s h e
  refine ⟨decision_undefined, fun op ho => ?_⟩
  intro collective free len
  have hcoll : h.collective = true ↔ collective := collective_iff h
  refine ⟨fun hc => decision_groupOp ho (hcoll.2 hc), ?message, ?status, ?page⟩
  case message =>
    rintro rfl
    simp only [decision_message ho, State.messageDecision, Bool.not_eq_true']
    rfl
  case status =>
    rintro hc rfl
    exact decision_status ho (by simpa [← hcoll] using hc)
  case page =>
    intro hc hm hs reads writes claims forbidden outside stranger conflict stale
    have individual : h.collective = false ∨ op = .write := by simpa [← hcoll] using hc
    have decided : s.decision h = e.decision h op := decision_page ho individual hm hs
    have hf : e.forbids h op = true ↔ forbidden := forbids_iff
    have hr : e.outOfRange h op = true ↔ outside := outOfRange_iff
    have hx : e.conflicts h op = true ↔ conflict := conflicts_iff
    have ht : (op.readType = true ∧ e.mode = .deferred ∧ e.freshness ≠ .fresh) ↔ stale :=
      and_congr_left' readType_iff
    rw [decided, PageEntry.decision]
    refine ⟨fun h₁ => if_pos h₁, fun h₁ h₂ => ?access, fun h₁ h₂ h₃ => ?range,
      fun h₁ h₂ h₃ h₄ => ?notHolder, fun h₁ h₂ h₃ h₄ h₅ => ?claimed,
      fun h₁ h₂ h₃ h₄ h₅ h₆ => ?refreshing, fun h₁ h₂ h₃ h₄ h₅ h₆ => ?accept⟩ <;>
      rw [if_neg h₁]
    case access => rw [if_pos (hf.2 h₂)]
    all_goals rw [if_neg (mt hf.1 h₂)]
    case range => rw [if_pos (hr.2 h₃)]
    all_goals rw [if_neg (mt hr.1 h₃)]
    case notHolder => rw [if_pos h₄]
    all_goals rw [if_neg h₄]
    case claimed => rw [if_pos (hx.2 h₅)]
    all_goals rw [if_neg (mt hx.1 h₅)]
    case refreshing => rw [if_pos (ht.2 h₆)]
    case accept => rw [if_neg (mt ht.1 h₆)]

end Sys2Proof.Machine
end

section
/-!
SUPPORT. The Page Directory: what a page entry must be by itself (R44, R51, R62, R70), and that each change of an entry
keeps it so.
-/

namespace Sys2Proof.Machine

/-- What `State.pageLaw` asks of one entry, by whether its page is in flight. -/
structure PageEntry.Lawful (e : PageEntry) (flight : Bool) : Prop where
  closed : e.mode = .closed → e = .default
  flightOpen : flight = true → e.mode ≠ .closed
  lease : ∀ a, e.holder = .node a → 1 ≤ e.lease ∨ flight = true
  noLease : e.holder.remote = false → e.lease = 0
  length : 1 ≤ e.length ∧ e.length ≤ 64
  opened : e.mode = .opened → e.freshness = .stale ∧ e.countdown = 0

theorem pageLaw_iff {s : State} : s.pageLaw ↔ ∀ p, (s.page p).Lawful (s.inFlight p) := by
  constructor
  · intro ⟨closed, flight, lease, noLease, length, opened⟩ p
    exact ⟨closed p, flight p, lease p, noLease p, length p, opened p⟩
  · intro h
    exact ⟨fun p => (h p).closed, fun p => (h p).flightOpen, fun p => (h p).lease,
      fun p => (h p).noLease, fun p => (h p).length, fun p => (h p).opened⟩

section
variable {e : PageEntry} {flight : Bool}

/-- A claimed page is open: a CLOSED one holds the default entry. -/
theorem PageEntry.Lawful.open_of_claimed (he : e.Lawful flight) (hc : e.holder ≠ .none) :
    e.mode ≠ .closed := by
  intro hm
  rw [he.closed hm] at hc
  exact hc rfl

theorem lawful_default : PageEntry.default.Lawful false :=
  ⟨fun _ => rfl, by simp, by simp [PageEntry.default], fun _ => rfl, by simp [PageEntry.default],
    by simp [PageEntry.default]⟩

theorem PageEntry.Lawful.withSequence (he : e.Lawful flight) (ho : e.mode ≠ .closed) (q : Byte) :
    PageEntry.Lawful { e with sequence := q } flight :=
  ⟨fun hm => absurd hm ho, he.flightOpen, he.lease, he.noLease, he.length, he.opened⟩

/-- A claim taken, renewed or dropped. -/
theorem PageEntry.Lawful.withClaim (he : e.Lawful flight) (ho : e.mode ≠ .closed) {c : Holder} {n : Nat}
    (hl : ∀ a, c = .node a → 1 ≤ n ∨ flight = true) (hn : c.remote = false → n = 0) :
    PageEntry.Lawful { e with holder := c, lease := n } flight :=
  ⟨fun hm => absurd hm ho, he.flightOpen, hl, hn, he.length, he.opened⟩

theorem PageEntry.Lawful.unclaimed (he : e.Lawful flight) (ho : e.mode ≠ .closed) :
    PageEntry.Lawful { e with holder := .none, lease := 0 } flight :=
  he.withClaim ho (by simp) (fun _ => rfl)

/-- The freshness of a DEFERRED page. -/
theorem PageEntry.Lawful.withFreshness (he : e.Lawful flight) (hd : e.mode = .deferred) (f : Freshness)
    (n : Nat) : PageEntry.Lawful { e with freshness := f, countdown := n } flight :=
  ⟨fun hm => by simp [hd] at hm, fun _ => by simp [hd], he.lease, he.noLease, he.length,
    fun hm => by simp [hd] at hm⟩

/-- A page that was not in flight may be so while it is open. -/
theorem PageEntry.Lawful.takeOff (he : e.Lawful false) (ho : flight = true → e.mode ≠ .closed) :
    e.Lawful flight :=
  ⟨he.closed, ho, fun a ha => (he.lease a ha).imp_right (by simp), he.noLease, he.length, he.opened⟩

/-- A page that carries no pending expiry may stop being in flight (R71). -/
theorem PageEntry.Lawful.land (he : e.Lawful flight) (hl : ∀ a, e.holder = .node a → e.lease ≠ 0) :
    e.Lawful false :=
  ⟨he.closed, by simp, fun a ha => .inl (Nat.one_le_iff_ne_zero.2 (hl a ha)), he.noLease, he.length,
    he.opened⟩

theorem PageEntry.Lawful.freshnessTick (he : e.Lawful flight) : e.freshnessTick.Lawful flight := by
  unfold PageEntry.freshnessTick
  split
  next hd =>
    split
    · exact he.withFreshness hd.1 _ _
    · exact he.withFreshness hd.1 e.freshness _
  · exact he

theorem PageEntry.Lawful.consumed (he : e.Lawful flight) : e.consumed.Lawful flight := by
  unfold PageEntry.consumed
  split
  next hd => exact he.withFreshness hd.1 _ _
  · exact he

theorem PageEntry.Lawful.committed (he : e.Lawful flight) (ho : e.mode ≠ .closed) :
    e.committed.Lawful flight := by
  have next := he.withSequence ho (e.sequence + 1)
  unfold PageEntry.committed
  split
  next hd => exact next.withFreshness hd _ _
  · exact next

/-- PAGE_DEFINE stores an open, STALE, unclaimed page (R46). -/
theorem lawful_definition {p : Params} (h : definitionOf p = some e) (flight : Bool) : e.Lawful flight := by
  unfold definitionOf at h
  split at h
  next mode access hmode _ =>
    have ho : mode ≠ .closed := by
      rintro rfl
      unfold PageMode.ofCode at hmode
      split at hmode <;> cases hmode
    split at h
    next legal =>
      cases h
      exact ⟨fun hm => absurd hm ho, fun _ => ho, by simp [PageEntry.default], fun _ => rfl,
        ⟨legal.1, legal.2.1⟩, fun _ => ⟨rfl, rfl⟩⟩
    next => cases h
  next => cases h

end

/-! ### One page stored -/

@[simp] theorem page_postNotice (s : State) (n : Notice) (p : Page) :
    (s.postNotice n).page p = s.page p := rfl

@[simp] theorem inFlight_setPage (s : State) (p q : Page) (e : PageEntry) :
    (s.setPage p e).inFlight q = s.inFlight q := rfl

/-- The law speaks of the pages and of which of them is in flight. -/
theorem pageLaw_congr {s t : State} (hp : t.pages = s.pages) (hf : ∀ p, t.inFlight p = s.inFlight p)
    (hs : s.pageLaw) : t.pageLaw := by
  rw [pageLaw_iff] at hs ⊢
  intro p
  rw [page_congr hp, hf]
  exact hs p

theorem pageLaw_setPage {s : State} (hs : s.pageLaw) {p : Page} {e : PageEntry}
    (he : e.Lawful (s.inFlight p)) : (s.setPage p e).pageLaw := by
  rw [pageLaw_iff] at hs ⊢
  intro q
  rw [page_setPage, inFlight_setPage]
  split
  next h => exact h ▸ he
  next => exact hs q

theorem pageLaw_postNotice {s : State} (hs : s.pageLaw) (n : Notice) : (s.postNotice n).pageLaw :=
  pageLaw_congr (by rfl) (fun _ => by rfl) hs

theorem pageLaw_page {s : State} (hs : s.pageLaw) (p : Page) : (s.page p).Lawful (s.inFlight p) :=
  pageLaw_iff.1 hs p

theorem expireClaim_page (s : State) (p q : Page) (a : Addr) (d : Byte) :
    (s.expireClaim p a d).page q =
      if q = p then { s.page p with holder := .none, lease := 0 } else s.page q := by
  rw [State.expireClaim, page_postNotice, page_setPage]

theorem pageLaw_expireClaim {s : State} (hs : s.pageLaw) {p : Page} {a : Addr}
    (ha : (s.page p).holder = .node a) (d : Byte) : (s.expireClaim p a d).pageLaw :=
  pageLaw_postNotice (pageLaw_setPage hs ((pageLaw_page hs p).unclaimed
    ((pageLaw_page hs p).open_of_claimed (by simp [ha])))) _

/-! ### The countdowns of a page (R57, R69, R70) -/

/-- A lease's share of a tick: nothing, the expiry of the claim, or one tick less. -/
theorem leaseTick_cases (s : State) (p : Page) :
    s.leaseTick p = s ∨
    ∃ a, (s.page p).holder = .node a ∧
      (s.inFlight p = false ∧ s.leaseTick p = s.expireClaim p a 1 ∨
        (1 < (s.page p).lease ∨ s.inFlight p = true) ∧
          s.leaseTick p = s.setPage p { s.page p with lease := (s.page p).lease - 1 }) := by
  unfold State.leaseTick
  dsimp only
  split
  · exact .inl rfl
  · exact .inl rfl
  next a ha =>
    split
    · exact .inl rfl
    next hz =>
      refine .inr ⟨a, ha, ?_⟩
      split
      next h1 =>
        split
        next hf => exact .inr ⟨.inr hf, by rw [h1]⟩
        next hf => exact .inl ⟨by simpa using hf, rfl⟩
      next h1 => exact .inr ⟨.inl (by omega), rfl⟩

theorem pageLaw_leaseTick {s : State} (hs : s.pageLaw) (p : Page) : (s.leaseTick p).pageLaw := by
  have he := pageLaw_page hs p
  rcases leaseTick_cases s p with h | ⟨a, ha, ⟨_, h⟩ | ⟨hl, h⟩⟩ <;> rw [h]
  · exact hs
  · exact pageLaw_expireClaim hs ha 1
  · refine pageLaw_setPage hs (he.withClaim (he.open_of_claimed (by simp [ha]))
      (c := (s.page p).holder) (fun _ _ => hl.imp_left (by omega)) ?_)
    simp [ha, Holder.remote]

theorem pageLaw_freshnessTick {s : State} (hs : s.pageLaw) (p : Page) : (s.freshnessTick p).pageLaw := by
  unfold State.freshnessTick
  split
  · exact hs
  · exact pageLaw_setPage hs (pageLaw_page hs p).freshnessTick

/-- A countdown's share of a tick concerns the pages only if it is a page's. -/
theorem applyShare_pages (s : State) (b : Bool) (x : TickShare) :
    (∃ p, s.applyShare b x = s.leaseTick p ∨ s.applyShare b x = s.freshnessTick p) ∨
      (s.applyShare b x).pages = s.pages := by
  cases x with
  | lease p => exact .inl ⟨p, .inl rfl⟩
  | freshness p => exact .inl ⟨p, .inr rfl⟩
  | recovery | deadline j | retry j => exact .inr (by simp [State.applyShare])

theorem pageLaw_applyShare {s : State} (hs : s.pageLaw) (b : Bool) (x : TickShare) :
    (s.applyShare b x).pageLaw := by
  rcases applyShare_pages s b x with ⟨p, h | h⟩ | h
  · exact h ▸ pageLaw_leaseTick hs p
  · exact h ▸ pageLaw_freshnessTick hs p
  · exact pageLaw_congr h (inFlight_congr (by simp)) hs

/-! ### The in-flight page is given up (R71, R94, R97) -/

/-- The page in flight stops being so, its pending expiry taken. -/
theorem pageLaw_resolve {s : State} (hs : s.pageLaw) {p : Page} (hk : s.responder.marker = .page p) :
    (s.clearAccepted.resolvePending p).pageLaw := by
  have he := pageLaw_page hs p
  have grounded : ∀ q, (s.clearAccepted.resolvePending p).inFlight q = false := by
    simp [State.inFlight, State.clearAccepted]
  have others : ∀ q, q ≠ p → (s.page q).Lawful false := fun q hq => by
    have hq' : s.inFlight q = false := by simpa [State.inFlight, hk] using Ne.symm hq
    exact hq' ▸ pageLaw_page hs q
  rw [pageLaw_iff]
  intro q
  rw [grounded]
  rcases resolvePending_cases s.clearAccepted p with ⟨a, ha, hl, h⟩ | ⟨hl, h⟩ <;> rw [h]
  · rw [expireClaim_page]
    split
    · exact (he.unclaimed (he.open_of_claimed (by simp [show (s.page p).holder = _ from ha]))).land
        (by simp)
    next hq => exact others q hq
  · by_cases hq : q = p
    · exact hq ▸ he.land hl
    · exact others q hq

theorem pageLaw_clear {s t : State} (hs : s.pageLaw) (hp : t.pages = s.pages)
    (hm : ∀ p, s.responder.marker ≠ .page p) (ht : t.responder.marker = .clear) : t.pageLaw := by
  refine pageLaw_congr hp (fun p => ?_) hs
  simp [State.inFlight, ht, hm]

theorem pageLaw_abandonAccepted {s : State} (hs : s.pageLaw) : s.abandonAccepted.pageLaw := by
  cases hk : s.responder.marker with
  | page p => exact abandonAccepted_page hk ▸ pageLaw_resolve hs hk
  | inbound =>
    exact pageLaw_clear hs (by simp [abandonAccepted_inboundMarker hk]) (by simp [hk])
      (by simp [abandonAccepted_responder])
  | clear =>
    exact pageLaw_clear hs (by simp [abandonAccepted_clear hk]) (by simp [hk])
      (by simp [abandonAccepted_responder])

end Sys2Proof.Machine
end

section
/-!
SUPPORT. What a row can do to the pages and to the in-flight marker, said once: the page laws are read off it.
-/

namespace Sys2Proof.Machine

/-! ### The effects of an accepted operation keep the law (R53, R57, R64 to R68) -/

section
variable {s : State} {h : Header}

theorem pageLaw_consumeFreshness (hs : s.pageLaw) (p : Page) : (s.consumeFreshness p).pageLaw := by
  rw [← withPage_self s p, withPage_consumeFreshness]
  exact pageLaw_setPage hs (pageLaw_page hs p).consumed

variable (lease : 1 ≤ s.cfg.lease)
include lease

theorem pageLaw_renewLease (hs : s.pageLaw) : (s.renewLease h).pageLaw := by
  unfold State.renewLease
  have he := pageLaw_page hs h.pageNumber
  split
  next hc =>
    exact pageLaw_setPage hs (he.withClaim (he.open_of_claimed (by simp [hc]))
      (c := (s.page h.pageNumber).holder) (fun _ _ => .inl lease) (by simp [hc, Holder.remote]))
  next => exact hs

theorem pageLaw_grantClaim (hs : s.pageLaw) (hf : s.inFlight h.pageNumber = true) :
    (s.grantClaim h).pageLaw := by
  unfold State.grantClaim
  have he := pageLaw_page hs h.pageNumber
  split
  next =>
    exact pageLaw_postNotice (pageLaw_setPage hs (he.withClaim (he.flightOpen hf)
      (fun _ _ => .inl lease) (by simp [Holder.remote]))) _
  next => exact pageLaw_renewLease lease hs

omit lease

theorem pageLaw_releaseClaim (hs : s.pageLaw) : (s.releaseClaim h).pageLaw := by
  unfold State.releaseClaim
  have he := pageLaw_page hs h.pageNumber
  split
  next hc =>
    exact pageLaw_postNotice (pageLaw_setPage hs (he.unclaimed (he.open_of_claimed (by simp [hc])))) _
  next => exact hs

theorem pageLaw_landWrite (hs : s.pageLaw) (hf : s.inFlight h.pageNumber = true) :
    (s.landWrite h).pageLaw := by
  have he := pageLaw_page hs h.pageNumber
  exact pageLaw_congr (by rfl) (fun _ => by rfl)
    (pageLaw_setPage hs (he.withSequence (he.flightOpen hf) _))

include lease

theorem pageLaw_operationEffects (hs : s.pageLaw) (hk : s.responder.marker = h.marker) :
    (s.operationEffects h).pageLaw := by
  have flies : ∀ {op}, Operation.ofCode h.operation = some op → op ≠ .status → op ≠ .message →
      s.inFlight h.pageNumber = true := fun ho h₁ h₂ => by
    simp [State.inFlight, hk, marker_page ho h₁ h₂]
  unfold State.operationEffects
  split
  next => exact pageLaw_renewLease (by simpa using lease) (pageLaw_consumeFreshness hs _)
  next ho =>
    have landed := pageLaw_landWrite hs (flies ho (by simp) (by simp))
    split
    · exact landed
    · exact pageLaw_renewLease (by simpa using lease) landed
  next ho => exact pageLaw_grantClaim lease hs (flies ho (by simp) (by simp))
  next ho =>
    refine pageLaw_grantClaim (by simpa using lease) (pageLaw_consumeFreshness hs _) ?_
    rw [inFlight_congr (s := s) (by simp)]
    exact flies ho (by simp) (by simp)
  next => exact pageLaw_releaseClaim hs
  next ho => exact pageLaw_releaseClaim (pageLaw_landWrite hs (flies ho (by simp) (by simp)))
  next => exact pageLaw_congr (by rfl) (fun _ => by rfl) hs
  all_goals exact hs

theorem pageLaw_applyEffects (hs : s.pageLaw) (hk : s.responder.marker = h.marker) :
    (s.applyEffects h).pageLaw := by
  have applied := pageLaw_operationEffects lease hs hk
  have marked : (s.operationEffects h).responder.marker = h.marker := by simp [hk]
  unfold State.applyEffects
  dsimp only
  split
  next p hp => exact pageLaw_resolve applied (marked.trans hp)
  next hp => exact pageLaw_clear applied (by simp) (by simp [hk, hp]) (by rfl)
  next hp => exact pageLaw_clear applied (by simp) (by simp [hk, hp]) (by rfl)

end

/-! ### What the Responder's decision says of the page -/

section
variable {s : State} {h : Header}

/-- A header is refused, or is a message or a STATUS, or is decided by the page's entry. -/
theorem decision_cases (s : State) (h : Header) :
    (∃ r, s.decision h = .refuse r) ∨
    (Operation.ofCode h.operation ∈ [some Operation.message, some .status] ∧
      s.decision h ≠ .busy .refreshing) ∨
    ∃ op, Operation.ofCode h.operation = some op ∧ op ≠ .status ∧ op ≠ .message ∧
      s.decision h = (s.page h.pageNumber).decision h op := by
  rcases ho : Operation.ofCode h.operation with _ | op
  · exact .inl ⟨_, decision_undefined ho⟩
  by_cases hm : op = .message
  · subst hm
    refine .inr (.inl ⟨by simp, ?_⟩)
    rw [decision_message ho, State.messageDecision]
    repeat' split
    all_goals simp
  by_cases hg : h.collective = true ∧ op ≠ .write
  · exact .inl ⟨_, decision_groupOp ho hg.1 hg.2 hm⟩
  have individual : h.collective = false ∨ op = .write := by
    rwa [not_and_or, Bool.not_eq_true, not_not] at hg
  by_cases hs : op = .status
  · subst hs
    exact .inr (.inl ⟨by simp, by simp [decision_status ho (individual.resolve_right (by simp))]⟩)
  · exact .inr (.inr ⟨op, rfl, hs, hm, decision_page ho individual hm hs⟩)

/-- A page that an accepted header binds is open: check 4 of R81 refuses a CLOSED one. -/
theorem open_of_accept (hd : s.decision h = .accept) {p : Page} (hp : h.marker = .page p) :
    (s.page p).mode ≠ .closed := by
  rcases decision_cases s h with ⟨r, hr⟩ | ⟨ho, _⟩ | ⟨op, ho, hs, hm, hop⟩
  · simp [hr] at hd
  · have noPage : Operation.ofCode h.operation = some .message ∨
        Operation.ofCode h.operation = some .status := by simpa using ho
    rcases noPage with ho | ho <;> simp [Header.marker, ho] at hp
  · obtain rfl : h.pageNumber = p := by simpa [marker_page ho hs hm] using hp
    intro hc
    simp [hop, PageEntry.decision, hc] at hd

/-- Only a read of a DEFERRED page is answered REFRESHING (step 9 of R81, R85). -/
theorem deferred_of_refreshing (hd : s.decision h = .busy .refreshing) :
    (s.page h.pageNumber).mode = .deferred := by
  rcases decision_cases s h with ⟨r, hr⟩ | ⟨_, hn⟩ | ⟨op, _, _, _, hop⟩
  · simp [hr] at hd
  · exact absurd hd hn
  · rw [hop, PageEntry.decision] at hd
    repeat' split at hd
    iterate 5 cases hd
    next stale => exact stale.2.1
    next => cases hd

end

/-! ### The telegram's events -/

/-- The two states have the same pages, and the same one in flight. -/
structure SamePages (s t : State) : Prop where
  pages : t.pages = s.pages
  marker : t.responder.marker = s.responder.marker

theorem SamePages.refl (s : State) : SamePages s s := ⟨rfl, rfl⟩

theorem SamePages.trans {s t u : State} (h : SamePages s t) (k : SamePages t u) : SamePages s u :=
  ⟨k.pages.trans h.pages, k.marker.trans h.marker⟩

theorem SamePages.inFlight {s t : State} (h : SamePages s t) (p : Page) : t.inFlight p = s.inFlight p :=
  inFlight_congr h.marker p

theorem SamePages.pageLaw {s t : State} (h : SamePages s t) (hs : s.pageLaw) : t.pageLaw :=
  pageLaw_congr h.pages h.inFlight hs

/-- What an event of the link does to the pages: nothing; the accepted telegram is abandoned (R97), or another header
is accepted (R87), or asks for a refresh (R56); or the accepted telegram has its effects (R94). -/
inductive LinkMoves (s t : State) : Prop
  | untouched (h : SamePages s t)
  | abandoned (u : State) (same : SamePages s u) (h : SamePages u.abandonAccepted t)
  | accepted (h : Header) (idle : s.link.role.accepted = none) (decision : s.decision h = .accept)
      (pages : t.pages = s.pages) (marker : t.responder.marker = h.marker)
  | refreshed (h : Header) (decision : s.decision h = .busy .refreshing)
      (same : SamePages (s.requestRefresh h) t)
  | ended (h : Header) (role : s.link.role.accepted = some h) (same : SamePages (s.applyEffects h) t)

theorem LinkMoves.refl (s : State) : LinkMoves s s := .untouched (.refl s)

theorem LinkMoves.then {s t u : State} (h : LinkMoves s t) (k : SamePages t u) : LinkMoves s u := by
  cases h with
  | untouched h => exact .untouched (h.trans k)
  | abandoned v same h => exact .abandoned v same (h.trans k)
  | accepted h idle decision pages marker =>
    exact .accepted h idle decision (k.pages.trans pages) (k.marker.trans marker)
  | refreshed h decision same => exact .refreshed h decision (same.trans k)
  | ended h role same => exact .ended h role (same.trans k)

theorem leaveTelegram_samePages (s : State) (r : Role) : SamePages s (s.leaveTelegram r) := by
  constructor <;> simp

theorem enterFaulted_samePages (s : State) (c : Cause) : SamePages s (s.enterFaulted c) := by
  constructor <;> simp

theorem abandonPart_moves {s u : State} (hu : SamePages s u) (o : Attempt) :
    LinkMoves s (u.abandonPart o) := by
  unfold State.abandonPart
  split
  iterate 2 exact .untouched (hu.trans (by constructor <;> simp))
  iterate 2 exact .abandoned u hu (.refl _)
  all_goals exact .untouched hu

theorem abandonTelegram_moves {s u : State} (hu : SamePages s u) (o : Attempt) :
    LinkMoves s (u.abandonTelegram o) :=
  (abandonPart_moves hu o).then (leaveTelegram_samePages _ _)

theorem meetBitError_moves (s : State) (follow : Role) : LinkMoves s (s.meetBitError follow) := by
  have counted : SamePages s { s with link := { s.link with
      txErrors := min Config.txErrorLimit (s.link.txErrors + 1) } } := ⟨rfl, rfl⟩
  unfold State.meetBitError
  split
  · exact (abandonPart_moves counted _).then (leaveTelegram_samePages _ _)
  · exact (abandonPart_moves counted _).then (enterFaulted_samePages _ _)

theorem partLost_moves (s : State) : LinkMoves s s.partLost := by
  unfold State.partLost
  split
  iterate 2 exact meetBitError_moves s _
  iterate 2 exact .abandoned s (.refl s) (leaveTelegram_samePages _ _)
  iterate 2 exact .untouched (leaveTelegram_samePages _ _)
  exact .refl s

theorem loseSync_moves (s : State) : LinkMoves s s.loseSync := by
  unfold State.loseSync
  split
  · exact .refl s
  · exact partLost_moves s

theorem targetNak_moves (s : State) : LinkMoves s s.targetNak := by
  unfold State.targetNak
  dsimp only
  split
  · exact .untouched ⟨rfl, rfl⟩
  · refine abandonTelegram_moves ?_ _
    exact ⟨rfl, rfl⟩

theorem initiatorNak_moves (s : State) : LinkMoves s s.initiatorNak := by
  unfold State.initiatorNak
  split
  · exact .untouched ⟨rfl, rfl⟩
  · exact abandonTelegram_moves (.refl s) _

theorem fifthNak_moves (s : State) : LinkMoves s s.fifthNak := by
  unfold State.fifthNak
  repeat' split
  · exact .refl s
  · exact targetNak_moves s
  · exact .refl s
  · exact initiatorNak_moves s
  all_goals exact .refl s

/-- The receiver of an individual block stores it without any effect on the pages, or meets one of the two events
that end its part. -/
theorem receiveBlock_moves (s : State) (passes : Bool) (x y : Level) {store nak : State → State}
    (hs : SamePages s (store s)) (hn : LinkMoves s (nak s)) :
    LinkMoves s (s.receiveBlock passes x y store nak) := by
  unfold State.receiveBlock
  repeat' split
  · exact meetBitError_moves s _
  · exact .untouched hs
  · exact hn

theorem sendBlock_moves (s : State) (asSent : Bool) (x y : Level) {advance nak : State → State}
    (ha : SamePages s (advance s)) (hn : LinkMoves s (nak s)) :
    LinkMoves s (s.sendBlock asSent x y advance nak) := by
  unfold State.sendBlock
  repeat' split
  · exact meetBitError_moves s _
  · exact .untouched ha
  · exact hn

theorem memberBlock_moves (s : State) (h : Header) (passes : Bool) (bytes : List Byte) :
    LinkMoves s (s.memberBlock h passes bytes) := by
  unfold State.memberBlock
  split
  · exact .untouched ⟨rfl, rfl⟩
  · refine abandonTelegram_moves ?_ _
    exact ⟨rfl, rfl⟩

theorem sendCollective_moves (s : State) (asSent : Bool) (x : Level) :
    LinkMoves s (s.sendCollective asSent x) := by
  unfold State.sendCollective
  split
  · exact meetBitError_moves s _
  · exact .untouched ⟨rfl, rfl⟩

theorem takeBlock_moves (s : State) (data : Vector Byte 8) (check : Byte) (x y : Level) :
    LinkMoves s (s.takeBlock data check x y) := by
  unfold State.takeBlock
  split
  · exact .refl s
  split
  next =>
    dsimp only
    split
    · exact receiveBlock_moves s _ x y ⟨rfl, rfl⟩ (targetNak_moves s)
    · exact sendBlock_moves s _ x y ⟨rfl, rfl⟩ (targetNak_moves s)
  next => exact memberBlock_moves s _ _ _
  next =>
    dsimp only
    repeat' split
    · exact sendCollective_moves s _ x
    · exact sendBlock_moves s _ x y ⟨rfl, rfl⟩ (initiatorNak_moves s)
    · exact receiveBlock_moves s _ x y ⟨rfl, rfl⟩ (initiatorNak_moves s)
  all_goals exact .refl s

theorem reachEnd_moves (s : State) : LinkMoves s s.reachEnd := by
  have ends : LinkMoves s s.endEffects := by
    unfold State.endEffects
    split
    next => exact .untouched (by constructor <;> simp)
    next hr => exact .ended _ (by rw [hr]; rfl) (.refl _)
    next hr => exact .ended _ (by rw [hr]; rfl) (.refl _)
    all_goals exact .refl s
  unfold State.reachEnd
  split
  · exact ends.then (.trans (t := s.endEffects.cleanTelegram) ⟨rfl, rfl⟩ (leaveTelegram_samePages _ _))
  · exact .refl s

/-- The Responder's answer to a header: acceptance, a refresh asked for, or a reason recorded (R85, R87, R88). -/
theorem handOver_moves {s : State} (h : Header) (hr : s.link.role = .receiving) :
    LinkMoves s (s.handOver h) := by
  unfold State.handOver
  cases hd : s.decision h with
  | accept => exact .accepted h (by rw [hr]; rfl) hd rfl rfl
  | refuse r => exact .untouched ⟨rfl, rfl⟩
  | busy r =>
    by_cases hq : r = .refreshing
    · subst hq
      exact .refreshed h hd ⟨rfl, rfl⟩
    · simp only [applyDecision_busy (.inl hq)]
      exact .untouched ⟨rfl, rfl⟩

theorem takeHeaderBits_moves (s : State) (bits : BitVec 48) : LinkMoves s (s.takeHeaderBits bits) := by
  unfold State.takeHeaderBits
  split
  next hr =>
    split
    · exact handOver_moves _ hr
    · exact .untouched ⟨rfl, rfl⟩
  next =>
    repeat' split
    · exact .refl s
    · exact .untouched ⟨rfl, rfl⟩
    · exact meetBitError_moves s _
  all_goals exact .refl s

theorem takeSlotBit_moves (s : State) (l : Level) : LinkMoves s (s.takeSlotBit l) := by
  have pushed : SamePages s (s.pushSlot l) := ⟨rfl, rfl⟩
  unfold State.takeSlotBit
  split
  · exact .refl s
  split
  next =>
    split
    · exact .untouched pushed
    · exact meetBitError_moves s _
  next => exact .untouched pushed
  next => exact .untouched (pushed.trans (leaveTelegram_samePages _ _))
  next =>
    split
    · exact .untouched (by constructor <;> simp)
    · exact .refl s
  all_goals exact .refl s

theorem takeHeaderPart_moves (s : State) (part : HeaderPart) : LinkMoves s (s.takeHeaderPart part) := by
  cases part with
  | arbitrationWon => exact .untouched (by constructor <;> simp [State.takeHeaderPart])
  | headerBits bits => exact takeHeaderBits_moves s bits
  | slotBit l => exact takeSlotBit_moves s l

theorem meetStuck_moves (s : State) : LinkMoves s s.meetStuck := by
  have lost := partLost_moves s
  unfold State.meetStuck
  dsimp only
  split
  iterate 3 exact lost.then (enterFaulted_samePages _ _)
  · exact lost.then ⟨rfl, rfl⟩
  · exact lost

/-- The law over an event of the link, from the two facts of the other laws that it needs: leases are not 0 (R37), and
the marker is the one the accepted header binds (R89). -/
theorem LinkMoves.pageLaw {s t : State} (h : LinkMoves s t) (lease : 1 ≤ s.cfg.lease)
    (bound : s.responder.marker = (s.link.role.accepted.map Header.marker).getD .clear)
    (hs : s.pageLaw) : t.pageLaw := by
  cases h with
  | untouched h => exact h.pageLaw hs
  | abandoned u same h => exact h.pageLaw (pageLaw_abandonAccepted (same.pageLaw hs))
  | accepted h idle decision pages marker =>
    have grounded : s.responder.marker = .clear := by simpa [idle] using bound
    rw [pageLaw_iff]
    intro p
    have free : s.inFlight p = false := by simp [State.inFlight, grounded]
    have he : (s.page p).Lawful false := free ▸ pageLaw_page hs p
    rw [page_congr pages]
    refine he.takeOff fun hf => open_of_accept decision ?_
    simpa [State.inFlight, marker] using hf
  | refreshed h decision same =>
    refine same.pageLaw ?_
    unfold State.requestRefresh
    split
    · exact pageLaw_postNotice (pageLaw_setPage hs ((pageLaw_page hs _).withFreshness
        (deferred_of_refreshing decision) _ _)) _
    · exact hs
  | ended h role same =>
    exact same.pageLaw (pageLaw_applyEffects lease hs (by simpa [role] using bound))

end Sys2Proof.Machine
end

section
/-!
PROOFS. Law 4, kept by every step (R44, R51, R62, R70): which commands leave pages and RAMs alone, and what each of the
others does to the pages.
-/

namespace Sys2Proof.Machine

/-- The commands that leave the pages, the in-flight marker, page memory, the ring and the pool as they were. -/
def sparesPages : Instr → Bool
  | .pageDefine | .pageClose | .pageCommit | .localClaim | .localRelease | .breakClaim | .submit
  | .controllerResetEnd | .resetAsserted | .powerOnResetEnd | .header _ | .blockSlot _ _ _ _
  | .resendExhaustion | .bitError | .lossOfSyncEdges | .normalEnd | .stuckDominant | .tick _ _
  | .leaseExpiry _ | .pendingExpiry _ | .refreshWindowExpiry _ | .freshLifetimeExpiry _ => false
  | _ => true

theorem exec_spares {c : Instr} {s t : State} (hc : sparesPages c = true) (h : exec c s = .next t) :
    t.pages = s.pages ∧ t.responder = s.responder ∧ t.pageMem = s.pageMem ∧
      t.inbound.ring = s.inbound.ring ∧ t.pool = s.pool := by
  cases c
  case configure => simp [configure_row h]
  case setGroups => simp [setGroups_row h]
  case linkStart => simp [linkStart_row h]
  case linkStop => simp [linkStop_row h]
  case pageFetch => simp [pageFetch_row h]
  case cancel => simp [cancel_row h]
  case jobQuery => simp [jobQuery_row h]
  case jobFetch => simp [jobFetch_row h]
  case retire => simp [retire_row h]
  case peerRead => simp [peerRead_row h]
  case peerReset => simp [peerReset_row h]
  case badCommand => simp [badCommand_row h]
  case statusRead => simp [statusRead_row h]
  case resultRead => simp [resultRead_row h]
  case resultDataRead => simp [resultDataRead_row h]
  case paramWrite => simp [paramWrite_row h]
  case dataRead => simp [dataRead_row h]
  case dataWrite => simp [dataWrite_row h]
  case dataPtrWrite => simp [dataPtrWrite_row h]
  case completionRead => simp [completionRead_row h]
  case eventRead => simp [eventRead_row h]
  case irqClear => simp [irqClear_row h]
  case irqEnableWrite => simp [irqEnableWrite_row h]
  case ignoredWrite => simp [ignoredWrite_row h]
  case cmdWrite => simp [cmdWrite_row h]
  case controllerReset => simp [controllerReset_row h]
  case powerOnResetSequence => simp [powerOnResetSequence_row h]
  case enterOnline => simp [enterOnline_row h]
  case transmitOpportunity => simp [transmitOpportunity_row h]
  case startMarker => simp [startMarker_row h]
  case gapMeasurementRestart => simp [gapMeasurementRestart_row h]
  case arbitrationLost => simp [arbitrationLost_row h]
  case recoveryTimerExpiry => simp [recoveryTimerExpiry_row h]
  case retryCountdownExpiry => simp [retryCountdownExpiry_row h]
  case deadlineExpiry => simp [deadlineExpiry_row h]
  case inboundDrop =>
    simp only [inboundDrop_row h, true_and, and_true]
    rcases completing_next h with rfl | ⟨p, _, _, rfl⟩
    · rfl
    · unfold inboundDropEffect
      split <;> rfl
  case inboundRead =>
    simp only [inboundRead_row h, true_and, and_true]
    rcases hostRead_next h with ⟨_, rfl⟩ | ⟨_, rfl⟩
    · rfl
    · unfold State.advanceInbound
      dsimp only
      split <;> rfl
  all_goals cases hc

/-! ### What the page commands store -/

/-- The entries that the commands of the host store for a page (R46, R47, R50, R74 to R76). -/
inductive Stores (s : State) (p : Page) : PageEntry → Prop
  | defined {params : Params} {e : PageEntry} (closed : (s.page p).mode = .closed)
      (definition : definitionOf params = some e) : Stores s p e
  | closed (grounded : s.inFlight p = false) : Stores s p .default
  | committed (opened : (s.page p).mode ≠ .closed) (grounded : s.inFlight p = false) :
      Stores s p (s.page p).committed
  | claimed (opened : (s.page p).mode ≠ .closed) (grounded : s.inFlight p = false) :
      Stores s p { s.page p with holder := .local, lease := 0 }
  | released (mine : (s.page p).holder = .local) (grounded : s.inFlight p = false) :
      Stores s p { s.page p with holder := .none }
  | broken (opened : (s.page p).mode ≠ .closed) (grounded : s.inFlight p = false) :
      Stores s p { s.page p with holder := .none, lease := 0 }

theorem Stores.lawful {s : State} {p : Page} {e : PageEntry} (h : Stores s p e) (hs : s.pageLaw) :
    e.Lawful (s.inFlight p) := by
  have he := pageLaw_page hs p
  cases h with
  | defined _ definition => exact lawful_definition definition _
  | closed grounded => exact grounded ▸ lawful_default
  | committed opened => exact he.committed opened
  | claimed opened => exact he.withClaim opened (by simp) (fun _ => rfl)
  | released mine =>
    have noLease : (s.page p).lease = 0 := he.noLease (by simp [mine, Holder.remote])
    exact he.withClaim (he.open_of_claimed (by simp [mine])) (n := (s.page p).lease) (by simp)
      (fun _ => noLease)
  | broken opened => exact he.unclaimed opened

/-- An open page in flight is stored by none of them (R51). -/
theorem Stores.grounded {s : State} {p : Page} {e : PageEntry} (h : Stores s p e)
    (ho : (s.page p).mode ≠ .closed) : s.inFlight p = false := by
  cases h with
  | defined closed => exact absurd closed ho
  | closed grounded | committed _ grounded | claimed _ grounded | released _ grounded
  | broken _ grounded => exact grounded

/-- The completion of a page command stores one entry, or none. -/
def StoresOne (s t : State) : Prop :=
  SamePages s t ∨ ∃ p e, Stores s p e ∧ SamePages (s.setPage p e) t

theorem pageDefineEffect_stores (p : Params) (s : State) : StoresOne s (pageDefineEffect p s) := by
  unfold pageDefineEffect
  split
  next pg e _ he =>
    split
    · exact .inl ⟨rfl, rfl⟩
    next hm => exact .inr ⟨pg, e, .defined (by simpa using hm) he, ⟨rfl, rfl⟩⟩
  next => exact .inl ⟨rfl, rfl⟩

theorem pageCloseEffect_stores (p : Params) (s : State) : StoresOne s (pageCloseEffect p s) := by
  unfold pageCloseEffect
  repeat' split
  iterate 4 exact .inl ⟨rfl, rfl⟩
  next hf _ => exact .inr ⟨_, _, .closed (by simpa using hf), ⟨rfl, rfl⟩⟩

theorem pageCommitEffect_stores (p : Params) (s : State) : StoresOne s (pageCommitEffect p s) := by
  unfold pageCommitEffect
  dsimp only
  repeat' split
  iterate 5 exact .inl ⟨rfl, rfl⟩
  next ho hf _ _ => exact .inr ⟨_, _, .committed ho (by simpa using hf), ⟨rfl, rfl⟩⟩

theorem localClaimEffect_stores (p : Params) (s : State) : StoresOne s (localClaimEffect p s) := by
  unfold localClaimEffect
  dsimp only
  repeat' split
  iterate 5 exact .inl ⟨rfl, rfl⟩
  next ho _ hf _ => exact .inr ⟨_, _, .claimed ho (by simpa using hf), ⟨rfl, rfl⟩⟩

theorem localReleaseEffect_stores (p : Params) (s : State) : StoresOne s (localReleaseEffect p s) := by
  unfold localReleaseEffect
  dsimp only
  repeat' split
  iterate 3 exact .inl ⟨rfl, rfl⟩
  next hl hf => exact .inr ⟨_, _, .released (by simpa using hl) (by simpa using hf), ⟨rfl, rfl⟩⟩

theorem breakClaimEffect_stores (p : Params) (s : State) : StoresOne s (breakClaimEffect p s) := by
  unfold breakClaimEffect
  dsimp only
  repeat' split
  iterate 4 exact .inl ⟨rfl, rfl⟩
  next ho hf _ => exact .inr ⟨_, _, .broken ho (by simpa using hf), ⟨rfl, rfl⟩⟩

/-! ### Every row -/

/-- The pages of `t` are those of `s` after some shares of a tick, taken one after the other. -/
inductive Ticked (s : State) : State → Prop
  | refl {t : State} (h : SamePages s t) : Ticked s t
  | share {t u : State} (h : Ticked s t) (b : Bool) (x : TickShare)
      (k : SamePages (t.applyShare b x) u) : Ticked s u

theorem Ticked.then {s t u : State} (h : Ticked s t) (k : SamePages t u) : Ticked s u := by
  cases h with
  | refl h => exact .refl (h.trans k)
  | share h b x k' => exact .share h b x (k'.trans k)

theorem takeShare_ticks (s : State) (b : Bool) (x : TickShare) : Ticked s (s.takeShare b x) := by
  unfold State.takeShare
  split
  · exact .refl (.refl s)
  · exact .share (.refl (.refl s)) b x ⟨rfl, rfl⟩

theorem tickBoundary_ticks (s : State) (order : List TickShare) (b : Bool) :
    Ticked s (s.tickBoundary order b) :=
  tickBoundary_induct (P := Ticked s) (fun _ _ h => h.then ⟨rfl, rfl⟩)
    (fun _ x h => h.share b x (.refl _)) order (.refl (.refl s))

/-- What a step does to the pages and to the in-flight marker. -/
inductive PagesMove (s t : State) : Prop
  | stored (h : StoresOne s t)
  | reset (pages : t.pages = Vector.replicate 64 .default) (marker : t.responder.marker = .clear)
  | ticked (h : Ticked s t)
  | link (running : s.mode = .running) (h : LinkMoves s.momentOver t)

theorem PagesMove.same {s t : State} (h : SamePages s t) : PagesMove s t := .stored (.inl h)

theorem completing_moves {s t : State} {code : Byte} {f : Params → State → State}
    (hf : ∀ p, StoresOne s (f p s)) (h : s.completing code f = .next t) : PagesMove s t := by
  rcases completing_next h with rfl | ⟨p, _, _, rfl⟩
  · exact .same (.refl _)
  · exact .stored (hf p)

theorem onLink_moves {s t : State} {f : State → State} (hf : LinkMoves s.momentOver (f s.momentOver))
    (h : s.onLink f = .next t) : PagesMove s t := by
  rcases onLink_next h with ⟨_, rfl⟩ | ⟨hm, rfl⟩
  · exact .same (.refl _)
  · exact .link hm hf

theorem expiryRow_moves {s t : State} {x : TickShare} {due : Bool} (h : s.expiryRow x due = .next t) :
    PagesMove s t := by
  rcases expiryRow_next h with rfl | ⟨_, _, _, rfl⟩
  · exact .same (.refl _)
  · exact .ticked (takeShare_ticks s false x)

theorem exec_moves {c : Instr} {s t : State} (h : exec c s = .next t) : PagesMove s t := by
  by_cases hc : sparesPages c = true
  · obtain ⟨pages, responder, _⟩ := exec_spares hc h
    exact .same ⟨pages, congrArg Responder.marker responder⟩
  cases c
  case pageDefine => exact completing_moves (pageDefineEffect_stores · s) h
  case pageClose => exact completing_moves (pageCloseEffect_stores · s) h
  case pageCommit => exact completing_moves (pageCommitEffect_stores · s) h
  case localClaim => exact completing_moves (localClaimEffect_stores · s) h
  case localRelease => exact completing_moves (localReleaseEffect_stores · s) h
  case breakClaim => exact completing_moves (breakClaimEffect_stores · s) h
  case submit => exact .same (by constructor <;> simp [submit_row h])
  case controllerResetEnd =>
    simp only [exec, execControllerResetEnd] at h
    split at h <;> cases h
    · exact .reset rfl rfl
    · exact .same (.refl _)
  case resetAsserted =>
    cases h
    exact .reset rfl rfl
  case powerOnResetEnd =>
    simp only [exec, execPowerOnResetEnd] at h
    split at h <;> cases h
    · exact .reset rfl rfl
    · exact .same (.refl _)
  case header part => exact onLink_moves (f := (·.takeHeaderPart part)) (takeHeaderPart_moves _ part) h
  case blockSlot data check x y =>
    exact onLink_moves (f := (·.takeBlock data check x y)) (takeBlock_moves _ data check x y) h
  case resendExhaustion => exact onLink_moves (fifthNak_moves _) h
  case bitError =>
    refine onLink_moves (f := fun s => if s.mayMeetBitError then s.meetBitError .bystander else s) ?_ h
    split
    · exact meetBitError_moves _ _
    · exact .refl _
  case lossOfSyncEdges => exact onLink_moves (loseSync_moves _) h
  case normalEnd => exact onLink_moves (reachEnd_moves _) h
  case stuckDominant => exact onLink_moves (meetStuck_moves _) h
  case tick order b =>
    simp only [exec, execTick] at h
    rcases whenRunning_next h with ⟨_, rfl⟩ | ⟨_, rfl⟩
    · exact .same (.refl _)
    · exact .ticked (tickBoundary_ticks s order b)
  case leaseExpiry => exact expiryRow_moves h
  case pendingExpiry => exact expiryRow_moves h
  case refreshWindowExpiry => exact expiryRow_moves h
  case freshLifetimeExpiry => exact expiryRow_moves h
  all_goals exact absurd rfl hc

/-- A step does to the pages what a row does, taken in the state with the rest of the queue. -/
theorem step_moves {s t : State} (h : step s = .next t) : ∃ q, PagesMove { s with pending := q } t := by
  rcases step_next h with ⟨_, rfl⟩ | ⟨c, rest, _, hc⟩
  · refine ⟨s.pending, ?_⟩
    rcases bitPeriod_cases s with hb | hb | ⟨_, hb⟩ <;> rw [hb]
    · exact .same ⟨rfl, rfl⟩
    · exact .same ⟨rfl, rfl⟩
    · exact .ticked (tickBoundary_ticks s _ _)
  · exact ⟨rest, exec_moves hc⟩

theorem Ticked.pageLaw {s t : State} (h : Ticked s t) (hs : s.pageLaw) : t.pageLaw := by
  induction h with
  | refl h => exact h.pageLaw hs
  | share _ b x k ih => exact k.pageLaw (pageLaw_applyShare ih b x)

theorem pageLaw_default {t : State} (pages : t.pages = Vector.replicate 64 .default)
    (marker : t.responder.marker = .clear) : t.pageLaw := by
  rw [pageLaw_iff]
  intro p
  have entry : t.page p = .default := by simp [State.page, pages]
  have grounded : t.inFlight p = false := by simp [State.inFlight, marker]
  rw [entry, grounded]
  exact lawful_default

/-- Settles O11: the law over each of the four things that a step can do to the pages. -/
theorem pageLawKept : Obligations.PageLawKept := by
  intro s t hl ha hs h
  obtain ⟨q, moved⟩ := step_moves h
  have hq : State.pageLaw { s with pending := q } := SamePages.pageLaw (s := s) ⟨rfl, rfl⟩ hs
  cases moved with
  | stored stored =>
    rcases stored with same | ⟨p, e, stores, same⟩
    · exact same.pageLaw hq
    · exact same.pageLaw (pageLaw_setPage hq (stores.lawful hq))
  | reset pages marker => exact pageLaw_default pages marker
  | ticked ticks => exact ticks.pageLaw hq
  | link running moves =>
    exact moves.pageLaw hl.durations.1 (ha.bound running) (SamePages.pageLaw (s := s) ⟨rfl, rfl⟩ hs)

end Sys2Proof.Machine
end

section
/-!
PROOFS. Law 12: a page that stays in flight keeps its definition and its holder (R51, R70, R89).
-/

namespace Sys2Proof.Machine

/-- What no event changes of a page while it is in flight. -/
structure SameDefinition (e f : PageEntry) : Prop where
  mode : f.mode = e.mode
  length : f.length = e.length
  access : f.access = e.access
  allowed : f.allowed = e.allowed
  holder : f.holder = e.holder

theorem SameDefinition.refl (e : PageEntry) : SameDefinition e e := ⟨rfl, rfl, rfl, rfl, rfl⟩

theorem SameDefinition.trans {e f g : PageEntry} (h : SameDefinition e f) (k : SameDefinition f g) :
    SameDefinition e g :=
  ⟨k.mode.trans h.mode, k.length.trans h.length, k.access.trans h.access, k.allowed.trans h.allowed,
    k.holder.trans h.holder⟩

theorem sameDefinition_of_pages {s t : State} (h : t.pages = s.pages) (p : Page) :
    SameDefinition (s.page p) (t.page p) := by
  rw [page_congr h]
  exact .refl _

theorem sameDefinition_setPage {s : State} {p q : Page} {e : PageEntry}
    (he : q = p → SameDefinition (s.page p) e) : SameDefinition (s.page p) ((s.setPage q e).page p) := by
  rw [page_setPage]
  split
  next h => exact he h.symm
  next => exact .refl _

theorem sameDefinition_freshnessTick (e : PageEntry) : SameDefinition e e.freshnessTick := by
  unfold PageEntry.freshnessTick
  repeat' split
  all_goals exact ⟨rfl, rfl, rfl, rfl, rfl⟩

section
variable {s t : State} {p : Page}

/-- At a tick the claim on a page in flight stays, with a pending expiry where its lease runs out (R70). -/
theorem sameDefinition_applyShare (hf : s.inFlight p = true) (b : Bool) (x : TickShare) :
    SameDefinition (s.page p) ((s.applyShare b x).page p) := by
  rcases applyShare_pages s b x with ⟨q, h | h⟩ | h
  · rw [h]
    rcases leaseTick_cases s q with h | ⟨a, _, ⟨grounded, h⟩ | ⟨_, h⟩⟩ <;> rw [h]
    · exact .refl _
    · rw [expireClaim_page, if_neg (by rintro rfl; simp [hf] at grounded)]
      exact .refl _
    · refine sameDefinition_setPage ?_
      rintro rfl
      exact ⟨rfl, rfl, rfl, rfl, rfl⟩
  · rw [h, State.freshnessTick]
    split
    · exact .refl _
    · refine sameDefinition_setPage ?_
      rintro rfl
      exact sameDefinition_freshnessTick _
  · exact sameDefinition_of_pages h p

theorem Ticked.sameDefinition (h : Ticked s t) (hf : s.inFlight p = true) :
    t.inFlight p = true ∧ SameDefinition (s.page p) (t.page p) := by
  induction h with
  | refl h => exact ⟨(h.inFlight p).trans hf, sameDefinition_of_pages h.pages p⟩
  | share _ b x k ih =>
    obtain ⟨flies, same⟩ := ih
    refine ⟨(k.inFlight p).trans ((inFlight_congr (by simp) p).trans flies), same.trans ?_⟩
    exact (sameDefinition_applyShare flies b x).trans (sameDefinition_of_pages k.pages p)

theorem abandonAccepted_grounds (s : State) (p : Page) : s.abandonAccepted.inFlight p = false := by
  simp [State.inFlight, abandonAccepted_responder]

theorem applyEffects_grounds (s : State) (h : Header) (p : Page) : (s.applyEffects h).inFlight p = false := by
  simp [State.inFlight, applyEffects_responder]

/-- Where the telegram that holds the page ends, the page is no longer in flight; at a header only freshness changes. -/
theorem LinkMoves.sameDefinition (h : LinkMoves s t) (ht : t.inFlight p = true) :
    SameDefinition (s.page p) (t.page p) := by
  cases h with
  | untouched h => exact sameDefinition_of_pages h.pages p
  | abandoned u same h => simp [h.inFlight, abandonAccepted_grounds] at ht
  | accepted h idle decision pages marker => exact sameDefinition_of_pages pages p
  | refreshed h decision same =>
    refine .trans ?_ (sameDefinition_of_pages same.pages p)
    unfold State.requestRefresh
    split
    · refine sameDefinition_setPage ?_
      rintro rfl
      exact ⟨rfl, rfl, rfl, rfl, rfl⟩
    · exact .refl _
  | ended h role same => simp [same.inFlight, applyEffects_grounds] at ht

theorem PagesMove.sameDefinition (h : PagesMove s t) (hf : s.inFlight p = true)
    (ho : (s.page p).mode ≠ .closed) (ht : t.inFlight p = true) :
    SameDefinition (s.page p) (t.page p) := by
  cases h with
  | stored stored =>
    rcases stored with same | ⟨q, e, stores, same⟩
    · exact sameDefinition_of_pages same.pages p
    · refine (sameDefinition_setPage ?_).trans (sameDefinition_of_pages same.pages p)
      rintro rfl
      exact absurd (stores.grounded ho) (by simp [hf])
  | reset pages marker => simp [State.inFlight, marker] at ht
  | ticked ticks => exact (ticks.sameDefinition hf).2
  | link running moves => exact moves.sameDefinition (s := s.momentOver) ht

end

/-- Settles O15: of the four things that a step can do to the pages, the ones that touch the definition or the holder
of a page either find it grounded or leave it so. -/
theorem inFlightPageKeepsItsEntry : Obligations.InFlightPageKeepsItsEntry := by
  refine ⟨fun s t p hf ho h ht => ?_, fun s p => beq_iff_eq⟩
  obtain ⟨q, moved⟩ := step_moves h
  obtain ⟨mode, length, access, allowed, holder⟩ := moved.sameDefinition hf ho ht
  exact ⟨mode, length, access, allowed, holder⟩

end Sys2Proof.Machine
end

section
/-!
PROOFS. The three writers of page memory (R43, R50, R53, R60).
-/

namespace Sys2Proof.Machine

/-- A row that is not one of the three writers leaves page memory as it was (R43). -/
theorem exec_pageMem {c : Instr} {s t : State} (h : exec c s = .next t) :
    t.pageMem = s.pageMem ∨ c ∈ [.pageCommit, .normalEnd, .powerOnResetEnd] := by
  by_cases hc : sparesPages c = true
  · obtain ⟨_, _, pageMem, _⟩ := exec_spares hc h
    exact .inl pageMem
  cases c
  case pageCommit => exact .inr (by simp)
  case normalEnd => exact .inr (by simp)
  case powerOnResetEnd => exact .inr (by simp)
  all_goals refine .inl ?_
  case pageDefine => simp [pageDefine_row h]
  case pageClose => simp [pageClose_row h]
  case localClaim => simp [localClaim_row h]
  case localRelease => simp [localRelease_row h]
  case breakClaim => simp [breakClaim_row h]
  case submit => simp [submit_row h]
  case controllerResetEnd => simp [controllerResetEnd_row h]
  case resetAsserted => simp [resetAsserted_row h]
  case header => simp [header_row h]
  case blockSlot => simp [blockSlot_row h]
  case resendExhaustion => simp [resendExhaustion_row h]
  case bitError => simp [bitError_row h]
  case lossOfSyncEdges => simp [lossOfSyncEdges_row h]
  case stuckDominant => simp [stuckDominant_row h]
  case tick => simp [tick_row h]
  case leaseExpiry => simp [leaseExpiry_row h]
  case pendingExpiry => simp [pendingExpiry_row h]
  case refreshWindowExpiry => simp [refreshWindowExpiry_row h]
  case freshLifetimeExpiry => simp [freshLifetimeExpiry_row h]
  all_goals exact absurd rfl hc

/-- Settles O16. -/
theorem pageMemoryHasThreeWriters : Obligations.PageMemoryHasThreeWriters := by
  intro s t h changed
  rcases step_next h with ⟨_, rfl⟩ | ⟨c, rest, hq, hc⟩
  · simp at changed
  · have writer := (exec_pageMem hc).resolve_left changed
    refine ⟨rest, ?_⟩
    simpa [hq] using writer

end Sys2Proof.Machine
end

section
/-!
PROOFS. The Local Port's ranges and the canonical form of the four RAMs, kept by every step (R43, R101, R114, R164,
R169, R170).
-/

namespace Sys2Proof.Machine

/-! ### The port -/

/-- `t` keeps what `s` keeps to of the Local Port: its ranges, and the form of its staging buffer. -/
structure PortKept (s t : State) : Prop where
  law : s.portLaw → t.portLaw
  staging : s.port.staging.wf Config.stagingSize = true → t.port.staging.wf Config.stagingSize = true

theorem portKept_same {s t : State} (h : t.port = s.port) : PortKept s t :=
  ⟨portLaw_congr h, fun hs => h ▸ hs⟩

theorem PortKept.trans {s t u : State} (h : PortKept s t) (k : PortKept t u) : PortKept s u :=
  ⟨k.law ∘ h.law, k.staging ∘ h.staging⟩

/-- A completion with at most four bytes of RESULT_DATA (R168, R169). -/
theorem PortKept.finish {s u : State} (h : PortKept s u) (r : Result) {data : List Byte}
    (hd : data.length ≤ 4) : PortKept s (u.finish r data) :=
  ⟨fun hs => ⟨(h.law hs).writeIndex, Nat.zero_le _, hd, (h.law hs).dataPtr⟩, h.staging⟩

theorem portKept_fillStaging (s : State) (bytes : List Byte) : PortKept s (s.fillStaging bytes) :=
  ⟨fun hs => ⟨hs.writeIndex, hs.resultIndex, hs.resultData, Nat.zero_le _⟩,
    fun hs => Memory.wf_writeBytes 0 hs⟩

theorem completing_port {s t : State} {code : Byte} {f : Params → State → State}
    (hf : ∀ p, PortKept s (f p s)) (h : s.completing code f = .next t) : PortKept s t := by
  rcases completing_next h with rfl | ⟨p, _, _, rfl⟩
  · exact portKept_same rfl
  · exact hf p

/-- A register access, by what it does outside a reset (R163, R175). -/
theorem hostRead_port {s t : State} {a : BitVec 4} {f : State → State} (hf : PortKept s (f s))
    (h : s.hostRead a f = .next t) : PortKept s t := by
  rcases hostRead_next h with ⟨_, rfl⟩ | ⟨_, rfl⟩
  · exact portKept_same rfl
  · exact hf.trans (portKept_same rfl)

theorem hostWrite_port {s t : State} {f : State → State} (hf : PortKept s (f s))
    (h : s.hostWrite f = .next t) : PortKept s t := by
  rcases hostWrite_next h with ⟨_, rfl⟩ | ⟨_, rfl⟩
  · exact portKept_same rfl
  · exact hf

theorem advanceResult_port (s : State) : PortKept s s.advanceResult := by
  unfold State.advanceResult
  split
  next hi => exact ⟨fun hs => ⟨hs.writeIndex, hi, hs.resultData, hs.dataPtr⟩, id⟩
  next => exact portKept_same rfl

theorem placeParam_port (value : Byte) (s : State) : PortKept s (s.placeParam value) := by
  unfold State.placeParam
  split
  next hi => exact ⟨fun hs => ⟨hi, hs.resultIndex, hs.resultData, hs.dataPtr⟩, id⟩
  next => exact portKept_same rfl

theorem dataOpen_iff {s : State} : s.dataOpen = true ↔ s.cmdBusy = false ∧ s.port.dataPtr < 64 := by
  simp only [State.dataOpen, Bool.and_eq_true, Bool.not_eq_true', decide_eq_true_eq]
  rfl

theorem advanceData_port (s : State) : PortKept s s.advanceData := by
  unfold State.advanceData
  split
  next hd =>
    have below := (dataOpen_iff.1 hd).2
    exact ⟨fun hs => ⟨hs.writeIndex, hs.resultIndex, hs.resultData, below⟩, id⟩
  next => exact portKept_same rfl

theorem storeData_port (value : Byte) (s : State) : PortKept s (s.storeData value) := by
  unfold State.storeData
  split
  next hd =>
    have below := (dataOpen_iff.1 hd).2
    exact ⟨fun hs => ⟨hs.writeIndex, hs.resultIndex, hs.resultData, below⟩,
      fun hs => Memory.wf_write hs _ _⟩
  next => exact portKept_same rfl

theorem pointData_port (value : Byte) (s : State) : PortKept s (s.pointData value) := by
  unfold State.pointData
  split
  next => exact portKept_same rfl
  next =>
    exact ⟨fun hs => ⟨hs.writeIndex, hs.resultIndex, hs.resultData, Nat.min_le_right _ _⟩, id⟩

theorem offerCommand_port (code : Byte) (s : State) : PortKept s (s.offerCommand code) := by
  unfold State.offerCommand
  split
  · exact ⟨fun hs => ⟨Nat.zero_le _, hs.resultIndex, hs.resultData, hs.dataPtr⟩, id⟩
  · exact ⟨fun hs => ⟨hs.writeIndex, hs.resultIndex, hs.resultData, hs.dataPtr⟩, id⟩

theorem portKept_reset {s t : State} (h : t.port = .reset) : PortKept s t :=
  ⟨fun _ => by constructor <;> simp [h, LocalPort.reset], fun _ => by rw [h]; rfl⟩

/-- A completion finishes a state whose port differs from the one before by a filled staging buffer at most; a register
access changes one range, and every other row none. -/
theorem exec_port {c : Instr} {s t : State} (h : exec c s = .next t) : PortKept s t := by
  have done : ∀ {u : State} {r : Result} {data : List Byte}, u.port = s.port → data.length ≤ 4 →
      PortKept s (u.finish r data) := fun hu hd => (portKept_same hu).finish _ hd
  have flags : ∀ {u : State}, u.port.writeIndex = s.port.writeIndex → u.port.resultIndex ≤ s.port.resultIndex →
      u.port.resultData = s.port.resultData → u.port.dataPtr = s.port.dataPtr →
      u.port.staging = s.port.staging → PortKept s u := fun hw hi hr hd hg =>
    ⟨fun hs => ⟨hw ▸ hs.writeIndex, hr ▸ hi.trans hs.resultIndex, hr ▸ hs.resultData, hd ▸ hs.dataPtr⟩,
      fun hs => hg ▸ hs⟩
  cases c
  case configure | setGroups | linkStart | linkStop | pageDefine | pageClose | pageCommit | localClaim
      | localRelease | breakClaim | submit | cancel | retire | peerReset | inboundDrop =>
    refine completing_port (fun p => ?_) h
    simp only [configureEffect, setGroupsEffect, linkStartEffect, linkStopEffect, pageDefineEffect,
      pageCloseEffect, pageCommitEffect, State.commitPage, localClaimEffect, localReleaseEffect,
      breakClaimEffect, submitEffect, cancelEffect, retireEffect, peerResetEffect, inboundDropEffect]
    repeat' split
    all_goals exact done (by simp) (by simp)
  case pageFetch | jobQuery | jobFetch | peerRead =>
    refine completing_port (fun p => ?_) h
    simp only [pageFetchEffect, jobQueryEffect, jobFetchEffect, peerReadEffect]
    repeat' split
    all_goals first
      | exact done rfl (by simp)
      | exact (portKept_fillStaging s _).finish _ (by simp)
  case badCommand =>
    simp only [exec, execBadCommand] at h
    repeat' split at h
    all_goals cases h
    · exact done rfl (by simp)
    all_goals exact portKept_same rfl
  case statusRead =>
    simp only [exec, execStatusRead] at h
    refine hostRead_port ?_ h
    exact flags rfl (Nat.le_refl _) rfl rfl rfl
  case resultRead =>
    simp only [exec, execResultRead] at h
    refine hostRead_port ?_ h
    exact flags rfl (Nat.zero_le _) rfl rfl rfl
  case resultDataRead => exact hostRead_port (advanceResult_port s) h
  case dataRead => exact hostRead_port (advanceData_port s) h
  case paramWrite value => exact hostWrite_port (placeParam_port value s) h
  case dataWrite value => exact hostWrite_port (storeData_port value s) h
  case dataPtrWrite value => exact hostWrite_port (pointData_port value s) h
  case cmdWrite code => exact hostWrite_port (offerCommand_port code s) h
  case irqEnableWrite =>
    simp only [exec, execIrqEnableWrite] at h
    refine hostWrite_port ?_ h
    exact flags rfl (Nat.le_refl _) rfl rfl rfl
  case irqClear value =>
    simp only [exec, execIrqClear] at h
    refine hostWrite_port ?_ h
    split
    · exact flags rfl (Nat.le_refl _) rfl rfl rfl
    · exact portKept_same rfl
  case controllerReset value =>
    simp only [exec, execControllerReset] at h
    refine hostWrite_port ?_ h
    split
    · exact flags rfl (Nat.le_refl _) rfl rfl rfl
    · exact portKept_same rfl
  case controllerResetEnd =>
    simp only [exec, execControllerResetEnd] at h
    split at h <;> cases h
    · exact portKept_reset rfl
    · exact portKept_same rfl
  case resetAsserted =>
    cases h
    exact portKept_reset rfl
  case powerOnResetEnd =>
    simp only [exec, execPowerOnResetEnd] at h
    split at h <;> cases h
    · exact portKept_reset rfl
    · exact portKept_same rfl
  all_goals refine portKept_same ?_
  case powerOnResetSequence => simp [powerOnResetSequence_row h]
  case completionRead => simp [completionRead_row h]
  case eventRead => simp [eventRead_row h]
  case inboundRead => simp [inboundRead_row h]
  case ignoredWrite => simp [ignoredWrite_row h]
  case enterOnline => simp [enterOnline_row h]
  case transmitOpportunity => simp [transmitOpportunity_row h]
  case startMarker => simp [startMarker_row h]
  case arbitrationLost => simp [arbitrationLost_row h]
  case header => simp [header_row h]
  case blockSlot => simp [blockSlot_row h]
  case resendExhaustion => simp [resendExhaustion_row h]
  case bitError => simp [bitError_row h]
  case lossOfSyncEdges => simp [lossOfSyncEdges_row h]
  case normalEnd => simp [normalEnd_row h]
  case stuckDominant => simp [stuckDominant_row h]
  case gapMeasurementRestart => simp [gapMeasurementRestart_row h]
  case recoveryTimerExpiry => simp [recoveryTimerExpiry_row h]
  case tick => simp [tick_row h]
  case leaseExpiry => simp [leaseExpiry_row h]
  case pendingExpiry => simp [pendingExpiry_row h]
  case refreshWindowExpiry => simp [refreshWindowExpiry_row h]
  case freshLifetimeExpiry => simp [freshLifetimeExpiry_row h]
  case retryCountdownExpiry => simp [retryCountdownExpiry_row h]
  case deadlineExpiry => simp [deadlineExpiry_row h]

/-! ### The other RAMs -/

/-- Page memory, the ring and the pool keep their form over a row (R43, R101, R114); the staging buffer's is the
port's. -/
theorem exec_memoryForm {c : Instr} {s t : State} (hs : s.memoryForm) (h : exec c s = .next t) :
    t.memoryForm := by
  obtain ⟨hp, hr, hb, hg⟩ := hs
  have staging := (exec_port h).staging hg
  have unwritten : t.pageMem = s.pageMem → t.inbound.ring = s.inbound.ring → t.pool = s.pool →
      t.memoryForm := fun ep er eb => ⟨ep ▸ hp, er ▸ hr, eb ▸ hb, staging⟩
  by_cases hc : sparesPages c = true
  · obtain ⟨_, _, ep, er, eb⟩ := exec_spares hc h
    exact unwritten ep er eb
  have form : s.momentOver.memoryForm := ⟨hp, hr, hb, hg⟩
  cases c
  case pageCommit =>
    refine ⟨?_, by simpa [pageCommit_row h] using hr, by simpa [pageCommit_row h] using hb, staging⟩
    rcases completing_next h with rfl | ⟨p, _, _, rfl⟩
    · exact hp
    · simp only [pageCommitEffect, State.commitPage]
      repeat' split
      iterate 5 exact hp
      exact Memory.wf_writeBytes _ hp
  case submit =>
    refine ⟨by simpa [submit_row h] using hp, by simpa [submit_row h] using hr, ?_, staging⟩
    rcases completing_next h with rfl | ⟨p, _, _, rfl⟩
    · exact hb
    · simp only [submitEffect, State.takeJob, submittedPool]
      repeat' split
      all_goals first
        | exact hb
        | exact wf_writeBuffer 0 hb
  case controllerResetEnd =>
    simp only [exec, execControllerResetEnd] at h
    split at h <;> cases h
    · exact memoryForm_blocksReset hp _
    · exact ⟨hp, hr, hb, hg⟩
  case resetAsserted =>
    cases h
    exact memoryForm_blocksReset hp _
  case powerOnResetEnd =>
    simp only [exec, execPowerOnResetEnd] at h
    split at h <;> cases h
    · exact memoryForm_blocksReset rfl _
    · exact ⟨hp, hr, hb, hg⟩
  case normalEnd =>
    rcases onLink_next h with ⟨_, rfl⟩ | ⟨_, rfl⟩
    · exact ⟨hp, hr, hb, hg⟩
    · exact memoryForm_reachEnd form
  case blockSlot data check x y =>
    simp only [exec, execBlockSlot] at h
    rcases onLink_next h with ⟨_, rfl⟩ | ⟨_, rfl⟩
    · exact ⟨hp, hr, hb, hg⟩
    · exact ⟨by simpa using hp, by simpa using hr, wf_takeBlock (s := s.momentOver) hb data check x y, staging⟩
  case header | resendExhaustion | bitError | lossOfSyncEdges | stuckDominant =>
    simp only [exec, execHeader, execResendExhaustion, execBitError, execLossOfSyncEdges,
      execStuckDominant] at h
    rcases onLink_next h with ⟨_, rfl⟩ | ⟨_, rfl⟩
    · exact ⟨hp, hr, hb, hg⟩
    · exact unwritten (by simp [apply_ite]) (by simp [apply_ite]) (by simp [apply_ite])
  case pageDefine =>
    exact unwritten (by simp [pageDefine_row h]) (by simp [pageDefine_row h]) (by simp [pageDefine_row h])
  case pageClose =>
    exact unwritten (by simp [pageClose_row h]) (by simp [pageClose_row h]) (by simp [pageClose_row h])
  case localClaim =>
    exact unwritten (by simp [localClaim_row h]) (by simp [localClaim_row h]) (by simp [localClaim_row h])
  case localRelease =>
    exact unwritten (by simp [localRelease_row h]) (by simp [localRelease_row h]) (by simp [localRelease_row h])
  case breakClaim =>
    exact unwritten (by simp [breakClaim_row h]) (by simp [breakClaim_row h]) (by simp [breakClaim_row h])
  case tick =>
    exact unwritten (by simp [tick_row h]) (by simp [tick_row h]) (by simp [tick_row h])
  case leaseExpiry =>
    exact unwritten (by simp [leaseExpiry_row h]) (by simp [leaseExpiry_row h]) (by simp [leaseExpiry_row h])
  case pendingExpiry =>
    exact unwritten (by simp [pendingExpiry_row h]) (by simp [pendingExpiry_row h]) (by simp [pendingExpiry_row h])
  case refreshWindowExpiry =>
    exact unwritten (by simp [refreshWindowExpiry_row h]) (by simp [refreshWindowExpiry_row h])
      (by simp [refreshWindowExpiry_row h])
  case freshLifetimeExpiry =>
    exact unwritten (by simp [freshLifetimeExpiry_row h]) (by simp [freshLifetimeExpiry_row h])
      (by simp [freshLifetimeExpiry_row h])
  all_goals exact absurd rfl hc

/-- Settles O6: both laws are kept by every row, and a countdown's share of a tick touches neither. -/
theorem formsAndRangesKept : Obligations.FormsAndRangesKept := by
  refine ⟨fun s t hs h => ?forms, fun s t hs h => ?ranges⟩
  case forms =>
    exact step_keeps (P := State.memoryForm) (fun _ _ _ hs => hs)
      (fun s b x _ hs => memoryForm_congr (by simp) (by simp) (by simp) (by simp) hs)
      (fun _ _ _ hs h => exec_memoryForm hs h) hs h
  case ranges =>
    exact step_keeps (P := State.portLaw) (fun _ _ _ hs => portLaw_congr (by rfl) hs)
      (fun s b x _ hs => portLaw_congr (by simp) hs) (fun _ _ _ hs h => (exec_port h).law hs) hs h

end Sys2Proof.Machine
end

section
/-!
PROOFS. The page commands: PAGE_DEFINE, PAGE_CLOSE, PAGE_FETCH, PAGE_COMMIT (R44, R46 to R50).
-/

namespace Sys2Proof.Machine

section
variable {s : State} {p : Params} {pg : Page}

/-! ### The page a command names -/

theorem pageOf_eq {b : Byte} (h : pg.val = b.toNat) : pageOf b = some pg := by
  have hlt : b.toNat < 64 := h ▸ pg.isLt
  rw [pageOf, dif_pos hlt]
  exact congrArg some (Fin.ext h.symm)

theorem pageOf_none {b : Byte} (h : 64 ≤ b.toNat) : pageOf b = none := dif_neg (by omega)

theorem pageAddress_eq (pg : Page) (k : Nat) : pageAddress pg k = 64 * pg.val + k :=
  congrArg (· + k) (Nat.mul_comm _ _)

/-! ### The taken command completes with its effect (R166, R168) -/

/-- The row of the taken command is its effect `u`, finished. -/
theorem completing_finish {code : Byte} {f : Params → State → State} {u : State} {r : Result}
    {data : List Byte} (hp : s.inProgress code p) (h : f p s = u.finish r data) :
    s.completing code f = .next { u with port := u.port.finished r data } :=
  (completing_taken f hp).trans (congrArg _ h)

/-! ### PAGE_DEFINE (R46) -/

theorem pageMode_ofCode_iff {b : Byte} {m : PageMode} : PageMode.ofCode b = some m ↔
    b.toNat = 1 ∧ m = .opened ∨ b.toNat = 2 ∧ m = .deferred := by
  unfold PageMode.ofCode
  split
  next h => simp [h, eq_comm (a := m)]
  next h => simp [h, eq_comm (a := m)]
  next h₁ h₂ => simpa using ⟨fun h => absurd h h₁, fun h => absurd h h₂⟩

theorem access_ofCode_iff {b : Byte} {a : Access} : Access.ofCode b = some a ↔
    b.toNat = 1 ∧ a = .readOnly ∨ b.toNat = 2 ∧ a = .writeOnly ∨ b.toNat = 3 ∧ a = .readWrite := by
  unfold Access.ofCode
  split
  next h => simp [h, eq_comm (a := a)]
  next h => simp [h, eq_comm (a := a)]
  next h => simp [h, eq_comm (a := a)]
  next h₁ h₂ h₃ => simpa using ⟨fun h => absurd h h₁, fun h => absurd h h₂, fun h => absurd h h₃⟩

theorem definitionOf_iff {e : PageEntry} : definitionOf p = some e ↔
    ∃ mode access, PageMode.ofCode p[1] = some mode ∧ Access.ofCode p[3] = some access ∧
      (1 ≤ p[2].toNat ∧ p[2].toNat ≤ 64 ∧ p[4].toNat < 127 ∧ ¬(mode = .deferred ∧ access = .writeOnly)) ∧
      e = { PageEntry.default with
        mode := mode
        length := p[2].toNat
        access := access
        allowed := p[4].setWidth 7
        claimable := p[5].getLsbD 0
        lifetime := if mode = .deferred then p[6].toNat else 0 } := by
  unfold definitionOf
  constructor
  · intro h
    split at h
    next mode access hm ha =>
      split at h
      next legal => exact ⟨mode, access, hm, ha, legal, (Option.some.inj h).symm⟩
      next => cases h
    next => cases h
  · rintro ⟨mode, access, hm, ha, legal, rfl⟩
    simp only [hm, ha, if_pos legal]

/-- The definition that R46 accepts, byte by byte. -/
def LegalDefinition (p : Params) : Prop :=
  (p[1].toNat = 1 ∨ p[1].toNat = 2) ∧ 1 ≤ p[2].toNat ∧ p[2].toNat ≤ 64 ∧
    (1 ≤ p[3].toNat ∧ p[3].toNat ≤ 3) ∧ p[4].toNat ≤ 126 ∧ ¬(p[1].toNat = 2 ∧ p[3].toNat = 2)

theorem legalDefinition_of_some {e : PageEntry} (h : definitionOf p = some e) : LegalDefinition p := by
  obtain ⟨mode, access, hm, ha, ⟨h₁, h₂, h₃, h₄⟩, _⟩ := definitionOf_iff.1 h
  rw [pageMode_ofCode_iff] at hm
  rw [access_ofCode_iff] at ha
  refine ⟨hm.imp And.left And.left, h₁, h₂, ?_, by omega, fun ⟨hm2, ha2⟩ => h₄ ?_⟩
  · rcases ha with ⟨ha, _⟩ | ⟨ha, _⟩ | ⟨ha, _⟩ <;> omega
  · simpa [hm2, ha2] using And.intro hm ha

theorem definitionOf_legal (h : LegalDefinition p) : ∃ e, definitionOf p = some e := by
  obtain ⟨hm, h₁, h₂, ha, h₃, h₄⟩ := h
  have mode : ∃ m, PageMode.ofCode p[1] = some m := by
    simp only [pageMode_ofCode_iff]
    rcases hm with hm | hm <;> simp [hm]
  have access : ∃ a, Access.ofCode p[3] = some a := by
    simp only [access_ofCode_iff]
    have codes : p[3].toNat = 1 ∨ p[3].toNat = 2 ∨ p[3].toNat = 3 := by omega
    rcases codes with ha | ha | ha <;> simp [ha]
  obtain ⟨m, hm⟩ := mode
  obtain ⟨a, ha⟩ := access
  refine ⟨_, definitionOf_iff.2 ⟨m, a, hm, ha, ⟨h₁, h₂, by omega, ?_⟩, rfl⟩⟩
  rintro ⟨rfl, rfl⟩
  simp only [pageMode_ofCode_iff, access_ofCode_iff, reduceCtorEq, and_false, and_true, or_false, false_or]
    at hm ha
  exact h₄ ⟨hm, ha⟩

theorem pageDefineEffect_illegal (h : ¬(p[0].toNat < 64 ∧ LegalDefinition p)) :
    pageDefineEffect p s = s.finish .badParam [] := by
  unfold pageDefineEffect
  split
  next pg e hpg hdef =>
    refine absurd ⟨?_, legalDefinition_of_some hdef⟩ h
    by_contra hge
    simp [pageOf_none (Nat.le_of_not_lt hge)] at hpg
  next => rfl

theorem pageDefineEffect_legal {e : PageEntry} (hpg : pg.val = p[0].toNat) (he : definitionOf p = some e) :
    pageDefineEffect p s =
      if (s.page pg).mode ≠ .closed then s.finish .pageOpen [] else (s.setPage pg e).finish .ok [] := by
  simp only [pageDefineEffect, pageOf_eq hpg, he]

end

/-- Settles O32: a definition is accepted exactly when its bytes are legal, and they give the entry stored. -/
theorem pageDefineOpensAClosedPage : Obligations.PageDefineOpensAClosedPage := by
  refine ⟨?effect, rfl, rfl⟩
  intro s p hp legal
  refine ⟨fun bad => ?illegal, fun good pg hpg => ?legal⟩
  case illegal => exact completing_finish hp (pageDefineEffect_illegal bad)
  case legal =>
    obtain ⟨e, he⟩ := definitionOf_legal (p := p) good.2
    have effect := pageDefineEffect_legal (s := s) hpg he
    refine ⟨fun opened => ?_, fun closed => ⟨e, ?_, ?_⟩⟩
    · exact completing_finish hp (effect.trans (if_pos opened))
    · exact completing_finish hp (effect.trans (if_neg (by simpa using closed)))
    · obtain ⟨mode, access, hm, ha, ⟨_, _, hallowed, _⟩, rfl⟩ := definitionOf_iff.1 he
      refine ⟨hm, rfl, ha, ?_, rfl, rfl, rfl, rfl, rfl, rfl, rfl⟩
      rw [BitVec.toNat_setWidth, Nat.mod_eq_of_lt (by omega)]

section
variable {s : State} {p : Params} {pg : Page}

/-! ### PAGE_CLOSE (R47) -/

theorem pageCloseEffect_eq (hpg : pg.val = p[0].toNat) : pageCloseEffect p s =
    if (s.page pg).mode = .closed then s.finish .pageClosed []
    else if s.inFlight pg then s.finish .pageBusy []
    else if (s.page pg).holder.remote = true ∧ p[1].getLsbD 0 = false then s.finish .pageClaimed []
    else (s.setPage pg .default).finish .ok [] := by
  simp only [pageCloseEffect, pageOf_eq hpg, Bool.and_eq_true, Bool.not_eq_true']

end

/-- Settles O33: the checks of the effect, taken in their order. -/
theorem pageCloseRestoresTheDefault : Obligations.PageCloseRestoresTheDefault := by
  intro s p hp closed
  refine ⟨fun hge => ?badParam, fun pg hpg => ?page⟩
  case badParam =>
    exact completing_finish hp (by simp only [pageCloseEffect, pageOf_none hge])
  case page =>
    have effect := pageCloseEffect_eq (s := s) hpg
    refine ⟨fun hm => ?_, fun hm => ?_⟩
    · exact completing_finish hp (effect.trans (if_pos hm))
    rw [if_neg hm] at effect
    refine ⟨fun hf => ?_, fun hf hr forced => ?_, fun hf free => ?_⟩
    · exact completing_finish hp (effect.trans (if_pos hf))
    all_goals rw [hf, if_neg Bool.false_ne_true] at effect
    · exact completing_finish hp (effect.trans (if_pos ⟨hr, forced⟩))
    · refine completing_finish hp (effect.trans (if_neg fun ⟨hr, forced⟩ => ?_))
      rcases free with h | h
      · exact Bool.false_ne_true (h.symm.trans hr)
      · exact Bool.false_ne_true (forced.symm.trans h)

section
variable {s : State} {p : Params} {pg : Page}

/-! ### PAGE_FETCH (R48) -/

theorem pageFetchEffect_eq (hpg : pg.val = p[0].toNat) : pageFetchEffect p s =
    if (s.page pg).mode = .closed then s.finish .pageClosed []
    else (s.fillStaging (s.pageBytes pg)).finish .ok [(s.page pg).sequence, byte (s.page pg).length,
      (s.page pg).mode.code, (s.page pg).freshness.code] := by
  simp only [pageFetchEffect, pageOf_eq hpg]

theorem pageBytes_eq : s.pageBytes pg =
    (List.range (s.page pg).length).map fun k => s.pageMem.read (64 * pg.val + k) := by
  simp only [State.pageBytes, Memory.readBytes, pageAddress_eq, Nat.add_zero]

/-- The bytes a command fills the staging buffer with, from byte 0 on; those beyond its end are lost (R171, R172). -/
theorem fillStaging_read (hm : s.port.staging.wf Config.stagingSize = true) (bytes : List Byte) {k : Nat}
    (hk : k < 64) : (s.fillStaging bytes).port.staging.read k = bytes.getD k (s.port.staging.read k) := by
  rw [fillStaging_port, Memory.read_writeBytes_clipped hm]
  by_cases hb : k < bytes.length
  · rw [if_pos ⟨Nat.zero_le k, by omega, hk⟩, Nat.sub_zero, List.getD_eq_getElem _ _ hb,
      List.getD_eq_getElem _ _ hb]
  · rw [if_neg (by omega), List.getD_eq_default _ _ (by omega)]

end

/-- Settles O34: the bytes of the staging buffer are read back one by one. -/
theorem pageFetchCopiesThePage : Obligations.PageFetchCopiesThePage := by
  refine ⟨fun s p hp ⟨_, _, _, hstaging⟩ => ⟨fun hge => ?badParam, fun pg hpg =>
    ⟨fun hm => ?closed, fun hm => ?page⟩⟩, rfl, rfl⟩
  case badParam =>
    exact completing_finish hp (by simp only [pageFetchEffect, pageOf_none hge])
  case closed =>
    exact completing_finish hp ((pageFetchEffect_eq hpg).trans (if_pos hm))
  case page =>
    have done := completing_taken pageFetchEffect hp
    rw [pageFetchEffect_eq hpg, if_neg hm, pageBytes_eq] at done
    exact ⟨_, done, rfl, fun k hk => fillStaging_read hstaging _ hk⟩

section
variable {s : State} {p : Params} {pg : Page}

/-! ### PAGE_COMMIT (R49, R50) -/

theorem pageCommitEffect_eq (hpg : pg.val = p[0].toNat) : pageCommitEffect p s =
    if (s.page pg).mode = .closed then s.finish .pageClosed []
    else if s.inFlight pg then s.finish .pageBusy []
    else if (s.page pg).holder.remote = true ∧ p[1].getLsbD 0 = false then s.finish .pageClaimed []
    else if p[1].getLsbD 1 = true ∧ (s.page pg).sequence ≠ p[2] then s.finish .conflict [(s.page pg).sequence]
    else (s.commitPage pg).finish .ok [(s.page pg).sequence + 1] := by
  simp only [pageCommitEffect, pageOf_eq hpg, Bool.and_eq_true, Bool.not_eq_true', bne_iff_ne]

/-- A taken commit replaces the page's bytes and no other byte of page memory. -/
theorem commitPage_read (hm : s.pageMem.wf Config.pageMemorySize = true) (hl : (s.page pg).length ≤ 64)
    (a : Nat) : (s.commitPage pg).pageMem.read a =
      if 64 * pg.val ≤ a ∧ a < 64 * pg.val + (s.page pg).length then
        s.port.staging.read (a - 64 * pg.val)
      else s.pageMem.read a := by
  have within : 64 * pg.val + (s.page pg).length ≤ Config.pageMemorySize := by
    have := pg.isLt
    simp only [Config.pageMemorySize]
    omega
  have size : (s.stagingBytes (s.page pg).length).length = (s.page pg).length := by
    simp [State.stagingBytes, Memory.readBytes]
  simp only [State.commitPage, pageAddress_eq, Nat.add_zero]
  rw [Memory.read_writeBytes _ hm (by rwa [size]), size]
  split
  next ha =>
    rw [List.getD_eq_getElem _ _ (by rw [size]; omega)]
    simp [State.stagingBytes, Memory.readBytes]
  next => rfl

end

/-- Settles O35: the checks of the effect in their order, and page memory read back byte by byte. -/
theorem pageCommitReplacesTheContents : Obligations.PageCommitReplacesTheContents := by
  intro s p hp ⟨hpages, _, _, _⟩
  refine ⟨fun hge => ?badParam, fun pg hpg => ?page⟩
  case badParam =>
    exact completing_finish hp (by simp only [pageCommitEffect, pageOf_none hge])
  case page =>
    intro e
    have effect := pageCommitEffect_eq (s := s) hpg
    refine ⟨fun hm => ?_, fun hm hf => ?_, fun hm hf => ?_⟩
    · exact completing_finish hp (effect.trans (if_pos hm))
    all_goals rw [if_neg hm] at effect
    · exact completing_finish hp (effect.trans (if_pos hf))
    rw [hf, if_neg Bool.false_ne_true] at effect
    refine ⟨fun claimed => ?_, fun free => ?_⟩
    · exact completing_finish hp (effect.trans (if_pos claimed))
    rw [if_neg free] at effect
    refine ⟨fun conflict => ?_, fun expected hl => ?_⟩
    · exact completing_finish hp (effect.trans (if_pos conflict))
    · have taken : ¬(p[1].getLsbD 1 = true ∧ e.sequence ≠ p[2]) := fun ⟨expects, differs⟩ =>
        expected.elim (fun h => Bool.false_ne_true (h.symm.trans expects)) differs
      exact ⟨_, _, completing_finish hp (effect.trans (if_neg taken)), commitPage_read hpages hl⟩

end Sys2Proof.Machine
end

section
/-!
PROOFS. The resets (R42, R60, R61, R175 to R178).
-/

namespace Sys2Proof.Machine

/-- Settles O28: both rows are their one branch, taken in the reset mode that the claim names. -/
theorem controllerReset : Obligations.ControllerReset := by
  refine ⟨fun v s hv hm => ?begins, fun s hm => ?ends⟩
  case begins =>
    simp only [exec, execControllerReset, State.hostWrite, hm, hv, if_true]
    rfl
  case ends =>
    simp only [exec, execControllerResetEnd, hm, if_true]
    rfl

/-- Settles O29: RESET# low has one branch only; the other two rows are taken in the reset mode they end. -/
theorem powerOnReset : Obligations.PowerOnReset := by
  intro s
  refine ⟨⟨_, rfl, rfl, rfl⟩, fun hm => ?returns, fun hm => ?ends⟩
  case returns => simp only [exec, execPowerOnResetSequence, hm, if_true]
  case ends =>
    simp only [exec, execPowerOnResetEnd, hm, if_true]
    rfl

end Sys2Proof.Machine
end

section
/-!
PROOFS. The claim commands: LOCAL_CLAIM, LOCAL_RELEASE, BREAK_CLAIM (R62, R74 to R76).
-/

namespace Sys2Proof.Machine

section
variable {s : State} {p : Params} {pg : Page}

/-! ### The holder's byte (R62, 12.3) -/

theorem holder_code_node (a : Addr) : (Holder.node a).code.toNat = a.toNat :=
  BitVec.toNat_setWidth_of_le (by decide)

theorem holder_remote_iff {c : Holder} : c.remote = true ↔ c ≠ .none ∧ c ≠ .local := by
  cases c <;> simp [Holder.remote]

/-! ### The checks of each command, in their order -/

theorem localClaimEffect_eq (hpg : pg.val = p[0].toNat) : localClaimEffect p s =
    if (s.page pg).mode = .closed then s.finish .pageClosed []
    else if (s.page pg).holder = .local then
      s.finish .ok [(s.page pg).holder.code, byte (s.page pg).lease]
    else if s.inFlight pg then s.finish .pageBusy [(s.page pg).holder.code, byte (s.page pg).lease]
    else if (s.page pg).holder.remote then
      s.finish .pageClaimed [(s.page pg).holder.code, byte (s.page pg).lease]
    else (s.setPage pg { s.page pg with holder := .local, lease := 0 }).finish .ok
      [Holder.local.code, 0] := by
  simp only [localClaimEffect, pageOf_eq hpg]

theorem localReleaseEffect_eq (hpg : pg.val = p[0].toNat) : localReleaseEffect p s =
    if (s.page pg).holder ≠ .local then s.finish .notHolder [(s.page pg).holder.code]
    else if s.inFlight pg then s.finish .pageBusy []
    else (s.setPage pg { s.page pg with holder := .none }).finish .ok [] := by
  simp only [localReleaseEffect, pageOf_eq hpg]

theorem breakClaimEffect_eq (hpg : pg.val = p[0].toNat) : breakClaimEffect p s =
    if (s.page pg).mode = .closed then s.finish .pageClosed []
    else if s.inFlight pg then s.finish .pageBusy []
    else if (s.page pg).holder.remote = false then s.finish .notHolder [(s.page pg).holder.code]
    else (s.setPage pg { s.page pg with holder := .none, lease := 0 }).finish .ok
      [(s.page pg).holder.code, byte (s.page pg).lease] := by
  simp only [breakClaimEffect, pageOf_eq hpg, Bool.not_eq_true']

end

/-- Settles O36: the checks of each command's effect, taken in their order. -/
theorem claimCommands : Obligations.ClaimCommands := by
  refine ⟨fun s p hp => ⟨fun hge => ?claimNoPage, fun pg hpg => ?claim⟩,
    fun s p => ⟨fun hge => ⟨fun hp => ?releaseNoPage, fun hp => ?breakNoPage⟩,
      fun pg hpg => ⟨fun hp => ?release, fun hp => ?breakClaim⟩⟩,
    rfl, rfl, holder_code_node, rfl, rfl, fun _ => rfl⟩
  case claimNoPage => exact completing_finish hp (by simp only [localClaimEffect, pageOf_none hge])
  case releaseNoPage => exact completing_finish hp (by simp only [localReleaseEffect, pageOf_none hge])
  case breakNoPage => exact completing_finish hp (by simp only [breakClaimEffect, pageOf_none hge])
  case claim =>
    have effect := localClaimEffect_eq (s := s) hpg
    refine ⟨fun hm => ?closed, fun hm mine => ?mine, fun hm other hf => ?busy,
      fun hm hr hf => ?claimed, fun hm free hf => ?taken⟩
    case closed => exact completing_finish hp (effect.trans (if_pos hm))
    all_goals rw [if_neg hm] at effect
    case mine =>
      rw [if_pos mine, mine] at effect
      exact completing_finish hp effect
    case busy =>
      exact completing_finish hp (effect.trans ((if_neg other).trans (if_pos hf)))
    all_goals rw [hf] at effect
    case claimed =>
      have other : (s.page pg).holder ≠ .local := (holder_remote_iff.1 hr).2
      rw [if_neg other, if_neg Bool.false_ne_true] at effect
      exact completing_finish hp (effect.trans (if_pos hr))
    case taken =>
      have other : (s.page pg).holder ≠ .local := by simp [free]
      have unclaimed : ¬(s.page pg).holder.remote = true := fun hr => (holder_remote_iff.1 hr).1 free
      rw [if_neg other, if_neg Bool.false_ne_true] at effect
      exact completing_finish hp (effect.trans (if_neg unclaimed))
  case release =>
    have effect := localReleaseEffect_eq (s := s) hpg
    refine ⟨fun other => ?notHolder, fun mine hf => ?busy, fun mine hf => ?dropped⟩
    case notHolder => exact completing_finish hp (effect.trans (if_pos other))
    all_goals rw [if_neg (not_not_intro mine), hf] at effect
    case busy => exact completing_finish hp (effect.trans (if_pos rfl))
    case dropped => exact completing_finish hp (effect.trans (if_neg Bool.false_ne_true))
  case breakClaim =>
    have effect := breakClaimEffect_eq (s := s) hpg
    refine ⟨fun hm => ?closed, fun hm hf => ?busy, fun hm hf unclaimed => ?notHolder,
      fun hm hf hr => ?broken⟩
    case closed => exact completing_finish hp (effect.trans (if_pos hm))
    all_goals rw [if_neg hm] at effect
    case busy => exact completing_finish hp (effect.trans (if_pos hf))
    all_goals rw [hf, if_neg Bool.false_ne_true] at effect
    case notHolder => exact completing_finish hp (effect.trans (if_pos unclaimed))
    case broken =>
      exact completing_finish hp (effect.trans (if_neg fun h => Bool.false_ne_true (h.symm.trans hr)))

end Sys2Proof.Machine
end

section
/-!
SUPPORT. What the Responder and the Inbound Store hold for the telegram in progress: what an accepted header binds
and reserves, and that the ends of its telegram give it back (R87, R89, R94, R97, R101, R103 to R105).
-/

namespace Sys2Proof.Machine

/-- The Inbound Store's own part of Law 7 (R101, R103): it speaks of no telegram. -/
structure State.accounts (s : State) : Prop where
  reserved : s.inbound.reservation.isSome = (s.responder.marker == .inbound)
  size : ∀ r ∈ s.inbound.reservation, r.size = 6 + r.header.length.toNat
  ring : s.inbound.committedBytes + s.inbound.reservedBytes ≤ 1024
  head : s.inbound.head < 1024

/-- The marker and the reservation are what the accepted header `a` binds, and clear without one. -/
structure State.Holds (s : State) (a : Option Header) : Prop where
  marker : s.responder.marker = (a.map Header.marker).getD .clear
  header : ∀ r ∈ s.inbound.reservation, ∀ h ∈ a, r.header = h
  accounts : s.accounts

/-- The node holds what the header accepted in its role binds: Law 7 outside a reset. -/
def State.holdsAccepted (s : State) : Prop := s.Holds s.link.role.accepted

section
variable {s t : State} {h : Header} {a : Option Header}

theorem acceptLaw_running (hm : s.mode = .running) : s.acceptLaw ↔ s.holdsAccepted := by
  constructor
  · intro ⟨bound, reserved, reservedHeader, size, ring, head⟩
    exact ⟨bound hm, reservedHeader hm, reserved, size, ring, head⟩
  · intro ⟨marker, header, reserved, size, ring, head⟩
    exact ⟨fun _ => marker, reserved, fun _ => header, size, ring, head⟩

theorem acceptLaw_notRunning (hm : s.mode ≠ .running) : s.acceptLaw ↔ s.accounts := by
  constructor
  · intro ⟨_, reserved, _, size, ring, head⟩
    exact ⟨reserved, size, ring, head⟩
  · intro ⟨reserved, size, ring, head⟩
    exact ⟨fun h => absurd h hm, reserved, fun h => absurd h hm, size, ring, head⟩

theorem State.acceptLaw.accounts (hs : s.acceptLaw) : s.accounts :=
  ⟨hs.reserved, hs.size, hs.ring, hs.head⟩

/-! ### What the law reads -/

theorem State.accounts.congr (hs : s.accounts) (hk : t.responder.marker = s.responder.marker)
    (hi : t.inbound = s.inbound) : t.accounts := by
  obtain ⟨reserved, size, ring, head⟩ := hs
  constructor <;> simp only [hk, hi] <;> assumption

theorem State.Holds.congr (hs : s.Holds a) (hk : t.responder.marker = s.responder.marker)
    (hi : t.inbound = s.inbound) : t.Holds a :=
  ⟨hk.trans hs.marker, hi ▸ hs.header, hs.accounts.congr hk hi⟩

/-- The two states have accepted the same header, and hold the same for it. -/
structure SameAccepted (s t : State) : Prop where
  mode : t.mode = s.mode
  accepted : t.link.role.accepted = s.link.role.accepted
  marker : t.responder.marker = s.responder.marker
  inbound : t.inbound = s.inbound

theorem SameAccepted.refl (s : State) : SameAccepted s s := ⟨rfl, rfl, rfl, rfl⟩

theorem SameAccepted.trans {s t u : State} (h : SameAccepted s t) (k : SameAccepted t u) :
    SameAccepted s u :=
  ⟨k.mode.trans h.mode, k.accepted.trans h.accepted, k.marker.trans h.marker,
    k.inbound.trans h.inbound⟩

theorem State.holdsAccepted.same (hs : s.holdsAccepted) (h : SameAccepted s t) :
    t.holdsAccepted := by
  rw [State.holdsAccepted, h.accepted]
  exact hs.congr h.marker h.inbound

theorem State.acceptLaw.same (hs : s.acceptLaw) (h : SameAccepted s t) : t.acceptLaw := by
  by_cases hm : s.mode = .running
  · exact (acceptLaw_running (h.mode.trans hm)).2 (((acceptLaw_running hm).1 hs).same h)
  · exact (acceptLaw_notRunning (h.mode ▸ hm)).2
      (((acceptLaw_notRunning hm).1 hs).congr h.marker h.inbound)

/-! ### Nothing accepted -/

theorem State.accounts.unreserved (hs : s.accounts) (hk : s.responder.marker ≠ .inbound) :
    s.inbound.reservation = none := by
  rw [← Option.not_isSome_iff_eq_none, hs.reserved]
  simpa using hk

/-- Without an accepted header nothing is reserved. -/
theorem State.Holds.unreserved (hs : s.Holds none) : s.inbound.reservation = none :=
  hs.accounts.unreserved (by simp [hs.marker])

theorem accounts_unreserved (hk : s.responder.marker ≠ .inbound) (hr : s.inbound.reservation = none)
    (hc : s.inbound.committedBytes ≤ 1024) (hh : s.inbound.head < 1024) : s.accounts :=
  ⟨by simp [hr, hk], by simp [hr], by simpa [InboundStore.reservedBytes, hr] using hc, hh⟩

theorem holds_none (hk : s.responder.marker = .clear) (hr : s.inbound.reservation = none)
    (hc : s.inbound.committedBytes ≤ 1024) (hh : s.inbound.head < 1024) : s.Holds none :=
  ⟨hk, by simp, accounts_unreserved (by simp [hk]) hr hc hh⟩

/-- A role that has accepted nothing holds nothing. -/
theorem State.holdsAccepted.unaccepted (hs : s.holdsAccepted) (hr : s.link.role.accepted = none) :
    s.Holds none := hr ▸ hs

/-- Nothing is held, and the role that follows has accepted nothing. -/
theorem State.Holds.follow (hs : s.Holds none) (hk : t.responder.marker = s.responder.marker)
    (hi : t.inbound = s.inbound) (hr : t.link.role.accepted = none) : t.holdsAccepted := by
  rw [State.holdsAccepted, hr]
  exact hs.congr hk hi

/-! ### A header is accepted (R81, R87, R103) -/

/-- An accepted MESSAGE has room in the ring (R83). -/
theorem room_of_accept (hd : s.decision h = .accept) (hk : h.marker = .inbound) :
    6 + h.length.toNat ≤ s.inbound.free := by
  rw [decision_message (marker_inbound_iff.1 hk), State.messageDecision] at hd
  split at hd
  · cases hd
  split at hd
  · cases hd
  split at hd
  · cases hd
  next room => exact Nat.not_lt.1 room

theorem holds_acceptHeader (hs : s.Holds none) (hd : s.decision h = .accept) :
    (s.acceptHeader h).Holds (some h) := by
  have free : s.inbound.reservation = none := hs.unreserved
  by_cases hk : h.marker = .inbound
  · have room := room_of_accept hd hk
    simp only [InboundStore.free, Config.ringSize] at room
    have reserves : (s.acceptHeader h).inbound.reservation =
        some ⟨6 + h.length.toNat, s.inbound.tail, h⟩ := if_pos hk
    have marks : (s.acceptHeader h).responder.marker = .inbound := hk
    refine ⟨rfl, by simp [reserves], by simp [reserves, marks], by simp [reserves], ?ring,
      hs.accounts.head⟩
    simp only [InboundStore.reservedBytes, reserves, acceptHeader_inbound, Option.map_some,
      Option.getD_some]
    omega
  · have reserves : (s.acceptHeader h).inbound.reservation = none := (if_neg hk).trans free
    have ring := hs.accounts.ring
    exact ⟨rfl, by simp [reserves],
      accounts_unreserved hk reserves (Nat.le_trans (Nat.le_add_right _ _) ring) hs.accounts.head⟩

theorem roleFor_accepted (h : Header) (d : Decision) :
    (h.roleFor d).accepted = if d = .accept then some h else none := by
  unfold Header.roleFor
  cases d <;> split <;> rfl

/-- The Responder's answer: only an acceptance touches what is held (R86 to R88). -/
theorem holds_applyDecision (hs : s.Holds none) :
    (s.applyDecision h (s.decision h)).Holds (h.roleFor (s.decision h)).accepted := by
  rw [roleFor_accepted]
  cases hd : s.decision h with
  | accept => exact holds_acceptHeader hs hd
  | refuse r => exact hs.congr rfl rfl
  | busy r =>
    by_cases hq : r = .refreshing
    · subst hq
      exact hs.congr (by simp [State.applyDecision, State.recordResponse]) (by simp [State.applyDecision])
    · rw [applyDecision_busy (.inl hq)]
      exact hs.congr rfl rfl

/-! ### What was accepted is given up (R97, R105) -/

theorem abandonAccepted_reservation (s : State) : s.abandonAccepted.inbound.reservation =
    if s.responder.marker = .inbound then none else s.inbound.reservation := by
  cases hk : s.responder.marker with
  | page p => simp [abandonAccepted_page hk]
  | inbound => simp [abandonAccepted_inboundMarker hk]
  | clear => simp [abandonAccepted_clear hk]

theorem holds_abandonAccepted (hs : s.accounts) : s.abandonAccepted.Holds none := by
  have ring := hs.ring
  refine holds_none (by simp [abandonAccepted_responder]) ?unreserved (by simp; omega)
    (by simpa using hs.head)
  rw [abandonAccepted_reservation]
  split
  · rfl
  next hk => exact hs.unreserved hk

/-! ### What was accepted is done (R94, R104) -/

/-- A commit turns the bytes reserved into bytes committed (R104). -/
theorem commit_accounts (i : InboundStore) (payload : List Byte) (stamp : Stamp) :
    (i.commit payload stamp).reservation = none ∧
    (i.commit payload stamp).committedBytes = i.committedBytes + i.reservedBytes ∧
    (i.commit payload stamp).head = i.head := by
  unfold InboundStore.commit
  split
  next hr => simp [InboundStore.reservedBytes, hr]
  next hr => simp [InboundStore.reservedBytes, hr]

theorem holds_applyEffects (hs : s.Holds (some h)) : (s.applyEffects h).Holds none := by
  have marker : s.responder.marker = h.marker := hs.marker
  have cleared : (s.applyEffects h).responder.marker = .clear := by simp [applyEffects_responder]
  have ring := hs.accounts.ring
  by_cases ho : Operation.ofCode h.operation = some .message
  · obtain ⟨reservation, committed, head⟩ := commit_accounts s.inbound s.responder.staging s.ticks.stamp
    have stored : (s.applyEffects h).inbound =
        s.inbound.commit s.responder.staging s.ticks.stamp := by
      simp [applyEffects_inbound, State.operationEffects, ho]
    refine holds_none cleared ?_ ?_ ?_ <;> rw [stored]
    · exact reservation
    · exact committed ▸ ring
    · exact head ▸ hs.accounts.head
  · have spared : (s.applyEffects h).inbound = s.inbound := by
      rw [applyEffects_inbound, operationEffects_inbound ho]
    have unreserved : s.inbound.reservation = none :=
      hs.accounts.unreserved (by simp [marker, marker_inbound_iff, ho])
    refine holds_none cleared ?_ ?_ ?_ <;> rw [spared]
    · exact unreserved
    · omega
    · exact hs.accounts.head

end

end Sys2Proof.Machine
end

section
/-!
SUPPORT. The events of a telegram keep what the node holds for the header it has accepted: each ends the part with
nothing held, or leaves both as they were (R87, R89, R94, R97).
-/

namespace Sys2Proof.Machine

section
variable {s : State}

/-! ### Ends of the part -/

theorem leaveTelegram_accepted (s : State) {r : Role} (hr : r.accepted = none) :
    (s.leaveTelegram r).link.role.accepted = none := by
  unfold State.leaveTelegram
  repeat' split
  · rfl
  · rfl
  · exact hr

theorem holdsAccepted_leaveTelegram (hs : s.Holds none) {r : Role} (hr : r.accepted = none) :
    (s.leaveTelegram r).holdsAccepted :=
  hs.follow (by simp) (by simp) (leaveTelegram_accepted s hr)

theorem holdsAccepted_enterFaulted (hs : s.Holds none) (c : Cause) : (s.enterFaulted c).holdsAccepted :=
  hs.follow (by simp) (by simp) rfl

/-- The Responder's part is discarded; an attempt of the node's own holds nothing. -/
theorem holds_abandonPart (hs : s.holdsAccepted) (o : Attempt) : (s.abandonPart o).Holds none := by
  unfold State.abandonPart
  split
  iterate 2 next hr => exact (hs.unaccepted (by rw [hr]; rfl)).congr (by simp) (by simp)
  iterate 2 exact holds_abandonAccepted hs.accounts
  all_goals next hr => exact hs.unaccepted (by rw [hr]; rfl)

theorem holdsAccepted_abandonTelegram (hs : s.holdsAccepted) (o : Attempt) :
    (s.abandonTelegram o).holdsAccepted :=
  holdsAccepted_leaveTelegram (holds_abandonPart hs o) rfl

theorem holds_meetBitError (hs : s.holdsAccepted) {follow : Role} (hf : follow.accepted = none) :
    (s.meetBitError follow).holdsAccepted ∧ (s.meetBitError follow).link.role.accepted = none := by
  have counted : State.holdsAccepted { s with link := { s.link with
      txErrors := min Config.txErrorLimit (s.link.txErrors + 1) } } :=
    hs.same ⟨rfl, rfl, rfl, rfl⟩
  unfold State.meetBitError
  split
  · exact ⟨holdsAccepted_leaveTelegram (holds_abandonPart counted _) hf, leaveTelegram_accepted _ hf⟩
  · exact ⟨holdsAccepted_enterFaulted (holds_abandonPart counted _) _, rfl⟩

theorem holdsAccepted_meetBitError (hs : s.holdsAccepted) : (s.meetBitError .bystander).holdsAccepted :=
  (holds_meetBitError hs rfl).1

/-- A lost part leaves nothing held (R21, R97). -/
theorem holds_partLost (hs : s.holdsAccepted) :
    s.partLost.holdsAccepted ∧ s.partLost.link.role.accepted = none := by
  unfold State.partLost
  split
  iterate 2 exact holds_meetBitError hs rfl
  iterate 2
    exact ⟨holdsAccepted_leaveTelegram (holds_abandonAccepted hs.accounts) rfl,
      leaveTelegram_accepted _ rfl⟩
  iterate 2
    next hr =>
      exact ⟨holdsAccepted_leaveTelegram (hs.unaccepted (by rw [hr]; rfl)) rfl, leaveTelegram_accepted _ rfl⟩
  next hr => exact ⟨hs, by rw [hr]; rfl⟩

theorem holdsAccepted_loseSync (hs : s.holdsAccepted) : s.loseSync.holdsAccepted := by
  unfold State.loseSync
  split
  · exact hs
  · exact (holds_partLost hs).1

theorem holdsAccepted_meetStuck (hs : s.holdsAccepted) : s.meetStuck.holdsAccepted := by
  obtain ⟨lost, unaccepted⟩ := holds_partLost hs
  unfold State.meetStuck
  dsimp only
  split
  iterate 3 exact holdsAccepted_enterFaulted (lost.unaccepted unaccepted) _
  · exact lost.same ⟨rfl, rfl, rfl, rfl⟩
  · exact lost

theorem holdsAccepted_loseArbitration (hs : s.holdsAccepted) : s.loseArbitration.holdsAccepted := by
  unfold State.loseArbitration
  split
  next hr =>
    exact holdsAccepted_leaveTelegram ((hs.unaccepted (by rw [hr]; rfl)).congr (by simp) (by simp)) rfl
  all_goals exact hs

/-- The accepted telegram has its effects, and holds nothing after them (R94). -/
theorem holds_endEffects (hs : s.holdsAccepted) : s.endEffects.Holds none := by
  unfold State.endEffects
  split
  next hr => exact (hs.unaccepted (by rw [hr]; rfl)).congr (by simp) (by simp)
  iterate 2
    next hr =>
      rw [State.holdsAccepted, hr] at hs
      exact holds_applyEffects hs
  all_goals next hr => exact hs.unaccepted (by rw [hr]; rfl)

theorem holdsAccepted_reachEnd (hs : s.holdsAccepted) : s.reachEnd.holdsAccepted := by
  unfold State.reachEnd
  split
  · exact holdsAccepted_leaveTelegram ((holds_endEffects hs).congr (by simp) (by simp)) rfl
  · exact hs

/-! ### Blocks -/

theorem holdsAccepted_targetNak (hs : s.holdsAccepted) : s.targetNak.holdsAccepted := by
  have counted : State.holdsAccepted { s with responder := { s.responder with
      nakCount := s.responder.nakCount + 1 } } :=
    hs.same ⟨rfl, rfl, rfl, rfl⟩
  unfold State.targetNak
  dsimp only
  split
  · exact counted
  · exact holdsAccepted_abandonTelegram counted _

theorem holdsAccepted_initiatorNak (hs : s.holdsAccepted) : s.initiatorNak.holdsAccepted := by
  unfold State.initiatorNak
  split
  · exact hs.same ⟨rfl, rfl, rfl, rfl⟩
  · exact holdsAccepted_abandonTelegram hs _

theorem holdsAccepted_fifthNak (hs : s.holdsAccepted) : s.fifthNak.holdsAccepted := by
  unfold State.fifthNak
  repeat' split
  · exact hs
  · exact holdsAccepted_targetNak hs
  · exact hs
  · exact holdsAccepted_initiatorNak hs
  all_goals exact hs

theorem holdsAccepted_receiveBlock (hs : s.holdsAccepted) (passes : Bool) (x y : Level)
    {store nak : State → State} (stored : SameAccepted s (store s)) (naked : (nak s).holdsAccepted) :
    (s.receiveBlock passes x y store nak).holdsAccepted := by
  unfold State.receiveBlock
  repeat' split
  · exact holdsAccepted_meetBitError hs
  · exact hs.same stored
  · exact naked

theorem holdsAccepted_sendBlock (hs : s.holdsAccepted) (asSent : Bool) (x y : Level)
    {advance nak : State → State} (advanced : SameAccepted s (advance s))
    (naked : (nak s).holdsAccepted) : (s.sendBlock asSent x y advance nak).holdsAccepted := by
  unfold State.sendBlock
  repeat' split
  · exact holdsAccepted_meetBitError hs
  · exact hs.same advanced
  · exact naked

theorem holdsAccepted_memberBlock (hs : s.holdsAccepted) (h : Header) (passes : Bool)
    (bytes : List Byte) : (s.memberBlock h passes bytes).holdsAccepted := by
  unfold State.memberBlock
  split
  · exact hs.same ⟨rfl, rfl, rfl, rfl⟩
  · refine holdsAccepted_abandonTelegram ?_ _
    exact hs.same ⟨rfl, rfl, rfl, rfl⟩

theorem holdsAccepted_sendCollective (hs : s.holdsAccepted) (asSent : Bool) (x : Level) :
    (s.sendCollective asSent x).holdsAccepted := by
  unfold State.sendCollective
  split
  · exact holdsAccepted_meetBitError hs
  · exact hs.same ⟨rfl, rfl, rfl, rfl⟩

theorem holdsAccepted_takeBlock (hs : s.holdsAccepted) (data : Vector Byte 8) (check : Byte)
    (x y : Level) : (s.takeBlock data check x y).holdsAccepted := by
  unfold State.takeBlock
  split
  · exact hs
  split
  next =>
    dsimp only
    split
    · exact holdsAccepted_receiveBlock hs _ x y ⟨rfl, rfl, rfl, rfl⟩ (holdsAccepted_targetNak hs)
    · exact holdsAccepted_sendBlock hs _ x y ⟨rfl, rfl, rfl, rfl⟩ (holdsAccepted_targetNak hs)
  next => exact holdsAccepted_memberBlock hs _ _ _
  next =>
    dsimp only
    repeat' split
    · exact holdsAccepted_sendCollective hs _ x
    · exact holdsAccepted_sendBlock hs _ x y ⟨rfl, rfl, rfl, rfl⟩ (holdsAccepted_initiatorNak hs)
    · exact holdsAccepted_receiveBlock hs _ x y ⟨rfl, rfl, rfl, rfl⟩ (holdsAccepted_initiatorNak hs)
  all_goals exact hs

/-! ### The header -/

theorem holdsAccepted_handOver (hs : s.Holds none) (h : Header) : (s.handOver h).holdsAccepted :=
  (holds_applyDecision hs).congr rfl rfl

theorem holdsAccepted_takeHeaderBits (hs : s.holdsAccepted) (bits : BitVec 48) :
    (s.takeHeaderBits bits).holdsAccepted := by
  unfold State.takeHeaderBits
  split
  next hr =>
    have free : s.Holds none := hs.unaccepted (by rw [hr]; rfl)
    split
    · exact holdsAccepted_handOver free _
    · exact free.follow rfl rfl rfl
  next =>
    repeat' split
    · exact hs
    · exact hs.same ⟨rfl, rfl, rfl, rfl⟩
    · exact holdsAccepted_meetBitError hs
  all_goals exact hs

/-- A dissenting member leaves at the first slot bit (R15); it holds nothing. -/
theorem holdsAccepted_takeSlotBit (hs : s.holdsAccepted) (l : Level) :
    (s.takeSlotBit l).holdsAccepted := by
  have pushed : SameAccepted s (s.pushSlot l) := ⟨rfl, rfl, rfl, rfl⟩
  unfold State.takeSlotBit
  split
  · exact hs
  split
  next =>
    split
    · exact hs.same pushed
    · exact holdsAccepted_meetBitError hs
  next => exact hs.same pushed
  next hr =>
    have free : s.Holds none := hs.unaccepted (by rw [hr]; rfl)
    exact holdsAccepted_leaveTelegram (s := s.pushSlot l) (free.congr rfl rfl) rfl
  next =>
    split
    · exact hs.same (by constructor <;> simp [State.pushSlot])
    · exact hs
  all_goals exact hs

theorem winArbitration_accepted (s : State) :
    s.winArbitration.link.role.accepted = s.link.role.accepted := by
  unfold State.winArbitration
  split
  next hr => rw [hr]; rfl
  all_goals rfl

theorem holdsAccepted_takeHeaderPart (hs : s.holdsAccepted) (part : HeaderPart) :
    (s.takeHeaderPart part).holdsAccepted := by
  cases part with
  | arbitrationWon =>
    exact hs.same (t := s.winArbitration)
      ⟨by simp, winArbitration_accepted s, by simp, by simp⟩
  | headerBits bits => exact holdsAccepted_takeHeaderBits hs bits
  | slotBit l => exact holdsAccepted_takeSlotBit hs l

end

end Sys2Proof.Machine
end

section
/-!
PROOFS. Law 7 and R89, kept by every step: which commands leave alone what is accepted and what it holds, and what each
of the others does to the marker, the reservation and the ring.
-/

namespace Sys2Proof.Machine

section
variable {s t : State}

/-! ### The role changes with nothing accepted (R25, R27, R32, R34, R35) -/

/-- In a state without telegrams the node has accepted nothing. -/
theorem accepted_offLink (hl : s.linkLaw) (hm : s.mode = .running)
    (hst : s.link.state ≠ .online ∧ s.link.state ≠ .stopping) : s.link.role.accepted = none := by
  have idle : s.link.role = .idle := by
    by_contra hr
    rcases onLink hl hm hr with h | h
    · exact hst.1 h
    · exact hst.2 h
  rw [idle]
  rfl

theorem accepted_noPart {r : Role} (hr : r.hasPart = false) : r.accepted = none := by
  cases r with
  | idle | receiving | bystander => rfl
  | contender | initiator | target | member => cases hr

theorem linkStartEffect_same (hl : s.linkLaw) (hm : s.mode = .running) (p : Params) :
    SameAccepted s (linkStartEffect p s) := by
  unfold linkStartEffect
  split
  · exact ⟨rfl, rfl, rfl, rfl⟩
  have leaves (h : s.link.state ≠ .online ∧ s.link.state ≠ .stopping) :
      SameAccepted s ((s.enterSyncing .command).finish .ok []) :=
    ⟨by simp, (accepted_offLink hl hm h).symm, by simp, by simp⟩
  split
  next hst => exact leaves (by simp [hst])
  next hst => exact leaves (by simp [hst])
  all_goals exact ⟨rfl, rfl, rfl, rfl⟩

/-- In STOPPING the node keeps its part, and what it holds for it (R36). -/
theorem linkStopEffect_same (hl : s.linkLaw) (hm : s.mode = .running) (p : Params) :
    SameAccepted s (linkStopEffect p s) := by
  have leaves (h : s.link.role.accepted = none) :
      SameAccepted s ((s.enterOffline .command).finish .ok []) :=
    ⟨by simp, h.symm, by simp, by simp⟩
  unfold linkStopEffect
  split
  iterate 2 exact ⟨rfl, rfl, rfl, rfl⟩
  next hst => exact leaves (accepted_offLink hl hm (by simp [hst]))
  next hst => exact leaves (accepted_offLink hl hm (by simp [hst]))
  next =>
    split
    · exact ⟨rfl, rfl, rfl, rfl⟩
    next hp => exact leaves (accepted_noPart (by simpa using hp))

theorem joinLink_accepted (hl : s.linkLaw) (hm : s.mode = .running) :
    s.joinLink.link.role.accepted = s.link.role.accepted := by
  unfold State.joinLink
  split
  next hst _ => exact (accepted_offLink hl hm (by simp [hst])).symm
  next => rfl

theorem restartGap_accepted (s : State) : s.restartGap.link.role.accepted = s.link.role.accepted := by
  unfold State.restartGap
  split <;> rfl

theorem recogniseStart_accepted (s : State) :
    s.recogniseStart.link.role.accepted = s.link.role.accepted := by
  unfold State.recogniseStart
  split
  next idle => rw [idle.2]; rfl
  next =>
    split
    · exact restartGap_accepted s
    · rfl

theorem scan_accepted (l : List Slot) : ∀ {s : State}, s.link.role.accepted = none →
    (s.scan l).link.role.accepted = none := by
  induction l with
  | nil => exact fun hs => hs
  | cons j l ih =>
    intro s hs
    simp only [State.scan]
    split
    · exact ih hs
    · split
      · exact ih (by simpa using hs)
      · rfl

theorem offerLink_accepted (s : State) : s.offerLink.link.role.accepted = s.link.role.accepted := by
  unfold State.offerLink
  split
  next idle =>
    have unaccepted : s.link.role.accepted = none := by rw [idle.2.1]; rfl
    rw [unaccepted]
    exact scan_accepted _ unaccepted
  next => rfl

theorem recoveryTick_accepted (hl : s.linkLaw) (hm : s.mode = .running) (b : Bool) :
    (s.recoveryTick b).link.role.accepted = s.link.role.accepted := by
  unfold State.recoveryTick
  split
  · rfl
  next hst =>
    have unaccepted : s.link.role.accepted = none :=
      accepted_offLink hl hm (by rw [not_not.1 hst]; simp)
    repeat' split
    · rfl
    · exact unaccepted.symm
    · rfl

/-! ### Time -/

theorem applyShare_same (hl : s.linkLaw) (hm : s.mode = .running) (b : Bool) (x : TickShare) :
    SameAccepted s (s.applyShare b x) := by
  cases x with
  | recovery => exact ⟨by simp, recoveryTick_accepted hl hm b, by simp, by simp⟩
  | lease | freshness | deadline | retry => constructor <;> simp [State.applyShare]

theorem takeShare_same (hl : s.linkLaw) (hm : s.mode = .running) (b : Bool) (x : TickShare) :
    SameAccepted s (s.takeShare b x) := by
  unfold State.takeShare
  split
  · exact .refl s
  · exact (applyShare_same hl hm b x).trans ⟨rfl, rfl, rfl, rfl⟩

theorem tickBoundary_same (hl : s.linkLaw) (hm : s.mode = .running) (order : List TickShare) (b : Bool) :
    SameAccepted s (s.tickBoundary order b) := by
  refine (tickBoundary_induct (P := fun t => (t.linkLaw ∧ t.mode = .running) ∧ SameAccepted s t)
    (fun t g h => ?ticks) (fun t x h => ?share) order ⟨⟨hl, hm⟩, .refl s⟩).2
  case ticks =>
    obtain ⟨⟨link, running⟩, same⟩ := h
    exact ⟨⟨linkLaw_congr (s := t) rfl rfl rfl rfl link, running⟩, same.trans ⟨rfl, rfl, rfl, rfl⟩⟩
  case share =>
    obtain ⟨⟨link, running⟩, same⟩ := h
    exact ⟨⟨linkLaw_applyShare link b x, by simpa using running⟩,
      same.trans (applyShare_same link running b x)⟩

/-! ### The Inbound Store's own commands and the resets -/

/-- Removing the head record gives its bytes back (R108). -/
theorem acceptLaw_drop (hs : s.acceptLaw) : State.acceptLaw { s with inbound := s.inbound.drop } := by
  obtain ⟨bound, reserved, reservedHeader, size, ring, _⟩ := hs
  have fewer : s.inbound.drop.committedBytes ≤ s.inbound.committedBytes := Nat.sub_le _ _
  exact ⟨bound, reserved, reservedHeader, size, Nat.le_trans (Nat.add_le_add_right fewer _) ring,
    Nat.mod_lt _ (by decide)⟩

/-- The law does not speak of the index at which the host reads (R107). -/
theorem acceptLaw_readIndex (hs : s.acceptLaw) (k : Nat) :
    State.acceptLaw { s with inbound := { s.inbound with readIndex := k } } := by
  obtain ⟨bound, reserved, reservedHeader, size, ring, head⟩ := hs
  exact ⟨bound, reserved, reservedHeader, size, ring, head⟩

/-- A reset that begins drops the telegram, and clears what it holds at its end only (R175, R176). -/
theorem acceptLaw_beginReset (hs : s.acceptLaw) {mode : ResetMode} (hm : mode ≠ .running) :
    (s.beginReset mode).acceptLaw :=
  (acceptLaw_notRunning hm).2 (hs.accounts.congr rfl rfl)

theorem acceptLaw_blocksReset (s : State) (m : Memory) (mode : ResetMode) :
    State.acceptLaw { s.blocksReset m with mode := mode } := by
  refine ⟨fun _ => rfl, rfl, ?_, ?_, Nat.zero_le _, Nat.zero_lt_succ _⟩ <;>
    simp [State.blocksReset, State.reset, InboundStore.reset]

end

/-! ### Every row -/

/-- The commands that leave the reset in progress, the link, the Responder and the Inbound Store as they were. -/
def sparesLink : Instr → Bool
  | .linkStart | .linkStop | .inboundDrop | .inboundRead | .controllerReset _ | .controllerResetEnd
  | .resetAsserted | .powerOnResetSequence | .powerOnResetEnd | .enterOnline | .transmitOpportunity
  | .startMarker | .gapMeasurementRestart | .arbitrationLost | .header _ | .blockSlot _ _ _ _
  | .resendExhaustion | .bitError | .lossOfSyncEdges | .normalEnd | .stuckDominant
  | .recoveryTimerExpiry | .tick _ _ => false
  | _ => true

theorem exec_sparesLink {c : Instr} {s t : State} (hc : sparesLink c = true) (h : exec c s = .next t) :
    t.mode = s.mode ∧ t.link = s.link ∧ t.responder = s.responder ∧ t.inbound = s.inbound := by
  cases c
  case configure => simp [configure_row h]
  case setGroups => simp [setGroups_row h]
  case pageDefine => simp [pageDefine_row h]
  case pageClose => simp [pageClose_row h]
  case pageFetch => simp [pageFetch_row h]
  case pageCommit => simp [pageCommit_row h]
  case localClaim => simp [localClaim_row h]
  case localRelease => simp [localRelease_row h]
  case breakClaim => simp [breakClaim_row h]
  case submit => simp [submit_row h]
  case cancel => simp [cancel_row h]
  case jobQuery => simp [jobQuery_row h]
  case jobFetch => simp [jobFetch_row h]
  case retire => simp [retire_row h]
  case peerRead => simp [peerRead_row h]
  case peerReset => simp [peerReset_row h]
  case badCommand => simp [badCommand_row h]
  case statusRead => simp [statusRead_row h]
  case resultRead => simp [resultRead_row h]
  case resultDataRead => simp [resultDataRead_row h]
  case paramWrite => simp [paramWrite_row h]
  case dataRead => simp [dataRead_row h]
  case dataWrite => simp [dataWrite_row h]
  case dataPtrWrite => simp [dataPtrWrite_row h]
  case completionRead => simp [completionRead_row h]
  case eventRead => simp [eventRead_row h]
  case irqClear => simp [irqClear_row h]
  case irqEnableWrite => simp [irqEnableWrite_row h]
  case ignoredWrite => simp [ignoredWrite_row h]
  case cmdWrite => simp [cmdWrite_row h]
  case leaseExpiry => simp [leaseExpiry_row h]
  case pendingExpiry => simp [pendingExpiry_row h]
  case refreshWindowExpiry => simp [refreshWindowExpiry_row h]
  case freshLifetimeExpiry => simp [freshLifetimeExpiry_row h]
  case retryCountdownExpiry => simp [retryCountdownExpiry_row h]
  case deadlineExpiry => simp [deadlineExpiry_row h]
  all_goals cases hc

section
variable {s t : State}

theorem acceptLaw_momentOver (hs : s.acceptLaw) : s.momentOver.acceptLaw :=
  hs.same ⟨rfl, rfl, rfl, rfl⟩

/-- An event of the link that keeps what is held for the accepted header keeps the law. -/
theorem acceptLaw_onLink {f : State → State} (hs : s.acceptLaw)
    (hf : s.mode = .running → s.momentOver.holdsAccepted → (f s.momentOver).holdsAccepted)
    (hm : (f s.momentOver).mode = s.mode) (h : s.onLink f = .next t) : t.acceptLaw := by
  rcases onLink_next h with ⟨_, rfl⟩ | ⟨running, rfl⟩
  · exact hs
  · exact (acceptLaw_running (hm.trans running)).2
      (hf running ((acceptLaw_running (s := s.momentOver) running).1 (acceptLaw_momentOver hs)))

/-- One that leaves alone what is accepted and what it holds. -/
theorem acceptLaw_onLink_same {f : State → State} (hs : s.acceptLaw)
    (hf : s.mode = .running → SameAccepted s.momentOver (f s.momentOver))
    (h : s.onLink f = .next t) : t.acceptLaw := by
  rcases onLink_next h with ⟨_, rfl⟩ | ⟨running, rfl⟩
  · exact hs
  · exact (acceptLaw_momentOver hs).same (hf running)

theorem exec_acceptLaw {c : Instr} (hl : s.linkLaw) (hs : s.acceptLaw) (h : exec c s = .next t) :
    t.acceptLaw := by
  by_cases hc : sparesLink c = true
  · obtain ⟨mode, link, responder, inbound⟩ := exec_sparesLink hc h
    exact hs.same ⟨mode, by rw [link], by rw [responder], inbound⟩
  have later : s.momentOver.linkLaw := linkLaw_congr (s := s) rfl rfl rfl rfl hl
  cases c
  case linkStart =>
    rcases completing_next h with rfl | ⟨p, hm, _, rfl⟩
    · exact hs
    · exact hs.same (linkStartEffect_same hl hm p)
  case linkStop =>
    rcases completing_next h with rfl | ⟨p, hm, _, rfl⟩
    · exact hs
    · exact hs.same (linkStopEffect_same hl hm p)
  case inboundDrop =>
    rcases completing_next h with rfl | ⟨p, _, _, rfl⟩
    · exact hs
    unfold inboundDropEffect
    split
    · exact hs.same ⟨rfl, rfl, rfl, rfl⟩
    · exact (acceptLaw_drop hs).same ⟨rfl, rfl, rfl, rfl⟩
  case inboundRead =>
    have read : ∀ u : State, u.acceptLaw → ∀ b, State.acceptLaw { u with lastRead := b } :=
      fun u hu b => hu.same ⟨rfl, rfl, rfl, rfl⟩
    rcases hostRead_next h with ⟨_, rfl⟩ | ⟨_, rfl⟩
    · exact read s hs _
    refine read _ ?_ _
    unfold State.advanceInbound
    split
    · exact acceptLaw_readIndex hs _
    · exact hs
  case controllerReset value =>
    simp only [exec, execControllerReset] at h
    rcases hostWrite_next h with ⟨_, rfl⟩ | ⟨_, rfl⟩
    · exact hs
    split
    · exact acceptLaw_beginReset hs (by simp)
    · exact hs
  case controllerResetEnd =>
    simp only [exec, execControllerResetEnd] at h
    split at h <;> cases h
    · exact acceptLaw_blocksReset s _ _
    · exact hs
  case resetAsserted =>
    cases h
    exact acceptLaw_blocksReset s _ _
  case powerOnResetSequence =>
    simp only [exec, execPowerOnResetSequence] at h
    split at h <;> cases h
    · exact (acceptLaw_notRunning (by simp)).2 (hs.accounts.congr rfl rfl)
    · exact hs
  case powerOnResetEnd =>
    simp only [exec, execPowerOnResetEnd] at h
    split at h <;> cases h
    · exact acceptLaw_blocksReset s _ _
    · exact hs
  case enterOnline =>
    exact acceptLaw_onLink_same (f := State.joinLink) hs
      (fun hm => ⟨by simp, joinLink_accepted later hm, by simp, by simp⟩) h
  case transmitOpportunity =>
    exact acceptLaw_onLink_same (f := State.offerLink) hs
      (fun _ => ⟨by simp, offerLink_accepted _, by simp, by simp⟩) h
  case startMarker =>
    exact acceptLaw_onLink_same (f := State.recogniseStart) hs
      (fun _ => ⟨by simp, recogniseStart_accepted _, by simp, by simp⟩) h
  case gapMeasurementRestart =>
    exact acceptLaw_onLink_same (f := State.restartGap) hs
      (fun _ => ⟨by simp, restartGap_accepted _, by simp, by simp⟩) h
  case arbitrationLost =>
    exact acceptLaw_onLink hs (fun _ => holdsAccepted_loseArbitration) (by simp) h
  case header part =>
    exact acceptLaw_onLink (f := (·.takeHeaderPart part)) hs
      (fun _ held => holdsAccepted_takeHeaderPart held part) (by simp) h
  case blockSlot data check x y =>
    exact acceptLaw_onLink (f := (·.takeBlock data check x y)) hs
      (fun _ held => holdsAccepted_takeBlock held data check x y) (by simp) h
  case resendExhaustion => exact acceptLaw_onLink hs (fun _ => holdsAccepted_fifthNak) (by simp) h
  case bitError =>
    refine acceptLaw_onLink (f := fun s => if s.mayMeetBitError then s.meetBitError .bystander else s) hs
      (fun _ held => ?_) (by split <;> simp) h
    split
    · exact holdsAccepted_meetBitError held
    · exact held
  case lossOfSyncEdges => exact acceptLaw_onLink hs (fun _ => holdsAccepted_loseSync) (by simp) h
  case normalEnd => exact acceptLaw_onLink hs (fun _ => holdsAccepted_reachEnd) (by simp) h
  case stuckDominant => exact acceptLaw_onLink hs (fun _ => holdsAccepted_meetStuck) (by simp) h
  case recoveryTimerExpiry =>
    rcases expiryRow_next h with rfl | ⟨hm, _, _, rfl⟩
    · exact hs
    · exact hs.same (takeShare_same hl hm _ _)
  case tick order b =>
    simp only [exec, execTick] at h
    rcases whenRunning_next h with ⟨_, rfl⟩ | ⟨hm, rfl⟩
    · exact hs
    · exact hs.same (tickBoundary_same hl hm order b)
  all_goals exact absurd rfl hc

end

/-- Settles O10: a row keeps the law, and a bit period is a row's tick or touches nothing it speaks of. -/
theorem acceptLawKept : Obligations.AcceptLawKept := by
  intro s t hl hs h
  rcases step_next h with ⟨_, rfl⟩ | ⟨c, rest, _, hc⟩
  · rcases bitPeriod_cases s with hb | hb | ⟨hm, hb⟩ <;> rw [hb]
    · exact hs
    · exact hs.same ⟨rfl, rfl, rfl, rfl⟩
    · exact hs.same (tickBoundary_same hl hm _ _)
  · have link : State.linkLaw { s with pending := rest } := linkLaw_congr (s := s) rfl rfl rfl rfl hl
    exact exec_acceptLaw link (hs.same ⟨rfl, rfl, rfl, rfl⟩) hc

end Sys2Proof.Machine
end

section
/-!
PROOFS. The Inbound Store's head record: INBOUND_READ and INBOUND_DROP (R107, R108).
-/

namespace Sys2Proof.Machine

section
variable {s : State} {p : Params}

/-! ### A read access outside a reset (R163) -/

theorem hostRead_running {f : State → State} {a : BitVec 4} (hm : s.mode = .running) :
    s.hostRead a f = .next { f s with lastRead := some (s.registerValue a) } := by
  simp only [State.hostRead, State.readRegister, hm, if_true]

/-! ### The INBOUND port (R107) -/

/-- The head record still has a byte at the read index. -/
def InboundStore.byteLeft (i : InboundStore) : Prop := i.committedRecords ≠ 0 ∧ i.readIndex < i.headSize

theorem inboundByte_of_byteLeft (h : s.inbound.byteLeft) :
    s.inboundByte = s.inbound.headByte s.inbound.readIndex :=
  (if_neg h.1).trans (if_pos h.2)

theorem inboundByte_of_not_byteLeft (h : ¬s.inbound.byteLeft) : s.inboundByte = 0 := by
  unfold State.inboundByte
  split
  next => rfl
  next present => exact if_neg fun below => h ⟨present, below⟩

theorem exec_inboundRead_byteLeft (hm : s.mode = .running) (h : s.inbound.byteLeft) :
    exec .inboundRead s = .next { s with
      lastRead := some (s.inbound.headByte s.inbound.readIndex)
      inbound := { s.inbound with readIndex := s.inbound.readIndex + 1 } } := by
  have advance : s.advanceInbound =
      { s with inbound := { s.inbound with readIndex := s.inbound.readIndex + 1 } } := if_pos h
  rw [← inboundByte_of_byteLeft h]
  exact (hostRead_running hm).trans (by rw [advance]; rfl)

theorem exec_inboundRead_not_byteLeft (hm : s.mode = .running) (h : ¬s.inbound.byteLeft) :
    exec .inboundRead s = .next { s with lastRead := some 0 } := by
  have stay : s.advanceInbound = s := if_neg h
  rw [← inboundByte_of_not_byteLeft h]
  exact (hostRead_running hm).trans (by rw [stay]; rfl)

/-! ### INBOUND_DROP (R108) -/

theorem inboundDropEffect_empty (h : s.inbound.committedRecords = 0) :
    inboundDropEffect p s = s.finish .storeEmpty [0] := if_pos h

theorem inboundDropEffect_record (h : s.inbound.committedRecords ≠ 0) :
    inboundDropEffect p s =
      ({ s with inbound := s.inbound.drop }).finish .ok [byte (s.inbound.committedRecords - 1)] :=
  if_neg h

end

/-- Settles O37: a read is decided by whether the head record still has a byte at the read index, a drop by whether
there is a head record. -/
theorem inboundRecordsAreReadAndDropped : Obligations.InboundRecordsAreReadAndDropped := by
  intro s hm i size
  refine ⟨fun empty => ?readEmpty, fun present below => ?readByte, fun _ past => ?readPast,
    fun p hp => ⟨fun empty => ?dropEmpty, fun present => ?dropHead⟩⟩
  case readEmpty => exact exec_inboundRead_not_byteLeft hm fun ⟨present, _⟩ => present empty
  case readByte => exact exec_inboundRead_byteLeft hm ⟨present, below⟩
  case readPast => exact exec_inboundRead_not_byteLeft hm fun ⟨_, below⟩ => Nat.not_lt.2 past below
  case dropEmpty => exact completing_finish hp (inboundDropEffect_empty empty)
  case dropHead => exact completing_finish hp (inboundDropEffect_record present)

end Sys2Proof.Machine
end

section
/-!
PROOFS. R115 and Law 9, kept by every step: what the lists hold, and that no ORDERED job is ACTIVE before its elders
(R118, R119).
-/

namespace Sys2Proof.Machine

section
variable {s t : State}

/-! ### Facts about the moves of the Job Manager -/

theorem SameJob.pending {a b : JobSlot} (h : SameJob a b) : a.pending = b.pending := by
  simp only [JobSlot.pending, h.state]

theorem pending_ne {job : JobSlot} (h : job.pending = true) :
    job.state ≠ .complete ∧ job.state ≠ .free := by
  constructor <;> intro hs <;> simp [JobSlot.pending, hs] at h

/-- A job that SUBMIT has decoded is QUEUED, whatever its bytes (R117). -/
theorem submittedJob_state {p : Params} {job : JobSlot} (h : submittedJob p = some job) :
    job.state = .queued := by
  obtain ⟨op, -, rfl⟩ := Option.map_eq_some_iff.1 h
  rfl

/-- Every slot is FREE after a reset (R137). -/
theorem job_reset (h : s.jobs = State.reset.jobs) (j : Slot) : s.job j = .free 0 := by
  simp [State.job, h, State.reset]

/-! ### R115 -/

theorem listLaw_reset (hj : s.jobs = State.reset.jobs) (hl : s.lists = State.reset.lists)
    (hs : s.submission = []) : s.listLaw := by
  have empty : ∀ p, s.list p = [] := fun p => by simp [State.list, hl, State.reset]
  constructor <;> simp [empty, hs, job_reset hj, JobSlot.free, JobSlot.pending]

/-- A COMPLETE job stands in no list, and neither does the FREE slot it becomes (R135). -/
theorem listLaw_retire {j : Slot} (hs : s.listLaw) (hj : (s.job j).state = .complete) (g : BitVec 4) :
    (s.setJob j (.free g)).listLaw := by
  obtain ⟨listed, listOnce, submitted, submittedOnce⟩ := hs
  refine ⟨fun p i => ?_, listOnce, fun i => ?_, submittedOnce⟩
  · show i ∈ s.list p ↔ _
    rw [listed, job_setJob]
    split
    next h => simp [h, hj, JobSlot.free]
    · rfl
  · show i ∈ s.submission ↔ _
    rw [submitted, job_setJob]
    split
    next h => simp [h, hj, JobSlot.free, JobSlot.pending]
    · rfl

/-- The lists under each move of the Job Manager. -/
theorem listLaw_moves : KeptByJobs True State.listLaw where
  congr _ _ hj hl hs _ _ h := listLaw_congr hj hl hs h
  note _ _ _ _ same h := listLaw_setJob h (by rw [same.state]) same.priority same.pending
  head _ _ active h := listLaw_requeueHead h (.inr active)
  tail _ _ taken h := listLaw_requeueTail h taken.symm
  wait _ _ _ active h := listLaw_setJob h (by simp [active]) rfl (by simp [JobSlot.pending, active])
  complete _ _ _ _ h := listLaw_completeJob h _ _
  activate _ _ queued _ _ h := listLaw_activate h queued
  take _ _ _ _ _ submitted free _ h :=
    listLaw_takeJob h (freeSlots_head free) (submittedJob_state submitted)
  retire _ _ _ complete _ h := listLaw_retire h complete _
  readOn s _ _ h := listLaw_congr (s := s) rfl rfl rfl h
  pop _ _ _ _ h :=
    listLaw_congr (s := State.setJob _ _ _) rfl rfl rfl (listLaw_setJob h Iff.rfl rfl rfl)
  reset _ _ hj hl hs _ := listLaw_reset hj hl hs

/-! ### The elders of a job (R119) -/

/-- The jobs submitted before a job, oldest first. -/
def State.elders (s : State) (j : Slot) : List Slot := s.submission.takeWhile (· != j)

theorem elders_eq {j : Slot} {pre post : List Slot} (h : s.submission = pre ++ j :: post) (hj : j ∉ pre) :
    s.elders j = pre := by
  have all : ∀ i ∈ pre, (i != j) = true := fun i hi => by
    rw [bne_iff_ne]
    rintro rfl
    exact hj hi
  simp [State.elders, h, List.takeWhile_append_of_pos all]

theorem elders_submitted {i j : Slot} (h : i ∈ s.elders j) : i ∈ s.submission :=
  (List.takeWhile_prefix _).subset h

theorem elders_completeJob {i j : Slot} (hij : i ≠ j) (r : JobResult) :
    (s.completeJob j r).elders i = (s.elders i).filter (· != j) := by
  rw [State.elders, completeJob_submission, List.takeWhile_filter, State.elders]
  congr 2
  funext k
  by_cases hk : k = i
  · simp [hk, hij]
  · simp [hk]

/-- What R119 compares of two jobs. -/
structure SameOrder (a b : JobSlot) : Prop where
  ordered : a.ordered = b.ordered
  group : a.group = b.group
  target : a.target = b.target

theorem SameOrder.refl (a : JobSlot) : SameOrder a a := ⟨rfl, rfl, rfl⟩

theorem heldBack_iff {j : Slot} : s.heldBack j = true ↔ (s.job j).ordered = true ∧
    ∃ i ∈ s.elders j, (s.job i).ordered = true ∧
      (s.job i).group = (s.job j).group ∧ (s.job i).target = (s.job j).target := by
  simp [State.heldBack, State.elders, JobSlot.sameTarget, List.any_eq_true]

/-- A job is not held back where it has no elders but those it had, all with the same order and target. -/
theorem heldBack_false {j : Slot} (own : SameOrder (t.job j) (s.job j))
    (fewer : ∀ i ∈ t.elders j, i ∈ s.elders j ∧ SameOrder (t.job i) (s.job i))
    (h : s.heldBack j = false) : t.heldBack j = false := by
  rw [← Bool.not_eq_true] at h ⊢
  contrapose! h
  obtain ⟨ordered, i, elder, hi, group, target⟩ := heldBack_iff.1 h
  obtain ⟨older, same⟩ := fewer i elder
  refine heldBack_iff.2 ⟨own.ordered ▸ ordered, i, older, same.ordered ▸ hi, ?_, ?_⟩
  · rw [← same.group, group, own.group]
  · rw [← same.target, target, own.target]

/-- Law 9 where no job has become ACTIVE or gained an elder. -/
theorem orderedLaw_of (hs : s.orderedLaw)
    (active : ∀ j, (t.job j).state = .active → (s.job j).state = .active)
    (same : ∀ j, (t.job j).pending = true → SameOrder (t.job j) (s.job j))
    (elders : ∀ j, (t.job j).state = .active → ∀ i ∈ t.elders j,
      i ∈ s.elders j ∧ SameOrder (t.job i) (s.job i)) : t.orderedLaw := fun j hj =>
  heldBack_false (same j (by simp [JobSlot.pending, hj])) (elders j hj) (hs j (active j hj))

/-- The same with the submission order list as it was. -/
theorem orderedLaw_of_submission (hs : s.orderedLaw) (h : t.submission = s.submission)
    (active : ∀ j, (t.job j).state = .active → (s.job j).state = .active)
    (same : ∀ j, SameOrder (t.job j) (s.job j)) : t.orderedLaw :=
  orderedLaw_of hs active (fun j _ => same j) fun j _ i hi => ⟨by simpa [State.elders, h] using hi, same i⟩

theorem orderedLaw_congr (hj : t.jobs = s.jobs) (h : t.submission = s.submission) (hs : s.orderedLaw) :
    t.orderedLaw :=
  orderedLaw_of_submission hs h (fun j => by rw [job_congr hj]; exact id)
    fun j => by rw [job_congr hj]; exact .refl _

theorem sameOrder_setJob {j : Slot} {job : JobSlot} (h : SameOrder job (s.job j)) (i : Slot) :
    SameOrder ((s.setJob j job).job i) (s.job i) := by
  rw [job_setJob]
  split
  next hi => exact hi ▸ h
  · exact .refl _

/-- A job rewritten with its order and target, and not made ACTIVE. -/
theorem orderedLaw_setJob {j : Slot} {job : JobSlot} (hs : s.orderedLaw) (h : SameOrder job (s.job j))
    (ha : job.state = .active → (s.job j).state = .active) : (s.setJob j job).orderedLaw := by
  refine orderedLaw_of_submission hs rfl (fun i => ?_) (sameOrder_setJob h)
  rw [job_setJob]
  split
  next hi => exact hi ▸ ha
  · exact id

theorem orderedLaw_requeue {j : Slot} (hs : s.orderedLaw) :
    (s.requeueHead j).orderedLaw ∧ (s.requeueTail j).orderedLaw := by
  have h := orderedLaw_setJob (j := j) (job := { s.job j with state := .queued, retryCountdown := 0 })
    hs ⟨rfl, rfl, rfl⟩ (by simp)
  exact ⟨orderedLaw_congr (by rfl) (by rfl) h, orderedLaw_congr (by rfl) (by rfl) h⟩

/-- A job that completes leaves the elders of the others (R132). -/
theorem orderedLaw_completeJob (hs : s.orderedLaw) (j : Slot) (r : JobResult) :
    (s.completeJob j r).orderedLaw := by
  have same : ∀ i, SameOrder ((s.completeJob j r).job i) (s.job i) := fun i => by
    rw [completeJob_job]
    split
    next hi => exact hi ▸ ⟨rfl, rfl, rfl⟩
    · exact .refl _
  refine orderedLaw_of hs (fun i hi => ?_) (fun i _ => same i) fun i hi k hk => ⟨?_, same k⟩
  · rw [completeJob_job] at hi
    split at hi
    · cases hi
    · exact hi
  · rw [elders_completeJob] at hk
    · exact (List.mem_filter.1 hk).1
    rintro rfl
    simp [completeJob_job, JobSlot.completed] at hi

/-- The one job that becomes ACTIVE is not held back (R118, R119). -/
theorem orderedLaw_activate {j : Slot} (free : s.heldBack j = false)
    (none : ∀ i, (s.job i).state ≠ .active) : (s.activate j).orderedLaw := by
  have same : ∀ i, SameOrder ((s.activate j).job i) (s.job i) := fun i => by
    rw [activate_job]
    split
    next hi => exact hi ▸ ⟨rfl, rfl, rfl⟩
    · exact .refl _
  intro i hi
  rw [activate_job] at hi
  split at hi
  next h => exact heldBack_false (same i) (fun k hk => ⟨hk, same k⟩) (h ▸ free)
  · exact absurd hi (none i)

/-- A slot in no list is nobody's elder: Law 9 where it alone changes, to a job that is not ACTIVE. -/
theorem orderedLaw_of_unsubmitted {j : Slot} (hl : s.listLaw) (hs : s.orderedLaw)
    (hj : (s.job j).pending = false) (ha : (t.job j).state ≠ .active)
    (same : ∀ i, i ≠ j → t.job i = s.job i) (elders : ∀ i ∈ s.submission, t.elders i = s.elders i) :
    t.orderedLaw := by
  intro i hi
  have other : i ≠ j := by rintro rfl; exact ha hi
  have own := same i other
  rw [own] at hi
  refine heldBack_false (own ▸ .refl _) (fun k hk => ?_) (hs i hi)
  rw [elders i ((hl.submitted i).2 (by simp [JobSlot.pending, hi]))] at hk
  have submitted := (hl.submitted k).1 (elders_submitted hk)
  refine ⟨hk, same k ?_ ▸ .refl _⟩
  rintro rfl
  simp [hj] at submitted

/-- A job that is taken comes after every older one (R117). -/
theorem orderedLaw_takeJob {j : Slot} {job : JobSlot} (hl : s.listLaw) (hs : s.orderedLaw)
    (hj : (s.job j).state = .free) (hq : job.state = .queued) : (s.takeJob j job).orderedLaw := by
  refine orderedLaw_of_unsubmitted (j := j) hl hs (by simp [JobSlot.pending, hj]) ?_ (fun i hi => ?_)
    fun i hi => ?_
  · simp [takeJob_job, placedJob, hq]
  · rw [takeJob_job, if_neg hi]
  · obtain ⟨pre, post, split, first⟩ := List.eq_append_cons_of_mem hi
    rw [elders_eq split first]
    exact elders_eq (post := post ++ [j]) (by rw [takeJob_submission, split]; simp) first

theorem orderedLaw_retire {j : Slot} (hl : s.listLaw) (hs : s.orderedLaw)
    (hj : (s.job j).state = .complete) (g : BitVec 4) : (s.setJob j (.free g)).orderedLaw := by
  refine orderedLaw_of_unsubmitted (j := j) hl hs (by simp [JobSlot.pending, hj]) ?_ (fun i hi => ?_)
    fun _ _ => rfl
  · simp [JobSlot.free]
  · rw [job_setJob, if_neg hi]

/-- Both laws under each move of the Job Manager: what stands in no list is nobody's elder. -/
theorem orderedLaw_moves : KeptByJobs True fun s => s.listLaw ∧ s.orderedLaw where
  congr s t hj hl hs hc hp h := ⟨listLaw_moves.congr s t hj hl hs hc hp h.1, orderedLaw_congr hj hs h.2⟩
  note s j job hp same h := ⟨listLaw_moves.note s j job hp same h.1,
    orderedLaw_setJob h.2 ⟨same.ordered, same.group, same.target⟩ (by rw [same.state]; exact id)⟩
  head s j active h := ⟨listLaw_moves.head s j active h.1, (orderedLaw_requeue h.2).1⟩
  tail s j taken h := ⟨listLaw_moves.tail s j taken h.1, (orderedLaw_requeue h.2).2⟩
  wait s j n active h := ⟨listLaw_moves.wait s j n active h.1, orderedLaw_setJob h.2 ⟨rfl, rfl, rfl⟩ (by simp)⟩
  complete s j r hp h := ⟨listLaw_moves.complete s j r hp h.1, orderedLaw_completeJob h.2 j r⟩
  activate s j queued free none h :=
    ⟨listLaw_moves.activate s j queued free none h.1, orderedLaw_activate free none⟩
  take s p job j rest submitted slots room h := ⟨listLaw_moves.take s p job j rest submitted slots room h.1,
    orderedLaw_takeJob h.1 h.2 (freeSlots_head slots) (submittedJob_state submitted)⟩
  retire f s j complete read h :=
    ⟨listLaw_moves.retire f s j complete read h.1, orderedLaw_retire h.1 h.2 complete _⟩
  readOn s some index h := ⟨listLaw_moves.readOn s some index h.1, orderedLaw_congr (by rfl) (by rfl) h.2⟩
  pop s r rest records h :=
    have read := orderedLaw_setJob (j := tagSlot r.tag)
      (job := { s.job (tagSlot r.tag) with unread := false }) h.2 ⟨rfl, rfl, rfl⟩ id
    ⟨listLaw_moves.pop s r rest records h.1, orderedLaw_congr (by rfl) (by rfl) read⟩
  reset f s hj hl hs hc :=
    ⟨listLaw_moves.reset f s hj hl hs hc, fun j hj' => by simp [job_reset hj, JobSlot.free] at hj'⟩

end

/-- Settles O13: each move of the Job Manager keeps both laws, so every step does. -/
theorem jobListLawsKept : Obligations.JobListLawsKept :=
  ⟨fun _ _ ha hl h => listLaw_moves.step ha hl (fun _ _ _ _ => trivial) hl h,
    fun _ _ ha hl ho h => (orderedLaw_moves.step ha hl (fun _ _ _ _ => trivial) ⟨hl, ho⟩ h).2⟩

end Sys2Proof.Machine
end

section
/-!
PROOFS. Laws 2 and 3, kept by every step: the completion records (R132, R135, R151) and the blocks of the pool (R114).
-/

namespace Sys2Proof.Machine

section
variable {s t : State}

/-! ### Tags (R113) -/

theorem jobTag_toNat (j : Slot) (g : BitVec 4) : (jobTag j g).toNat = j.val + 16 * g.toNat := by
  have low : (BitVec.ofNat 4 j.val).toNat = j.val := Nat.mod_eq_of_lt j.isLt
  rw [jobTag, BitVec.toNat_append, low, ← Nat.shiftLeft_add_eq_or_of_lt j.isLt, Nat.shiftLeft_eq]
  omega

theorem tagSlot_val (tag : Byte) : (tagSlot tag).val = tag.toNat % 16 := by
  show (tag.extractLsb' 0 4).toNat = _
  rw [BitVec.extractLsb'_toNat, Nat.shiftRight_zero]

theorem tagGeneration_toNat (tag : Byte) : (tagGeneration tag).toNat = tag.toNat / 16 := by
  rw [tagGeneration, BitVec.extractLsb'_toNat, Nat.shiftRight_eq_div_pow]
  have := tag.isLt
  omega

@[simp] theorem tagSlot_jobTag (j : Slot) (g : BitVec 4) : tagSlot (jobTag j g) = j := by
  apply Fin.ext
  rw [tagSlot_val, jobTag_toNat]
  omega

/-! ### The completion records (R132, R151) -/

/-- A job that has completed and whose record the host has not read. -/
def JobSlot.announced (job : JobSlot) : Prop := job.state = .complete ∧ job.unread = true

/-- Law 2 where the records and the jobs they name are as they were. -/
theorem completionLaw_of (hs : s.completionLaw) (hc : t.completions = s.completions)
    (same : ∀ j, (t.job j).announced ↔ (s.job j).announced)
    (tags : ∀ j, (s.job j).announced → (t.job j).generation = (s.job j).generation) :
    t.completionLaw := by
  obtain ⟨named, distinct, recorded, index, indexEmpty⟩ := hs
  refine ⟨fun r hr => ?_, by rwa [hc], fun j complete unread => ?_, by rwa [hc], by rwa [hc]⟩
  · obtain ⟨j, tag, told⟩ := named r (hc ▸ hr)
    exact ⟨j, by rw [tag, tags j told], (same j).2 told⟩
  · have told := (same j).1 ⟨complete, unread⟩
    rw [hc, tags j told]
    exact recorded j told.1 told.2

theorem completionLaw_congr (hs : s.completionLaw) (hj : t.jobs = s.jobs)
    (hc : t.completions = s.completions) : t.completionLaw :=
  completionLaw_of hs hc (fun j => by rw [job_congr hj]) fun j _ => by rw [job_congr hj]

/-- One job rewritten, one that has no record to read before or after. -/
theorem completionLaw_rewrite {j : Slot} {job : JobSlot} (hs : s.completionLaw)
    (hc : t.completions = s.completions)
    (ht : ∀ i, t.job i = if i = j then job else s.job i)
    (hold : ¬(s.job j).announced) (hnew : ¬job.announced) : t.completionLaw := by
  refine completionLaw_of hs hc (fun i => ?_) fun i told => ?_
  · rw [ht]
    split
    next h => subst h; exact iff_of_false hnew hold
    · rfl
  · rw [ht, if_neg]
    rintro rfl
    exact hold told

theorem not_announced {job : JobSlot} (h : job.state ≠ .complete) : ¬job.announced := fun told => h told.1

/-- The record of a job that enters COMPLETE is the one record of its slot (R132). -/
theorem completionLaw_completeJob {j : Slot} (hs : s.completionLaw) (hj : (s.job j).state ≠ .complete)
    (r : JobResult) : (s.completeJob j r).completionLaw := by
  obtain ⟨named, distinct, recorded, index, indexEmpty⟩ := hs
  have own : (s.completeJob j r).job j = (s.job j).completed r := by rw [completeJob_job, if_pos rfl]
  have others : ∀ i, (s.job i).state = .complete → i ≠ j := by rintro i hi rfl; exact hj hi
  have same : ∀ i, i ≠ j → (s.completeJob j r).job i = s.job i := fun i hi => by rw [completeJob_job, if_neg hi]
  have records : (s.completeJob j r).completions.records =
    s.completions.records ++ [(s.job j).record j r s.ticks.stamp] := rfl
  constructor
  case named =>
    intro c hc
    rcases List.mem_append.1 (records ▸ hc) with hc | hc
    · obtain ⟨i, tag, complete, unread⟩ := named c hc
      exact ⟨i, by rw [same i (others i complete)]; exact ⟨tag, complete, unread⟩⟩
    · rw [List.mem_singleton.1 hc]
      exact ⟨j, by rw [own]; exact ⟨rfl, rfl, rfl⟩⟩
  case distinct =>
    rw [records, List.map_append, List.nodup_append]
    refine ⟨distinct, List.nodup_singleton _, ?_⟩
    simp only [List.mem_map, List.map_cons, List.map_nil, List.mem_singleton]
    rintro _ ⟨c, hc, rfl⟩ _ rfl
    obtain ⟨i, tag, complete, -⟩ := named c hc
    simpa [tag, JobSlot.record] using others i complete
  case recorded =>
    intro i complete unread
    by_cases hi : i = j
    · subst hi
      refine ⟨(s.job i).record i r s.ticks.stamp, by simp [records], ?_⟩
      rw [own]
      rfl
    · rw [same i hi] at complete unread ⊢
      obtain ⟨c, hc, tag⟩ := recorded i complete unread
      exact ⟨c, by rw [records]; exact List.mem_append_left _ hc, tag⟩
  case index => exact index
  case indexEmpty => simp [records]

/-- The record read to its end leaves the queue, and its job is announced no longer (R151). -/
theorem completionLaw_pop {r : CompletionRecord} {rest : List CompletionRecord} (hs : s.completionLaw)
    (hr : s.completions.records = r :: rest) :
    State.completionLaw { s.setJob (tagSlot r.tag) { s.job (tagSlot r.tag) with unread := false } with
      completions := ⟨rest, 0⟩ } := by
  obtain ⟨named, distinct, recorded, index, indexEmpty⟩ := hs
  rw [hr] at named distinct recorded
  obtain ⟨apart, distinct⟩ := List.nodup_cons.1 distinct
  have same : ∀ i, i ≠ tagSlot r.tag → State.job { s.setJob (tagSlot r.tag)
      { s.job (tagSlot r.tag) with unread := false } with completions := ⟨rest, 0⟩ } i = s.job i := fun i hi =>
    (job_setJob s _ i _).trans (if_neg hi)
  constructor
  case named =>
    intro c hc
    obtain ⟨i, tag, told⟩ := named c (List.mem_cons_of_mem _ hc)
    have other : i ≠ tagSlot r.tag := by
      rintro rfl
      exact apart (List.mem_map.2 ⟨c, hc, by rw [tag, tagSlot_jobTag]⟩)
    exact ⟨i, by rw [same i other]; exact ⟨tag, told⟩⟩
  case distinct => exact distinct
  case recorded =>
    intro i complete unread
    have other : i ≠ tagSlot r.tag := by
      rintro rfl
      simp [State.job, State.setJob] at unread
    rw [same i other] at complete unread ⊢
    obtain ⟨c, hc, tag⟩ := recorded i complete unread
    refine ⟨c, (List.mem_cons.1 hc).resolve_left ?_, tag⟩
    rintro rfl
    exact other (by rw [tag, tagSlot_jobTag])
  case index => exact Nat.zero_le _
  case indexEmpty => exact fun _ => rfl

theorem completionLaw_moves : KeptByJobs True State.completionLaw where
  congr _ _ hj _ _ hc _ h := completionLaw_congr h hj hc
  note s j job hp same h := completionLaw_rewrite h rfl (job_setJob s j · job)
    (not_announced (pending_ne hp).1) (not_announced (same.state ▸ (pending_ne hp).1))
  head s j active h := completionLaw_rewrite h rfl (requeueHead_job s · j)
    (not_announced (by simp [active])) (not_announced (by simp))
  tail s j taken h := completionLaw_rewrite h rfl (requeueTail_job s · j)
    (not_announced (by rcases taken with h | h <;> simp [h])) (not_announced (by simp))
  wait s j n active h := completionLaw_rewrite h rfl (job_setJob s j · _)
    (not_announced (by simp [active])) (not_announced (by simp))
  complete s j r hp h := completionLaw_completeJob h (pending_ne hp).1 r
  activate s j queued _ _ h := completionLaw_rewrite h rfl (activate_job s · j)
    (not_announced (by simp [queued])) (not_announced (by simp [JobSlot.dispatched]))
  take s p job j rest submitted slots _ h := completionLaw_rewrite h (by simp) (takeJob_job s · j job)
    (not_announced (by simp [freeSlots_head slots]))
    (not_announced (by simp [placedJob, submittedJob_state submitted]))
  retire _ s j _ read h := completionLaw_rewrite h rfl (job_setJob s j · _)
    (fun ⟨_, unread⟩ => by simp [read] at unread) (not_announced (by simp [JobSlot.free]))
  readOn s some index h := by
    obtain ⟨named, distinct, recorded, _, _⟩ := h
    exact ⟨named, distinct, recorded, by exact index, fun empty => absurd empty some⟩
  pop s r rest records h := completionLaw_pop h records
  reset _ s hj _ _ hc := by
    constructor <;> simp [hc, job_reset hj, JobSlot.free]

/-! ### The pool (R114) -/

theorem mem_freeBlocks {b : Block} : b ∈ s.freeBlocks ↔ ∀ j, b ∉ (s.job j).blocks := by
  simp only [State.freeBlocks, List.mem_filter, List.mem_finRange, true_and, Bool.not_eq_true',
    List.any_eq_false, List.contains_iff_mem, Vector.mem_toList_iff]
  constructor
  · exact fun h j => h _ (Vector.getElem_mem _)
  · intro h job hjob
    obtain ⟨k, hk, rfl⟩ := Vector.mem_iff_getElem.1 hjob
    exact h ⟨k, hk⟩

theorem freeBlocks_nodup (s : State) : s.freeBlocks.Nodup := (List.nodup_finRange 64).filter _

/-- What Law 3 asks of one job record by itself. -/
structure JobSlot.HoldsItsBlocks (job : JobSlot) : Prop where
  once : job.blocks.Nodup
  held : job.state ≠ .free → job.blocks.length = job.blocksNeeded
  free : job.state = .free → job.blocks = []

theorem State.poolLaw.holdsItsBlocks (hs : s.poolLaw) (j : Slot) : (s.job j).HoldsItsBlocks :=
  ⟨hs.once j, hs.held j, hs.free j⟩

/-- One job record rewritten, to one that holds its blocks, all of them its own before or free. -/
theorem poolLaw_rewrite {j : Slot} {job : JobSlot} (hs : s.poolLaw)
    (ht : ∀ i, t.job i = if i = j then job else s.job i) (holds : job.HoldsItsBlocks)
    (own : ∀ b ∈ job.blocks, b ∈ (s.job j).blocks ∨ b ∈ s.freeBlocks) : t.poolLaw := by
  have other : ∀ i, i ≠ j → ∀ b ∈ job.blocks, b ∉ (s.job i).blocks := fun i hi b hb hb' => by
    rcases own b hb with h | h
    · exact hi (hs.apart i j b hb' h)
    · exact mem_freeBlocks.1 h i hb'
  have each : ∀ i, (t.job i).HoldsItsBlocks := fun i => by
    rw [ht]
    split
    · exact holds
    · exact hs.holdsItsBlocks i
  refine ⟨fun i k b hi hk => ?_, fun i => (each i).once, fun i => (each i).held, fun i => (each i).free⟩
  rw [ht] at hi hk
  by_cases hij : i = j <;> by_cases hkj : k = j
  · rw [hij, hkj]
  · rw [if_pos hij] at hi
    rw [if_neg hkj] at hk
    exact absurd hk (other k hkj b hi)
  · rw [if_neg hij] at hi
    rw [if_pos hkj] at hk
    exact absurd hi (other i hij b hk)
  · rw [if_neg hij] at hi
    rw [if_neg hkj] at hk
    exact hs.apart i k b hi hk

/-- A job record that is not FREE, rewritten with its blocks, operation and length. -/
theorem poolLaw_keep {j : Slot} {job : JobSlot} (hs : s.poolLaw)
    (ht : ∀ i, t.job i = if i = j then job else s.job i) (hb : job.blocks = (s.job j).blocks)
    (ho : job.operation = (s.job j).operation) (hl : job.length = (s.job j).length)
    (hold : (s.job j).state ≠ .free) (hnew : job.state ≠ .free) : t.poolLaw := by
  have needs : job.blocksNeeded = (s.job j).blocksNeeded := by simp only [JobSlot.blocksNeeded, ho, hl]
  refine poolLaw_rewrite hs ht ⟨?_, fun _ => ?_, fun h => absurd h hnew⟩ fun b h => .inl (hb ▸ h)
  · exact hb ▸ hs.once j
  · rw [hb, needs]
    exact hs.held j hold

theorem poolLaw_congr (hs : s.poolLaw) (hj : t.jobs = s.jobs) : t.poolLaw := by
  obtain ⟨apart, once, held, free⟩ := hs
  constructor <;> simp only [job_congr hj] <;> assumption

/-- A taken job holds the free blocks it was given (R117). -/
theorem placedJob_holdsItsBlocks {j : Slot} {job : JobSlot} (hq : job.state ≠ .free)
    (room : job.blocksNeeded ≤ s.freeBlocks.length) : (placedJob s j job).HoldsItsBlocks := by
  refine ⟨(freeBlocks_nodup s).sublist (List.take_sublist _ _), fun _ => ?_, fun h => absurd h hq⟩
  have length : (s.freeBlocks.take job.blocksNeeded).length = job.blocksNeeded := by simpa using room
  exact length

theorem poolLaw_moves : KeptByJobs True State.poolLaw where
  congr _ _ hj _ _ _ _ h := poolLaw_congr h hj
  note s j job hp same h := poolLaw_keep h (job_setJob s j · job) same.blocks same.operation same.length
    (pending_ne hp).2 (same.state ▸ (pending_ne hp).2)
  head s j active h := poolLaw_keep h (requeueHead_job s · j) rfl rfl rfl (by simp [active]) (by simp)
  tail s j taken h := poolLaw_keep h (requeueTail_job s · j) rfl rfl rfl
    (by rcases taken with h | h <;> simp [h]) (by simp)
  wait s j n active h := poolLaw_keep h (job_setJob s j · _) rfl rfl rfl (by simp [active]) (by simp)
  complete s j r hp h := poolLaw_keep h (completeJob_job s · j r) rfl rfl rfl (pending_ne hp).2
    (by simp [JobSlot.completed])
  activate s j queued _ _ h := poolLaw_keep h (activate_job s · j) rfl rfl rfl (by simp [queued])
    (by simp [JobSlot.dispatched])
  take s p job j rest submitted _ room h := poolLaw_rewrite h (takeJob_job s · j job)
    (placedJob_holdsItsBlocks (by simp [submittedJob_state submitted]) room)
    fun b hb => .inr (List.mem_of_mem_take hb)
  retire _ s j _ _ h := poolLaw_rewrite h (job_setJob s j · _)
    ⟨List.nodup_nil, fun h => absurd rfl h, fun _ => rfl⟩ (by simp [JobSlot.free])
  readOn s _ _ h := poolLaw_congr h rfl
  pop s r rest _ h := poolLaw_rewrite h (job_setJob s (tagSlot r.tag) · _)
    ⟨h.once _, h.held _, h.free _⟩ fun b hb => .inl hb
  reset _ s hj _ _ _ := by
    constructor <;> simp [job_reset hj, JobSlot.free]

end

/-- Settles O14: each move of the Job Manager keeps either law, so every step does. -/
theorem completionAndPoolLawsKept : Obligations.CompletionAndPoolLawsKept :=
  ⟨fun _ _ ha hl hs h => completionLaw_moves.step ha hl (fun _ _ _ _ => trivial) hs h,
    fun _ _ ha hl hs h => poolLaw_moves.step ha hl (fun _ _ _ _ => trivial) hs h⟩

end Sys2Proof.Machine
end

section
/-!
PROOFS. The outcome of an attempt (R121 to R132): what it counts, the verdict on the job, and its whole effect.
-/

namespace Sys2Proof.Machine

section
variable {s t : State} {j : Slot} {o : Attempt}

/-! ### Entering COMPLETE (R122, R132) -/

/-- The data bytes that a finished job carried, by its result and its operation. -/
theorem carried_eq (job : JobSlot) (r : JobResult) : job.carried r =
    if r = .dissent ∨ r = .done ∧
      job.operation ∈ [.read, .readClaim, .write, .writeRelease, .message] then job.length.toNat
    else if r = .done ∧ job.operation = .status then 8 else 0 := by
  cases r
  case done => cases hop : job.operation <;> simp [JobSlot.carried, hop]
  all_goals simp [JobSlot.carried]

/-! ### The counters and the last response (R123 to R128) -/

@[simp] theorem counted_collective (job : JobSlot) (o : Attempt) (slot : List Level) :
    (job.counted o slot).collective = job.collective := rfl

theorem responseAfter_collective {job : JobSlot} (hc : job.collective = true) (slot : List Level) :
    job.responseAfter o slot = if slot.isEmpty then job.lastResponse else collectiveReading slot :=
  if_pos hc

/-- The answer in both bits of an individual slot (R14). -/
theorem slotReading_pair (x y : Level) : slotReading [x, y] =
    if x = .dominant then (if y = .dominant then .ack else .busy)
    else if y = .dominant then .refuse else .silence := by
  cases x <;> cases y <;> rfl

/-- The answer in the first bit of a collective slot (R15). -/
theorem collectiveReading_cons (l : Level) (rest : List Level) :
    collectiveReading (l :: rest) = if l = .dominant then .dissent else .noDissent := by
  cases l <;> rfl

/-! ### The verdict (R123 to R128, R131) -/

/-- No request ends a job whose telegram has come to its normal end. -/
theorem verdict_normalEnd (s : State) (j : Slot) : s.verdict j .normalEnd =
    .complete (if (s.job j).collective ∧ s.initiator.dissent then .dissent else .done) := rfl

theorem verdict_cancelled (hc : (s.job j).cancelRequested = true) (ho : o ≠ .normalEnd) :
    s.verdict j o = .complete .cancelled := (if_neg ho).trans (if_pos hc)

theorem verdict_expired (hc : (s.job j).cancelRequested = false) (he : (s.job j).expiryRequested = true)
    (ho : o ≠ .normalEnd) : s.verdict j o = .complete .expired :=
  (if_neg ho).trans ((if_neg (by simpa [JobSlot.counted] using hc)).trans (if_pos he))

/-- With no request pending the verdict is the outcome's own. -/
theorem verdict_unrequested (hc : (s.job j).cancelRequested = false)
    (he : (s.job j).expiryRequested = false) (o : Attempt) : s.verdict j o =
      ((s.job j).counted o s.link.slot).disposition o s.link.slot s.initiator.dissent := by
  simp [State.verdict, JobSlot.requested, JobSlot.counted, hc, he]

/-- The verdict is a request's, or the outcome's own. -/
theorem verdict_cases (s : State) (j : Slot) (o : Attempt) :
    (∃ r, s.verdict j o = .complete r) ∨ s.verdict j o =
      ((s.job j).counted o s.link.slot).disposition o s.link.slot s.initiator.dissent := by
  by_cases ho : o = .normalEnd
  · exact .inl ⟨_, ho ▸ verdict_normalEnd s j⟩
  by_cases hc : (s.job j).cancelRequested = true
  · exact .inl ⟨_, verdict_cancelled hc ho⟩
  by_cases he : (s.job j).expiryRequested = true
  · exact .inl ⟨_, verdict_expired (by simpa using hc) he ho⟩
  · exact .inr (verdict_unrequested (by simpa using hc) (by simpa using he) o)

/-! ### The job after its outcome -/

theorem state_of_complete {r : JobResult} (h : s.verdict j o = .complete r) :
    ((s.takeOutcome j o).job j).state = .complete ∧ ((s.takeOutcome j o).job j).result = r := by
  obtain ⟨-, -, -, -, complete, -⟩ := takeOutcome_ownJob s j o
  exact complete r h

theorem state_of_queued (h : s.verdict j o = .queueHead ∨ s.verdict j o = .queueTail) :
    ((s.takeOutcome j o).job j).state = .queued := by
  obtain ⟨-, -, -, -, -, head, tail, -⟩ := takeOutcome_ownJob s j o
  exact h.elim head tail

theorem state_of_wait (h : s.verdict j o = .wait) : ((s.takeOutcome j o).job j).state = .waiting ∧
    ((s.takeOutcome j o).job j).retryCountdown = s.cfg.busyRetry := by
  obtain ⟨-, -, -, -, -, -, -, wait⟩ := takeOutcome_ownJob s j o
  exact wait h

/-- A verdict that turns on a limit: past it the job completes, below it the job takes another place. -/
theorem completes_past {p : Prop} [Decidable p] {r : JobResult} {d : Disposition}
    {below : Prop} (h : s.verdict j o = if p then .complete r else d)
    (hd : s.verdict j o = d → below) :
    if p then ((s.takeOutcome j o).job j).state = .complete ∧ ((s.takeOutcome j o).job j).result = r
    else below := by
  split
  next hp => exact state_of_complete (h.trans (if_pos hp))
  next hp => exact hd (h.trans (if_neg hp))

/-! ### The place the job takes (R115, R123 to R125, R128) -/

theorem queueHead_of_disposition {job : JobSlot} {slot : List Level} {dissent : Bool}
    (h : job.disposition o slot dissent = .queueHead) : o = .arbitrationLost ∨ o = .linkLost := by
  cases o <;> simp [JobSlot.disposition, ite_eq_iff] at h ⊢

theorem queueTail_of_disposition {job : JobSlot} {slot : List Level} {dissent : Bool}
    (h : job.disposition o slot dissent = .queueTail) : ¬(o = .arbitrationLost ∨ o = .linkLost) := by
  cases o <;> simp [JobSlot.disposition, ite_eq_iff] at h ⊢

section
variable (s : State) (j : Slot) (o : Attempt)

theorem endAttempt_job_self : (s.endAttempt j o).job j = (s.job j).counted o s.link.slot := by
  rw [endAttempt_job, if_pos rfl]

/-- The job of the attempt, once its outcome is counted, rewritten again. -/
theorem endAttempt_setJob (job : JobSlot) : (s.endAttempt j o).setJob j job =
    { s with initiator := { s.initiator with phase := .ended }, jobs := s.jobs.set j job } := by
  simp only [State.setJob, State.endAttempt, Vector.set_set]

theorem endAttempt_requeueHead : (s.endAttempt j o).requeueHead j = { s with
    initiator := { s.initiator with phase := .ended }
    jobs := s.jobs.set j { (s.job j).counted o s.link.slot with state := .queued, retryCountdown := 0 }
    lists := s.lists.set (s.job j).priority.toFin (j :: s.list (s.job j).priority) } := by
  rw [State.requeueHead, endAttempt_setJob, endAttempt_job_self]
  rfl

theorem endAttempt_requeueTail : (s.endAttempt j o).requeueTail j = { s with
    initiator := { s.initiator with phase := .ended }
    jobs := s.jobs.set j { (s.job j).counted o s.link.slot with state := .queued, retryCountdown := 0 }
    lists := s.lists.set (s.job j).priority.toFin (s.list (s.job j).priority ++ [j]) } := by
  rw [State.requeueTail, endAttempt_setJob, endAttempt_job_self]
  rfl

theorem endAttempt_wait : (s.endAttempt j o).dispose j .wait = { s with
    initiator := { s.initiator with phase := .ended }
    jobs := s.jobs.set j
      { (s.job j).counted o s.link.slot with state := .waiting, retryCountdown := s.cfg.busyRetry } } := by
  rw [State.dispose, endAttempt_setJob, endAttempt_job_self]
  rfl

end

/-- The list of the job's priority after its outcome. -/
theorem takeOutcome_list {d : Disposition} (h : s.verdict j o = d) (p : BitVec 2) :
    (s.takeOutcome j o).list p = ((s.endAttempt j o).dispose j d).list p := by
  subst h
  unfold State.takeOutcome
  dsimp only
  split
  · rfl
  · exact list_congr (by simp) p

theorem takeOutcome_queueHead (h : s.verdict j o = .queueHead) :
    (s.takeOutcome j o).list (s.job j).priority = j :: s.list (s.job j).priority := by
  rw [takeOutcome_list h, State.dispose, endAttempt_requeueHead]
  simp [State.list]

theorem takeOutcome_queueTail (h : s.verdict j o = .queueTail) :
    (s.takeOutcome j o).list (s.job j).priority = s.list (s.job j).priority ++ [j] := by
  rw [takeOutcome_list h, State.dispose, endAttempt_requeueTail]
  simp [State.list]

/-! ### The report to the peer table (R121, R141) -/

theorem reportPeer_congr (hp : t.peers = s.peers) (he : t.events = s.events) (hc : t.cfg = s.cfg)
    (hs : t.ticks = s.ticks) (a : Addr) (o : Attempt) :
    (t.reportPeer a o).peers = (s.reportPeer a o).peers ∧
      (t.reportPeer a o).events = (s.reportPeer a o).events := by
  have hpeer : t.peer a = s.peer a := by rw [State.peer, hp, State.peer]
  simp only [State.reportPeer, hpeer, hc, hp]
  split
  · exact ⟨hp, he⟩
  · split
    · exact ⟨rfl, he⟩
    · exact ⟨rfl, by simp only [postNotice_events, he, hs]⟩

theorem takeOutcome_individual (hc : (s.job j).collective = false) (o : Attempt) :
    s.takeOutcome j o =
      ((s.endAttempt j o).dispose j (s.verdict j o)).reportPeer (s.job j).target o := by
  simp [State.takeOutcome, hc]

theorem takeOutcome_collective (hc : (s.job j).collective = true) (o : Attempt) :
    s.takeOutcome j o = (s.endAttempt j o).dispose j (s.verdict j o) := by
  simp [State.takeOutcome, hc]

end

/-- Settles O40. -/
theorem enteringCompletePostsOneRecord : Obligations.EnteringCompletePostsOneRecord := by
  intro s j r job done
  have bytes : done = job.carried r := (carried_eq job r).symm
  rw [bytes]
  rfl

section
variable {s : State} {j : Slot}

/-! ### An individual job, outcome by outcome -/

theorem counted_effectiveLimit (job : JobSlot) (o : Attempt) (slot : List Level) :
    (job.counted o slot).effectiveLimit = job.effectiveLimit := rfl

theorem effectiveLimit_individual {job : JobSlot} (hc : job.collective = false) : job.effectiveLimit =
    if job.peerAtDispatch = some .degraded then min job.transportLimit 1 else job.transportLimit := by
  simp [JobSlot.effectiveLimit, hc]

theorem effectiveLimit_collective {job : JobSlot} (hc : job.collective = true) :
    job.effectiveLimit = job.transportLimit := by
  simp [JobSlot.effectiveLimit, hc]

/-- The transport failure that every such outcome but silence gives past the limit (R124). -/
theorem verdict_transportFailure (hc : (s.job j).collective = false)
    (cancel : (s.job j).cancelRequested = false) (expiry : (s.job j).expiryRequested = false) {o : Attempt}
    (ho : o = .silence ∨ o = .resendExhaustion ∨ o = .bitError) : s.verdict j o =
      if (s.job j).effectiveLimit < (s.job j).transportFailures + 1 then
        .complete (if o = .silence then .noResponse else .checkFailed)
      else .queueTail := by
  have counts : (s.job j).countsFailure o s.link.slot = true := by
    rcases ho with rfl | rfl | rfl <;> simp [JobSlot.countsFailure, hc]
  have failures : ((s.job j).counted o s.link.slot).transportFailures = (s.job j).transportFailures + 1 :=
    if_pos counts
  rw [verdict_unrequested cancel expiry]
  rcases ho with rfl | rfl | rfl <;> simp [JobSlot.disposition, counted_effectiveLimit, failures, hc]

end

/-- Settles O46: the counters and the last response are the counted job's, and with no request pending the verdict of
each outcome is its own. -/
theorem outcomesOfAnIndividualJob : Obligations.OutcomesOfAnIndividualJob := by
  intro s j hc job after limit failures busy losses counts completes
  have tallied : ∀ o, counts o
      (if job.countsFailure o s.link.slot then failures + 1 else failures)
      (if o = .busy then busy + 1 else busy)
      (if o = .arbitrationLost then min 255 (losses + 1) else losses) := fun o => by
    obtain ⟨f, b, l, -⟩ := takeOutcome_ownJob s j o
    exact ⟨f, b, l⟩
  have answered : ∀ o, (after o).lastResponse = job.responseAfter o s.link.slot := fun o => by
    obtain ⟨-, -, -, r, -⟩ := takeOutcome_ownJob s j o
    exact r
  refine ⟨fun o => ?report, ?counters, ?responses, fun cancel expiry => ?verdicts⟩
  case report =>
    rw [takeOutcome_individual hc]
    exact reportPeer_congr (by simp) (by simp) (by simp) (by simp) job.target o
  case counters =>
    have failed : job.countsFailure .bitError s.link.slot = true := by simp [JobSlot.countsFailure, job, hc]
    refine ⟨tallied .arbitrationLost, tallied .silence, tallied .resendExhaustion, ?_, tallied .busy,
      tallied .refuse, tallied .normalEnd, tallied .linkLost⟩
    simpa [failed] using tallied .bitError
  case responses =>
    simp only [answered, JobSlot.responseAfter, show job.collective = false from hc, Bool.false_eq_true,
      if_false, true_and, and_true]
    refine ⟨fun missing => if_neg missing, fun x y pair => ?_⟩
    rw [pair]
    exact slotReading_pair x y
  case verdicts =>
    have own := verdict_unrequested cancel expiry
    have transport := fun {o} => verdict_transportFailure (o := o) hc cancel expiry
    rw [effectiveLimit_individual hc] at transport
    refine ⟨completes_past (own .arbitrationLost) fun h => state_of_queued (.inl h),
      completes_past (transport (.inl rfl)) fun h => state_of_queued (.inr h),
      completes_past (transport (.inr (.inl rfl))) fun h => state_of_queued (.inr h),
      completes_past (transport (.inr (.inr rfl))) fun h => state_of_queued (.inr h),
      completes_past (own .busy) state_of_wait, state_of_complete (own .refuse), ?_,
      state_of_queued (.inl ?_)⟩
    · simpa [hc] using state_of_complete (verdict_normalEnd s j)
    · simpa [JobSlot.disposition, hc] using own .linkLost

section
variable {s : State} {j : Slot}

/-! ### A collective job, by what its slot has shown -/

/-- The outcomes of a collective job once its answer is sampled end it (R127, R128). -/
theorem disposition_answered {job : JobSlot} {slot : List Level} {dissent : Bool} {o : Attempt}
    (hc : job.collective = true) (hs : slot ≠ []) (ho : o = .bitError ∨ o = .linkLost) :
    job.disposition o slot dissent = .complete .checkFailed := by
  rcases ho with rfl | rfl <;> simp [JobSlot.disposition, hc, hs]

theorem verdict_answered (hc : (s.job j).collective = true) (hs : s.link.slot ≠ [])
    (cancel : (s.job j).cancelRequested = false) (expiry : (s.job j).expiryRequested = false) {o : Attempt}
    (ho : o = .bitError ∨ o = .linkLost) : s.verdict j o = .complete .checkFailed :=
  (verdict_unrequested cancel expiry o).trans
    (disposition_answered ((counted_collective _ _ _).trans hc) hs ho)

/-- Requests or not, such an outcome leaves the job COMPLETE. -/
theorem takeOutcome_answered (hc : (s.job j).collective = true) (hs : s.link.slot ≠ []) {o : Attempt}
    (ho : o = .bitError ∨ o = .linkLost) : ((s.takeOutcome j o).job j).state = .complete := by
  rcases verdict_cases s j o with ⟨r, hd⟩ | hd
  · exact (state_of_complete hd).1
  · exact (state_of_complete
      (hd.trans (disposition_answered ((counted_collective _ _ _).trans hc) hs ho))).1

/-- Before the answer a bit error is a transport failure, and link lost is none (R127, R128). -/
theorem verdict_unanswered (hc : (s.job j).collective = true) (hs : s.link.slot = [])
    (cancel : (s.job j).cancelRequested = false) (expiry : (s.job j).expiryRequested = false) :
    s.verdict j .linkLost = .queueHead ∧ s.verdict j .bitError =
      if (s.job j).transportLimit < (s.job j).transportFailures + 1 then .complete .checkFailed
      else .queueTail := by
  rw [verdict_unrequested cancel expiry, verdict_unrequested cancel expiry]
  constructor
  · simp [JobSlot.disposition, hs]
  · have failures : ((s.job j).counted .bitError []).transportFailures = (s.job j).transportFailures + 1 :=
      if_pos (by simp [JobSlot.countsFailure])
    simp [JobSlot.disposition, hs, counted_effectiveLimit, effectiveLimit_collective hc, failures]

end

/-- Settles O47: the counters and the last response are the counted job's; the verdicts by whether the slot had been
sampled. -/
theorem outcomesOfACollectiveJob : Obligations.OutcomesOfACollectiveJob := by
  intro s j hc job after failures losses counts completes
  have tallied : ∀ o, o ≠ .busy → counts o
      (if job.countsFailure o s.link.slot then failures + 1 else failures)
      (if o = .arbitrationLost then min 255 (losses + 1) else losses) := fun o ho => by
    obtain ⟨f, b, l, -⟩ := takeOutcome_ownJob s j o
    exact ⟨f, b.trans (if_neg ho), l⟩
  have answered : ∀ o, (after o).lastResponse = job.responseAfter o s.link.slot := fun o => by
    obtain ⟨-, -, -, r, -⟩ := takeOutcome_ownJob s j o
    exact r
  refine ⟨fun o => ?report, ?counters, fun o => ?responses, fun cancel expiry => ?verdicts⟩
  case report =>
    rw [takeOutcome_collective hc]
    simp
  case counters =>
    refine ⟨tallied .arbitrationLost nofun, tallied .normalEnd nofun, tallied .linkLost nofun,
      fun empty => ?_, fun sampled => ?_⟩
    · simpa [JobSlot.countsFailure, empty] using tallied .bitError nofun
    · simpa [JobSlot.countsFailure, sampled, job, hc] using tallied .bitError nofun
  case responses =>
    rw [answered, responseAfter_collective hc]
    exact ⟨fun empty => by rw [empty]; rfl, fun l rest sampled => by rw [sampled]; exact collectiveReading_cons l rest⟩
  case verdicts =>
    have own := verdict_unrequested cancel expiry
    refine ⟨completes_past (own .arbitrationLost) fun h => ⟨state_of_queued (.inl h), takeOutcome_queueHead h⟩,
      ?_, fun sampled => ⟨?_, ?_⟩, fun empty => ?_⟩
    · simpa [hc] using state_of_complete (verdict_normalEnd s j)
    · exact state_of_complete (verdict_answered hc sampled cancel expiry (.inl rfl))
    · exact state_of_complete (verdict_answered hc sampled cancel expiry (.inr rfl))
    · obtain ⟨linkLost, bitError⟩ := verdict_unanswered hc empty cancel expiry
      exact ⟨state_of_queued (.inl linkLost), completes_past bitError fun h => state_of_queued (.inr h)⟩

section
variable {s : State} {j : Slot} {o : Attempt}

/-! ### The whole effect of an outcome (R121) -/

/-- A requeued job is at the head after a lost arbitration or link lost, and at the tail otherwise. -/
theorem takeOutcome_requeued (h : ((s.takeOutcome j o).job j).state = .queued) :
    (s.takeOutcome j o).list (s.job j).priority =
      if o = .arbitrationLost ∨ o = .linkLost then j :: s.list (s.job j).priority
      else s.list (s.job j).priority ++ [j] := by
  rcases verdict_cases s j o with ⟨r, complete⟩ | own
  · simp [state_of_complete complete] at h
  cases hd : s.verdict j o with
  | queueHead => rw [if_pos (queueHead_of_disposition (own ▸ hd)), takeOutcome_queueHead hd]
  | queueTail => rw [if_neg (queueTail_of_disposition (own ▸ hd)), takeOutcome_queueTail hd]
  | wait => simp [state_of_wait hd] at h
  | complete r => simp [state_of_complete hd] at h

theorem disposition_cases (d : Disposition) :
    (∃ r, d = .complete r) ∨ (d = .queueHead ∨ d = .queueTail) ∨ d = .wait := by
  cases d <;> simp

/-- The state in which a requeued job stands, its list as the outcome leaves it. -/
theorem endAttempt_requeued (h : s.verdict j o = .queueHead ∨ s.verdict j o = .queueTail) :
    (s.endAttempt j o).dispose j (s.verdict j o) = { s with
      initiator := { s.initiator with phase := .ended }
      jobs := s.jobs.set j { (s.job j).counted o s.link.slot with state := .queued, retryCountdown := 0 }
      lists := s.lists.set (s.job j).priority.toFin
        ((s.takeOutcome j o).list (s.job j).priority) } := by
  rcases h with h | h
  · rw [takeOutcome_queueHead h, h, State.dispose, endAttempt_requeueHead]
  · rw [takeOutcome_queueTail h, h, State.dispose, endAttempt_requeueTail]

/-- The counted job, written with what the outcome has left in it. -/
theorem counted_eq_last (s : State) (j : Slot) (o : Attempt) :
    let last := (s.takeOutcome j o).job j
    { s.job j with
      lastResponse := last.lastResponse, transportFailures := last.transportFailures
      busyResponses := last.busyResponses, arbitrationLosses := last.arbitrationLosses } =
        (s.job j).counted o s.link.slot := by
  obtain ⟨failures, busy, losses, response, -⟩ := takeOutcome_ownJob s j o
  simp only [failures, busy, losses, response]
  rfl

end

/-- Settles O48: each request's verdict, the place of a requeued job, and one equation of states for each verdict. -/
theorem requestsAndRequeueing : Obligations.RequestsAndRequeueing := by
  refine ⟨fun s j o => ⟨fun cancel abnormal => ?cancelled, fun cancel expiry abnormal => ?expired,
    fun normal => ?normalEnd⟩, fun s j o => takeOutcome_requeued, fun s j o => ?whole⟩
  case cancelled => exact state_of_complete (verdict_cancelled cancel abnormal)
  case expired => exact state_of_complete (verdict_expired cancel expiry abnormal)
  case normalEnd => exact state_of_complete (normal ▸ verdict_normalEnd s j)
  case whole =>
    intro job t last counted becomes ended reported
    have hcounted : counted = job.counted o s.link.slot := counted_eq_last s j o
    have effect : t = reported ((s.endAttempt j o).dispose j (s.verdict j o)) := rfl
    rcases disposition_cases (s.verdict j o) with ⟨r, hd⟩ | hd | hd
    · obtain ⟨complete, result⟩ := state_of_complete hd
      refine ⟨.inl complete, fun _ => ?_, fun h => ?_, fun h => ?_⟩
      · rw [effect, hd, hcounted, show last.result = r from result]
        rfl
      all_goals exact absurd (complete.symm.trans h) nofun
    · have queued := state_of_queued hd
      refine ⟨.inr (.inl queued), fun h => ?_, fun _ => ?_, fun h => ?_⟩
      · exact absurd (queued.symm.trans h) nofun
      · refine effect.trans ?_
        rw [endAttempt_requeued hd, ← hcounted]
      · exact absurd (queued.symm.trans h) nofun
    · obtain ⟨waiting, -⟩ := state_of_wait hd
      refine ⟨.inr (.inr waiting), fun h => ?_, fun h => ?_, fun _ => ?_⟩
      · exact absurd (waiting.symm.trans h) nofun
      · exact absurd (waiting.symm.trans h) nofun
      · rw [effect, hd, endAttempt_wait, ← hcounted]

end Sys2Proof.Machine
end

section
/-!
PROOFS. Law 8, for the events of the link: a collective job whose answer has been sampled stays with its telegram until
it is COMPLETE (R127, R128).
-/

namespace Sys2Proof.Machine

/-- The node is initiator of a job's telegram and has sampled a bit of its header slot (R14, R15). -/
structure State.Answered (s : State) (j : Slot) (h : Header) : Prop where
  role : s.link.role = .initiator j h
  sampled : s.link.slot ≠ []

/-- From `s` to `t` a collective job whose answer has been sampled is COMPLETE, or its telegram goes on. -/
def AnswerStands (s t : State) : Prop :=
  ∀ j h, s.Answered j h → (s.job j).collective = true → h.collective = true →
    (t.job j).state = .complete ∨ t.Answered j h

section
variable {s t u : State}

theorem AnswerStands.refl (s : State) : AnswerStands s s := fun _ _ ha _ _ => .inr ha

/-- The telegram goes on with the slot as it was. -/
theorem AnswerStands.of_link (hr : t.link.role = s.link.role) (hs : t.link.slot = s.link.slot) :
    AnswerStands s t := fun _ _ ha _ _ => .inr ⟨hr.trans ha.role, hs ▸ ha.sampled⟩

/-- A node that is initiator of no telegram has no answer. -/
theorem AnswerStands.of_role (hr : ∀ j h, s.link.role ≠ .initiator j h) : AnswerStands s t :=
  fun j h ha _ _ => absurd ha.role (hr j h)

theorem meetBitError_answer (s : State) (follow : Role) : AnswerStands s (s.meetBitError follow) := by
  intro j h ha hc _
  refine .inl ?_
  have ends : ∀ n o, o = .bitError ∨ o = .linkLost →
      (((s.withErrors n).abandonPart o).job j).state = .complete := fun n o ho => by
    rw [abandonPart_sending (s := s.withErrors n) (.inr ha.role)]
    exact takeOutcome_answered (s := s.withErrors n) hc ha.sampled ho
  unfold State.meetBitError
  dsimp only
  split
  · exact (congrArg _ (job_congr (leaveTelegram_jobs _ _).jobs j)).trans (ends _ _ (.inl rfl))
  · exact (congrArg _ (job_congr (enterFaulted_jobs _ _).jobs j)).trans (ends _ _ (.inr rfl))

theorem partLost_answer (s : State) : AnswerStands s s.partLost := by
  unfold State.partLost
  split
  case h_2 => exact meetBitError_answer s _
  all_goals next hr => exact .of_role (by simp [hr])

theorem loseSync_answer (s : State) : AnswerStands s s.loseSync := by
  unfold State.loseSync
  split
  · exact .refl s
  · exact partLost_answer s

theorem meetStuck_keepsJobs (s : State) : s.meetStuck.jobs = s.partLost.jobs := by
  unfold State.meetStuck
  dsimp only
  split
  iterate 3 exact (enterFaulted_jobs _ _).jobs
  all_goals rfl

theorem meetStuck_answer (s : State) : AnswerStands s s.meetStuck := by
  intro j h ha hc hh
  rcases partLost_answer s j h ha hc hh with complete | ⟨role, -⟩
  · exact .inl ((congrArg _ (job_congr (meetStuck_keepsJobs s) j)).trans complete)
  · have silent := (partLost_jobs s).2
    rw [role] at silent
    cases silent

theorem loseArbitration_answer (s : State) : AnswerStands s s.loseArbitration := by
  unfold State.loseArbitration
  split
  case h_1 hr => exact .of_role (by simp [hr])
  all_goals exact .refl s

/-- The NAKs of R18 are those of individual telegrams. -/
theorem fifthNak_answer (s : State) : AnswerStands s s.fifthNak := by
  intro j h ha hc hh
  have same : s.fifthNak = s := by simp [State.fifthNak, ha.role, hh]
  rw [same]
  exact .inr ha

theorem reachEnd_answer (s : State) : AnswerStands s s.reachEnd := by
  intro j h ha hc hh
  unfold State.reachEnd
  split
  · refine .inl ((congrArg _ (job_congr (leaveTelegram_jobs _ _).jobs j)).trans ?_)
    have outcome : s.endEffects = s.takeOutcome j .normalEnd := by
      simp [State.endEffects, ha.role, endOutcome, hh]
    exact (congrArg (fun u => (State.job u j).state) outcome).trans (state_of_complete (verdict_normalEnd s j)).1
  · exact .inr ha

/-- A collective telegram whose initiator does not send the data carries none (R13). -/
theorem blocks_silentCollective {h : Header} (hc : h.collective = true) (hs : h.initiatorSends = false) :
    h.blocks = 0 := by
  unfold Header.blocks Header.dataBytes
  unfold Header.initiatorSends at hs
  cases hop : Operation.ofCode h.operation with
  | none => simp
  | some op => cases op <;> simp_all [Operation.sendsData]

theorem takeBlock_answer (s : State) (data : Vector Byte 8) (check : Byte) (x y : Level) :
    AnswerStands s (s.takeBlock data check x y) := by
  intro j h ha hc hh
  unfold State.takeBlock
  split
  · exact .inr ha
  next hd =>
    simp only [ha.role, hh, if_true]
    split
    next =>
      unfold State.sendCollective
      split
      · exact meetBitError_answer s _ j h ha hc hh
      · exact .inr ⟨ha.role, ha.sampled⟩
    next silent =>
      simp [State.inData, ha.role, blocks_silentCollective hh (by simpa using silent)] at hd

theorem takeHeaderPart_answer (s : State) (part : HeaderPart) : AnswerStands s (s.takeHeaderPart part) := by
  intro j h ha hc hh
  cases part with
  | arbitrationWon => exact .inr (by simpa [State.takeHeaderPart, State.winArbitration, ha.role] using ha)
  | headerBits bits =>
    simp only [State.takeHeaderPart, State.takeHeaderBits, ha.role]
    repeat' split
    · exact .inr ha
    · exact .inr ⟨ha.role, ha.sampled⟩
    · exact meetBitError_answer s _ j h ha hc hh
  | slotBit l =>
    simp only [State.takeHeaderPart, State.takeSlotBit, ha.role]
    repeat' split
    · exact .inr ha
    · exact .inr ⟨by simpa [State.pushSlot] using ha.role, by simp [State.pushSlot]⟩
    · exact .inr ha

end
end Sys2Proof.Machine
end

section
/-!
PROOFS. Laws 1 and 8, kept by every step: what a step does to the ACTIVE job and to the telegram it is sent in, said
once (R112, R118, R121, R127).
-/

namespace Sys2Proof.Machine

/-! ### The ACTIVE jobs of two states -/

/-- The same jobs are ACTIVE in both states, each with the fields of its header. -/
structure SameActive (s t : State) : Prop where
  active : ∀ i, (t.job i).state = .active ↔ (s.job i).state = .active
  header : ∀ i a, (s.job i).state = .active → (t.job i).header a = (s.job i).header a

/-- The node sends the same telegram in both states, and as its initiator has sampled the same slot. -/
structure SameSending (s t : State) : Prop where
  sends : t.link.role.sending = s.link.role.sending
  answered : ∀ j h, s.Answered j h → t.Answered j h

section
variable {s t u : State}

theorem SameActive.of_jobs (h : t.jobs = s.jobs) : SameActive s t :=
  ⟨fun i => by rw [job_congr h], fun i _ _ => by rw [job_congr h]⟩

theorem SameActive.trans (h : SameActive s t) (k : SameActive t u) : SameActive s u :=
  ⟨fun i => (k.active i).trans (h.active i),
    fun i a hi => (k.header i a ((h.active i).2 hi)).trans (h.header i a hi)⟩

/-- One job rewritten, ACTIVE before and after, with the fields of its header, or neither before nor after. -/
theorem SameActive.rewrite {j : Slot} {job : JobSlot} (ht : ∀ i, t.job i = if i = j then job else s.job i)
    (ha : job.state = .active ↔ (s.job j).state = .active)
    (hh : (s.job j).state = .active → ∀ a, job.header a = (s.job j).header a) : SameActive s t := by
  refine ⟨fun i => ?_, fun i a hi => ?_⟩
  · rw [ht]
    split
    next h => exact h ▸ ha
    · rfl
  · rw [ht]
    split
    next h => subst h; exact hh hi a
    · rfl

/-- One job rewritten that is ACTIVE neither before nor after. -/
theorem SameActive.rewrite_idle {j : Slot} {job : JobSlot}
    (ht : ∀ i, t.job i = if i = j then job else s.job i)
    (hold : (s.job j).state ≠ .active) (hnew : job.state ≠ .active) : SameActive s t :=
  .rewrite ht (iff_of_false hnew hold) fun h => absurd h hold

theorem SameSending.of_link (h : t.link = s.link) : SameSending s t :=
  ⟨by rw [h], fun _ _ ha => ⟨h ▸ ha.role, h ▸ ha.sampled⟩⟩

/-- A node that sends no telegram, before or after. -/
theorem SameSending.of_silent (hs : s.link.role.sending = none) (ht : t.link.role.sending = none) :
    SameSending s t := by
  refine ⟨ht.trans hs.symm, fun j h ha => ?_⟩
  rw [ha.role] at hs
  cases hs

theorem SameSending.trans (h : SameSending s t) (k : SameSending t u) : SameSending s u :=
  ⟨k.sends.trans h.sends, fun j h' ha => k.answered j h' (h.answered j h' ha)⟩

/-! ### Countdowns (R125, R129) -/

theorem deadlineTick_sameActive (s : State) (j : Slot) : SameActive s (s.deadlineTick j) := by
  unfold State.deadlineTick
  dsimp only
  have counted : SameActive s
      (s.setJob j { s.job j with deadlineRemaining := (s.job j).deadlineRemaining - 1 }) :=
    .rewrite (job_setJob s j · _) Iff.rfl fun _ _ => rfl
  repeat' split
  · exact .of_jobs rfl
  · exact counted
  · exact .rewrite (job_setJob s j · _) Iff.rfl fun _ _ => rfl
  next waiting => exact counted.trans (.rewrite_idle (completeJob_job _ · j _) (by simpa using waiting) nofun)

theorem retryTick_sameActive (s : State) (j : Slot) : SameActive s (s.retryTick j) := by
  unfold State.retryTick
  dsimp only
  split
  · exact .of_jobs rfl
  next hw =>
    have waiting : (s.job j).state = .waiting := not_not.1 hw
    repeat' split
    · exact .rewrite (job_setJob s j · _) Iff.rfl fun _ _ => rfl
    · exact .of_jobs rfl
    · exact .rewrite_idle (requeueTail_job s · j) (by simp [waiting]) nofun

theorem applyShare_sameActive (s : State) (b : Bool) (x : TickShare) : SameActive s (s.applyShare b x) := by
  cases x with
  | deadline j => exact deadlineTick_sameActive s j
  | retry j => exact retryTick_sameActive s j
  | recovery | lease | freshness => exact .of_jobs (by simp [State.applyShare])

/-- In a state without telegrams the node sends none. -/
theorem sending_offLink (hl : s.linkLaw) (hm : s.mode = .running)
    (hst : s.link.state ≠ .online ∧ s.link.state ≠ .stopping) : s.link.role.sending = none := by
  have idle : s.link.role = .idle := by
    by_contra hr
    exact (onLink hl hm hr).elim hst.1 hst.2
  rw [idle]
  rfl

theorem recoveryTick_sameSending (hl : s.linkLaw) (hm : s.mode = .running) (b : Bool) :
    SameSending s (s.recoveryTick b) := by
  unfold State.recoveryTick
  split
  · exact .of_link rfl
  next hf =>
    have silent := sending_offLink hl hm (by rw [not_not.1 hf]; simp)
    dsimp only
    repeat' split
    · exact .of_silent silent silent
    · exact .of_silent silent rfl
    · exact .of_silent silent silent

theorem applyShare_sameSending (hl : s.linkLaw) (hm : s.mode = .running) (b : Bool) (x : TickShare) :
    SameSending s (s.applyShare b x) := by
  cases x with
  | recovery => exact recoveryTick_sameSending hl hm b
  | lease | freshness | deadline | retry => exact .of_link (by simp [State.applyShare])

/-! ### What a step does -/

/-- What a step does to the ACTIVE job and to the telegram the node is sending. -/
inductive TelegramMove (s t : State) : Prop
  | resting (jobs : t.jobs = s.jobs) (sends : SameSending s t) (mode : t.mode = .running → s.mode = .running)
  | kept (running : s.mode = .running) (mode : t.mode = s.mode) (jobs : SameActive s t)
      (sends : SameSending s t)
  | dispatched (u : State) (l : List Slot) (running : s.mode = .running) (mode : u.mode = s.mode)
      (jobs : u.jobs = s.jobs) (idle : s.link.role = .idle) (same : u.link.role = s.link.role)
      (scan : t = u.scan l)
  | attempted (running : s.mode = .running) (mode : t.mode = s.mode) (moves : Attempted s.momentOver t)
      (stands : AnswerStands s.momentOver t)
  | stopped (mode : t.mode ≠ .running) (jobs : t.jobs = s.jobs) (silent : t.link.role = .idle)
  | reset (jobs : t.jobs = State.reset.jobs) (silent : t.link.role = .idle)

theorem TelegramMove.refl (s : State) : TelegramMove s s := .resting rfl (.of_link rfl) id

theorem TelegramMove.activeLaw (h : TelegramMove s t) (hs : s.activeLaw) : t.activeLaw := by
  cases h with
  | resting jobs sends mode =>
    rw [activeLaw_iff, ← sending_job] at hs ⊢
    rw [sends.sends]
    simp only [job_congr jobs]
    exact ⟨fun running => hs.1 (mode running), hs.2⟩
  | kept running mode jobs sends =>
    rw [activeLaw_iff, ← sending_job] at hs ⊢
    rw [sends.sends]
    obtain ⟨active, header⟩ := hs
    refine ⟨fun _ i => (jobs.active i).trans (active running i), fun j h hj => ?_⟩
    rw [jobs.header j _ ((active running j).2 (by rw [hj]; rfl))]
    exact header j h hj
  | dispatched u l running mode jobs idle same scan =>
    rw [scan]
    exact activeLaw_scan l (activeLaw_congr mode same jobs hs) (mode.trans running)
      fun i => by rw [job_congr jobs]; exact noActive hs running idle i
  | attempted running mode moves _ =>
    exact activeLaw_attempted (s := s.momentOver) (activeLaw_congr (s := s) rfl rfl rfl hs) running mode moves
  | stopped mode jobs silent =>
    exact ⟨fun running => absurd running mode, by simp [silent]⟩
  | reset jobs silent =>
    exact ⟨by simp [silent, job_reset jobs, JobSlot.free, Role.job], by simp [silent]⟩

/-- A step that does not leave the part running leaves its jobs as they were, or frees all of them. -/
theorem TelegramMove.jobs_of_stopped (h : TelegramMove s t) (hm : t.mode ≠ .running) :
    t.jobs = s.jobs ∨ t.jobs = State.reset.jobs := by
  cases h with
  | resting jobs => exact .inl jobs
  | kept running mode => exact absurd (mode.trans running) hm
  | dispatched u l running mode _ _ _ scan => exact absurd (by simp [scan, mode, running]) hm
  | attempted running mode => exact absurd (mode.trans running) hm
  | stopped _ jobs => exact .inl jobs
  | reset jobs => exact .inr jobs

theorem oneActive_of_activeLaw (hs : s.activeLaw) (hm : s.mode = .running) : s.oneActive := by
  intro i j hi hj
  have same := ((hs.active hm i).1 hi).symm.trans ((hs.active hm j).1 hj)
  exact Option.some.inj same

theorem TelegramMove.oneActive (h : TelegramMove s t) (hs : s.activeLaw) (ho : s.oneActive) :
    t.oneActive := by
  by_cases hm : t.mode = .running
  · exact oneActive_of_activeLaw (h.activeLaw hs) hm
  · rcases h.jobs_of_stopped hm with jobs | jobs
    · intro i j
      rw [job_congr jobs, job_congr jobs]
      exact ho i j
    · intro i j hi
      simp [job_reset jobs, JobSlot.free] at hi

/-- Law 8: what becomes of a collective job whose answer has been sampled (R127). -/
theorem TelegramMove.answered {j : Slot} {h : Header} (hk : TelegramMove s t) (hs : s.activeLaw)
    (hm : s.mode = .running) (ha : s.Answered j h) (hc : (s.job j).collective = true) :
    (t.job j).state = .complete ∨ (t.job j).state = .free ∨
      (t.job j).state = .active ∧ (t.mode = .running → t.Answered j h) := by
  have active : (s.job j).state = .active := (hs.active hm j).2 (by rw [ha.role]; rfl)
  have law := hk.activeLaw hs
  cases hk with
  | resting jobs sends => exact .inr (.inr ⟨job_congr jobs j ▸ active, fun _ => sends.answered j h ha⟩)
  | kept _ _ jobs sends => exact .inr (.inr ⟨(jobs.active j).2 active, fun _ => sends.answered j h ha⟩)
  | dispatched u l _ _ _ idle =>
    rw [ha.role] at idle
    cases idle
  | attempted running mode _ stands =>
    have collective : h.collective = true := by
      rw [hs.header j h (.inl ha.role)]
      exact hc
    rcases stands j h ⟨ha.role, ha.sampled⟩ hc collective with complete | goesOn
    · exact .inl complete
    · exact .inr (.inr ⟨(law.active (mode.trans running) j).2 (by rw [goesOn.role]; rfl), fun _ => goesOn⟩)
  | stopped mode jobs =>
    exact .inr (.inr ⟨job_congr jobs j ▸ active, fun running => absurd running mode⟩)
  | reset jobs => exact .inr (.inl (by rw [job_reset jobs]; rfl))

/-! ### The rows -/

theorem TelegramMove.ticked (hl : s.linkLaw) (hm : s.mode = .running) (order : List TickShare) (b : Bool) :
    TelegramMove s (s.tickBoundary order b) := by
  obtain ⟨-, -, jobs, sends⟩ := tickBoundary_induct
    (P := fun t => t.linkLaw ∧ t.mode = .running ∧ SameActive s t ∧ SameSending s t)
    (fun t g ⟨link, running, jobs, sends⟩ =>
      ⟨linkLaw_congr (s := t) rfl rfl rfl rfl link, running, jobs.trans (.of_jobs rfl), sends.trans (.of_link rfl)⟩)
    (fun t x ⟨link, running, jobs, sends⟩ =>
      ⟨linkLaw_applyShare link b x, by simpa using running, jobs.trans (applyShare_sameActive t b x),
        sends.trans (applyShare_sameSending link running b x)⟩)
    order ⟨hl, hm, .of_jobs rfl, .of_link rfl⟩
  exact .kept hm (by simp) jobs sends

theorem TelegramMove.expiry {x : TickShare} {due : Bool} (hl : s.linkLaw) (h : s.expiryRow x due = .next t) :
    TelegramMove s t := by
  rcases expiryRow_next h with rfl | ⟨hm, -, fresh, rfl⟩
  · exact .refl _
  · have share : s.takeShare false x = { s.applyShare false x with ticks :=
        { (s.applyShare false x).ticks with taken := x :: (s.applyShare false x).ticks.taken } } := if_neg fresh
    rw [share]
    exact .kept hm (by simp) ((applyShare_sameActive s false x).trans (.of_jobs rfl))
      ((applyShare_sameSending hl hm false x).trans (.of_link rfl))

/-- A completion that leaves the link alone. -/
theorem TelegramMove.completed {code : Byte} {f : Params → State → State} (jobs : ∀ p, SameActive s (f p s))
    (h : s.completing code f = .next t) (mode : t.mode = s.mode) (link : t.link = s.link) :
    TelegramMove s t := by
  rcases completing_next h with rfl | ⟨p, hm, -, rfl⟩
  · exact .refl _
  · exact .kept hm mode (jobs p) (.of_link link)

/-- An event of the link on the jobs of the telegram in progress. -/
theorem TelegramMove.onLink {f : State → State} (moves : Attempted s.momentOver (f s.momentOver))
    (stands : AnswerStands s.momentOver (f s.momentOver)) (mode : (f s.momentOver).mode = s.mode)
    (h : s.onLink f = .next t) : TelegramMove s t := by
  rcases onLink_next h with ⟨-, rfl⟩ | ⟨hm, rfl⟩
  · exact .refl _
  · exact .attempted hm mode moves stands

/-- An event of the link that leaves the jobs alone. -/
theorem TelegramMove.onLink_sparing {f : State → State} (jobs : (f s.momentOver).jobs = s.jobs)
    (sends : s.mode = .running → SameSending s.momentOver (f s.momentOver))
    (mode : (f s.momentOver).mode = s.mode) (h : s.onLink f = .next t) : TelegramMove s t := by
  rcases onLink_next h with ⟨-, rfl⟩ | ⟨hm, rfl⟩
  · exact .refl _
  · exact .kept hm mode (.of_jobs jobs) (.trans (t := s.momentOver) (.of_link rfl) (sends hm))

theorem submitEffect_sameActive (p : Params) (s : State) : SameActive s (submitEffect p s) := by
  unfold submitEffect
  split
  · exact .of_jobs rfl
  split
  · exact .of_jobs rfl
  next job hjob =>
    split
    · exact .of_jobs rfl
    split
    · exact .of_jobs rfl
    next j rest slots =>
      split
      · exact .of_jobs rfl
      · exact .rewrite_idle (takeJob_job s · j job) (by simp [freeSlots_head slots])
          (by simp [placedJob, submittedJob_state hjob])

theorem cancelEffect_sameActive (p : Params) (s : State) : SameActive s (cancelEffect p s) := by
  unfold cancelEffect
  split
  · exact .of_jobs rfl
  next j _ =>
    split
    · exact .of_jobs rfl
    next queued => exact .rewrite_idle (completeJob_job s · j _) (by simp [queued]) nofun
    next waiting => exact .rewrite_idle (completeJob_job s · j _) (by simp [waiting]) nofun
    · exact .rewrite (job_setJob s j · _) Iff.rfl fun _ _ => rfl
    · exact .of_jobs rfl

theorem retireEffect_sameActive (p : Params) (s : State) : SameActive s (retireEffect p s) := by
  unfold retireEffect
  split
  · exact .of_jobs rfl
  next j _ =>
    dsimp only
    split
    · exact .of_jobs rfl
    next complete =>
      split
      · exact .of_jobs rfl
      · exact .rewrite_idle (job_setJob s j · _) (by simp [not_not.1 complete]) nofun

theorem advanceCompletion_sameActive (s : State) : SameActive s s.advanceCompletion := by
  unfold State.advanceCompletion
  split
  · exact .of_jobs rfl
  next r rest _ =>
    split
    · exact .of_jobs rfl
    · exact .rewrite (job_setJob s (tagSlot r.tag) · _) Iff.rfl fun _ _ => rfl

/-- The commands that leave the reset in progress, the link and the jobs as they were. -/
def sparesTelegram : Instr → Bool
  | .submit | .cancel | .retire | .completionRead | .retryCountdownExpiry _ | .deadlineExpiry _ => false
  | .inboundDrop | .inboundRead => true
  | c => sparesLink c

theorem exec_sparesTelegram {c : Instr} (hc : sparesTelegram c = true) (h : exec c s = .next t) :
    t.mode = s.mode ∧ t.link = s.link ∧ t.jobs = s.jobs := by
  cases c
  case configure => simp [configure_row h]
  case setGroups => simp [setGroups_row h]
  case pageDefine => simp [pageDefine_row h]
  case pageClose => simp [pageClose_row h]
  case pageFetch => simp [pageFetch_row h]
  case pageCommit => simp [pageCommit_row h]
  case localClaim => simp [localClaim_row h]
  case localRelease => simp [localRelease_row h]
  case breakClaim => simp [breakClaim_row h]
  case jobQuery => simp [jobQuery_row h]
  case jobFetch => simp [jobFetch_row h]
  case peerRead => simp [peerRead_row h]
  case peerReset => simp [peerReset_row h]
  case inboundDrop => simp [inboundDrop_row h]
  case badCommand => simp [badCommand_row h]
  case statusRead => simp [statusRead_row h]
  case resultRead => simp [resultRead_row h]
  case resultDataRead => simp [resultDataRead_row h]
  case paramWrite => simp [paramWrite_row h]
  case dataRead => simp [dataRead_row h]
  case dataWrite => simp [dataWrite_row h]
  case dataPtrWrite => simp [dataPtrWrite_row h]
  case eventRead => simp [eventRead_row h]
  case inboundRead => simp [inboundRead_row h]
  case irqClear => simp [irqClear_row h]
  case irqEnableWrite => simp [irqEnableWrite_row h]
  case ignoredWrite => simp [ignoredWrite_row h]
  case cmdWrite => simp [cmdWrite_row h]
  case leaseExpiry => simp [leaseExpiry_row h]
  case pendingExpiry => simp [pendingExpiry_row h]
  case refreshWindowExpiry => simp [refreshWindowExpiry_row h]
  case freshLifetimeExpiry => simp [freshLifetimeExpiry_row h]
  all_goals cases hc

/-! ### The link's own commands and events (R26, R27, R34, R35) -/

theorem sending_noPart {r : Role} (hr : r.hasPart = false) : r.sending = none := by
  cases r with
  | idle | receiving | bystander | target | member => rfl
  | contender | initiator => cases hr

theorem linkStartEffect_sameSending (hl : s.linkLaw) (hm : s.mode = .running) (p : Params) :
    SameSending s (linkStartEffect p s) := by
  unfold linkStartEffect
  split
  · exact .of_link rfl
  have starts (h : s.link.state ≠ .online ∧ s.link.state ≠ .stopping) :
      SameSending s ((s.enterSyncing .command).finish .ok []) := .of_silent (sending_offLink hl hm h) rfl
  split
  next hst => exact starts (by simp [hst])
  next hst => exact starts (by simp [hst])
  all_goals exact .of_link rfl

/-- In STOPPING the node goes on sending its telegram (R36). -/
theorem linkStopEffect_sameSending (hl : s.linkLaw) (hm : s.mode = .running) (p : Params) :
    SameSending s (linkStopEffect p s) := by
  have leaves (h : s.link.role.sending = none) :
      SameSending s ((s.enterOffline .command).finish .ok []) := .of_silent h rfl
  unfold linkStopEffect
  split
  iterate 2 exact .of_link rfl
  next hst => exact leaves (sending_offLink hl hm (by simp [hst]))
  next hst => exact leaves (sending_offLink hl hm (by simp [hst]))
  next =>
    split
    · exact ⟨rfl, fun _ _ ha => ⟨ha.role, ha.sampled⟩⟩
    next hp => exact leaves (sending_noPart (by simpa using hp))

theorem joinLink_sameSending (hl : s.linkLaw) (hm : s.mode = .running) : SameSending s s.joinLink := by
  unfold State.joinLink
  split
  next hst _ => exact .of_silent (sending_offLink hl hm (by simp [hst])) rfl
  next => exact .of_link rfl

theorem restartGap_sameSending (s : State) : SameSending s s.restartGap := by
  unfold State.restartGap
  split <;> exact ⟨rfl, fun _ _ ha => ⟨ha.role, ha.sampled⟩⟩

theorem recogniseStart_sameSending (s : State) : SameSending s s.recogniseStart := by
  unfold State.recogniseStart
  split
  next idle => exact .of_silent (by rw [idle.2]; rfl) rfl
  next =>
    split
    · exact restartGap_sameSending s
    · exact .of_link rfl

/-- The dispatcher is asked only while the node is idle (R27, R118). -/
theorem TelegramMove.offered (hm : s.mode = .running) : TelegramMove s s.momentOver.offerLink := by
  unfold State.offerLink
  split
  next idle =>
    exact .dispatched { s.momentOver with link := { s.link with gap := .complete } } _ hm rfl rfl idle.2.1 rfl rfl
  next => exact .resting rfl (.of_link rfl) id

/-! ### Every row -/

theorem exec_telegram {c : Instr} (hl : s.linkLaw) (h : exec c s = .next t) : TelegramMove s t := by
  by_cases hc : sparesTelegram c = true
  · obtain ⟨mode, link, jobs⟩ := exec_sparesTelegram hc h
    exact .resting jobs (.of_link link) fun running => mode ▸ running
  have later : s.momentOver.linkLaw := linkLaw_congr (s := s) rfl rfl rfl rfl hl
  cases c
  case submit =>
    exact .completed (submitEffect_sameActive · s) h (by simp [submit_row h]) (by simp [submit_row h])
  case cancel =>
    exact .completed (cancelEffect_sameActive · s) h (by simp [cancel_row h]) (by simp [cancel_row h])
  case retire =>
    exact .completed (retireEffect_sameActive · s) h (by simp [retire_row h]) (by simp [retire_row h])
  case completionRead =>
    obtain ⟨-, mode, -, -, -, link, -⟩ := completionRead_row h
    rcases hostRead_next h with ⟨-, rfl⟩ | ⟨hm, rfl⟩
    · exact .resting rfl (.of_link rfl) id
    · exact .kept hm mode
        ((advanceCompletion_sameActive s).trans (.of_jobs rfl)) (.of_link link)
  case linkStart =>
    rcases completing_next h with rfl | ⟨p, hm, -, rfl⟩
    · exact .refl _
    · obtain ⟨-, mode, -, -, -, -, -, -, -, -, jobs, -⟩ := linkStart_row h
      exact .kept hm mode (.of_jobs jobs) (linkStartEffect_sameSending hl hm p)
  case linkStop =>
    rcases completing_next h with rfl | ⟨p, hm, -, rfl⟩
    · exact .refl _
    · obtain ⟨-, mode, -, -, -, -, -, -, -, -, jobs, -⟩ := linkStop_row h
      exact .kept hm mode (.of_jobs jobs) (linkStopEffect_sameSending hl hm p)
  case controllerReset value =>
    simp only [exec, execControllerReset] at h
    rcases hostWrite_next h with ⟨-, rfl⟩ | ⟨-, rfl⟩
    · exact .refl _
    split
    · exact .stopped nofun rfl rfl
    · exact .refl _
  case controllerResetEnd =>
    simp only [exec, execControllerResetEnd] at h
    split at h <;> cases h
    · exact .reset rfl rfl
    · exact .refl _
  case resetAsserted =>
    cases h
    exact .reset rfl rfl
  case powerOnResetSequence =>
    simp only [exec, execPowerOnResetSequence] at h
    split at h <;> cases h
    · exact .resting rfl (.of_link rfl) nofun
    · exact .refl _
  case powerOnResetEnd =>
    simp only [exec, execPowerOnResetEnd] at h
    split at h <;> cases h
    · exact .reset rfl rfl
    · exact .refl _
  case enterOnline =>
    exact .onLink_sparing (f := State.joinLink) (by simp) (joinLink_sameSending later ·) (by simp) h
  case startMarker =>
    exact .onLink_sparing (f := State.recogniseStart) (by simp) (fun _ => recogniseStart_sameSending _) (by simp) h
  case gapMeasurementRestart =>
    exact .onLink_sparing (f := State.restartGap) (by simp) (fun _ => restartGap_sameSending _) (by simp) h
  case transmitOpportunity =>
    rcases onLink_next h with ⟨-, rfl⟩ | ⟨hm, rfl⟩
    · exact .refl _
    · exact .offered hm
  case arbitrationLost =>
    exact .onLink (loseArbitration_jobs _) (loseArbitration_answer _) (by simp) h
  case header part =>
    exact .onLink (f := (·.takeHeaderPart part)) (takeHeaderPart_jobs _ part) (takeHeaderPart_answer _ part)
      (by simp) h
  case blockSlot data check x y =>
    exact .onLink (f := (·.takeBlock data check x y)) (takeBlock_jobs _ data check x y)
      (takeBlock_answer _ data check x y) (by simp) h
  case resendExhaustion => exact .onLink (fifthNak_jobs _) (fifthNak_answer _) (by simp) h
  case bitError =>
    rcases onLink_next h with ⟨-, rfl⟩ | ⟨hm, rfl⟩
    · exact .refl _
    split
    · exact .attempted hm (by simp) (meetBitError_jobs _ rfl) (meetBitError_answer _ _)
    · exact .resting rfl (.of_link rfl) id
  case lossOfSyncEdges => exact .onLink (loseSync_jobs _) (loseSync_answer _) (by simp) h
  case normalEnd => exact .onLink (reachEnd_jobs _) (reachEnd_answer _) (by simp) h
  case stuckDominant => exact .onLink (meetStuck_jobs _) (meetStuck_answer _) (by simp) h
  case recoveryTimerExpiry => exact .expiry hl h
  case retryCountdownExpiry => exact .expiry hl h
  case deadlineExpiry => exact .expiry hl h
  case tick order b =>
    simp only [exec, execTick] at h
    rcases whenRunning_next h with ⟨-, rfl⟩ | ⟨hm, rfl⟩
    · exact .refl _
    · exact .ticked hl hm order b
  all_goals exact absurd rfl hc

/-- A step does what a row does, taken in the state with the rest of the queue. -/
theorem step_telegram (hl : s.linkLaw) (h : step s = .next t) :
    ∃ q, TelegramMove { s with pending := q } t := by
  rcases step_next h with ⟨-, rfl⟩ | ⟨c, rest, -, hc⟩
  · refine ⟨s.pending, ?_⟩
    rcases bitPeriod_cases s with hb | hb | ⟨hm, hb⟩ <;> rw [hb]
    · exact .refl _
    · exact .resting rfl (.of_link rfl) id
    · exact .ticked hl hm _ _
  · exact ⟨rest, exec_telegram (linkLaw_congr (s := s) rfl rfl rfl rfl hl) hc⟩

end

/-- Settles O12: the law over each of the things that a step can do to the telegram. -/
theorem activeJobLawKept : Obligations.ActiveJobLawKept := by
  have queued : ∀ {s : State} q, s.activeLaw → State.activeLaw { s with pending := q } :=
    fun {s} _ => activeLaw_congr (s := s) rfl rfl rfl
  constructor
  · intro s t hl hs h
    obtain ⟨q, move⟩ := step_telegram hl h
    exact move.activeLaw (queued q hs)
  · intro s t hl hs ho h
    obtain ⟨q, move⟩ := step_telegram hl h
    exact move.oneActive (queued q hs) ho

end Sys2Proof.Machine
end

section
/-!
PROOFS. A COMPLETE job stays as it is until it is retired or reset, and the telegram of an answered collective job
goes on until the job is COMPLETE (R127, R132, R135, R137).
-/

namespace Sys2Proof.Machine

section
variable {s t : State} {j : Slot} {c : JobSlot}

/-! ### A COMPLETE job (R132, R135, R137) -/

/-- The job in a slot is the one given, but for its unread mark. -/
def State.holdsJob (s : State) (j : Slot) (c : JobSlot) : Prop :=
  s.job j = c ∨ s.job j = { c with unread := false }

theorem State.holdsJob.complete (h : s.holdsJob j c) (hc : c.state = .complete) :
    (s.job j).state = .complete := by
  rcases h with h | h <;> rw [h] <;> exact hc

/-- A rewrite of a job that is not COMPLETE leaves a COMPLETE one alone. -/
theorem State.holdsJob.rewrite {i : Slot} {job : JobSlot} (h : s.holdsJob j c) (hc : c.state = .complete)
    (ht : ∀ k, t.job k = if k = i then job else s.job k) (hi : (s.job i).state ≠ .complete) :
    t.holdsJob j c := by
  have same : t.job j = s.job j := by
    rw [ht, if_neg]
    rintro rfl
    exact hi (h.complete hc)
  rwa [State.holdsJob, same]

/-- No move of the Job Manager but those that free a slot touches a COMPLETE job, its unread mark apart. -/
theorem holdsJob_moves (hc : c.state = .complete) : KeptByJobs False (State.holdsJob · j c) where
  congr _ _ hj _ _ _ _ h := by rwa [State.holdsJob, job_congr hj]
  note s i job hp _ h := h.rewrite hc (job_setJob s i · job) (pending_ne hp).1
  head s i active h := h.rewrite hc (requeueHead_job s · i) (by simp [active])
  tail s i taken h := h.rewrite hc (requeueTail_job s · i) (by rcases taken with h | h <;> simp [h])
  wait s i n active h := h.rewrite hc (job_setJob s i · _) (by simp [active])
  complete s i r hp h := h.rewrite hc (completeJob_job s · i r) (pending_ne hp).1
  activate s i queued _ _ h := h.rewrite hc (activate_job s · i) (by simp [queued])
  take s p job i rest _ slots _ h := h.rewrite hc (takeJob_job s · i job) (by simp [freeSlots_head slots])
  retire f := f.elim
  readOn _ _ _ h := h
  pop s r rest _ h := by
    by_cases hj : j = tagSlot r.tag
    · refine .inr ((job_setJob s (tagSlot r.tag) j _).trans ?_)
      rw [if_pos hj, ← hj]
      rcases h with h | h <;> rw [h]
    · exact h.imp ((job_setJob s (tagSlot r.tag) j _).trans (if_neg hj)).trans
        ((job_setJob s (tagSlot r.tag) j _).trans (if_neg hj)).trans
  reset f := f.elim

/-- A command that can free slots leaves each job as it is or FREE. -/
theorem exec_freeing {i : Instr} (hi : i ∈ freeingCommands) (h : exec i s = .next t) (j : Slot) :
    t.job j = s.job j ∨ (t.job j).state = .free := by
  have freed {u : State} (hu : u.jobs = State.reset.jobs) : (u.job j).state = .free := by
    rw [job_reset hu]
    rfl
  simp only [freeingCommands, List.mem_cons, List.not_mem_nil, or_false] at hi
  rcases hi with rfl | rfl | rfl | rfl
  · rcases completing_next h with rfl | ⟨p, -, -, rfl⟩
    · exact .inl rfl
    unfold retireEffect
    dsimp only
    repeat' split
    iterate 3 exact .inl rfl
    next k _ _ _ =>
      by_cases hj : j = k
      · exact .inr (congrArg _ ((job_setJob s k j _).trans (if_pos hj)))
      · exact .inl ((job_setJob s k j _).trans (if_neg hj))
  · simp only [exec, execControllerResetEnd] at h
    split at h <;> cases h
    · exact .inr (freed rfl)
    · exact .inl rfl
  · cases h
    exact .inr (freed rfl)
  · simp only [exec, execPowerOnResetEnd] at h
    split at h <;> cases h
    · exact .inr (freed rfl)
    · exact .inl rfl

end

/-- Settles O17: the telegram of an answered job goes on until the job is COMPLETE, and a COMPLETE job is touched by
the commands that free slots alone. -/
theorem collectiveJobIsNotSentAgain : Obligations.CollectiveJobIsNotSentAgain := by
  refine ⟨fun s t j h hl ha hm role hc sampled hs => ?_, fun s t j ha hl complete hs => ?_⟩
  · obtain ⟨q, move⟩ := step_telegram hl hs
    have after := move.answered (activeLaw_congr (s := s) rfl rfl rfl ha) hm ⟨role, sampled⟩ hc
    exact after.imp_right (.imp_right fun ⟨active, goesOn⟩ =>
      ⟨active, fun running => ⟨(goesOn running).role, (goesOn running).sampled⟩⟩)
  · by_cases hf : ∃ c rest, s.pending = c :: rest ∧ c ∈ freeingCommands
    · obtain ⟨c, rest, hq, hc⟩ := hf
      have row : exec c { s with pending := rest } = .next t := by rwa [step, hq] at hs
      exact (exec_freeing hc row j).imp_right fun free => .inr ⟨free, c, rest, hq, hc⟩
    · have held : t.holdsJob j (s.job j) := (holdsJob_moves complete).step ha hl
        (fun c rest hq hc => hf ⟨c, rest, hq, hc⟩) (.inl rfl) hs
      exact held.imp_right .inl

end Sys2Proof.Machine
end

section
/-!
PROOFS. CANCEL, JOB_QUERY and JOB_FETCH (R113, R130, R133, R134).
-/

namespace Sys2Proof.Machine

section
variable {s : State} {p : Params}

/-! ### The job a tag names (R113) -/

theorem knownTag_none {tag : Byte}
    (h : (s.job (tagSlot tag)).state = .free ∨ (s.job (tagSlot tag)).generation ≠ tagGeneration tag) :
    s.knownTag tag = none := by
  unfold State.knownTag
  split
  · rfl
  next taken => exact if_neg (h.resolve_left taken)

theorem knownTag_of_generation {tag : Byte} (hs : (s.job (tagSlot tag)).state ≠ .free)
    (hg : (s.job (tagSlot tag)).generation = tagGeneration tag) : s.knownTag tag = some (tagSlot tag) :=
  (if_neg hs).trans (if_pos hg)

/-! ### Snapshots and counts as bytes (R133) -/

/-- The flags of the first byte in bits 7 to 5, the code in bits 2 to 0, and nothing between them (R179). -/
theorem flagByte_bits (x y z : Bool) (c : BitVec 3) :
    let b : Byte := BitVec.ofBool x ++ BitVec.ofBool y ++ BitVec.ofBool z ++ 0#2 ++ c
    b.extractLsb' 0 3 = c ∧ b.getLsbD 7 = x ∧ b.getLsbD 6 = y ∧ b.getLsbD 5 = z ∧
      b.extractLsb' 3 2 = 0 := by
  revert x y z c
  decide

/-- A 16-bit count, high byte first. -/
theorem halves_ofNat (n : Nat) : (BitVec.ofNat 16 n).extractLsb' 8 8 = byte (n / 256) ∧
    (BitVec.ofNat 16 n).extractLsb' 0 8 = byte n := by
  constructor <;> apply BitVec.eq_of_toNat_eq <;>
    simp only [byte, BitVec.extractLsb'_toNat, BitVec.toNat_ofNat, Nat.shiftRight_eq_div_pow] <;> omega

/-- A command whose effect fills the staging buffer, and nothing else but its result. -/
theorem completing_fillsStaging {i : Instr} {code : Byte} {f : Params → State → State}
    {bytes data : List Byte} (hi : exec i s = s.completing code f) (hp : s.inProgress code p)
    (hm : s.port.staging.wf Config.stagingSize = true)
    (h : f p s = (s.fillStaging bytes).finish .ok data) : fillsStaging i s bytes data :=
  ⟨_, hi.trans ((completing_taken f hp).trans (congrArg _ h)), rfl, fun _ hk => fillStaging_read hm bytes hk⟩

end

/-- Settles O41: the state of the job that the tag names decides. -/
theorem cancelByJobState : Obligations.CancelByJobState := by
  refine ⟨fun s p hp => ⟨fun unknown => ?unknown, fun generation =>
    ⟨fun stands => ?stands, fun active => ?active, fun complete => ?complete⟩⟩,
    fun tag => ⟨tagSlot_val tag, tagGeneration_toNat tag⟩, rfl⟩
  case unknown => exact completing_finish hp (by simp only [cancelEffect, knownTag_none unknown])
  case stands =>
    have known := knownTag_of_generation (by rcases stands with h | h <;> simp [h]) generation
    refine completing_finish hp ?_
    rcases stands with h | h <;> simp only [cancelEffect, known, h]
  case active =>
    have known := knownTag_of_generation (by simp [active]) generation
    exact completing_finish hp (u := State.setJob s _ _) (by simp only [cancelEffect, known, active])
  case complete =>
    have known := knownTag_of_generation (by simp [complete]) generation
    exact completing_finish hp (by simp only [cancelEffect, known, complete])

/-- Settles O42: both commands fill the staging buffer, with the snapshot's bytes or the buffer's. -/
theorem jobQueryAndFetch : Obligations.JobQueryAndFetch := by
  refine ⟨fun s p hp ⟨_, _, _, hstaging⟩ => ⟨fun unknown => ?queryUnknown, fun taken generation => ?query⟩,
    fun s p hp ⟨_, _, _, hstaging⟩ => ⟨fun unknown => ?fetchUnknown, fun taken generation =>
      ⟨fun going => ?fetchGoing, fun complete => ?fetch⟩⟩⟩
  case queryUnknown => exact completing_finish hp (by simp only [jobQueryEffect, knownTag_none unknown])
  case query =>
    obtain ⟨state, cancel, expiry, unread, rest⟩ := flagByte_bits (s.job (tagSlot p[0])).cancelRequested
      (s.job (tagSlot p[0])).expiryRequested (s.job (tagSlot p[0])).unread
      ((s.job (tagSlot p[0])).state.code.extractLsb' 0 3)
    obtain ⟨high, low⟩ := halves_ofNat (s.job (tagSlot p[0])).deadlineRemaining
    refine ⟨_, state, cancel, expiry, unread, rest, completing_fillsStaging rfl hp hstaging ?_⟩
    simp only [jobQueryEffect, knownTag_of_generation taken generation, JobSlot.snapshot, high, low]
  case fetchUnknown => exact completing_finish hp (by simp only [jobFetchEffect, knownTag_none unknown])
  case fetchGoing =>
    refine completing_finish hp ?_
    simp only [jobFetchEffect, knownTag_of_generation taken generation]
    exact if_pos going
  case fetch =>
    refine completing_fillsStaging rfl hp hstaging ?_
    simp only [jobFetchEffect, knownTag_of_generation taken generation, State.bufferBytes, Nat.zero_add]
    exact if_neg (not_not.2 complete)

end Sys2Proof.Machine
end

section
/-!
PROOFS. The dispatcher's scan (R27, R118 to R120).
-/

namespace Sys2Proof.Machine

section
variable {s : State} {j : Slot}

/-- A job fails fast where its individual target's entry is UNREACHABLE and it is no PROBE (R120). -/
theorem failsFast_iff : s.failsFast j = true ↔ (s.job j).collective = false ∧ (s.job j).probe = false ∧
    ∃ e, s.peer (s.job j).target = some e ∧ e.state = .unreachable := by
  unfold State.failsFast State.peerStateOf
  cases (s.job j).collective <;> cases (s.job j).probe <;> simp

/-- The header, the counters and the peer's state of a job that becomes ACTIVE, written out (R118, R121). -/
theorem activate_eq (s : State) (j : Slot) : s.activate j = { s with
    jobs := s.jobs.set j { s.job j with
      state := .active
      attempts := min 255 ((s.job j).attempts + 1)
      peerAtDispatch :=
        if (s.job j).collective then (s.job j).peerAtDispatch
        else (s.peer (s.job j).target).map PeerEntry.state }
    lists := s.lists.set (s.job j).priority.toFin ((s.list (s.job j).priority).filter (· != j))
    initiator := ⟨.contending, 0, 0, false⟩
    link := { s.link with
      role := .contender j ⟨(s.job j).priority, s.cfg.address, (s.job j).group, (s.job j).target,
        (s.job j).operation.code, (s.job j).page, (s.job j).offset, (s.job j).length⟩
      slot := []
      gap := .notRunning } } := by
  have peer : (if (s.job j).collective then (s.job j).peerAtDispatch else s.peerStateOf (s.job j)) =
      if (s.job j).collective then (s.job j).peerAtDispatch
      else (s.peer (s.job j).target).map PeerEntry.state := by
    split
    · rfl
    next individual => exact if_neg individual
  rw [← peer]
  rfl

theorem scan_heldBack {l : List Slot} (h : ∀ i ∈ l, s.heldBack i = true) : s.scan l = s := by
  induction l with
  | nil => rfl
  | cons i l ih =>
    rw [State.scan, if_pos (h i List.mem_cons_self)]
    exact ih fun k hk => h k (List.mem_cons_of_mem _ hk)

theorem scan_eligible {post : List Slot} (hb : s.heldBack j = false) (hf : s.failsFast j = false) :
    s.scan (j :: post) = s.activate j := by
  simp [State.scan, hb, hf]

/-- The opportunity of an idle node in ONLINE whose gap is complete (R27). -/
theorem exec_transmitOpportunity {t : State} (hm : s.mode = .running)
    (ho : s.link.state = .online ∧ s.link.role = .idle ∧ s.link.gap ≠ .notRunning)
    (h : State.scan { s.momentOver with link := { s.link with gap := .complete } } s.lists.toList.flatten = t) :
    exec .transmitOpportunity s = .next t :=
  onLink_running _ hm ((if_pos (show _ ∧ _ from ho)).trans h)

end

/-- Settles O45: the scan walks past the jobs that are held back or fail, and activates the next one. -/
theorem opportunityPassesJobsOver : Obligations.OpportunityPassesJobsOver := by
  constructor
  · intro s₀ s running online idle gap offered
    have row {t : State} := exec_transmitOpportunity (s := s₀) (t := t) running ⟨online, idle, gap⟩
    refine ⟨fun held => row (scan_heldBack (s := offered) held), fun passed rest split => ?_⟩
    intro failing judged u
    have walked : offered.scan s.lists.toList.flatten = u.scan rest := by
      rw [split]
      exact scan_passes passed offered rest judged
    refine ⟨fun last => row (walked.trans (by rw [last, State.scan])), fun j post next free slow => ?_⟩
    exact row (walked.trans (by rw [next, scan_eligible free slow, activate_eq]))
  · intro s pre j post split first
    exact ⟨by rw [heldBack_iff, elders_eq split first], failsFast_iff⟩

end Sys2Proof.Machine
end

section
/-!
PROOFS. SUBMIT: its checks in order, and what a taken one places (R113 to R117, R139, R140).
-/

namespace Sys2Proof.Machine

section
variable {s : State} {p : Params} {job : JobSlot} {j : Slot}

/-! ### The job that the parameter bytes describe (R116, 12.4) -/

theorem sendsData_iff {op : Operation} :
    op.sendsData = true ↔ op ∈ [.write, .writeRelease, .message] := by
  cases op <;> decide

theorem movesPageData_iff {op : Operation} :
    op.readType = true ∨ op.writeType = true ↔ op ∈ [.read, .write, .readClaim, .writeRelease] := by
  cases op <;> decide

theorem job_collective_iff : job.collective = true ↔ job.group = true ∨ job.target = 127 := by
  simp [JobSlot.collective]

theorem illegal_iff {a : Addr} : job.illegal a = true ↔
    job.target = 0 ∨ (job.group = false ∧ job.target = a) ∨ (job.group = true ∧ 31 < job.target.toNat) ∨
      ((job.group = true ∨ job.target = 127) ∧ job.operation ≠ .write ∧ job.operation ≠ .message) ∨
      64 < job.offset.toNat + job.length.toNat ∨
      (job.length = 0 ∧ job.operation ∈ [.read, .write, .readClaim, .writeRelease]) ∨
      (job.probe = true ∧ job.operation ≠ .status) := by
  rw [← job_collective_iff, ← movesPageData_iff]
  simp only [JobSlot.illegal, Bool.or_eq_true, Bool.and_eq_true, Bool.not_eq_true', beq_iff_eq, bne_iff_ne,
    decide_eq_true_eq, or_assoc, and_assoc]

theorem submittedJob_none (h : Operation.ofCode (p[0].extractLsb' 4 4) = none) : submittedJob p = none := by
  rw [submittedJob, h]
  rfl

/-! ### Free slots and free blocks (R112, R114) -/

theorem mem_freeSlots : j ∈ s.freeSlots ↔ (s.job j).state = .free := by
  simp [State.freeSlots]

theorem freeSlots_nodup (s : State) : s.freeSlots.Nodup := (List.nodup_finRange 16).filter _

theorem freeSlots_nil (h : ∀ i, (s.job i).state ≠ .free) : s.freeSlots = [] :=
  List.eq_nil_iff_forall_not_mem.2 fun i hi => h i (mem_freeSlots.1 hi)

/-- The head of the free slots is the lowest of them. -/
theorem freeSlots_lowest (hj : (s.job j).state = .free) (lower : ∀ i < j, (s.job i).state ≠ .free) :
    ∃ rest, s.freeSlots = j :: rest := by
  have rising : s.freeSlots.Pairwise (· < ·) := (List.pairwise_lt_finRange 16).filter _
  cases hs : s.freeSlots with
  | nil => exact absurd (mem_freeSlots.2 hj) (by simp [hs])
  | cons i rest =>
    have free : (s.job i).state = .free := freeSlots_head hs
    rw [hs] at rising
    have member : j ∈ i :: rest := hs ▸ mem_freeSlots.2 hj
    rcases List.mem_cons.1 member with rfl | later
    · exact ⟨rest, rfl⟩
    · exact absurd free (lower i ((List.pairwise_cons.1 rising).1 j later))

/-! ### The checks, in their order (R116) -/

theorem submitEffect_undefined (ha : s.cfg.address ≠ 0) (hj : submittedJob p = none) :
    submitEffect p s = s.finish .badParam [] := by
  simp only [submitEffect, if_neg ha, hj]

theorem submitEffect_illegal (ha : s.cfg.address ≠ 0) (hj : submittedJob p = some job)
    (bad : job.illegal s.cfg.address = true) : submitEffect p s = s.finish .badParam [] := by
  simp only [submitEffect, if_neg ha, hj, if_pos bad]

theorem submitEffect_noSlot (ha : s.cfg.address ≠ 0) (hj : submittedJob p = some job)
    (legal : ¬ job.illegal s.cfg.address = true) (hs : s.freeSlots = []) :
    submitEffect p s = s.finish .noSlot [] := by
  simp only [submitEffect, if_neg ha, hj, if_neg legal, hs]

theorem submitEffect_slot (ha : s.cfg.address ≠ 0) (hj : submittedJob p = some job)
    (legal : ¬ job.illegal s.cfg.address = true) {rest : List Slot} (hs : s.freeSlots = j :: rest) :
    submitEffect p s =
      if s.freeBlocks.length < job.blocksNeeded then s.finish .noBuffer []
      else (s.takeJob j job).finish .ok [jobTag j ((s.takeJob j job).job j).generation,
        byte (s.takeJob j job).freeSlots.length, byte (s.takeJob j job).freeBlocks.length] := by
  simp only [submitEffect, if_neg ha, hj, if_neg legal, hs]

end

/-- Settles O38: each check refuses where the ones before it have passed. -/
theorem submitIsCheckedInOrder : Obligations.SubmitIsCheckedInOrder := by
  refine ⟨fun s p hp => ⟨fun unset => ?notConfigured, fun set undefined => ?undefined,
    fun set job hjob => ⟨illegal_iff, fun bad => ?illegal, fun legal full => ?noSlot,
      fun legal ⟨j, hj⟩ short => ?noBuffer⟩⟩, by decide, fun op => by cases op <;> rfl⟩
  case notConfigured => exact completing_finish hp (if_pos unset)
  case undefined => exact completing_finish hp (submitEffect_undefined set (submittedJob_none undefined))
  case illegal => exact completing_finish hp (submitEffect_illegal set hjob (illegal_iff.2 bad))
  case noSlot =>
    exact completing_finish hp (submitEffect_noSlot set hjob (mt illegal_iff.1 legal) (freeSlots_nil full))
  case noBuffer =>
    cases hs : s.freeSlots with
    | nil => exact absurd (mem_freeSlots.2 hj) (by simp [hs])
    | cons i rest =>
      exact completing_finish hp
        ((submitEffect_slot set hjob (mt illegal_iff.1 legal) hs).trans (if_pos short))

end Sys2Proof.Machine
end

section
/-!
PROOFS. A taken SUBMIT: its blocks and their bytes, its peer entry, and the job it places (R113 to R117, R139, R140).
-/

namespace Sys2Proof.Machine

section
variable {s : State} {p : Params} {job : JobSlot} {j : Slot}

/-! ### The job's buffer in the pool (R114) -/

theorem bufferAddress_ofBlock {k : Nat} {b : Block} (h : job.blocks[k / 8]? = some b) :
    job.bufferAddress k = 8 * b.val + k % 8 := by
  simp [JobSlot.bufferAddress, Config.blockSize, List.getD_eq_getElem?_getD, h]

/-- Byte `k` of a buffer lies in one of the job's blocks. -/
theorem bufferAddress_mem {k : Nat} (hk : k / 8 < job.blocks.length) :
    ∃ b ∈ job.blocks, job.bufferAddress k / 8 = b.val ∧ job.bufferAddress k < Config.poolSize := by
  have address := bufferAddress_ofBlock (List.getElem?_eq_getElem hk)
  have below := (job.blocks[k / 8]).isLt
  refine ⟨job.blocks[k / 8], List.getElem_mem hk, ?_, ?_⟩
  · omega
  · rw [address, Config.poolSize]
    omega

/-- Two bytes of a buffer have one address where its blocks are distinct only if they are the same. -/
theorem bufferAddress_inj (once : job.blocks.Nodup) {k l : Nat} (hk : k / 8 < job.blocks.length)
    (hl : l / 8 < job.blocks.length) (h : job.bufferAddress k = job.bufferAddress l) : k = l := by
  rw [bufferAddress_ofBlock (List.getElem?_eq_getElem hk), bufferAddress_ofBlock (List.getElem?_eq_getElem hl)] at h
  have same : job.blocks[k / 8] = job.blocks[l / 8] := Fin.ext (by omega)
  have := (once.getElem_inj_iff).1 same
  omega

/-- A job that moves data has a block for each 8 bytes of it. -/
theorem blocksNeeded_data (h : job.operation ∈ [.read, .write, .readClaim, .writeRelease, .message]) :
    job.blocksNeeded = (job.length.toNat + 7) / 8 := by
  simp only [List.mem_cons, List.not_mem_nil, or_false] at h
  rcases h with h | h | h | h | h <;> simp only [JobSlot.blocksNeeded, h]

theorem blocksNeeded_none (h : job.operation ∈ [.claim, .release]) : job.blocksNeeded = 0 := by
  simp only [List.mem_cons, List.not_mem_nil, or_false] at h
  rcases h with h | h <;> simp only [JobSlot.blocksNeeded, h]

theorem blocksNeeded_sends (h : job.operation.sendsData = true) :
    job.blocksNeeded = (job.length.toNat + 7) / 8 := by
  refine blocksNeeded_data ?_
  have sends := sendsData_iff.1 h
  simp only [List.mem_cons, List.not_mem_nil, or_false] at sends ⊢
  tauto

section
variable {placed : JobSlot} (hpool : s.pool.wf Config.poolSize = true)
  (hn : placed.blocks.length = placed.blocksNeeded)
include hpool hn

/-- The bytes that the job sends lie in its buffer (R117, step 3). -/
theorem submittedPool_own (once : placed.blocks.Nodup) (hs : placed.operation.sendsData = true) {k : Nat}
    (hk : k < placed.length.toNat) :
    (submittedPool s placed).read (placed.bufferAddress k) = s.port.staging.read k := by
  have inside : ∀ i < placed.length.toNat, i / 8 < placed.blocks.length := fun i hi => by
    rw [hn, blocksNeeded_sends hs]
    omega
  have staged : (s.stagingBytes placed.length.toNat).length = placed.length.toNat := by
    simp [State.stagingBytes, Memory.readBytes]
  obtain ⟨-, -, -, below⟩ := bufferAddress_mem (inside k hk)
  have read := Memory.read_writeAt (addr := placed.bufferAddress) (bs := s.stagingBytes placed.length.toNat)
    (k := 0) (i := k) hpool (by rwa [staged]) (by rwa [Nat.zero_add]) fun i hi h => by
      simp only [Nat.zero_add] at h
      exact bufferAddress_inj once (inside i (staged ▸ hi)) (inside k hk) h
  rw [submittedPool, if_pos hs, writeBuffer_eq_writeAt]
  rw [Nat.zero_add] at read
  rw [read]
  simp [State.stagingBytes, Memory.readBytes]

/-- A byte of the pool in none of the job's blocks is left alone. -/
theorem submittedPool_other {a : Nat} (ha : ∀ b ∈ placed.blocks, a / 8 ≠ b.val) :
    (submittedPool s placed).read a = s.pool.read a := by
  unfold submittedPool
  split
  next hs =>
    rw [writeBuffer_eq_writeAt]
    refine Memory.read_writeAt_other hpool fun i hi h => ?_
    have inside : i / 8 < placed.blocks.length := by
      simp only [State.stagingBytes, Memory.readBytes, List.length_map, List.length_range] at hi
      rw [hn, blocksNeeded_sends hs]
      omega
    obtain ⟨b, hb, block, -⟩ := bufferAddress_mem inside
    rw [Nat.zero_add] at h
    exact absurd (h ▸ block) (ha b hb)
  · rfl

end

/-! ### The peer entry of the target (R139, R140) -/

theorem ensurePeer_eq (s : State) (a : Addr) : s.ensurePeer a = { s with peers := (s.ensurePeer a).peers } := by
  unfold State.ensurePeer
  split <;> rfl

theorem ensurePeer_some {a : Addr} {e : PeerEntry} (h : s.peer a = some e) :
    (s.ensurePeer a).peers = movedToFront s.peers e := by
  simp only [State.ensurePeer, h]

theorem ensurePeer_none {a : Addr} (h : s.peer a = none) : (s.ensurePeer a).peers =
    PeerEntry.new a :: if s.peers.length < Config.peerTableSize then s.peers
      else removeLast (fun e => !s.referenced e.address) s.peers := by
  simp only [State.ensurePeer, h]

/-- The one entry of an address goes to the front, the others as they were. -/
theorem ensurePeer_present {a : Addr} {pre post : List PeerEntry} {e : PeerEntry}
    (split : s.peers = pre ++ e :: post) (he : e.address = a) (apart : ∀ x ∈ pre ++ post, x.address ≠ a) :
    (s.ensurePeer a).peers = e :: (pre ++ post) := by
  have notPre : ∀ x ∈ pre, x.address ≠ a := fun x hx => apart x (List.mem_append_left _ hx)
  have found : s.peer a = some e := by
    rw [State.peer, split, List.find?_append, List.find?_eq_none.2 (by simpa using notPre)]
    simp [he]
  have others : (pre ++ post).filter (fun x => x.address != e.address) = pre ++ post :=
    List.filter_eq_self.2 (by simpa [he] using apart)
  rw [ensurePeer_some found, movedToFront, split]
  simpa using others

/-- A QUEUED, WAITING or ACTIVE job has this individual target. -/
theorem referenced_iff {a : Addr} : s.referenced a = true ↔
    ∃ i, (s.job i).pending = true ∧ (s.job i).collective = false ∧ (s.job i).target = a := by
  simp only [State.referenced, List.any_eq_true, Vector.mem_toList_iff, Vector.mem_iff_getElem]
  constructor
  · rintro ⟨job, ⟨k, hk, rfl⟩, h⟩
    exact ⟨⟨k, hk⟩, by simpa [JobSlot.pending, State.job, and_assoc] using h⟩
  · rintro ⟨i, h⟩
    exact ⟨s.job i, ⟨i.val, i.isLt, rfl⟩, by simpa [JobSlot.pending, and_assoc] using h⟩

/-- The last entry that satisfies a condition is the one removed. -/
theorem removeLast_split {q : PeerEntry → Bool} {pre post : List PeerEntry} {e : PeerEntry} (he : q e = true)
    (later : ∀ x ∈ post, q x = false) : removeLast q (pre ++ e :: post) = pre ++ post := by
  have skipped : ∀ x ∈ post.reverse, ¬ q x = true := by simpa using later
  rw [removeLast, List.reverse_append, List.reverse_cons, List.append_assoc, List.eraseP_append_right _ skipped,
    List.singleton_append, List.eraseP_cons_of_pos he]
  simp

/-- A table with room takes a new entry at its front. -/
theorem ensurePeer_spare {a : Addr} (unknown : s.peer a = none) (spare : s.peers.length < Config.peerTableSize) :
    (s.ensurePeer a).peers = PeerEntry.new a :: s.peers := by
  rw [ensurePeer_none unknown, if_pos spare]

/-- A full table gives up its last entry that no job needs. -/
theorem ensurePeer_evicts {a : Addr} {pre post : List PeerEntry} {e : PeerEntry} (unknown : s.peer a = none)
    (full : Config.peerTableSize ≤ s.peers.length) (split : s.peers = pre ++ e :: post)
    (unneeded : s.referenced e.address ≠ true)
    (needed : ∀ x ∈ post, s.referenced x.address = true) :
    (s.ensurePeer a).peers = PeerEntry.new a :: (pre ++ post) := by
  rw [ensurePeer_none unknown, if_neg (Nat.not_lt.2 full), split,
    removeLast_split (by simpa using unneeded) (by simpa using needed)]

/-- The table has an entry for the target, whichever way. -/
theorem ensurePeer_isSome (s : State) (a : Addr) : ((s.ensurePeer a).peer a).isSome = true := by
  cases h : s.peer a with
  | some e => simp [State.peer, ensurePeer_some h, movedToFront, (peer_some h).2]
  | none => simp [State.peer, ensurePeer_none h, PeerEntry.new]

/-! ### The taken job and its record (R113, R117, 12.4) -/

/-- The peer table after the job is taken: a collective target has no entry. -/
def peersTaking (s : State) (job : JobSlot) : List PeerEntry :=
  (if job.collective then s else s.ensurePeer job.target).peers

theorem takeJob_eq (s : State) (j : Slot) (job : JobSlot) : s.takeJob j job = { s with
    jobs := s.jobs.set j (placedJob s j job)
    pool := submittedPool s (placedJob s j job)
    submission := s.submission ++ [j]
    lists := s.lists.set job.priority.toFin (s.list job.priority ++ [j])
    peers := peersTaking s job } := by
  unfold State.takeJob peersTaking
  cases job.collective with
  | true => rfl
  | false => rw [ensurePeer_eq]; rfl

theorem append_toNat (a b : Byte) : (a ++ b : BitVec 16).toNat = 256 * a.toNat + b.toNat := by
  rw [BitVec.toNat_append, ← Nat.shiftLeft_add_eq_or_of_lt b.isLt, Nat.shiftLeft_eq]
  omega

/-- The peer entry of an individual target after the job is taken (R139, R140). -/
theorem peersTaking_individual (individual : job.collective = false) :
    peersTaking s job = (s.ensurePeer job.target).peers := by
  simp [peersTaking, individual]

end

/-- The row of a taken SUBMIT. -/
theorem exec_submit_taken {s : State} {p : Params} {job : JobSlot} {j : Slot} (hp : s.inProgress 0x20 p)
    (ha : s.cfg.address ≠ 0) (hjob : submittedJob p = some job) (legal : job.illegal s.cfg.address = false)
    (free : (s.job j).state = .free) (lower : ∀ i < j, (s.job i).state ≠ .free)
    (room : job.blocksNeeded ≤ s.freeBlocks.length) :
    ∃ t, exec .submit s = .next t ∧ t = { s with
      port := s.port.finished .ok
        [jobTag j ((s.job j).generation + 1), byte t.freeSlots.length, byte t.freeBlocks.length]
      jobs := s.jobs.set j (placedJob s j job)
      pool := submittedPool s (placedJob s j job)
      submission := s.submission ++ [j]
      lists := s.lists.set job.priority.toFin (s.list job.priority ++ [j])
      peers := peersTaking s job } := by
  obtain ⟨rest, hs⟩ := freeSlots_lowest free lower
  have generation : ((s.takeJob j job).job j).generation = (s.job j).generation + 1 := by
    rw [takeJob_job, if_pos rfl]
    rfl
  have effect := (submitEffect_slot ha hjob (by simp [legal]) hs).trans (if_neg (Nat.not_lt.2 room))
  rw [generation] at effect
  refine ⟨_, completing_finish hp effect, ?_⟩
  rw [(takeJob_keeps s j job).2.2.1, takeJob_eq]
  rfl

/-- Settles O39: the row of SUBMIT, and for each clause what a taken job does to that part of the state. -/
theorem submitTakesTheJob : Obligations.SubmitTakesTheJob := by
  refine ⟨fun s p job j hp memory ha hjob legal free lower room => ?taken, jobTag_toNat, fun job => ?record,
    fun s => ⟨freeSlots_nodup s, fun _ => mem_freeSlots, freeBlocks_nodup s, fun _ => mem_freeBlocks⟩⟩
  case record =>
    exact ⟨blocksNeeded_data, fun h => by simp only [JobSlot.blocksNeeded, h], blocksNeeded_none,
      job_collective_iff, fun k b => bufferAddress_ofBlock⟩
  case taken =>
    obtain ⟨once, held, -⟩ := placedJob_holdsItsBlocks (j := j) (by simp [submittedJob_state hjob]) room
    have count := held (by simp [placedJob, submittedJob_state hjob])
    obtain ⟨-, -, wf, -⟩ := memory
    obtain ⟨t, row, ht⟩ := exec_submit_taken hp ha hjob legal free lower room
    have placed : t.job j = placedJob s j job := by
      rw [ht]
      exact (job_setJob s j j _).trans (if_pos rfl)
    have pool : t.pool = submittedPool s (placedJob s j job) := by rw [ht]
    have peers : t.peers = peersTaking s job := by rw [ht]
    refine ⟨t, row, ?clauses⟩
    rw [placed, pool, peers]
    refine ⟨?state, ?blocks, once, count, ?sends, ?silent, ?other, ?filled, ?collective, ?individual⟩
    case state => exact ht
    case blocks => exact fun b hb => List.mem_of_mem_take hb
    case sends => exact fun h k hk => submittedPool_own wf count once (sendsData_iff.2 h) hk
    case silent => exact fun h => if_neg (mt sendsData_iff.1 h)
    case other => exact fun a ha => submittedPool_other wf count ha
    case filled =>
      obtain ⟨op, hop, rfl⟩ := Option.map_eq_some_iff.1 hjob
      intro
      refine ⟨hop, rfl, rfl, rfl, rfl, rfl, rfl, rfl, rfl, rfl, rfl, rfl, append_toNat _ _, ?_⟩
      exact ⟨rfl, rfl, rfl, rfl, rfl, rfl, rfl, rfl, rfl, rfl, rfl, rfl, rfl, rfl⟩
    case collective => exact fun h => by rw [peersTaking, if_pos h]
    case individual =>
      intro h
      rw [State.peer, peers, peersTaking_individual h]
      refine ⟨ensurePeer_isSome s _, fun pre e post => ensurePeer_present, fun unknown => ⟨fun spare => ?_, ?_⟩⟩
      · exact ensurePeer_spare unknown spare
      · simp only [← referenced_iff]
        exact fun pre e post => ensurePeer_evicts unknown

end Sys2Proof.Machine
end

section
/-!
PROOFS. Law 10, kept by every step: the ranges of the peer table (R138 to R143, R147), and the entries that QUEUED,
WAITING and ACTIVE jobs need (R139, R140).
-/

namespace Sys2Proof.Machine

section
variable {s t : State} {a : Addr} {j : Slot} {job : JobSlot}

/-! ### The ranges of the table (R37, R138) -/

theorem peerLaw_empty (hp : s.peers = []) (ht : s.cfg.degradeThreshold ≤ 100) : s.peerLaw := by
  constructor <;> simp [hp, ht]

/-- A threshold that CONFIGURE takes is in R37's range. -/
theorem configOf_degradeThreshold {p : Params} {c : NodeConfig} (h : configOf p = some c) :
    c.degradeThreshold ≤ 100 := by
  unfold configOf at h
  split at h
  · cases h
  · split at h
    next ranges =>
      obtain ⟨-, -, -, -, -, -, le, -⟩ := ranges
      cases h
      exact le
    · cases h

theorem peerLaw_finish (hs : s.peerLaw) (r : Result) (d : List Byte) : (s.finish r d).peerLaw :=
  peerLaw_congr (by simp) (by simp) hs

theorem peerLaw_configureEffect (hs : s.peerLaw) (p : Params) : (configureEffect p s).peerLaw := by
  unfold configureEffect
  split
  · exact peerLaw_finish hs _ _
  · split
    · exact peerLaw_finish hs _ _
    next ranges =>
      obtain ⟨room, distinct, addresses, scores, -⟩ := hs
      exact ⟨room, distinct, addresses, scores, configOf_degradeThreshold ranges⟩

/-- The target of a taken job has an entry only where it is individual, so neither 0 nor 127 has one (R116, R138). -/
theorem peerLaw_takeJob (hs : s.peerLaw) (j : Slot) (legal : job.target ≠ 0) : (s.takeJob j job).peerLaw := by
  rw [takeJob_eq]
  cases hc : job.collective with
  | true => exact peerLaw_congr (by simp [peersTaking, hc]) (by rfl) hs
  | false =>
    have individual : job.target ≠ 127 := fun h => by simp [job_collective_iff.2 (.inr h)] at hc
    exact peerLaw_congr (s := s.ensurePeer job.target) (peersTaking_individual hc) (by simp)
      (peerLaw_ensurePeer hs legal individual)

theorem peerLaw_submitEffect (hs : s.peerLaw) (p : Params) : (submitEffect p s).peerLaw := by
  unfold submitEffect
  split
  · exact peerLaw_finish hs _ _
  split
  · exact peerLaw_finish hs _ _
  split
  · exact peerLaw_finish hs _ _
  next legal =>
    split
    · exact peerLaw_finish hs _ _
    split
    · exact peerLaw_finish hs _ _
    · exact peerLaw_finish (peerLaw_takeJob hs _ fun h => legal (illegal_iff.2 (.inl h))) _ _

/-! ### PEER_RESET on the table (R147) -/

/-- An entry after a PEER_RESET for an address: the new entry of that address, or the entry as it was. -/
def PeerEntry.restored (a : Addr) (e : PeerEntry) : PeerEntry :=
  if e.address == a then PeerEntry.new a else e

@[simp] theorem restored_address (a : Addr) (e : PeerEntry) : (e.restored a).address = e.address := by
  unfold PeerEntry.restored
  split
  next h => exact (beq_iff_eq.1 h).symm
  · rfl

theorem restored_self (a : Addr) {e : PeerEntry} (h : e.address = a) : e.restored a = PeerEntry.new a :=
  if_pos (beq_iff_eq.2 h)

theorem restored_other (a : Addr) {e : PeerEntry} (h : e.address ≠ a) : e.restored a = e :=
  if_neg (by simpa using h)

theorem restored_score_le (a : Addr) {e : PeerEntry} (h : e.score ≤ 100) : (e.restored a).score ≤ 100 := by
  unfold PeerEntry.restored
  split
  · exact Nat.le_refl _
  · exact h

theorem peerResetEffect_none {p : Params} (h : peerAddressOf p[0] = none) :
    peerResetEffect p s = s.finish .badParam [] := by
  simp only [peerResetEffect, h]

theorem peerResetEffect_unknown {p : Params} (ha : peerAddressOf p[0] = some a) (h : s.peer a = none) :
    peerResetEffect p s = s.finish .noEntry [] := by
  simp only [peerResetEffect, ha, h]

theorem peerResetEffect_known {p : Params} {e : PeerEntry} (ha : peerAddressOf p[0] = some a)
    (h : s.peer a = some e) : peerResetEffect p s =
      State.finish { s with peers := s.peers.map (PeerEntry.restored a) } .ok [e.state.code, byte e.score] := by
  simp only [peerResetEffect, ha, h]
  rfl

/-- Each entry keeps its place and its address. -/
theorem peerLaw_restored (hs : s.peerLaw) (a : Addr) :
    State.peerLaw { s with peers := s.peers.map (PeerEntry.restored a) } := by
  obtain ⟨room, distinct, addresses, scores, threshold⟩ := hs
  constructor
  case room => simpa using room
  case distinct => simpa [Function.comp_def] using distinct
  case addresses => simpa using addresses
  case scores => simpa using fun e he => restored_score_le a (scores e he)
  case threshold => exact threshold

theorem peerLaw_peerResetEffect (hs : s.peerLaw) (p : Params) : (peerResetEffect p s).peerLaw := by
  cases ha : peerAddressOf p[0] with
  | none => exact peerResetEffect_none ha ▸ peerLaw_finish hs _ _
  | some a =>
    cases h : s.peer a with
    | none => exact peerResetEffect_unknown ha h ▸ peerLaw_finish hs _ _
    | some e => exact peerResetEffect_known ha h ▸ peerLaw_finish (peerLaw_restored hs a) _ _

/-! ### Every row -/

theorem peerLaw_completing {code : Byte} {f : Params → State → State} (hs : s.peerLaw)
    (hf : ∀ p, (f p s).peerLaw) (h : s.completing code f = .next t) : t.peerLaw := by
  rcases completing_next h with rfl | ⟨p, -, -, rfl⟩
  · exact hs
  · exact hf p

/-- An event of the link touches the table by the outcome of the attempt in progress alone (R141). -/
theorem peerLaw_onLink {f : State → State} (hs : s.peerLaw) (hf : Attempted s.momentOver (f s.momentOver))
    (h : s.onLink f = .next t) : t.peerLaw := by
  rcases onLink_next h with ⟨-, rfl⟩ | ⟨-, rfl⟩
  · exact hs
  · exact hf.keeps (fun _ _ same => peerLaw_congr same.peers (by rw [same.cfg]))
      (fun _ _ _ => peerLaw_congr rfl rfl) (fun _ j o _ _ hu => peerLaw_takeOutcome hu j o)
      (peerLaw_congr (s := s) rfl rfl hs)

theorem peerLaw_blocksReset (s : State) (m : Memory) (mode : ResetMode) :
    State.peerLaw { s.blocksReset m with mode := mode } :=
  peerLaw_empty rfl (show (60 : Nat) ≤ 100 by decide)

/-- The commands that leave the peer table and the configuration as they were. -/
def sparesPeers : Instr → Bool
  | .configure | .submit | .peerReset | .controllerResetEnd | .resetAsserted | .powerOnResetEnd
  | .arbitrationLost | .header _ | .blockSlot _ _ _ _ | .resendExhaustion | .bitError | .lossOfSyncEdges
  | .normalEnd | .stuckDominant => false
  | _ => true

theorem exec_sparesPeers {c : Instr} (hc : sparesPeers c = true) (h : exec c s = .next t) :
    t.peers = s.peers ∧ t.cfg = s.cfg := by
  cases c
  case setGroups => simp [setGroups_row h]
  case linkStart => simp [linkStart_row h]
  case linkStop => simp [linkStop_row h]
  case pageDefine => simp [pageDefine_row h]
  case pageClose => simp [pageClose_row h]
  case pageFetch => simp [pageFetch_row h]
  case pageCommit => simp [pageCommit_row h]
  case localClaim => simp [localClaim_row h]
  case localRelease => simp [localRelease_row h]
  case breakClaim => simp [breakClaim_row h]
  case cancel => simp [cancel_row h]
  case jobQuery => simp [jobQuery_row h]
  case jobFetch => simp [jobFetch_row h]
  case retire => simp [retire_row h]
  case peerRead => simp [peerRead_row h]
  case inboundDrop => simp [inboundDrop_row h]
  case badCommand => simp [badCommand_row h]
  case statusRead => simp [statusRead_row h]
  case resultRead => simp [resultRead_row h]
  case resultDataRead => simp [resultDataRead_row h]
  case dataRead => simp [dataRead_row h]
  case completionRead => simp [completionRead_row h]
  case eventRead => simp [eventRead_row h]
  case inboundRead => simp [inboundRead_row h]
  case paramWrite => simp [paramWrite_row h]
  case dataWrite => simp [dataWrite_row h]
  case dataPtrWrite => simp [dataPtrWrite_row h]
  case irqClear => simp [irqClear_row h]
  case irqEnableWrite => simp [irqEnableWrite_row h]
  case ignoredWrite => simp [ignoredWrite_row h]
  case cmdWrite => simp [cmdWrite_row h]
  case controllerReset => simp [controllerReset_row h]
  case powerOnResetSequence => simp [powerOnResetSequence_row h]
  case enterOnline => simp [enterOnline_row h]
  case transmitOpportunity => simp [transmitOpportunity_row h]
  case startMarker => simp [startMarker_row h]
  case gapMeasurementRestart => simp [gapMeasurementRestart_row h]
  case recoveryTimerExpiry => simp [recoveryTimerExpiry_row h]
  case leaseExpiry => simp [leaseExpiry_row h]
  case pendingExpiry => simp [pendingExpiry_row h]
  case refreshWindowExpiry => simp [refreshWindowExpiry_row h]
  case freshLifetimeExpiry => simp [freshLifetimeExpiry_row h]
  case retryCountdownExpiry => simp [retryCountdownExpiry_row h]
  case deadlineExpiry => simp [deadlineExpiry_row h]
  case tick => simp [tick_row h]
  all_goals cases hc

theorem exec_peerLaw {c : Instr} (hs : s.peerLaw) (h : exec c s = .next t) : t.peerLaw := by
  by_cases hc : sparesPeers c = true
  · obtain ⟨peers, cfg⟩ := exec_sparesPeers hc h
    exact peerLaw_congr peers (by rw [cfg]) hs
  cases c
  case configure => exact peerLaw_completing hs (peerLaw_configureEffect hs) h
  case submit => exact peerLaw_completing hs (peerLaw_submitEffect hs) h
  case peerReset => exact peerLaw_completing hs (peerLaw_peerResetEffect hs) h
  case controllerResetEnd =>
    simp only [exec, execControllerResetEnd] at h
    split at h <;> cases h
    · exact peerLaw_blocksReset s _ _
    · exact hs
  case resetAsserted =>
    cases h
    exact peerLaw_blocksReset s _ _
  case powerOnResetEnd =>
    simp only [exec, execPowerOnResetEnd] at h
    split at h <;> cases h
    · exact peerLaw_blocksReset s _ _
    · exact hs
  case arbitrationLost => exact peerLaw_onLink hs (loseArbitration_jobs _) h
  case header part => exact peerLaw_onLink (f := (·.takeHeaderPart part)) hs (takeHeaderPart_jobs _ part) h
  case blockSlot data check x y =>
    exact peerLaw_onLink (f := (·.takeBlock data check x y)) hs (takeBlock_jobs _ data check x y) h
  case resendExhaustion => exact peerLaw_onLink hs (fifthNak_jobs _) h
  case bitError =>
    refine peerLaw_onLink (f := fun s => if s.mayMeetBitError then s.meetBitError .bystander else s) hs ?_ h
    split
    · exact meetBitError_jobs _ rfl
    · exact .refl _
  case lossOfSyncEdges => exact peerLaw_onLink hs (loseSync_jobs _) h
  case normalEnd => exact peerLaw_onLink hs (reachEnd_jobs _) h
  case stuckDominant => exact peerLaw_onLink hs (meetStuck_jobs _) h
  all_goals exact absurd rfl hc

/-! ### The entries that jobs need (R140) -/

theorem peer_isSome_iff : (s.peer a).isSome = true ↔ ∃ e ∈ s.peers, e.address = a := by
  simp [State.peer, List.find?_isSome]

theorem mem_removeLast {q : PeerEntry → Bool} {l : List PeerEntry} {e : PeerEntry} (he : e ∈ l)
    (hq : q e = false) : e ∈ removeLast q l :=
  List.mem_reverse.2 ((List.mem_eraseP_of_neg (by simp [hq])).2 (List.mem_reverse.2 he))

/-- Making room for one target evicts no entry that a job refers to. -/
theorem ensurePeer_keeps_referenced (b : Addr) (needed : s.referenced a = true)
    (known : (s.peer a).isSome = true) : ((s.ensurePeer b).peer a).isSome = true := by
  obtain ⟨e, he, rfl⟩ := peer_isSome_iff.1 known
  rw [peer_isSome_iff]
  cases h : s.peer b with
  | some front =>
    rw [ensurePeer_some h]
    by_cases same : e.address = front.address
    · exact ⟨front, List.mem_cons_self, same.symm⟩
    · exact ⟨e, List.mem_cons_of_mem _ (List.mem_filter.2 ⟨he, by simpa using same⟩), rfl⟩
  | none =>
    rw [ensurePeer_none h]
    refine ⟨e, List.mem_cons_of_mem _ ?_, rfl⟩
    split
    · exact he
    · exact mem_removeLast he (by simp [needed])

/-- Law 10 where the jobs are the same and no entry is gone. -/
theorem peerReferences_congr (hj : t.jobs = s.jobs) (kept : PeersKept s t) (hs : s.peerReferences) :
    t.peerReferences := by
  intro i pending individual
  rw [job_congr hj] at *
  exact kept _ (hs i pending individual)

/-- A job rewritten to one that is not pending, or was already and has the same target. -/
theorem peerReferences_setJob (hs : s.peerReferences)
    (h : job.pending = true → (s.job j).pending = true ∧ job.group = (s.job j).group ∧
      job.target = (s.job j).target) : (s.setJob j job).peerReferences := by
  intro i
  rw [job_setJob]
  split
  · intro pending individual
    obtain ⟨already, group, target⟩ := h pending
    rw [JobSlot.collective, group, target] at individual
    exact target ▸ hs j already individual
  · exact hs i

/-- A taken job brings its own entry, and evicts none that another needs (R139, R140). -/
theorem peerReferences_takeJob (hs : s.peerReferences) (j : Slot) (job : JobSlot) :
    (s.takeJob j job).peerReferences := by
  intro i
  rw [takeJob_job, takeJob_eq]
  show _ → _ → (List.find? _ (peersTaking s job)).isSome = true
  split
  · intro _ individual
    rw [peersTaking_individual (job := job) individual]
    exact ensurePeer_isSome s job.target
  · intro pending individual
    have known := hs i pending individual
    unfold peersTaking
    split
    · exact known
    · exact ensurePeer_keeps_referenced _ (referenced_iff.2 ⟨i, pending, individual, rfl⟩) known

/-- No move of the Job Manager makes a job pending but SUBMIT's, and none takes an entry away. -/
theorem peerReferences_moves : KeptByJobs True State.peerReferences where
  congr _ _ hj _ _ _ kept h := peerReferences_congr hj kept h
  note _ _ _ pending same h := peerReferences_setJob h fun _ => ⟨pending, same.group, same.target⟩
  head s j active h := peerReferences_congr (s := s.setJob j _) rfl (peersKept_of rfl)
    (peerReferences_setJob h fun _ => ⟨by simp [JobSlot.pending, active], rfl, rfl⟩)
  tail s j taken h := peerReferences_congr (s := s.setJob j _) rfl (peersKept_of rfl)
    (peerReferences_setJob h fun _ => ⟨by rcases taken with h | h <;> simp [JobSlot.pending, h], rfl, rfl⟩)
  wait _ _ _ active h := peerReferences_setJob h fun _ => ⟨by simp [JobSlot.pending, active], rfl, rfl⟩
  complete s j _ pending h := peerReferences_congr (s := s.setJob j _) rfl (peersKept_of rfl)
    (peerReferences_setJob h fun _ => ⟨pending, rfl, rfl⟩)
  activate s j queued _ _ h := peerReferences_congr (s := s.setJob j _) rfl (peersKept_of rfl)
    (peerReferences_setJob h fun _ => ⟨by simp [JobSlot.pending, queued], rfl, rfl⟩)
  take _ _ job j _ _ _ _ h := peerReferences_takeJob h j job
  retire _ _ _ _ _ h := peerReferences_setJob h fun pending => by simp [JobSlot.pending, JobSlot.free] at pending
  readOn s _ _ h := peerReferences_congr (s := s) rfl (peersKept_of rfl) h
  pop s r _ _ h := peerReferences_congr (s := s.setJob (tagSlot r.tag) _) rfl (peersKept_of rfl)
    (peerReferences_setJob h fun pending => ⟨pending, rfl, rfl⟩)
  reset _ _ hj _ _ _ i pending := by simp [job_reset hj, JobSlot.pending, JobSlot.free] at pending

end

/-- Settles O8: every row keeps the ranges of the table, and every move of the Job Manager keeps the entries that
jobs need. -/
theorem peerTableLawKept : Obligations.PeerTableLawKept := by
  refine ⟨fun s t hs h => ?ranges, fun s t ha hl hs h => ?needed⟩
  case ranges =>
    exact step_keeps (P := State.peerLaw) (fun _ _ _ => peerLaw_congr rfl rfl)
      (fun _ _ _ _ => peerLaw_congr (by simp) (by simp)) (fun _ _ _ => exec_peerLaw) hs h
  case needed => exact peerReferences_moves.step ha hl (fun _ _ _ _ => trivial) hs h

end Sys2Proof.Machine
end

section
/-!
PROOFS. PEER_READ and PEER_RESET (R138, R146, R147).
-/

namespace Sys2Proof.Machine

section
variable {s : State} {p : Params} {a : Addr} {b : Byte} {e : PeerEntry} {pre post : List PeerEntry}

/-! ### The address that a parameter byte names -/

theorem peerAddressOf_none (h : b.toNat = 0 ∨ 127 ≤ b.toNat) : peerAddressOf b = none := if_neg (by omega)

theorem setWidth_of_toNat (h : a.toNat = b.toNat) : a.setWidth 8 = b :=
  BitVec.eq_of_toNat_eq (by rw [BitVec.toNat_setWidth, h, Nat.mod_eq_of_lt b.isLt])

theorem peerAddressOf_some (h : a.toNat = b.toNat) (h0 : a ≠ 0) (h127 : a ≠ 127) :
    peerAddressOf b = some a := by
  have range : 1 ≤ b.toNat ∧ b.toNat ≤ 126 := by bv_omega
  rw [peerAddressOf, if_pos range, ← setWidth_of_toNat h]
  simp

/-! ### An entry and its place (R139) -/

/-- The first entry of an address is the one found. -/
theorem peer_split (split : s.peers = pre ++ e :: post) (he : e.address = a)
    (first : ∀ x ∈ pre, x.address ≠ a) : s.peer a = some e := by
  rw [State.peer, split, List.find?_append, List.find?_eq_none.2 (by simpa using first)]
  simp [he]

theorem peerPlace_split (split : s.peers = pre ++ e :: post) (he : e.address = a)
    (first : ∀ x ∈ pre, x.address ≠ a) : s.peerPlace a = pre.length := by
  have passed := List.findIdx_eq_length.2 fun x hx => beq_eq_false_iff_ne.2 (first x hx)
  rw [State.peerPlace, split, List.findIdx_append, passed]
  simp [List.findIdx_cons, he]

/-- The one entry of an address is restored where it stands, the others stay as they were. -/
theorem restored_split (he : e.address = a) (apart : ∀ x ∈ pre ++ post, x.address ≠ a) :
    (pre ++ e :: post).map (PeerEntry.restored a) = pre ++ PeerEntry.new a :: post := by
  have others : ∀ l : List PeerEntry, (∀ x ∈ l, x.address ≠ a) → l.map (PeerEntry.restored a) = l :=
    fun l h => (List.map_congr_left fun x hx => restored_other a (h x hx)).trans l.map_id
  rw [List.map_append, List.map_cons, restored_self a he, others pre fun x hx => apart x (by simp [hx]),
    others post fun x hx => apart x (by simp [hx])]

/-! ### PEER_READ (R146) -/

theorem peerReadEffect_none (h : peerAddressOf p[0] = none) : peerReadEffect p s = s.finish .badParam [] := by
  simp only [peerReadEffect, h]

theorem peerReadEffect_unknown (ha : peerAddressOf p[0] = some a) (h : s.peer a = none) :
    peerReadEffect p s = s.finish .noEntry [0, 0, byte s.peers.length] := by
  simp only [peerReadEffect, ha, h]

theorem peerReadEffect_known (ha : peerAddressOf p[0] = some a) (h : s.peer a = some e) :
    peerReadEffect p s = (s.fillStaging e.snapshot).finish .ok
      [e.state.code, byte e.score, byte s.peers.length, byte (s.peerPlace a)] := by
  simp only [peerReadEffect, ha, h]

end

/-- Settles O50: the address and the entry found for it decide. -/
theorem peerCommands : Obligations.PeerCommands := by
  refine ⟨fun s p hp memory => ⟨fun out => ?readRange, fun a ha h0 h127 => ?read⟩,
    fun s p hp => ⟨fun out => ?resetRange, fun a ha h0 h127 => ?reset⟩, rfl, rfl⟩
  case readRange => exact completing_finish hp (peerReadEffect_none (peerAddressOf_none out))
  case read =>
    have named := peerAddressOf_some ha h0 h127
    obtain ⟨-, -, -, staging⟩ := memory
    refine ⟨fun unknown => completing_finish hp (peerReadEffect_unknown named unknown),
      fun pre e post split he first => completing_fillsStaging rfl hp staging ?_⟩
    rw [peerReadEffect_known named (peer_split split he first), peerPlace_split split he first,
      PeerEntry.snapshot, he, setWidth_of_toNat ha]
  case resetRange => exact completing_finish hp (peerResetEffect_none (peerAddressOf_none out))
  case reset =>
    have named := peerAddressOf_some ha h0 h127
    refine ⟨fun unknown => completing_finish hp (peerResetEffect_unknown named unknown),
      fun pre e post split he apart => completing_finish hp ?_⟩
    have first : ∀ x ∈ pre, x.address ≠ a := fun x hx => apart x (by simp [hx])
    rw [peerResetEffect_known named (peer_split split he first), split, restored_split he apart]
    rfl

end Sys2Proof.Machine
end

section
/-!
PROOFS. Law 6, kept by every step: what a row can do to the event queue, said once (R153 to R157, R177).
-/

namespace Sys2Proof.Machine

/-- What a row does to the event queue: it posts notices (or none), reads a byte of the head record, or resets it. -/
inductive EventMove (s t : State) : Prop
  | posted (h : Posted s.events t.events)
  | read (h : t.events = s.advanceEvent.events)
  | reset (h : t.events = State.reset.events)

section
variable {s t : State}

theorem EventMove.same (h : t.events = s.events) : EventMove s t := .posted (h ▸ .refl)

/-! ### The law over each move -/

theorem eventLaw_empty (h : s.events = State.reset.events) : s.eventLaw :=
  eventLaw_congr (s := State.reset) h (by constructor <;> decide)

/-- A read leaves the records as they are, or without the head record and with its index back at 0 (R157). -/
theorem eventLaw_advanceEvent (hs : s.eventLaw) : s.advanceEvent.eventLaw := by
  unfold State.advanceEvent
  split
  · exact hs
  next r rest records =>
    obtain ⟨room, onePerPage, writeCounts, -, -⟩ := hs
    split
    next below =>
      exact ⟨room, onePerPage, writeCounts, below, fun empty => absurd (records.symm.trans empty) (by simp)⟩
    next =>
      have shorter : rest.Sublist s.events.records := records ▸ List.sublist_cons_self r rest
      exact ⟨shorter.length_le.trans room, onePerPage.sublist ((shorter.filter _).map _),
        fun x hx => writeCounts x (shorter.mem hx), Nat.zero_le 5, fun _ => rfl⟩

theorem EventMove.eventLaw (h : EventMove s t) (hs : s.eventLaw) : t.eventLaw := by
  cases h with
  | posted h => exact eventLaw_posted h hs
  | read h => exact eventLaw_congr h (eventLaw_advanceEvent hs)
  | reset h => exact eventLaw_empty h

/-! ### The rows that post -/

/-- An event of the link posts what its effect posts. -/
theorem EventMove.onLink {f : State → State} (hf : Posted s.events (f s.momentOver).events)
    (h : s.onLink f = .next t) : EventMove s t := by
  rcases onLink_next h with ⟨-, rfl⟩ | ⟨-, rfl⟩
  · exact .same rfl
  · exact .posted hf

/-- An expiry row posts what its countdown's share posts. -/
theorem EventMove.expiry {x : TickShare} {due : Bool} (h : s.expiryRow x due = .next t) : EventMove s t := by
  rcases expiryRow_next h with rfl | ⟨-, -, -, rfl⟩
  · exact .same rfl
  · exact .posted (takeShare_posts false x .refl)

theorem linkStartEffect_posts (s : State) (p : Params) : Posted s.events (linkStartEffect p s).events := by
  unfold linkStartEffect
  split
  · exact .refl
  have starts : Posted s.events ((s.enterSyncing .command).finish .ok []).events := enterSyncing_posts .command .refl
  split
  iterate 2 exact starts
  all_goals exact .refl

theorem linkStopEffect_posts (s : State) (p : Params) : Posted s.events (linkStopEffect p s).events := by
  have leaves : Posted s.events ((s.enterOffline .command).finish .ok []).events := enterOffline_posts .command .refl
  unfold linkStopEffect
  split
  iterate 2 exact .refl
  iterate 2 exact leaves
  split
  · exact changeLink_posts { s.link with state := .stopping } .command .refl
  · exact leaves

/-! ### Every row -/

theorem exec_events {c : Instr} (h : exec c s = .next t) : EventMove s t := by
  cases c
  case configure => exact .same (by simp [configure_row h])
  case setGroups => exact .same (by simp [setGroups_row h])
  case pageDefine => exact .same (by simp [pageDefine_row h])
  case pageClose => exact .same (by simp [pageClose_row h])
  case pageFetch => exact .same (by simp [pageFetch_row h])
  case pageCommit => exact .same (by simp [pageCommit_row h])
  case localClaim => exact .same (by simp [localClaim_row h])
  case localRelease => exact .same (by simp [localRelease_row h])
  case breakClaim => exact .same (by simp [breakClaim_row h])
  case submit => exact .same (by simp [submit_row h])
  case cancel => exact .same (by simp [cancel_row h])
  case jobQuery => exact .same (by simp [jobQuery_row h])
  case jobFetch => exact .same (by simp [jobFetch_row h])
  case retire => exact .same (by simp [retire_row h])
  case peerRead => exact .same (by simp [peerRead_row h])
  case peerReset => exact .same (by simp [peerReset_row h])
  case inboundDrop => exact .same (by simp [inboundDrop_row h])
  case badCommand => exact .same (by simp [badCommand_row h])
  case statusRead => exact .same (by simp [statusRead_row h])
  case resultRead => exact .same (by simp [resultRead_row h])
  case resultDataRead => exact .same (by simp [resultDataRead_row h])
  case dataRead => exact .same (by simp [dataRead_row h])
  case completionRead => exact .same (by simp [completionRead_row h])
  case inboundRead => exact .same (by simp [inboundRead_row h])
  case paramWrite => exact .same (by simp [paramWrite_row h])
  case dataWrite => exact .same (by simp [dataWrite_row h])
  case dataPtrWrite => exact .same (by simp [dataPtrWrite_row h])
  case irqClear => exact .same (by simp [irqClear_row h])
  case irqEnableWrite => exact .same (by simp [irqEnableWrite_row h])
  case ignoredWrite => exact .same (by simp [ignoredWrite_row h])
  case cmdWrite => exact .same (by simp [cmdWrite_row h])
  case controllerReset => exact .same (by simp [controllerReset_row h])
  case powerOnResetSequence => exact .same (by simp [powerOnResetSequence_row h])
  case transmitOpportunity => exact .same (by simp [transmitOpportunity_row h])
  case startMarker => exact .same (by simp [startMarker_row h])
  case gapMeasurementRestart => exact .same (by simp [gapMeasurementRestart_row h])
  case linkStart =>
    rcases completing_next h with rfl | ⟨p, -, -, rfl⟩
    · exact .same rfl
    · exact .posted (linkStartEffect_posts s p)
  case linkStop =>
    rcases completing_next h with rfl | ⟨p, -, -, rfl⟩
    · exact .same rfl
    · exact .posted (linkStopEffect_posts s p)
  case eventRead =>
    rcases hostRead_next h with ⟨-, rfl⟩ | ⟨-, rfl⟩
    · exact .same rfl
    · exact .read rfl
  case controllerResetEnd =>
    simp only [exec, execControllerResetEnd] at h
    split at h <;> cases h
    · exact .reset rfl
    · exact .same rfl
  case resetAsserted =>
    cases h
    exact .reset rfl
  case powerOnResetEnd =>
    simp only [exec, execPowerOnResetEnd] at h
    split at h <;> cases h
    · exact .reset rfl
    · exact .same rfl
  case enterOnline => exact .onLink (joinLink_posts .refl) h
  case arbitrationLost => exact .onLink (loseArbitration_posts .refl) h
  case header part => exact .onLink (f := (·.takeHeaderPart part)) (takeHeaderPart_posts part .refl) h
  case blockSlot data check x y =>
    exact .onLink (f := (·.takeBlock data check x y)) (takeBlock_posts data check x y .refl) h
  case resendExhaustion => exact .onLink (fifthNak_posts .refl) h
  case bitError =>
    refine .onLink (f := fun s => if s.mayMeetBitError then s.meetBitError .bystander else s) ?_ h
    split
    · exact meetBitError_posts _ .refl
    · exact .refl
  case lossOfSyncEdges => exact .onLink (loseSync_posts .refl) h
  case normalEnd => exact .onLink (reachEnd_posts .refl) h
  case stuckDominant => exact .onLink (meetStuck_posts .refl) h
  case tick order b =>
    simp only [exec, execTick] at h
    rcases whenRunning_next h with ⟨-, rfl⟩ | ⟨-, rfl⟩
    · exact .same rfl
    · exact .posted (tickBoundary_posts order b .refl)
  case recoveryTimerExpiry => exact .expiry h
  case leaseExpiry => exact .expiry h
  case pendingExpiry => exact .expiry h
  case refreshWindowExpiry => exact .expiry h
  case freshLifetimeExpiry => exact .expiry h
  case retryCountdownExpiry => exact .expiry h
  case deadlineExpiry => exact .expiry h

end

/-- Settles O7: the law over each of the moves of the event queue. -/
theorem eventLawKept : Obligations.EventLawKept :=
  fun _ _ => step_keeps (P := State.eventLaw) (fun _ _ _ => eventLaw_congr rfl)
    (fun _ b x _ => eventLaw_posted (applyShare_posts b x .refl)) (fun _ _ _ hs h => (exec_events h).eventLaw hs)

end Sys2Proof.Machine
end

section
/-!
PROOFS. What the Event Unit does with a notice: it is coalesced, stored or lost (R154 to R156).
-/

namespace Sys2Proof.Machine

section
variable {u : EventUnit} {n : Notice} {r : EventRecord} {pre post : List EventRecord}

theorem takes_iff : r.takes n = true ↔ n.kind = .pageWritten ∧ r.kind = .pageWritten ∧ r.subject = n.subject := by
  simp [EventRecord.takes, and_assoc]

/-- The one record that takes the notice is updated where it stands, the others stay as they were. -/
theorem coalesce_split (stamp : Stamp) (taken : r.takes n = true) (apart : ∀ x ∈ pre ++ post, ¬x.takes n = true) :
    (pre ++ r :: post).map (fun x => if x.takes n then x.coalesce n stamp else x) =
      pre ++ r.coalesce n stamp :: post := by
  have others : ∀ l : List EventRecord, (∀ x ∈ l, ¬x.takes n = true) →
      l.map (fun x => if x.takes n then x.coalesce n stamp else x) = l :=
    fun l h => (List.map_congr_left fun x hx => if_neg (h x hx)).trans l.map_id
  rw [List.map_append, List.map_cons, if_pos taken, others pre fun x hx => apart x (by simp [hx]),
    others post fun x hx => apart x (by simp [hx])]

theorem post_coalesced (stamp : Stamp) (split : u.records = pre ++ r :: post) (taken : r.takes n = true)
    (apart : ∀ x ∈ pre ++ post, ¬x.takes n = true) :
    u.post n stamp = { u with records := pre ++ r.coalesce n stamp :: post } := by
  have found : u.records.any (·.takes n) = true := List.any_eq_true.2 ⟨r, by simp [split], taken⟩
  rw [EventUnit.post, if_pos found, split, coalesce_split stamp taken apart]

theorem post_stored (stamp : Stamp) (apart : ∀ x ∈ u.records, ¬x.takes n = true) (room : u.records.length < 32) :
    u.post n stamp = { u with
      records := u.records ++ [n.record u.lostPending stamp], lostPending := false } :=
  (if_neg (by simpa using apart)).trans (if_pos room)

theorem post_lost (stamp : Stamp) (apart : ∀ x ∈ u.records, ¬x.takes n = true) (full : 32 ≤ u.records.length) :
    u.post n stamp = { u with lostPending := true } :=
  (if_neg (by simpa using apart)).trans (if_neg (Nat.not_lt.2 full))

end

/-- Settles O25: whether a record takes the notice, and otherwise whether there is room, decides. -/
theorem noticesAreCoalescedStoredOrLost : Obligations.NoticesAreCoalescedStoredOrLost := by
  refine fun u n stamp => ⟨fun pre r post written split kind subject apart => ?coalesced,
    fun apart => ⟨fun room => ?stored, fun full => ?lost⟩⟩
  case coalesced =>
    exact post_coalesced stamp split (takes_iff.2 ⟨written, kind, subject⟩)
      fun x hx taken => apart x hx (takes_iff.1 taken).2
  case stored => exact post_stored stamp (fun r hr taken => apart r hr (takes_iff.1 taken)) room
  case lost => exact post_lost stamp (fun r hr taken => apart r hr (takes_iff.1 taken)) full

end Sys2Proof.Machine
end

section
/-!
PROOFS. The COMPLETION and EVENT ports and the bytes of their records (R151, R157, 12.5 to 12.7).
-/

namespace Sys2Proof.Machine

section
variable {s : State}

/-! ### A read outside a reset (R163) -/

theorem hostRead_shows {f : State → State} {a : BitVec 4} {b : Byte} {u : State} (hm : s.mode = .running)
    (shown : s.registerValue a = b) (effect : f s = u) : s.hostRead a f = .next { u with lastRead := some b } := by
  rw [hostRead_running hm, shown, effect]

/-- A record's byte at an index below its length. -/
theorem getElem?_eq_some_getD {bytes : List Byte} {k : Nat} (h : k < bytes.length) :
    bytes[k]? = some (bytes.getD k 0) := by
  rw [List.getD_eq_getElem _ _ h, List.getElem?_eq_getElem h]

/-! ### The COMPLETION port (R151) -/

section
variable {r : CompletionRecord} {rest : List CompletionRecord}

theorem exec_completionRead_empty (hm : s.mode = .running) (empty : s.completions.records = []) :
    exec .completionRead s = .next { s with lastRead := some 0 } := by
  have stay : s.advanceCompletion = s := by simp only [State.advanceCompletion, empty]
  have shown : s.completionByte = 0 := by simp only [State.completionByte, empty]
  exact hostRead_shows (a := 5) hm shown stay

/-- The byte shown is the head record's at the read index. -/
theorem completionByte_head (head : s.completions.records = r :: rest) :
    s.completionByte = r.bytes.getD s.completions.readIndex 0 := by
  simp only [State.completionByte, head]

theorem exec_completionRead_below (hm : s.mode = .running) (head : s.completions.records = r :: rest)
    (below : s.completions.readIndex < 7) :
    exec .completionRead s = .next { s with
      lastRead := r.bytes[s.completions.readIndex]?
      completions := { s.completions with readIndex := s.completions.readIndex + 1 } } := by
  have advance : s.advanceCompletion =
      { s with completions := { s.completions with readIndex := s.completions.readIndex + 1 } } := by
    simp only [State.advanceCompletion, head, if_pos below]
  have inside : s.completions.readIndex < r.bytes.length := by
    simp only [CompletionRecord.bytes, List.length_cons, List.length_nil]
    omega
  rw [getElem?_eq_some_getD inside]
  exact hostRead_shows (a := 5) hm (completionByte_head head) advance

/-- The job whose record has been read keeps everything but its unread flag. -/
theorem job_markRead (s : State) (i j : Slot) : (s.setJob i { s.job i with unread := false }).job j =
    if j = i then { s.job j with unread := false } else s.job j := by
  rw [job_setJob]
  split
  next same => rw [same]
  next => rfl

theorem exec_completionRead_last (hm : s.mode = .running) (head : s.completions.records = r :: rest)
    (last : s.completions.readIndex = 7) :
    exec .completionRead s = .next { s.setJob (tagSlot r.tag) { s.job (tagSlot r.tag) with unread := false } with
      lastRead := some (r.stamp.extractLsb' 0 8), completions := ⟨rest, 0⟩ } := by
  have pop : s.advanceCompletion =
      { s.setJob (tagSlot r.tag) { s.job (tagSlot r.tag) with unread := false } with
        completions := ⟨rest, 0⟩ } := by
    simp only [State.advanceCompletion, head, last, lt_irrefl, if_false]
  have shown : s.completionByte = r.stamp.extractLsb' 0 8 := by
    rw [completionByte_head head, last]
    rfl
  exact hostRead_shows (a := 5) hm shown pop

end

/-! ### The EVENT port (R157) -/

section
variable {r : EventRecord} {rest : List EventRecord}

theorem exec_eventRead_empty (hm : s.mode = .running) (empty : s.events.records = []) :
    exec .eventRead s = .next { s with lastRead := some 0 } := by
  have stay : s.advanceEvent = s := by simp only [State.advanceEvent, empty]
  have shown : s.eventByte = 0 := by simp only [State.eventByte, empty]
  exact hostRead_shows (a := 6) hm shown stay

/-- The byte shown is the head record's at the read index. -/
theorem eventByte_head (head : s.events.records = r :: rest) :
    s.eventByte = r.bytes.getD s.events.readIndex 0 := by
  simp only [State.eventByte, head]

theorem exec_eventRead_below (hm : s.mode = .running) (head : s.events.records = r :: rest)
    (below : s.events.readIndex < 5) :
    exec .eventRead s = .next { s with
      lastRead := r.bytes[s.events.readIndex]?
      events := { s.events with readIndex := s.events.readIndex + 1 } } := by
  have advance : s.advanceEvent =
      { s with events := { s.events with readIndex := s.events.readIndex + 1 } } := by
    simp only [State.advanceEvent, head, if_pos below]
  have inside : s.events.readIndex < r.bytes.length := by
    simp only [EventRecord.bytes, List.length_cons, List.length_nil]
    omega
  rw [getElem?_eq_some_getD inside]
  exact hostRead_shows (a := 6) hm (eventByte_head head) advance

theorem exec_eventRead_last (hm : s.mode = .running) (head : s.events.records = r :: rest)
    (last : s.events.readIndex = 5) :
    exec .eventRead s = .next { s with
      lastRead := some (r.stamp.extractLsb' 0 8)
      events := { s.events with records := rest, readIndex := 0 } } := by
  have pop : s.advanceEvent = { s with events := { s.events with records := rest, readIndex := 0 } } := by
    simp only [State.advanceEvent, head, last, lt_irrefl, if_false]
  have shown : s.eventByte = r.stamp.extractLsb' 0 8 := by
    rw [eventByte_head head, last]
    rfl
  exact hostRead_shows (a := 6) hm shown pop

end

end

/-! ### The first byte of an event record (12.7) -/

/-- The marker in bit 7, the count in bits 6 to 3, the kind in bits 2 to 0. -/
theorem eventByte_bits (lost : Bool) (count : BitVec 4) (kind : BitVec 3) :
    let b : Byte := BitVec.ofBool lost ++ count ++ kind
    b.getLsbD 7 = lost ∧ b.extractLsb' 3 4 = count ∧ b.extractLsb' 0 3 = kind := by
  revert lost count kind
  decide

/-- A kind's code fits in three bits. -/
theorem eventKind_code_low (k : EventKind) : (k.code.extractLsb' 0 3).toNat = k.code.toNat := by
  cases k <;> rfl

/-- Settles O24: whether there is a head record, and whether the read index is at its last byte, decides. -/
theorem completionAndEventPorts : Obligations.CompletionAndEventPorts := by
  refine ⟨fun s hm _ => ⟨exec_completionRead_empty hm, fun r rest head =>
      ⟨exec_completionRead_below hm head, fun last => ?lastCompletion⟩⟩,
    fun s hm _ => ⟨exec_eventRead_empty hm, fun r rest head =>
      ⟨exec_eventRead_below hm head, exec_eventRead_last hm head⟩⟩,
    fun _ => rfl, fun r count => ?eventBytes, rfl, rfl, rfl⟩
  case lastCompletion => exact ⟨_, exec_completionRead_last hm head last, rfl, fun j => job_markRead s (tagSlot r.tag) j⟩
  case eventBytes =>
    obtain ⟨lost, writes, kind⟩ :=
      eventByte_bits r.lost (BitVec.ofNat 4 r.writeCount) (r.kind.code.extractLsb' 0 3)
    refine ⟨_, rfl, lost, ?_, ?_⟩
    · rw [writes, BitVec.toNat_ofNat, Nat.mod_eq_of_lt (by omega)]
    · rw [kind, eventKind_code_low]

end Sys2Proof.Machine
end

section
/-!
PROOFS. The interrupt line and its registers, and the register window during a reset (R159 to R161, R175, R177, R179).
-/

namespace Sys2Proof.Machine

section
variable {s : State}

/-! ### Accesses, outside a reset and during one (R163, R175, R177) -/

theorem hostWrite_running {f : State → State} (hm : s.mode = .running) : s.hostWrite f = .next (f s) := by
  rw [State.hostWrite, if_pos hm]

theorem hostWrite_resetting {f : State → State} (hm : s.mode ≠ .running) : s.hostWrite f = .next s := by
  rw [State.hostWrite, if_neg hm]

theorem hostRead_resetting {f : State → State} {a : BitVec 4} (hm : s.mode ≠ .running) :
    s.hostRead a f = .next { s with lastRead := s.readRegister a } := by
  rw [State.hostRead, if_neg hm]

theorem readRegister_running (hm : s.mode = .running) (a : BitVec 4) :
    s.readRegister a = some (s.registerValue a) := by
  simp only [State.readRegister, hm]

theorem readRegister_held (hm : s.mode = .held) (a : BitVec 4) : s.readRegister a = none := by
  simp only [State.readRegister, hm]

theorem readRegister_resetting (hm : s.mode ≠ .running) (released : s.mode ≠ .held) (a : BitVec 4) :
    s.readRegister a = some (if a = 0 then resettingStatus else 0) := by
  unfold State.readRegister
  split
  next held => exact absurd held released
  next => rfl
  next => rfl
  next running => exact absurd running hm

/-! ### Four sources, four enables (R159, R161) -/

/-- A source is active and enabled. -/
theorem enabled_iff (cmd completion event inbound : Bool) (enable : BitVec 4) :
    ((BitVec.ofBool inbound ++ BitVec.ofBool event ++ BitVec.ofBool completion ++ BitVec.ofBool cmd : BitVec 4) &&&
        enable) ≠ 0 ↔
      (enable.getLsbD 0 = true ∧ cmd = true) ∨ (enable.getLsbD 1 = true ∧ completion = true) ∨
        (enable.getLsbD 2 = true ∧ event = true) ∨ (enable.getLsbD 3 = true ∧ inbound = true) := by
  revert cmd completion event inbound enable
  decide

/-- Four flags as a register's byte, bits 7 to 4 as 0 (R179). -/
theorem flags_bits (cmd completion event inbound : Bool) :
    let b : Byte := (BitVec.ofBool inbound ++ BitVec.ofBool event ++ BitVec.ofBool completion ++
      BitVec.ofBool cmd : BitVec 4).setWidth 8
    b.getLsbD 0 = cmd ∧ b.getLsbD 1 = completion ∧ b.getLsbD 2 = event ∧ b.getLsbD 3 = inbound ∧
      b.extractLsb' 4 4 = 0 := by
  revert cmd completion event inbound
  decide

theorem nibble_bits (enable : BitVec 4) :
    (enable.setWidth 8).extractLsb' 0 4 = enable ∧ (enable.setWidth 8).extractLsb' 4 4 = 0 := by
  revert enable
  decide

theorem irqLow_iff (hm : s.mode = .running) : s.irqLow = true ↔
    (s.port.irqEnable.getLsbD 0 = true ∧ s.port.cmdDone = true) ∨
    (s.port.irqEnable.getLsbD 1 = true ∧ s.completions.records ≠ []) ∨
    (s.port.irqEnable.getLsbD 2 = true ∧ s.events.records ≠ []) ∨
    (s.port.irqEnable.getLsbD 3 = true ∧ 1 ≤ s.inbound.committedRecords) := by
  have line : s.irqLow = true ↔ (s.irqSources &&& s.port.irqEnable) ≠ 0 := by simp [State.irqLow, hm]
  rw [line, State.irqSources, enabled_iff]
  simp

end

/-- Settles O26: the four sources and the four enables, bit by bit. -/
theorem interruptLineAndLatch : Obligations.InterruptLineAndLatch := by
  refine ⟨fun s hm => ⟨irqLow_iff hm, ?status, ?enable, fun v => ?replaced⟩,
    fun v s hm => ⟨fun named => ?clears, fun other => ?ignores⟩⟩
  case status =>
    obtain ⟨cmd, completion, event, inbound, rest⟩ := flags_bits s.port.cmdDone (!s.completions.records.isEmpty)
      (!s.events.records.isEmpty) (decide (1 ≤ s.inbound.committedRecords))
    refine ⟨_, readRegister_running hm 8, ?_, ?_, ?_, ?_, rest⟩
    · exact Bool.eq_iff_iff.1 cmd
    · exact (Bool.eq_iff_iff.1 completion).trans (by simp)
    · exact (Bool.eq_iff_iff.1 event).trans (by simp)
    · exact (Bool.eq_iff_iff.1 inbound).trans (by simp)
  case enable => exact ⟨_, readRegister_running hm 9, nibble_bits s.port.irqEnable⟩
  case replaced => rw [exec, execIrqEnableWrite, hostWrite_running hm]
  case clears => exact (hostWrite_running hm).trans (by rw [if_pos named])
  case ignores => exact (hostWrite_running hm).trans (by rw [if_neg (other ▸ Bool.false_ne_true)])

/-- Settles O27: outside the part's running mode a register access passes to no block. -/
theorem windowDuringAReset : Obligations.WindowDuringAReset := by
  refine fun s hm => ⟨by simp [State.irqLow, hm], readRegister_held, fun released => ⟨?status, fun a ha => ?others⟩,
    fun i a port => ?reads, fun v code i access => ?writes⟩
  case status => exact readRegister_resetting hm released 0
  case others => rw [readRegister_resetting hm released, if_neg ha]
  case reads =>
    simp only [List.mem_cons, Prod.mk.injEq, List.not_mem_nil, or_false] at port
    rcases port with ⟨rfl, rfl⟩ | ⟨rfl, rfl⟩ | ⟨rfl, rfl⟩ | ⟨rfl, rfl⟩ | ⟨rfl, rfl⟩ | ⟨rfl, rfl⟩ | ⟨rfl, rfl⟩
    all_goals simp only [exec, execStatusRead, execResultRead, execResultDataRead, execDataRead, execCompletionRead,
      execEventRead, execInboundRead, hostRead_resetting hm]
  case writes =>
    simp only [List.mem_cons, List.not_mem_nil, or_false] at access
    rcases access with rfl | rfl | rfl | rfl | rfl | rfl | rfl
    all_goals simp only [exec, execParamWrite, execDataWrite, execDataPtrWrite, execIrqClear, execIrqEnableWrite,
      execCmdWrite, execControllerReset, hostWrite_resetting hm]

end Sys2Proof.Machine
end

section
/-!
PROOFS. The command slot: every row of the table of commands leaves it free (R166 to R168, 12.4).
-/

namespace Sys2Proof.Machine

/-! ### What a completion leaves in the slot (R168, R169) -/

/-- The slot after a completion: free, the latch set, and at most four bytes to read from their first one on. -/
structure State.Completed (t : State) : Prop where
  free : t.port.taken = none
  done : t.port.cmdDone = true
  index : t.port.resultIndex = 0
  data : t.port.resultData.length ≤ 4

theorem completed_finish (u : State) (r : Result) {data : List Byte} (hd : data.length ≤ 4) :
    (u.finish r data).Completed := ⟨rfl, rfl, rfl, hd⟩

theorem State.Completed.cmdBusy {t : State} (h : t.Completed) : t.cmdBusy = false := by
  simp [State.cmdBusy, h.free]

/-! ### The rows of the codes (12.4) -/

/-- A command's row with the effect of its completion. -/
structure CommandRow where
  code : Byte
  row : Instr
  effect : Params → State → State

/-- The nineteen commands. -/
def commandTable : List CommandRow :=
  [⟨0x01, .configure, configureEffect⟩, ⟨0x02, .setGroups, setGroupsEffect⟩, ⟨0x03, .linkStart, linkStartEffect⟩,
    ⟨0x04, .linkStop, linkStopEffect⟩, ⟨0x10, .pageDefine, pageDefineEffect⟩, ⟨0x11, .pageClose, pageCloseEffect⟩,
    ⟨0x12, .pageFetch, pageFetchEffect⟩, ⟨0x13, .pageCommit, pageCommitEffect⟩,
    ⟨0x18, .localClaim, localClaimEffect⟩, ⟨0x19, .localRelease, localReleaseEffect⟩,
    ⟨0x1A, .breakClaim, breakClaimEffect⟩, ⟨0x20, .submit, submitEffect⟩, ⟨0x21, .cancel, cancelEffect⟩,
    ⟨0x22, .jobQuery, jobQueryEffect⟩, ⟨0x23, .jobFetch, jobFetchEffect⟩, ⟨0x24, .retire, retireEffect⟩,
    ⟨0x28, .peerRead, peerReadEffect⟩, ⟨0x29, .peerReset, peerResetEffect⟩,
    ⟨0x30, .inboundDrop, inboundDropEffect⟩]

theorem exec_commandTable (s : State) : ∀ c ∈ commandTable, exec c.row s = s.completing c.code c.effect := by
  simp only [commandTable, List.forall_mem_cons]
  exact ⟨rfl, rfl, rfl, rfl, rfl, rfl, rfl, rfl, rfl, rfl, rfl, rfl, rfl, rfl, rfl, rfl, rfl, rfl, rfl, nofun⟩

/-- Whatever a command's effect checks and changes, each of its branches ends in a completion. -/
theorem commandTable_completed (p : Params) (s : State) : ∀ c ∈ commandTable, (c.effect p s).Completed := by
  simp only [commandTable, List.forall_mem_cons]
  refine ⟨?configure, ?setGroups, ?linkStart, ?linkStop, ?pageDefine, ?pageClose, ?pageFetch, ?pageCommit, ?localClaim,
    ?localRelease, ?breakClaim, ?submit, ?cancel, ?jobQuery, ?jobFetch, ?retire, ?peerRead, ?peerReset, ?inboundDrop,
    nofun⟩
  all_goals
    simp only [configureEffect, setGroupsEffect, linkStartEffect, linkStopEffect, pageDefineEffect, pageCloseEffect,
      pageFetchEffect, pageCommitEffect, localClaimEffect, localReleaseEffect, breakClaimEffect, submitEffect,
      cancelEffect, jobQueryEffect, jobFetchEffect, retireEffect, peerReadEffect, peerResetEffect, inboundDropEffect]
    repeat' split
    all_goals exact completed_finish _ _ (by simp)

section
variable {s : State} {code : Byte} {p : Params}

/-- The row of the taken command's code completes it. -/
theorem exec_command_completed {c : CommandRow} (hc : c ∈ commandTable) (hp : s.inProgress c.code p) :
    ∃ t, exec c.row s = .next t ∧ t.Completed :=
  ⟨_, (exec_commandTable s c hc).trans (completing_taken c.effect hp), commandTable_completed p s c hc⟩

/-- R167. -/
theorem exec_badCommand (hp : s.inProgress code p) (unknown : code ∉ commandCodes) :
    exec .badCommand s = .next (s.finish .badCommand []) := by
  obtain ⟨hm, taken⟩ := hp
  simp only [exec, execBadCommand, taken]
  exact if_pos ⟨hm, unknown⟩

end

/-- Settles O20: the table gives a command's row its effect, each effect finishes, and BAD_COMMAND does so alone. -/
theorem takenCommandsComplete : Obligations.TakenCommandsComplete := by
  unfold Obligations.TakenCommandsComplete
  intro rows s code p hp
  have pairs : rows = commandTable.map fun c => (c.code, c.row) := rfl
  have codes : rows.map Prod.fst = commandCodes := rfl
  rw [codes]
  refine ⟨fun unknown => exec_badCommand hp unknown, fun i choice => ?_⟩
  have completed : ∃ t, exec i s = .next t ∧ t.Completed := by
    rcases choice with command | ⟨unknown, rfl⟩
    · obtain ⟨c, hc, same⟩ := List.mem_map.1 (pairs ▸ command)
      obtain ⟨rfl, rfl⟩ := Prod.mk.inj same
      exact exec_command_completed hc hp
    · exact ⟨_, exec_badCommand hp unknown, completed_finish s _ (by simp)⟩
  obtain ⟨t, next, slot⟩ := completed
  exact ⟨t, next, slot.cmdBusy, slot.free, slot.done, slot.index, slot.data⟩

end Sys2Proof.Machine
end

section
/-!
PROOFS. The accesses of the Local Port: PARAM, CMD, RESULT, RESULT_DATA, DATA, DATA_PTR, STATUS and the state registers
(R163 to R165, R169 to R171, R173, R174, R179).
-/

namespace Sys2Proof.Machine

section
variable {s : State}

theorem cmdBusy_iff : s.cmdBusy = true ↔ s.port.taken ≠ none := Option.isSome_iff_ne_none

/-! ### PARAM and CMD (R164, R165) -/

theorem placeParam_below (v : Byte) (below : s.port.writeIndex < 8) : s.placeParam v =
    { s with port := { s.port with
      params := s.port.params.set s.port.writeIndex v, writeIndex := s.port.writeIndex + 1 } } := dif_pos below

theorem placeParam_full (v : Byte) (full : 8 ≤ s.port.writeIndex) : s.placeParam v = s := dif_neg (by omega)

theorem offerCommand_free (code : Byte) (free : s.cmdBusy = false) : s.offerCommand code =
    { s with port := { s.port with taken := some ⟨code, s.port.params⟩, writeIndex := 0 } } := by
  have empty : s.port.taken = none := by simpa [State.cmdBusy] using free
  simp only [State.offerCommand, empty]

theorem offerCommand_busy (code : Byte) (busy : s.cmdBusy = true) :
    s.offerCommand code = { s with port := { s.port with reject := true } } := by
  obtain ⟨c, taken⟩ := Option.isSome_iff_exists.1 busy
  simp only [State.offerCommand, taken]

/-! ### RESULT and RESULT_DATA (R169) -/

theorem exec_resultRead (hm : s.mode = .running) :
    exec .resultRead s = .next { s with
      lastRead := some s.port.result.code
      port := { s.port with cmdDone := false, resultIndex := 0 } } := by
  rw [exec, execResultRead, hostRead_running hm]
  rfl

theorem exec_resultDataRead_below (hm : s.mode = .running) (below : s.port.resultIndex < s.port.resultData.length) :
    exec .resultDataRead s = .next { s with
      lastRead := some s.port.resultData[s.port.resultIndex]
      port := { s.port with resultIndex := s.port.resultIndex + 1 } } := by
  have advance : s.advanceResult = { s with port := { s.port with resultIndex := s.port.resultIndex + 1 } } :=
    if_pos below
  have shown : s.resultDataByte = s.port.resultData[s.port.resultIndex] := List.getD_eq_getElem _ _ below
  exact hostRead_shows (a := 2) hm shown advance

theorem exec_resultDataRead_past (hm : s.mode = .running) (past : s.port.resultData.length ≤ s.port.resultIndex) :
    exec .resultDataRead s = .next { s with lastRead := some 0 } := by
  have stay : s.advanceResult = s := if_neg (Nat.not_lt.2 past)
  have shown : s.resultDataByte = 0 := List.getD_eq_default _ _ past
  exact hostRead_shows (a := 2) hm shown stay

/-! ### DATA and DATA_PTR (R170, R171) -/

theorem dataByte_open (taken : s.dataOpen = true) : s.dataByte = s.port.staging.read s.port.dataPtr := by
  obtain ⟨free, below⟩ := dataOpen_iff.1 taken
  have inside : ¬Config.stagingSize ≤ s.port.dataPtr := Nat.not_le.2 below
  simp [State.dataByte, free, inside]

theorem not_dataOpen (shut : s.cmdBusy = true ∨ 64 ≤ s.port.dataPtr) : ¬s.dataOpen = true := fun taken => by
  obtain ⟨free, below⟩ := dataOpen_iff.1 taken
  rcases shut with busy | stop
  · exact Bool.false_ne_true (free.symm.trans busy)
  · exact Nat.not_lt.2 stop below

theorem dataByte_shut (shut : s.cmdBusy = true ∨ 64 ≤ s.port.dataPtr) : s.dataByte = 0 := by
  rcases shut with busy | stop
  · simp [State.dataByte, busy]
  · have past : Config.stagingSize ≤ s.port.dataPtr := stop
    simp [State.dataByte, past]

theorem exec_dataRead_open (hm : s.mode = .running) (taken : s.dataOpen = true) :
    exec .dataRead s = .next { s with
      lastRead := some (s.port.staging.read s.port.dataPtr)
      port := { s.port with dataPtr := s.port.dataPtr + 1 } } :=
  hostRead_shows (a := 3) hm (dataByte_open taken) (if_pos taken)

theorem exec_dataRead_shut (hm : s.mode = .running) (shut : s.cmdBusy = true ∨ 64 ≤ s.port.dataPtr) :
    exec .dataRead s = .next { s with lastRead := some 0 } :=
  hostRead_shows (a := 3) hm (dataByte_shut shut) (if_neg (not_dataOpen shut))

theorem exec_dataWrite_open (v : Byte) (hm : s.mode = .running) (taken : s.dataOpen = true) :
    exec (.dataWrite v) s = .next { s with port := { s.port with
      staging := s.port.staging.write Config.stagingSize s.port.dataPtr v, dataPtr := s.port.dataPtr + 1 } } :=
  (hostWrite_running hm).trans (congrArg _ (if_pos taken))

theorem exec_dataWrite_shut (v : Byte) (hm : s.mode = .running) (shut : s.cmdBusy = true ∨ 64 ≤ s.port.dataPtr) :
    exec (.dataWrite v) s = .next s :=
  (hostWrite_running hm).trans (congrArg _ (if_neg (not_dataOpen shut)))

theorem pointData_free (v : Byte) (free : s.cmdBusy = false) :
    s.pointData v = { s with port := { s.port with dataPtr := min v.toNat 64 } } := by
  simp only [State.pointData, free, Bool.false_eq_true, if_false, Config.stagingSize]

theorem pointData_busy (v : Byte) (busy : s.cmdBusy = true) : s.pointData v = s := if_pos busy

/-! ### STATUS and LINK (R173, R174, 12.1) -/

theorem exec_statusRead (hm : s.mode = .running) : exec .statusRead s = .next { s with
    lastRead := some s.status, port := { s.port with reject := false } } := by
  rw [exec, execStatusRead, hostRead_running hm]
  rfl

theorem statusBits (busy reject done : Bool) :
    let b : Byte := 0#5 ++ BitVec.ofBool done ++ BitVec.ofBool reject ++ BitVec.ofBool busy
    b.getLsbD 0 = busy ∧ b.getLsbD 1 = reject ∧ b.getLsbD 2 = done ∧ b.extractLsb' 3 5 = 0 := by
  revert busy reject done
  decide

theorem linkBits (errors : BitVec 4) (code : BitVec 3) :
    let b : Byte := errors ++ 0#1 ++ code
    b.extractLsb' 0 3 = code ∧ b.getLsbD 3 = false ∧ b.extractLsb' 4 4 = errors := by
  revert errors code
  decide

theorem readOnlyAddress_iff (a : BitVec 4) :
    readOnlyAddress a = true ↔ a.toNat ∈ [5, 6, 7, 10, 11, 12, 13, 14, 15] := by
  revert a
  decide

/-! ### Writes that change nothing (R163, R173) -/

theorem hostWrite_unchanged {f : State → State} (h : f s = s) : s.hostWrite f = .next s := by
  rw [State.hostWrite, h, ite_self]

end

/-- Settles O19: whether the array is full decides a PARAM write, and whether a command is taken a CMD write. -/
theorem paramAndCmdWrites : Obligations.ParamAndCmdWrites := by
  refine ⟨fun v s hm => ⟨fun below => ?stored, fun full => ?full⟩,
    fun code s hm => ⟨fun free => ?taken, fun busy => ?rejected⟩⟩
  case stored => exact (hostWrite_running hm).trans (congrArg _ (placeParam_below v below))
  case full => exact (hostWrite_running hm).trans (congrArg _ (placeParam_full v full))
  case taken => exact (hostWrite_running hm).trans (congrArg _ (offerCommand_free code free))
  case rejected => exact (hostWrite_running hm).trans (congrArg _ (offerCommand_busy code busy))

/-- Settles O21: whether a byte is left at the read index decides what RESULT_DATA returns. -/
theorem resultPortsReadTheOutcome : Obligations.ResultPortsReadTheOutcome := fun _ hm =>
  ⟨exec_resultRead hm, exec_resultDataRead_below hm, exec_resultDataRead_past hm, rfl⟩

/-- Settles O22: whether the access is taken decides; a byte written is read back at its place alone. -/
theorem dataAndDataPtr : Obligations.DataAndDataPtr := by
  refine ⟨fun v s hm form => ⟨fun free below => ?taken, fun shut => ?shut⟩,
    fun v s hm => ⟨fun free small => ?pointed, fun free large => ?clipped, fun busy => ?kept, ?shown⟩⟩
  case taken =>
    obtain ⟨-, -, -, staging⟩ := form
    have taken := dataOpen_iff.2 ⟨free, below⟩
    exact ⟨exec_dataRead_open hm taken, _, exec_dataWrite_open v hm taken, fun k => Memory.read_write staging below v k⟩
  case shut => exact ⟨exec_dataRead_shut hm shut, exec_dataWrite_shut v hm shut⟩
  case pointed =>
    have pointer := pointData_free v free
    rw [Nat.min_eq_left (by omega)] at pointer
    exact (hostWrite_running hm).trans (congrArg _ pointer)
  case clipped =>
    have pointer := pointData_free v free
    rw [Nat.min_eq_right large] at pointer
    exact (hostWrite_running hm).trans (congrArg _ pointer)
  case kept => exact (hostWrite_running hm).trans (congrArg _ (pointData_busy v busy))
  case shown => exact readRegister_running hm 4

/-- Settles O23: the bits of STATUS and of LINK, and the writes whose effect leaves the state as it is. -/
theorem statusAndStateRegisters : Obligations.StatusAndStateRegisters := by
  refine ⟨fun s hm => ?status, fun s hm errors => ⟨?link, ?slots, ?blocks, ?completions, ?events, ?records⟩,
    readOnlyAddress_iff, fun s => ⟨fun a v _ => ?ignored, fun v clear => ?control⟩, rfl⟩
  case status =>
    obtain ⟨busy, reject, done, rest⟩ := statusBits s.cmdBusy s.port.reject s.port.cmdDone
    exact ⟨s.status, exec_statusRead hm, busy, cmdBusy_iff, reject, done, rest⟩
  case link =>
    obtain ⟨state, zero, count⟩ :=
      linkBits (BitVec.ofNat 4 s.link.txErrors) (s.link.state.code.extractLsb' 0 3)
    refine ⟨s.linkRegister, readRegister_running hm 0xA, state, zero, ?_⟩
    calc (s.linkRegister.extractLsb' 4 4).toNat
        = (BitVec.ofNat 4 s.link.txErrors).toNat := congrArg BitVec.toNat count
      _ = s.link.txErrors := by rw [BitVec.toNat_ofNat, Nat.mod_eq_of_lt (by omega)]
  case slots => exact readRegister_running hm 0xB
  case blocks => exact readRegister_running hm 0xC
  case completions => exact readRegister_running hm 0xD
  case events => exact readRegister_running hm 0xE
  case records => exact readRegister_running hm 0xF
  case ignored => exact hostWrite_unchanged rfl
  case control =>
    refine hostWrite_unchanged ?_
    exact if_neg (clear ▸ Bool.false_ne_true)

end Sys2Proof.Machine
end

section
/-!
PROOFS. What a step is, and that every command answers a next state with its queue (00_scope.md 2.2; log entry 1).
-/

namespace Sys2Proof.Machine

/-! ### The ways of taking a command answer -/

theorem ite_answers (p : Prop) [Decidable p] (a b : State) :
    ∃ t, (if p then .next a else .next b : Host.Outcome State Fault Refusal) = .next t := by
  split
  · exact ⟨a, rfl⟩
  · exact ⟨b, rfl⟩

theorem completing_answers (s : State) (code : Byte) (f : Params → State → State) :
    ∃ t, s.completing code f = .next t := by
  unfold State.completing
  split
  next => exact ite_answers _ _ _
  next => exact ⟨s, rfl⟩

theorem badCommand_answers (s : State) : ∃ t, exec .badCommand s = .next t := by
  simp only [exec, execBadCommand]
  split
  next => exact ite_answers _ _ _
  next => exact ⟨s, rfl⟩

theorem whenRunning_answers (s : State) (f : State → State) : ∃ t, s.whenRunning f = .next t :=
  ite_answers _ _ _

theorem onLink_answers (s : State) (f : State → State) : ∃ t, s.onLink f = .next t := whenRunning_answers s _

theorem expiryRow_answers (s : State) (share : TickShare) (due : Bool) : ∃ t, s.expiryRow share due = .next t :=
  whenRunning_answers s _

/-! ### Every command -/

/-- By the way its row is taken: a completion, an access of the port, a reset, or a row of the link or of time. -/
theorem exec_answers (c : Instr) (s : State) : ∃ t, exec c s = .next t := by
  cases c with
  | configure | setGroups | linkStart | linkStop | pageDefine | pageClose | pageFetch | pageCommit | localClaim
  | localRelease | breakClaim | submit | cancel | jobQuery | jobFetch | retire | peerRead | peerReset
  | inboundDrop => exact completing_answers s _ _
  | badCommand => exact badCommand_answers s
  | statusRead | resultRead | resultDataRead | dataRead | completionRead | eventRead | inboundRead | paramWrite
  | dataWrite | dataPtrWrite | irqClear | irqEnableWrite | ignoredWrite | cmdWrite | controllerReset
  | resetAsserted => exact ⟨_, rfl⟩
  | controllerResetEnd | powerOnResetSequence | powerOnResetEnd => exact ite_answers _ _ _
  | enterOnline | transmitOpportunity | startMarker | gapMeasurementRestart | arbitrationLost | resendExhaustion
  | bitError | lossOfSyncEdges | normalEnd | stuckDominant => exact onLink_answers s _
  | header part => exact onLink_answers s fun u => u.takeHeaderPart part
  | blockSlot data check x y => exact onLink_answers s fun u => u.takeBlock data check x y
  | tick order lineStuck => exact whenRunning_answers s fun u => u.tickBoundary order lineStuck
  | recoveryTimerExpiry | leaseExpiry | pendingExpiry | refreshWindowExpiry | freshLifetimeExpiry
  | retryCountdownExpiry | deadlineExpiry => exact expiryRow_answers s _ _

/-- The queue stands in the frame of every row. -/
theorem exec_keeps_pending {s t : State} : ∀ {c : Instr}, exec c s = .next t → t.pending = s.pending
  | .configure, h => (configure_row h).1
  | .setGroups, h => (setGroups_row h).1
  | .linkStart, h => (linkStart_row h).1
  | .linkStop, h => (linkStop_row h).1
  | .pageDefine, h => (pageDefine_row h).1
  | .pageClose, h => (pageClose_row h).1
  | .pageFetch, h => (pageFetch_row h).1
  | .pageCommit, h => (pageCommit_row h).1
  | .localClaim, h => (localClaim_row h).1
  | .localRelease, h => (localRelease_row h).1
  | .breakClaim, h => (breakClaim_row h).1
  | .submit, h => (submit_row h).1
  | .cancel, h => (cancel_row h).1
  | .jobQuery, h => (jobQuery_row h).1
  | .jobFetch, h => (jobFetch_row h).1
  | .retire, h => (retire_row h).1
  | .peerRead, h => (peerRead_row h).1
  | .peerReset, h => (peerReset_row h).1
  | .inboundDrop, h => (inboundDrop_row h).1
  | .badCommand, h => (badCommand_row h).1
  | .statusRead, h => (statusRead_row h).1
  | .resultRead, h => (resultRead_row h).1
  | .resultDataRead, h => (resultDataRead_row h).1
  | .paramWrite _, h => (paramWrite_row h).1
  | .dataRead, h => (dataRead_row h).1
  | .dataWrite _, h => (dataWrite_row h).1
  | .dataPtrWrite _, h => (dataPtrWrite_row h).1
  | .completionRead, h => (completionRead_row h).1
  | .eventRead, h => (eventRead_row h).1
  | .inboundRead, h => (inboundRead_row h).1
  | .irqClear _, h => (irqClear_row h).1
  | .irqEnableWrite _, h => (irqEnableWrite_row h).1
  | .ignoredWrite _ _, h => (ignoredWrite_row h).1
  | .controllerReset _, h => (controllerReset_row h).1
  | .controllerResetEnd, h => (controllerResetEnd_row h).1
  | .resetAsserted, h => (resetAsserted_row h).1
  | .powerOnResetSequence, h => (powerOnResetSequence_row h).1
  | .powerOnResetEnd, h => (powerOnResetEnd_row h).1
  | .enterOnline, h => (enterOnline_row h).1
  | .transmitOpportunity, h => (transmitOpportunity_row h).1
  | .startMarker, h => (startMarker_row h).1
  | .arbitrationLost, h => (arbitrationLost_row h).1
  | .header _, h => (header_row h).1
  | .blockSlot _ _ _ _, h => (blockSlot_row h).1
  | .resendExhaustion, h => (resendExhaustion_row h).1
  | .bitError, h => (bitError_row h).1
  | .lossOfSyncEdges, h => (lossOfSyncEdges_row h).1
  | .normalEnd, h => (normalEnd_row h).1
  | .stuckDominant, h => (stuckDominant_row h).1
  | .recoveryTimerExpiry, h => (recoveryTimerExpiry_row h).1
  | .tick _ _, h => (tick_row h).1
  | .leaseExpiry _, h => (leaseExpiry_row h).1
  | .pendingExpiry _, h => (pendingExpiry_row h).1
  | .refreshWindowExpiry _, h => (refreshWindowExpiry_row h).1
  | .freshLifetimeExpiry _, h => (freshLifetimeExpiry_row h).1
  | .retryCountdownExpiry _, h => (retryCountdownExpiry_row h).1
  | .deadlineExpiry _, h => (deadlineExpiry_row h).1
  | .cmdWrite _, h => (cmdWrite_row h).1
  | .gapMeasurementRestart, h => (gapMeasurementRestart_row h).1

/-! ### The obligations -/

/-- Settles O1: with a command at the front, the step's own match takes it. -/
theorem stepTakesTheFront : Obligations.StepTakesTheFront := fun c rest s front => by
  rw [step, front]

/-- Settles O3: each row answers a next state, and its frame holds the queue. -/
theorem everyCommandHasANextState : Obligations.EveryCommandHasANextState := fun c s => by
  obtain ⟨t, next⟩ := exec_answers c s
  exact ⟨t, next, exec_keeps_pending next⟩

end Sys2Proof.Machine
end

section
/-!
PROOFS. RETIRE (R135).
-/

namespace Sys2Proof.Machine

/-- Settles O43: the job that the tag names, its state and its unread flag decide in turn. -/
theorem retireFreesTheSlot : Obligations.RetireFreesTheSlot := by
  refine fun s p hp => ⟨fun unknown => ?unknown, fun taken generation =>
    ⟨fun going => ?going, fun complete unread => ?unread, fun complete read => ⟨_, rfl, ?freed⟩⟩⟩
  case unknown => exact completing_finish hp (by simp only [retireEffect, knownTag_none unknown])
  all_goals have known := knownTag_of_generation taken generation
  case going =>
    refine completing_finish hp ?_
    simp only [retireEffect, known]
    exact if_pos going
  case unread =>
    refine completing_finish hp ?_
    simp only [retireEffect, known]
    exact (if_neg (not_not.2 complete)).trans (if_pos unread)
  case freed =>
    refine completing_finish hp (u := s.setJob _ _) ?_
    simp only [retireEffect, known]
    exact (if_neg (not_not.2 complete)).trans (if_neg (read ▸ Bool.false_ne_true))

end Sys2Proof.Machine
end

section
/-!
PROOFS. The ranges of the Link Engine, kept by every row and so by every step (R25 to R39).
-/

namespace Sys2Proof.Machine

section
variable {s t : State}

theorem linkLaw_finish (hs : s.linkLaw) (r : Result) (data : List Byte) : (s.finish r data).linkLaw :=
  linkLaw_congr (s := s) rfl rfl rfl rfl hs

theorem linkLaw_momentOver (hs : s.linkLaw) : s.momentOver.linkLaw :=
  linkLaw_congr (s := s) rfl rfl rfl rfl hs

/-! ### The configuration and the groups (R37, R39) -/

theorem configOf_ranges {p : Params} {c : NodeConfig} (h : configOf p = some c) :
    c.address ≠ 127 ∧ 1 ≤ c.lease ∧ 1 ≤ c.busyRetry ∧ 1 ≤ c.refreshWindow := by
  unfold configOf at h
  split at h
  next => cases h
  next =>
    split at h
    next inRange =>
      obtain ⟨-, address, lease, busyRetry, refreshWindow, -⟩ := inRange
      cases h
      refine ⟨fun full => ?_, lease, busyRetry, refreshWindow⟩
      have value : p[0].toNat % 2 ^ 7 = 127 := congrArg BitVec.toNat full
      omega
    next => cases h

theorem linkLaw_configureEffect (hs : s.linkLaw) (p : Params) : (configureEffect p s).linkLaw := by
  unfold configureEffect
  split
  · exact linkLaw_finish hs _ _
  next offline =>
    split
    · exact linkLaw_finish hs _ _
    next c taken =>
      obtain ⟨address, durations⟩ := configOf_ranges taken
      refine linkLaw_finish (s := { s with cfg := c }) ?_ _ _
      exact { hs with address, durations, configured := fun on => absurd on offline }

theorem groupsOf_zero (p : Params) : (groupsOf p).getLsbD 0 = false := by
  simp [groupsOf]

theorem linkLaw_setGroupsEffect (hs : s.linkLaw) (p : Params) : (setGroupsEffect p s).linkLaw :=
  linkLaw_finish (s := { s with groups := groupsOf p }) { hs with noGroupZero := groupsOf_zero p } _ _

/-! ### LINK_START and LINK_STOP (R34, R35) -/

theorem linkLaw_linkStartEffect (hs : s.linkLaw) (p : Params) : (linkStartEffect p s).linkLaw := by
  unfold linkStartEffect
  split
  · exact linkLaw_finish hs _ _
  next configured =>
    split
    iterate 2 exact linkLaw_finish (linkLaw_enterSyncing hs configured _) _ _
    all_goals exact linkLaw_finish hs _ _

/-- STOPPING is entered from ONLINE with a part in a telegram, which goes on (R36). -/
theorem linkLaw_stopping (hs : s.linkLaw) (hst : s.link.state = .online) (hp : s.link.role.hasPart = true) :
    (s.changeLink { s.link with state := .stopping } .command).linkLaw where
  errors := hs.errors
  errorsOnLink := fun full => by have := hs.errorsOnLink full; simp [hst] at this
  timer := hs.timer
  timerStopped := fun _ => hs.timerStopped (by simp [hst])
  part := fun _ _ => .inr ⟨rfl, hp⟩
  stopping := fun _ _ => hp
  cause := nofun
  slot := hs.slot
  address := hs.address
  configured := fun _ => hs.configured (by simp [hst])
  durations := hs.durations
  noGroupZero := hs.noGroupZero

theorem linkLaw_linkStopEffect (hs : s.linkLaw) (p : Params) : (linkStopEffect p s).linkLaw := by
  unfold linkStopEffect
  split
  iterate 2 exact linkLaw_finish hs _ _
  iterate 2 exact linkLaw_finish (linkLaw_enterOffline hs _) _ _
  next online =>
    split
    next part => exact linkLaw_finish (linkLaw_stopping hs online part) _ _
    next => exact linkLaw_finish (linkLaw_enterOffline hs _) _ _

/-! ### Joining and idling (R4, R5, R26, R27) -/

theorem linkLaw_joinLink (hs : s.linkLaw) : s.joinLink.linkLaw := by
  unfold State.joinLink
  split
  next syncing _ =>
    obtain ⟨errors, errorsOnLink, timer, timerStopped, -, -, -, -, address, configured, durations, groups⟩ := hs
    constructor <;> simp_all [State.changeLink]
  next => exact hs

/-- The law does not speak of the two measurements. -/
theorem linkLaw_restartGap (hs : s.linkLaw) : s.restartGap.linkLaw := by
  unfold State.restartGap
  split
  · exact { hs with }
  · exact hs

/-- An idle node in ONLINE takes part in a telegram, its own or another's. -/
theorem linkLaw_telegram (hs : s.linkLaw) (online : s.link.state = .online) (r : Role) (g : Gap) :
    State.linkLaw { s with link := { s.link with role := r, slot := [], gap := g } } :=
  { hs with
    part := fun _ _ => .inl online
    stopping := fun _ stopping => by rw [online] at stopping; cases stopping
    slot := Nat.zero_le _ }

theorem linkLaw_recogniseStart (hs : s.linkLaw) : s.recogniseStart.linkLaw := by
  unfold State.recogniseStart
  split
  next idle => exact linkLaw_telegram hs idle.1 _ _
  next =>
    split
    · exact linkLaw_restartGap hs
    · exact hs

theorem linkLaw_scan (l : List Slot) : ∀ {s : State}, s.linkLaw → s.link.state = .online →
    (s.scan l).linkLaw := by
  induction l with
  | nil => exact fun hs _ => hs
  | cons j l ih =>
    intro s hs online
    simp only [State.scan]
    repeat' split
    · exact ih hs online
    · exact ih (linkLaw_congr (s := s) (by simp) (by simp) (by simp) (by simp) hs) (by simpa using online)
    · exact linkLaw_congr (s := { s with link := (s.activate j).link }) (by simp) (by simp) (by simp) rfl
        (linkLaw_telegram hs online _ _)

theorem linkLaw_offerLink (hs : s.linkLaw) : s.offerLink.linkLaw := by
  unfold State.offerLink
  split
  next idle =>
    exact linkLaw_scan _ (s := { s with link := { s.link with gap := .complete } }) { hs with } idle.1
  next => exact hs

/-! ### The telegram's events -/

theorem linkLaw_loseArbitration (hs : s.linkLaw) (hm : s.mode = .running) : s.loseArbitration.linkLaw := by
  unfold State.loseArbitration
  split
  next hr =>
    refine linkLaw_leaveTelegram (linkLaw_congr (s := s) (by simp) (by simp) (by simp) (by simp) hs) _ ?_
    rw [(takeOutcome_keeps s _ _).2.2.2.2.2.2.1]
    exact (onLink hs hm (by simp [hr])).imp_right .inl
  all_goals exact hs

theorem linkLaw_loseSync (hs : s.linkLaw) (hm : s.mode = .running) : s.loseSync.linkLaw := by
  unfold State.loseSync
  split
  · exact hs
  · exact linkLaw_partLost hs hm

theorem linkLaw_bitError (hs : s.linkLaw) (hm : s.mode = .running) :
    (if s.mayMeetBitError then s.meetBitError .bystander else s).linkLaw := by
  split
  next may =>
    refine linkLaw_meetBitError hs hm (fun idle => ?_) _
    simp [State.mayMeetBitError, idle] at may
  next => exact hs

/-! ### Resets (R42, R175, R177) -/

theorem linkLaw_beginReset (hs : s.linkLaw) {mode : ResetMode} (hm : mode ≠ .running) :
    (s.beginReset mode).linkLaw :=
  { hs with
    part := fun running => absurd running hm
    stopping := fun running => absurd running hm
    slot := Nat.zero_le _ }

theorem linkLaw_blocksReset (s : State) (m : Memory) (mode : ResetMode) :
    State.linkLaw { s.blocksReset m with mode := mode } := by
  constructor <;> simp [State.blocksReset, State.reset, LinkEngine.reset, NodeConfig.reset]

/-! ### Every row -/

theorem linkLaw_takeShare (hs : s.linkLaw) (b : Bool) (x : TickShare) : (s.takeShare b x).linkLaw := by
  unfold State.takeShare
  split
  · exact hs
  · exact linkLaw_congr (s := s.applyShare b x) rfl rfl rfl rfl (linkLaw_applyShare hs b x)

theorem linkLaw_completing {code : Byte} {f : Params → State → State} (hs : s.linkLaw)
    (hf : ∀ p, (f p s).linkLaw) (h : s.completing code f = .next t) : t.linkLaw := by
  rcases completing_next h with rfl | ⟨p, -, -, rfl⟩
  · exact hs
  · exact hf p

theorem linkLaw_onLink {f : State → State} (hs : s.linkLaw)
    (hf : s.momentOver.linkLaw → s.mode = .running → (f s.momentOver).linkLaw)
    (h : s.onLink f = .next t) : t.linkLaw := by
  rcases onLink_next h with ⟨-, rfl⟩ | ⟨hm, rfl⟩
  · exact hs
  · exact hf (linkLaw_momentOver hs) hm

/-- The commands that touch nothing the law speaks of: neither the reset in progress, nor the configuration, nor the
groups, nor the link. -/
def sparesLinkLaw : Instr → Bool
  | .configure | .setGroups => false
  | .inboundDrop | .inboundRead => true
  | c => sparesLink c

theorem exec_sparesLinkLaw {c : Instr} (hc : sparesLinkLaw c = true) (h : exec c s = .next t) :
    t.mode = s.mode ∧ t.cfg = s.cfg ∧ t.groups = s.groups ∧ t.link = s.link := by
  cases c
  case pageDefine => simp [pageDefine_row h]
  case pageClose => simp [pageClose_row h]
  case pageFetch => simp [pageFetch_row h]
  case pageCommit => simp [pageCommit_row h]
  case localClaim => simp [localClaim_row h]
  case localRelease => simp [localRelease_row h]
  case breakClaim => simp [breakClaim_row h]
  case submit => simp [submit_row h]
  case cancel => simp [cancel_row h]
  case jobQuery => simp [jobQuery_row h]
  case jobFetch => simp [jobFetch_row h]
  case retire => simp [retire_row h]
  case peerRead => simp [peerRead_row h]
  case peerReset => simp [peerReset_row h]
  case inboundDrop => simp [inboundDrop_row h]
  case badCommand => simp [badCommand_row h]
  case statusRead => simp [statusRead_row h]
  case resultRead => simp [resultRead_row h]
  case resultDataRead => simp [resultDataRead_row h]
  case paramWrite => simp [paramWrite_row h]
  case dataRead => simp [dataRead_row h]
  case dataWrite => simp [dataWrite_row h]
  case dataPtrWrite => simp [dataPtrWrite_row h]
  case completionRead => simp [completionRead_row h]
  case eventRead => simp [eventRead_row h]
  case inboundRead => simp [inboundRead_row h]
  case irqClear => simp [irqClear_row h]
  case irqEnableWrite => simp [irqEnableWrite_row h]
  case ignoredWrite => simp [ignoredWrite_row h]
  case cmdWrite => simp [cmdWrite_row h]
  case leaseExpiry => simp [leaseExpiry_row h]
  case pendingExpiry => simp [pendingExpiry_row h]
  case refreshWindowExpiry => simp [refreshWindowExpiry_row h]
  case freshLifetimeExpiry => simp [freshLifetimeExpiry_row h]
  case retryCountdownExpiry => simp [retryCountdownExpiry_row h]
  case deadlineExpiry => simp [deadlineExpiry_row h]
  all_goals cases hc

theorem exec_linkLaw {c : Instr} (hs : s.linkLaw) (h : exec c s = .next t) : t.linkLaw := by
  by_cases hc : sparesLinkLaw c = true
  · obtain ⟨mode, cfg, groups, link⟩ := exec_sparesLinkLaw hc h
    exact linkLaw_congr mode cfg groups link hs
  cases c
  case configure => exact linkLaw_completing hs (linkLaw_configureEffect hs) h
  case setGroups => exact linkLaw_completing hs (linkLaw_setGroupsEffect hs) h
  case linkStart => exact linkLaw_completing hs (linkLaw_linkStartEffect hs) h
  case linkStop => exact linkLaw_completing hs (linkLaw_linkStopEffect hs) h
  case controllerReset value =>
    simp only [exec, execControllerReset] at h
    rcases hostWrite_next h with ⟨-, rfl⟩ | ⟨-, rfl⟩
    · exact hs
    split
    · exact linkLaw_beginReset hs nofun
    · exact hs
  case controllerResetEnd =>
    simp only [exec, execControllerResetEnd] at h
    split at h <;> cases h
    · exact linkLaw_blocksReset s _ _
    · exact hs
  case resetAsserted =>
    cases h
    exact linkLaw_blocksReset s _ _
  case powerOnResetSequence =>
    simp only [exec, execPowerOnResetSequence] at h
    split at h <;> cases h
    · exact { hs with part := nofun, stopping := nofun }
    · exact hs
  case powerOnResetEnd =>
    simp only [exec, execPowerOnResetEnd] at h
    split at h <;> cases h
    · exact linkLaw_blocksReset s _ _
    · exact hs
  case enterOnline => exact linkLaw_onLink hs (fun law _ => linkLaw_joinLink law) h
  case transmitOpportunity => exact linkLaw_onLink hs (fun law _ => linkLaw_offerLink law) h
  case startMarker => exact linkLaw_onLink hs (fun law _ => linkLaw_recogniseStart law) h
  case gapMeasurementRestart => exact linkLaw_onLink hs (fun law _ => linkLaw_restartGap law) h
  case arbitrationLost => exact linkLaw_onLink hs linkLaw_loseArbitration h
  case header part =>
    exact linkLaw_onLink (f := (·.takeHeaderPart part)) hs (linkLaw_takeHeaderPart · · part) h
  case blockSlot data check x y =>
    exact linkLaw_onLink (f := (·.takeBlock data check x y)) hs (linkLaw_takeBlock · · data check x y) h
  case resendExhaustion => exact linkLaw_onLink hs linkLaw_fifthNak h
  case bitError => exact linkLaw_onLink hs linkLaw_bitError h
  case lossOfSyncEdges => exact linkLaw_onLink hs linkLaw_loseSync h
  case normalEnd => exact linkLaw_onLink hs (fun law _ => linkLaw_reachEnd law) h
  case stuckDominant => exact linkLaw_onLink hs linkLaw_meetStuck h
  case recoveryTimerExpiry =>
    rcases expiryRow_next h with rfl | ⟨-, -, -, rfl⟩
    · exact hs
    · exact linkLaw_takeShare hs _ _
  case tick order b =>
    simp only [exec, execTick] at h
    rcases whenRunning_next h with ⟨-, rfl⟩ | ⟨-, rfl⟩
    · exact hs
    · exact tickBoundary_induct (fun u g law => linkLaw_congr (s := u) rfl rfl rfl rfl law)
        (fun u x law => linkLaw_applyShare law b x) order hs
  all_goals exact absurd rfl hc

end

/-- Settles O9: the law speaks neither of the queue nor of the tick generator, and every countdown's share and every
row keep it. -/
theorem linkLawKept : Obligations.LinkLawKept := fun _ _ hs h =>
  step_keeps (fun s _ _ law => linkLaw_congr (s := s) rfl rfl rfl rfl law)
    (fun _ b x _ law => linkLaw_applyShare law b x) (fun _ _ _ => exec_linkLaw) hs h

end Sys2Proof.Machine
end

section
/-!
PROOFS. The link state moves by the transition summary (2.12): what the end of the node's part, a stuck line, the
countdown of the recovery timer and the link's commands do to it.
-/

namespace Sys2Proof.Machine

/-- The state stays, or moves by a transition of the summary in 2.12. -/
def LinkState.Moves (a b : LinkState) : Prop :=
  b = a ∨ (a, b) ∈
    [(.offline, .syncing), (.syncing, .online), (.syncing, .offline), (.syncing, .faulted),
      (.online, .offline), (.online, .stopping), (.online, .faulted), (.stopping, .offline),
      (.stopping, .faulted), (.faulted, .syncing), (.faulted, .offline)]

/-- What an event of the telegram in progress does to the link state: nothing; in STOPPING the part's end leads
OFFLINE (R36); the eighth bit error of a node on the link leads to FAULTED (R29). -/
inductive PartMoves (s t : State) : Prop
  | stays (same : t.link.state = s.link.state)
  | stopped (stopping : s.link.state = .stopping) (offline : t.link.state = .offline)
  | faulted (on : s.link.state = .online ∨ s.link.state = .stopping) (faulted : t.link.state = .faulted)

section
variable {s t u : State}

theorem PartMoves.moves (h : PartMoves s t) : s.link.state.Moves t.link.state := by
  cases h with
  | stays same => exact .inl same
  | stopped stopping offline => rw [stopping, offline]; exact .inr (by decide)
  | faulted on faulted => rcases on with on | on <;> rw [on, faulted] <;> exact .inr (by decide)

/-- The state before the event may be any with the same link state. -/
theorem PartMoves.of_state (h : PartMoves u t) (same : u.link.state = s.link.state) : PartMoves s t := by
  cases h with
  | stays k => exact .stays (k.trans same)
  | stopped stopping offline => exact .stopped (same ▸ stopping) offline
  | faulted on faulted => exact .faulted (same ▸ on) faulted

/-! ### Ends of the part (R20, R28, R29, R36) -/

theorem leaveTelegram_part (s : State) (follow : Role) : PartMoves s (s.leaveTelegram follow) := by
  unfold State.leaveTelegram
  split
  next stopping => exact .stopped stopping rfl
  next => split <;> exact .stays rfl

theorem meetBitError_part (hs : s.linkLaw) (hm : s.mode = .running) (hr : s.link.role ≠ .idle) (follow : Role) :
    PartMoves s (s.meetBitError follow) := by
  unfold State.meetBitError
  dsimp only
  split
  · exact (leaveTelegram_part _ follow).of_state (by simp)
  · exact .faulted (onLink hs hm hr) rfl

theorem partLost_part (hs : s.linkLaw) (hm : s.mode = .running) : PartMoves s s.partLost := by
  unfold State.partLost
  split
  iterate 2 next hr => exact meetBitError_part hs hm (by simp [hr]) _
  iterate 2 exact (leaveTelegram_part _ _).of_state (by simp)
  iterate 2 exact leaveTelegram_part s _
  exact .stays rfl

theorem loseSync_part (hs : s.linkLaw) (hm : s.mode = .running) : PartMoves s s.loseSync := by
  unfold State.loseSync
  split
  · exact .stays rfl
  · exact partLost_part hs hm

theorem loseArbitration_part (s : State) : PartMoves s s.loseArbitration := by
  unfold State.loseArbitration
  split
  next => exact (leaveTelegram_part _ _).of_state (by simp)
  all_goals exact .stays rfl

theorem bitError_part (hs : s.linkLaw) (hm : s.mode = .running) :
    PartMoves s (if s.mayMeetBitError then s.meetBitError .bystander else s) := by
  split
  next may =>
    refine meetBitError_part hs hm (fun idle => ?_) _
    simp [State.mayMeetBitError, idle] at may
  next => exact .stays rfl

theorem reachEnd_part (s : State) : PartMoves s s.reachEnd := by
  unfold State.reachEnd
  split
  · exact (leaveTelegram_part _ _).of_state (by simp [State.cleanTelegram])
  · exact .stays rfl

/-! ### Blocks (R17 to R19) -/

theorem abandonTelegram_part (h : u.link.state = s.link.state) (o : Attempt) :
    PartMoves s (u.abandonTelegram o) :=
  (leaveTelegram_part _ _).of_state (by simpa using h)

theorem targetNak_part (s : State) : PartMoves s s.targetNak := by
  unfold State.targetNak
  dsimp only
  split
  · exact .stays rfl
  · refine abandonTelegram_part ?_ _
    rfl

theorem initiatorNak_part (s : State) : PartMoves s s.initiatorNak := by
  unfold State.initiatorNak
  split
  · exact .stays rfl
  · exact abandonTelegram_part rfl _

theorem fifthNak_part (s : State) : PartMoves s s.fifthNak := by
  unfold State.fifthNak
  repeat' split
  · exact .stays rfl
  · exact targetNak_part s
  · exact .stays rfl
  · exact initiatorNak_part s
  all_goals exact .stays rfl

theorem receiveBlock_part {passes : Bool} {x y : Level} {store nak : State → State}
    (error : PartMoves s (s.meetBitError .bystander)) (stored : PartMoves s (store s))
    (naked : PartMoves s (nak s)) : PartMoves s (s.receiveBlock passes x y store nak) := by
  unfold State.receiveBlock
  repeat' split
  · exact error
  · exact stored
  · exact naked

theorem sendBlock_part {asSent : Bool} {x y : Level} {advance nak : State → State}
    (error : PartMoves s (s.meetBitError .bystander)) (advanced : PartMoves s (advance s))
    (naked : PartMoves s (nak s)) : PartMoves s (s.sendBlock asSent x y advance nak) := by
  unfold State.sendBlock
  repeat' split
  · exact error
  · exact advanced
  · exact naked

theorem memberBlock_part (s : State) (h : Header) (passes : Bool) (bytes : List Byte) :
    PartMoves s (s.memberBlock h passes bytes) := by
  unfold State.memberBlock
  split
  · exact .stays rfl
  · refine abandonTelegram_part ?_ _
    rfl

theorem sendCollective_part {asSent : Bool} {x : Level} (error : PartMoves s (s.meetBitError .bystander)) :
    PartMoves s (s.sendCollective asSent x) := by
  unfold State.sendCollective
  split
  · exact error
  · exact .stays rfl

theorem takeBlock_part (hs : s.linkLaw) (hm : s.mode = .running) (data : Vector Byte 8) (check : Byte)
    (x y : Level) : PartMoves s (s.takeBlock data check x y) := by
  unfold State.takeBlock
  split
  · exact .stays rfl
  split
  next hr =>
    have error := meetBitError_part hs hm (by simp [hr]) .bystander
    dsimp only
    split
    · exact receiveBlock_part error (.stays rfl) (targetNak_part s)
    · exact sendBlock_part error (.stays rfl) (targetNak_part s)
  next => exact memberBlock_part s _ _ _
  next hr =>
    have error := meetBitError_part hs hm (by simp [hr]) .bystander
    dsimp only
    repeat' split
    · exact sendCollective_part error
    · exact sendBlock_part error (.stays rfl) (initiatorNak_part s)
    · exact receiveBlock_part error (.stays rfl) (initiatorNak_part s)
  all_goals exact .stays rfl

/-! ### The header (R7, R11, R14, R15) -/

theorem takeHeaderPart_part (hs : s.linkLaw) (hm : s.mode = .running) (part : HeaderPart) :
    PartMoves s (s.takeHeaderPart part) := by
  cases part with
  | arbitrationWon =>
    refine .stays ?_
    simp only [State.takeHeaderPart, State.winArbitration]
    split <;> rfl
  | headerBits bits =>
    simp only [State.takeHeaderPart, State.takeHeaderBits]
    split
    next =>
      split
      · exact .stays (by simp [State.handOver])
      · exact .stays rfl
    next hr =>
      repeat' split
      · exact .stays rfl
      · exact .stays rfl
      · exact meetBitError_part hs hm (by simp [hr]) _
    all_goals exact .stays rfl
  | slotBit l =>
    simp only [State.takeHeaderPart, State.takeSlotBit]
    split
    · exact .stays rfl
    split
    next hr =>
      split
      · exact .stays rfl
      · exact meetBitError_part hs hm (by simp [hr]) _
    next => exact .stays rfl
    next => exact (leaveTelegram_part _ _).of_state rfl
    next =>
      split
      · exact .stays (by simp [State.pushSlot])
      · exact .stays rfl
    all_goals exact .stays rfl

/-! ### A stuck line (R30, R31) -/

/-- Where a line that is found stuck leads a node that has no part in a telegram any more. -/
def LinkState.afterStuck : LinkState → LinkState
  | .syncing | .online | .stopping | .faulted => .faulted
  | .offline => .offline

theorem meetStuck_state (s : State) : s.meetStuck.link.state = s.partLost.link.state.afterStuck := by
  unfold State.meetStuck
  dsimp only
  split
  iterate 3 next h => rw [h]; rfl
  next h => exact h.trans (by rw [h]; rfl)
  next h => exact h.trans (by rw [h]; rfl)

/-- A part on the link ends first, and where that leads OFFLINE the line is no longer watched. -/
theorem meetStuck_state_moves (hs : s.linkLaw) (hm : s.mode = .running) :
    s.link.state.Moves s.meetStuck.link.state := by
  rw [meetStuck_state]
  cases partLost_part hs hm with
  | stays same => rw [same]; cases s.link.state <;> unfold LinkState.Moves <;> decide
  | stopped stopping offline => rw [stopping, offline]; exact .inr (by decide)
  | faulted on faulted => rcases on with on | on <;> rw [on, faulted] <;> exact .inr (by decide)

/-! ### The link's commands, joining and idling (R26, R27, R34, R35) -/

theorem linkStartEffect_state (p : Params) (s : State) :
    s.link.state.Moves (linkStartEffect p s).link.state := by
  unfold linkStartEffect
  split
  · exact .inl rfl
  split
  iterate 2 next start => rw [start]; exact .inr (by simp [State.enterSyncing, State.changeLink])
  all_goals exact .inl rfl

theorem linkStopEffect_state (p : Params) (s : State) :
    s.link.state.Moves (linkStopEffect p s).link.state := by
  unfold linkStopEffect
  split
  iterate 2 exact .inl rfl
  iterate 2 next start => rw [start]; exact .inr (by simp [State.enterOffline, State.changeLink])
  next online =>
    rw [online]
    split <;> exact .inr (by simp [State.enterOffline, State.changeLink])

theorem joinLink_state (s : State) : s.link.state.Moves s.joinLink.link.state := by
  unfold State.joinLink
  split
  next syncing _ => rw [syncing]; exact .inr (by simp [State.changeLink])
  next => exact .inl rfl

theorem restartGap_state (s : State) : s.restartGap.link.state = s.link.state := by
  unfold State.restartGap
  split <;> rfl

theorem recogniseStart_state (s : State) : s.recogniseStart.link.state = s.link.state := by
  unfold State.recogniseStart
  split
  · rfl
  · split
    · exact restartGap_state s
    · rfl

theorem scan_state (l : List Slot) : ∀ s : State, (s.scan l).link.state = s.link.state := by
  induction l with
  | nil => exact fun _ => rfl
  | cons j l ih =>
    intro s
    simp only [State.scan]
    repeat' split
    · exact ih s
    · exact (ih _).trans (by simp)
    · rfl

theorem offerLink_state (s : State) : s.offerLink.link.state = s.link.state := by
  unfold State.offerLink
  split
  · exact scan_state _ _
  · rfl

/-! ### Time (R31, R32) -/

/-- A tick moves the link state from FAULTED to SYNCING alone. -/
def State.Recovers (s t : State) : Prop :=
  t.link.state = s.link.state ∨ s.link.state = .faulted ∧ t.link.state = .syncing

theorem State.Recovers.moves (h : s.Recovers t) : s.link.state.Moves t.link.state := by
  rcases h with same | ⟨faulted, syncing⟩
  · exact .inl same
  · rw [faulted, syncing]; exact .inr (by decide)

theorem recoveryTick_recovers (s : State) (b : Bool) : s.Recovers (s.recoveryTick b) := by
  unfold State.recoveryTick
  split
  · exact .inl rfl
  next faulted =>
    dsimp only
    repeat' split
    · exact .inl rfl
    · exact .inr ⟨not_not.1 faulted, rfl⟩
    · exact .inl rfl

theorem applyShare_recovers (h : s.Recovers t) (b : Bool) (x : TickShare) : s.Recovers (t.applyShare b x) := by
  cases x with
  | recovery =>
    rcases h with same | ⟨faulted, syncing⟩
    · exact (recoveryTick_recovers t b).imp (·.trans same) fun ⟨left, entered⟩ => ⟨same ▸ left, entered⟩
    · rcases recoveryTick_recovers t b with same | ⟨faulted', -⟩
      · exact .inr ⟨faulted, same.trans syncing⟩
      · rw [syncing] at faulted'
        cases faulted'
  | lease | freshness | deadline | retry =>
    simpa [State.applyShare, State.Recovers] using h

theorem tickBoundary_recovers (s : State) (order : List TickShare) (b : Bool) :
    s.Recovers (s.tickBoundary order b) :=
  tickBoundary_induct (P := s.Recovers) (fun _ _ h => h) (fun _ x h => applyShare_recovers h b x) order (.inl rfl)

/-! ### Every row -/

theorem onLink_state {f : State → State}
    (hf : s.mode = .running → s.momentOver.link.state.Moves (f s.momentOver).link.state)
    (h : s.onLink f = .next t) : s.link.state.Moves t.link.state := by
  rcases onLink_next h with ⟨-, rfl⟩ | ⟨hm, rfl⟩
  · exact .inl rfl
  · exact hf hm

theorem completing_state {code : Byte} {f : Params → State → State}
    (hf : ∀ p, s.link.state.Moves (f p s).link.state) (h : s.completing code f = .next t) :
    s.link.state.Moves t.link.state := by
  rcases completing_next h with rfl | ⟨p, -, -, rfl⟩
  · exact .inl rfl
  · exact hf p

theorem exec_state {c : Instr} (hs : s.linkLaw) (hm : s.mode = .running) (h : exec c s = .next t)
    (ht : t.mode = .running) : s.link.state.Moves t.link.state := by
  by_cases hc : sparesLinkLaw c = true
  · obtain ⟨-, -, -, link⟩ := exec_sparesLinkLaw hc h
    exact .inl (by rw [link])
  have law := linkLaw_momentOver hs
  cases c
  case configure => exact .inl (by simp [configure_row h])
  case setGroups => exact .inl (by simp [setGroups_row h])
  case linkStart => exact completing_state (linkStartEffect_state · s) h
  case linkStop => exact completing_state (linkStopEffect_state · s) h
  case controllerReset value =>
    simp only [exec, execControllerReset] at h
    rcases hostWrite_next h with ⟨-, rfl⟩ | ⟨-, rfl⟩
    · exact .inl rfl
    split <;> exact .inl rfl
  case controllerResetEnd =>
    simp only [exec, execControllerResetEnd, hm] at h
    cases h
    exact .inl rfl
  case resetAsserted =>
    cases h
    cases ht
  case powerOnResetSequence =>
    simp only [exec, execPowerOnResetSequence, hm] at h
    cases h
    exact .inl rfl
  case powerOnResetEnd =>
    simp only [exec, execPowerOnResetEnd, hm] at h
    cases h
    exact .inl rfl
  case enterOnline => exact onLink_state (fun _ => joinLink_state _) h
  case transmitOpportunity => exact onLink_state (fun _ => .inl (offerLink_state _)) h
  case startMarker => exact onLink_state (fun _ => .inl (recogniseStart_state _)) h
  case gapMeasurementRestart => exact onLink_state (fun _ => .inl (restartGap_state _)) h
  case arbitrationLost => exact onLink_state (fun _ => (loseArbitration_part _).moves) h
  case header part =>
    exact onLink_state (f := (·.takeHeaderPart part)) (fun hm => (takeHeaderPart_part law hm part).moves) h
  case blockSlot data check x y =>
    exact onLink_state (f := (·.takeBlock data check x y)) (fun hm => (takeBlock_part law hm data check x y).moves) h
  case resendExhaustion => exact onLink_state (fun _ => (fifthNak_part _).moves) h
  case bitError => exact onLink_state (fun hm => (bitError_part law hm).moves) h
  case lossOfSyncEdges => exact onLink_state (fun hm => (loseSync_part law hm).moves) h
  case normalEnd => exact onLink_state (fun _ => (reachEnd_part _).moves) h
  case stuckDominant => exact onLink_state (fun hm => meetStuck_state_moves law hm) h
  case recoveryTimerExpiry =>
    rcases expiryRow_next h with rfl | ⟨-, -, fresh, rfl⟩
    · exact .inl rfl
    · rw [State.takeShare, if_neg fresh]
      exact (recoveryTick_recovers s false).moves
  case tick order b =>
    simp only [exec, execTick] at h
    rcases whenRunning_next h with ⟨-, rfl⟩ | ⟨-, rfl⟩
    · exact .inl rfl
    · exact (tickBoundary_recovers s order b).moves
  all_goals exact absurd rfl hc

end

/-- Settles O18: a bit period moves the link state as its tick does, and every row moves it by the table. -/
theorem linkStateMovesByTheTable : Obligations.LinkStateMovesByTheTable := fun s t hs hm h ht => by
  rcases step_next h with ⟨-, rfl⟩ | ⟨c, rest, -, hc⟩
  · rcases bitPeriod_cases s with hb | hb | ⟨-, hb⟩ <;> rw [hb]
    · exact .inl rfl
    · exact .inl rfl
    · exact (tickBoundary_recovers s _ _).moves
  · exact exec_state (s := { s with pending := rest }) (linkLaw_congr (s := s) rfl rfl rfl rfl hs) hm hc ht

end Sys2Proof.Machine
end

section
/-!
PROOFS. CONFIGURE, SET_GROUPS, LINK_START and LINK_STOP (R25, R33 to R39).
-/

namespace Sys2Proof.Machine

section
variable {s : State} {p : Params}

/-! ### CONFIGURE and SET_GROUPS (R37, R39) -/

theorem grade_ofCode_none_iff {b : Byte} : Grade.ofCode b = none ↔ 3 < b.toNat := by
  unfold Grade.ofCode
  split <;> grind

/-- The ranges that bytes 0 to 6 of CONFIGURE must be in (R37). -/
def ConfigInRange (p : Params) : Prop :=
  1 ≤ p[0].toNat ∧ p[0].toNat ≤ 126 ∧ p[1].toNat ≤ 3 ∧ 1 ≤ p[2].toNat ∧ 1 ≤ p[3].toNat ∧ 1 ≤ p[4].toNat ∧
    1 ≤ p[5].toNat ∧ p[5].toNat ≤ 100 ∧ p[6].toNat < p[5].toNat

/-- What the bytes say, value by value. -/
structure NodeConfig.Carries (c : NodeConfig) (p : Params) : Prop where
  address : c.address.toNat = p[0].toNat
  grade : Grade.ofCode p[1] = some c.grade
  lease : c.lease = p[2].toNat
  busyRetry : c.busyRetry = p[3].toNat
  refreshWindow : c.refreshWindow = p[4].toNat
  degradeThreshold : c.degradeThreshold = p[5].toNat
  unreachableThreshold : c.unreachableThreshold = p[6].toNat
  autoRecover : c.autoRecover = p[7].getLsbD 0
  acceptMessages : c.acceptMessages = p[7].getLsbD 1

theorem configOf_inRange (h : ConfigInRange p) : ∃ c, configOf p = some c ∧ c.Carries p := by
  obtain ⟨low, high, code, rest⟩ := h
  cases hg : Grade.ofCode p[1] with
  | none => exact absurd (grade_ofCode_none_iff.1 hg) (Nat.not_lt.2 code)
  | some g =>
    refine ⟨_, by rw [configOf, hg]; exact if_pos ⟨low, high, rest⟩, ?_, hg, rfl, rfl, rfl, rfl, rfl, rfl, rfl⟩
    simp only [BitVec.toNat_setWidth]
    omega

theorem configOf_outOfRange (h : ¬ConfigInRange p) : configOf p = none := by
  unfold configOf
  split
  · rfl
  next g hg =>
    have code : p[1].toNat ≤ 3 := Nat.not_lt.1 fun unnamed => by
      rw [grade_ofCode_none_iff.2 unnamed] at hg
      cases hg
    exact if_neg fun ⟨low, high, rest⟩ => h ⟨low, high, code, rest⟩

theorem getLsbD_fourBytes (a b c d : Byte) {k : Nat} (hk : k < 8) :
    let w : BitVec 32 := a ++ b ++ c ++ d
    w.getLsbD k = d.getLsbD k ∧ w.getLsbD (8 + k) = c.getLsbD k ∧ w.getLsbD (16 + k) = b.getLsbD k ∧
      w.getLsbD (24 + k) = a.getLsbD k := by
  intro w
  have bit (i : Nat) : w.getLsbD i = (a ++ b ++ c ++ d : BitVec (8 + 8 + 8 + 8)).getLsbD i := rfl
  simp only [bit, BitVec.getLsbD_append]
  refine ⟨?_, ?_, ?_, ?_⟩
  · rw [if_pos hk]
  · rw [if_neg (by omega), if_pos (by omega)]
    congr 1
    omega
  · rw [if_neg (by omega), if_neg (by omega), if_pos (by omega)]
    congr 1
    omega
  · rw [if_neg (by omega), if_neg (by omega), if_neg (by omega)]
    congr 1
    omega

/-- Group 0 alone is masked out. -/
theorem getLsbD_groupMask (w : BitVec 32) {i : Nat} (hi : i < 32) (h0 : i ≠ 0) :
    (w &&& 0xFFFFFFFE#32).getLsbD i = w.getLsbD i := by
  have mask : ∀ k < 32, k ≠ 0 → (0xFFFFFFFE#32).getLsbD k = true := by decide
  rw [BitVec.getLsbD_and, mask i hi h0, Bool.and_true]

/-- The four bytes of SET_GROUPS, the highest groups first, but for group 0 (R39). -/
theorem groupsOf_bits (p : Params) : (groupsOf p).getLsbD 0 = false ∧ ∀ k < 8,
    (k ≠ 0 → (groupsOf p).getLsbD k = p[3].getLsbD k) ∧ (groupsOf p).getLsbD (8 + k) = p[2].getLsbD k ∧
      (groupsOf p).getLsbD (16 + k) = p[1].getLsbD k ∧ (groupsOf p).getLsbD (24 + k) = p[0].getLsbD k := by
  refine ⟨by simp [groupsOf], fun k hk => ?_⟩
  obtain ⟨first, second, third, fourth⟩ := getLsbD_fourBytes p[0] p[1] p[2] p[3] hk
  exact ⟨fun h0 => (getLsbD_groupMask _ (by omega) h0).trans first,
    (getLsbD_groupMask _ (by omega) (by omega)).trans second,
    (getLsbD_groupMask _ (by omega) (by omega)).trans third,
    (getLsbD_groupMask _ (by omega) (by omega)).trans fourth⟩

end

/-- Settles O30. -/
theorem nodeConfiguration : Obligations.NodeConfiguration := by
  refine ⟨fun s p hp => ⟨fun on => ?_, fun offline out => ?_, fun offline inRange => ?_⟩,
    fun s p hp => ⟨groupsOf p, completing_finish (u := { s with groups := groupsOf p }) hp rfl, groupsOf_bits p⟩, rfl⟩
  · exact completing_finish hp (if_pos on)
  · refine completing_finish hp ?_
    rw [configureEffect, if_neg (not_not.2 offline), configOf_outOfRange out]
  · obtain ⟨c, taken, carries⟩ := configOf_inRange inRange
    obtain ⟨address, grade, lease, busyRetry, refreshWindow, degrade, unreachable, recover, accept⟩ := carries
    refine ⟨c, completing_finish (u := { s with cfg := c }) hp ?_, address, grade, lease, busyRetry, refreshWindow,
      degrade, unreachable, recover, accept⟩
    rw [configureEffect, if_neg (not_not.2 offline), taken]

/-! ### LINK_START and LINK_STOP (R34, R35) -/

/-- Settles O31: the address, the link state and the part decide in turn. -/
theorem linkCommands : Obligations.LinkCommands := by
  refine ⟨fun s p hp => ⟨fun none => ?unconfigured, fun some stopping => ?stopping, fun some going => ?going,
      fun some still => ?starts⟩,
    fun s p hp => ⟨fun still => ?still, fun online part => ?part, fun leaves => ?leaves⟩, rfl,
    fun _ _ _ _ => ⟨rfl, rfl, rfl, rfl⟩, rfl, rfl, rfl⟩
  case unconfigured => exact completing_finish hp (if_pos none)
  case stopping =>
    refine completing_finish hp ((if_neg some).trans ?_)
    rw [stopping]
  case going =>
    refine completing_finish hp ((if_neg some).trans ?_)
    rcases going with state | state <;> rw [state]
  case starts =>
    refine completing_finish hp (u := s.enterSyncing .command) ((if_neg some).trans ?_)
    rcases still with state | state <;> rw [state]
  case still =>
    refine completing_finish hp ?_
    rcases still with state | state <;> rw [linkStopEffect, state]
  case part =>
    refine completing_finish hp (u := s.changeLink { s.link with state := .stopping } .command) ?_
    rw [linkStopEffect, online]
    exact if_pos part
  case leaves =>
    refine completing_finish hp (u := s.enterOffline .command) ?_
    rcases leaves with state | state | ⟨state, idle⟩ <;> rw [linkStopEffect, state]
    exact if_neg (idle ▸ Bool.false_ne_true)

end Sys2Proof.Machine
end

section
/-!
PROOFS. The transmit opportunity that finds an eligible job (R27, R118, R121).
-/

namespace Sys2Proof.Machine

theorem scan_append_heldBack {s : State} {pre rest : List Slot} (h : ∀ i ∈ pre, s.heldBack i = true) :
    s.scan (pre ++ rest) = s.scan rest := by
  induction pre with
  | nil => rfl
  | cons i pre ih =>
    rw [List.cons_append, State.scan, if_pos (h i List.mem_cons_self)]
    exact ih fun k hk => h k (List.mem_cons_of_mem _ hk)

/-- With the gap complete the first eligible job of the scan becomes ACTIVE; it is judged by the jobs, the submission
order and the peers, and the gap is none of them (R118 to R120). -/
theorem scan_offered {s : State} {pre post : List Slot} {j : Slot} (held : ∀ i ∈ pre, s.heldBack i = true)
    (free : s.heldBack j = false) (slow : s.failsFast j = false) :
    State.scan { s with link := { s.link with gap := .complete } } (pre ++ j :: post) = s.activate j := by
  rw [scan_append_heldBack (s := { s with link := { s.link with gap := .complete } }) held]
  exact scan_eligible (s := { s with link := { s.link with gap := .complete } }) free slow

/-- Settles O44: the scan passes the jobs that are held back and activates the next one. -/
theorem opportunityActivatesTheFirstEligibleJob : Obligations.OpportunityActivatesTheFirstEligibleJob := by
  intro s₀ pre j post s running online idle gap split held free slow
  refine exec_transmitOpportunity (s := s₀) running ⟨online, idle, gap⟩ ?_
  rw [show s₀.lists.toList.flatten = _ from split]
  exact (scan_offered (s := s) held free slow).trans (activate_eq s j)

end Sys2Proof.Machine
end

section
/-!
PROOFS. An attempt's outcome reported to the Peer Health Table (R139, R141 to R143).
-/

namespace Sys2Proof.Machine

section
variable {s : State} {a : Addr} {e : PeerEntry}

theorem peer_address (h : s.peer a = some e) : e.address = a := by
  simpa using List.find?_some h

theorem scoreAfter_eq (e : PeerEntry) (o : Attempt) (dt : Nat) : e.scoreAfter o dt =
    if o = .silence then e.score - 25 else if o = .resendExhaustion then e.score - 10
    else if o = .normalEnd then (if e.state = .unreachable then max e.score dt else min 100 (e.score + 4))
    else e.score := by
  cases o <;> rfl

theorem stateAfter_eq (e : PeerEntry) (o : Attempt) (dt ut : Nat) : e.stateAfter o dt ut =
    if o = .linkLost then e.state
    else if e.state = .unreachable ∧ o ≠ .normalEnd then .unreachable else bandOf (e.scoreAfter o dt) dt ut := by
  unfold PeerEntry.stateAfter
  by_cases lost : o = .linkLost
  · rw [if_pos (.inl lost), if_pos lost]
  · by_cases out : e.state = .unreachable ∧ o ≠ .normalEnd
    · rw [if_pos (.inr out), if_neg lost, if_pos out, out.1]
    · rw [if_neg (not_or.2 ⟨lost, out⟩), if_neg lost, if_neg out]

theorem reportPeer_entry (o : Attempt) (h : s.peer a = some e) {e' : PeerEntry}
    (reported : e.reported o s.cfg.degradeThreshold s.cfg.unreachableThreshold = e') : s.reportPeer a o = { s with
      peers := e' :: s.peers.filter fun x => x.address != a
      events := if e'.state = e.state then s.events
        else s.events.post ⟨.peerState, a.setWidth 8, e'.state.code, byte e'.score⟩ s.ticks.stamp } := by
  have own : e'.address = a := by rw [← reported]; exact peer_address (e := e) h
  simp only [State.reportPeer, h, reported]
  split <;> simp [movedToFront, State.postNotice, peerNotice, own]

end

/-- Settles O49: the entry that the outcome leaves is the one the rules spell out. -/
theorem outcomesScoreThePeer : Obligations.OutcomesScoreThePeer := by
  refine ⟨fun s a o e known => ?_, rfl⟩
  intro dt score derived state e'
  refine reportPeer_entry o known ?_
  have scored : e.scoreAfter o dt = score := scoreAfter_eq e o dt
  have stated : e.stateAfter o dt s.cfg.unreachableThreshold = state := by
    rw [stateAfter_eq, scored]
    rfl
  rw [PeerEntry.reported, scored, stated]
  rfl

end Sys2Proof.Machine
end

section
/-!
PROOFS. The reset state: its values and the laws that hold in it (R42, R44, R60, R100, R111, R137, R149, R162, R178).
-/

namespace Sys2Proof.Machine

theorem reset_page (p : Page) : State.reset.page p = .default := by
  simp [State.page, State.reset]

theorem reset_freeBlocks : State.reset.freeBlocks = List.finRange 64 :=
  List.filter_eq_self.2 fun b _ => by simp [State.reset, JobSlot.free]

/-- Settles O4. -/
theorem resetLeavesTheStartingState : Obligations.ResetLeavesTheStartingState := by
  refine ⟨⟨rfl, rfl, rfl, rfl, rfl, rfl, rfl, rfl, rfl, rfl, rfl⟩, ⟨rfl, rfl, rfl, rfl, rfl, rfl, rfl, rfl, rfl⟩,
    ⟨reset_page, fun _ => rfl, rfl⟩, ⟨rfl, rfl, rfl, rfl, rfl, rfl, rfl⟩, ⟨rfl, rfl, rfl, rfl, rfl⟩,
    ⟨fun j => ?job, ?blocks, fun pr => ?list, rfl, rfl, rfl, rfl, rfl⟩, ⟨rfl, rfl, rfl, rfl, rfl⟩,
    ⟨?params, rfl, rfl, rfl, rfl, rfl, rfl, rfl, fun _ => rfl, rfl⟩⟩
  case job => rw [job_reset rfl]; exact ⟨rfl, rfl⟩
  case blocks => rw [reset_freeBlocks, List.length_finRange]
  case list => simp [State.list, State.reset]
  case params => decide

/-- Settles O5: the laws of the jobs hold wherever the job tables are those of the reset, as every step of a reset needs
them to; where another table is empty there is nothing its law could forbid. -/
theorem lawsHoldAtReset : Obligations.LawsHoldAtReset where
  memory := ⟨rfl, rfl, rfl, rfl⟩
  events := ⟨Nat.zero_le _, .nil, nofun, Nat.zero_le _, fun _ => rfl⟩
  peers := ⟨Nat.zero_le _, .nil, nofun, nofun, by decide⟩
  link := linkLaw_blocksReset .reset [] .running
  accept := acceptLaw_blocksReset .reset [] .running
  pages := pageLaw_default rfl rfl
  active := activeLaw_reset [] none [] .running
  one := oneActive_of_activeLaw (activeLaw_reset [] none [] .running) rfl
  lists := listLaw_reset rfl rfl rfl
  completions := completionLaw_moves.reset trivial _ rfl rfl rfl rfl
  pool := poolLaw_moves.reset trivial _ rfl rfl rfl rfl
  ordered := (orderedLaw_moves.reset trivial _ rfl rfl rfl rfl).2
  references := fun j waiting => by simp [job_reset rfl, JobSlot.free, JobSlot.pending] at waiting
  port := ⟨Nat.zero_le _, Nat.zero_le _, Nat.zero_le _, Nat.zero_le _⟩

end Sys2Proof.Machine
end

section
/-!
SUPPORT. The shares of a tick: what one countdown's share makes of its page, its job or the link, said once (R31, R32,
R57, R69, R70, R125, R129).
-/

namespace Sys2Proof.Machine

section
variable {s : State}

/-- The share is marked as taken (log entry 5). -/
def State.markTaken (s : State) (x : TickShare) : State :=
  { s with ticks := { s.ticks with taken := x :: s.ticks.taken } }

theorem takeShare_toCome {x : TickShare} (b : Bool) (h : x ∉ s.ticks.taken) :
    s.takeShare b x = (s.applyShare b x).markTaken x := if_neg h

theorem takeShare_taken {x : TickShare} (b : Bool) (h : x ∈ s.ticks.taken) : s.takeShare b x = s := if_pos h

/-- An expiry row whose moment has come takes its share alone. -/
theorem expiryRow_due {x : TickShare} {due : Bool} {t : State} (hm : s.mode = .running) (hd : due = true)
    (hx : x ∉ s.ticks.taken) (h : s.applyShare false x = t) : s.expiryRow x due = .next (t.markTaken x) := by
  rw [State.expiryRow, whenRunning_running _ hm, hd, decide_eq_true hx, Bool.and_self, if_pos rfl,
    takeShare_toCome false hx, h]

theorem expiryRow_notDue {x : TickShare} (hm : s.mode = .running) : s.expiryRow x false = .next s :=
  whenRunning_running _ hm

/-! ### The last step of each countdown -/

theorem recoveryTick_last (hst : s.link.state = .faulted) (ht : s.link.recoveryTimer = 1) :
    s.recoveryTick false =
      if s.cfg.autoRecover then { s with
        link := ⟨.syncing, .idle, [], .running, .running, 0, 0, some .recovery⟩
        events := s.events.post
          ⟨.linkState, LinkState.syncing.code, s.cfg.address.setWidth 8, Cause.recovery.code⟩ s.ticks.stamp }
      else { s with link := { s.link with dominance := .running, recoveryTimer := 0 } } := by
  unfold State.recoveryTick
  rw [if_neg (not_not.2 hst), if_neg Bool.false_ne_true, ht]
  by_cases auto : s.cfg.autoRecover = true
  · simp only [auto]
    rfl
  · simp only [auto]
    rfl

theorem leaseTick_lapses {p : Page} {a : Addr} (hh : (s.page p).holder = .node a) (hl : (s.page p).lease = 1)
    (hf : s.inFlight p = false) : s.leaseTick p = { s with
      pages := s.pages.set p { s.page p with holder := .none, lease := 0 }
      events := s.events.post ⟨.claimExpired, byte p.val, a.setWidth 8, 1⟩ s.ticks.stamp } := by
  simp only [State.leaseTick, hh, hl, hf]
  rfl

theorem leaseTick_pends {p : Page} {a : Addr} (hh : (s.page p).holder = .node a) (hl : (s.page p).lease = 1)
    (hf : s.inFlight p = true) : s.leaseTick p = { s with
      pages := s.pages.set p { s.page p with lease := 0 } } := by
  simp only [State.leaseTick, hh, hl, hf]
  rfl

theorem freshnessTick_last {p : Page} (hd : (s.page p).mode = .deferred) (hc : (s.page p).countdown = 1)
    (hf : (s.page p).freshness ≠ .stale) (hs : s.sparesPage p = false) : s.freshnessTick p = { s with
      pages := s.pages.set p { s.page p with freshness := .stale, countdown := 0 } } := by
  have last : (s.page p).freshnessTick = { s.page p with freshness := .stale, countdown := 0 } :=
    (if_pos ⟨hd, hf, by omega⟩).trans (if_pos hc)
  rw [State.freshnessTick, hs, last]
  rfl

theorem sparesPage_requested {p : Page} (h : (s.page p).freshness = .requested) : s.sparesPage p = false := by
  simp [State.sparesPage, h]

theorem sparesPage_fresh {p : Page} (h : (s.page p).freshness = .fresh) :
    s.sparesPage p = decide (p ∈ s.ticks.spared) := by
  simp [State.sparesPage, h]

theorem deadlineDue_iff {job : JobSlot} :
    job.deadlineDue = true ↔ job.pending = true ∧ job.deadline ≠ 0 ∧ job.deadlineRemaining = 1 := by
  simp only [JobSlot.deadlineDue, JobSlot.deadlineRuns, JobSlot.pending]
  grind

theorem deadlineTick_expires {j : Slot} (hd : (s.job j).deadlineDue = true) (ha : (s.job j).state ≠ .active) :
    s.deadlineTick j =
      State.completeJob { s with jobs := s.jobs.set j { s.job j with deadlineRemaining := 0 } } j .expired := by
  obtain ⟨-, -, last⟩ := deadlineDue_iff.1 hd
  have runs : (s.job j).deadlineRuns = true := (Bool.and_eq_true_iff.1 hd).1
  simp only [State.deadlineTick, runs, hd, last, if_neg ha]
  rfl

theorem deadlineTick_requests {j : Slot} (hd : (s.job j).deadlineDue = true) (ha : (s.job j).state = .active) :
    s.deadlineTick j = { s with
      jobs := s.jobs.set j { s.job j with deadlineRemaining := 0, expiryRequested := true } } := by
  have runs : (s.job j).deadlineRuns = true := (Bool.and_eq_true_iff.1 hd).1
  simp only [State.deadlineTick, runs, hd, if_pos ha]
  rfl

theorem deadlineAhead_iff {j : Slot} : s.deadlineAhead j = true ↔
    (s.job j).deadlineDue = true ∧ .deadline j ∉ s.ticks.taken := by
  simp [State.deadlineAhead]

theorem retryTick_returns {j : Slot} (hw : (s.job j).state = .waiting) (hc : (s.job j).retryCountdown ≤ 1)
    (ha : s.deadlineAhead j = false) : s.retryTick j = s.requeueTail j := by
  unfold State.retryTick
  rw [if_neg (not_not.2 hw), if_neg (Nat.not_lt.2 hc), ha, if_neg Bool.false_ne_true]

end

end Sys2Proof.Machine
end

section
/-!
PROOFS. The expiry rows (R32, R57, R69, R70, R125, R129).
-/

namespace Sys2Proof.Machine

/-- Settles O60: each row's moment has come, and its share is the last step of its countdown. -/
theorem expiryRowsTakeTheirShare : Obligations.ExpiryRowsTakeTheirShare := by
  intro s hm takes
  refine ⟨fun faulted last toCome => ?recovery,
    fun p a held last toCome => ⟨fun grounded => ?lapses, fun flight => ?pends⟩,
    fun p deferred last toCome => ?freshness,
    fun j bounded last toCome => ⟨fun still => ?expires, fun active => ?requests⟩,
    fun j waiting last toCome apart => ?returns⟩
  case recovery =>
    exact expiryRow_due hm (by simp [State.recoveryDue, faulted, last]) toCome (recoveryTick_last faulted last)
  case lapses =>
    exact expiryRow_due hm (by simp [PageEntry.leaseDue, Holder.remote, held, last, grounded]) toCome
      (leaseTick_lapses held last grounded)
  case pends =>
    exact expiryRow_due hm (by simp [PageEntry.leaseDue, Holder.remote, held, last, flight]) toCome
      (leaseTick_pends held last flight)
  case freshness =>
    refine ⟨fun requested => ?_, fun fresh free => ?_, fun fresh spared => ?_⟩
    · exact expiryRow_due hm (by simp [PageEntry.freshnessDue, deferred, last, requested]) toCome
        (freshnessTick_last deferred last (by simp [requested]) (sparesPage_requested requested))
    · have kept : s.sparesPage p = false := by simp [sparesPage_fresh fresh, free]
      exact expiryRow_due hm (by simp [PageEntry.freshnessDue, deferred, last, fresh, kept]) toCome
        (freshnessTick_last deferred last (by simp [fresh]) kept)
    · have kept : s.sparesPage p = true := by simp [sparesPage_fresh fresh, spared]
      have row : exec (.freshLifetimeExpiry p) s = s.expiryRow (.freshness p) false := by
        simp only [exec, execFreshLifetimeExpiry, kept, Bool.not_true, Bool.and_false]
      exact row.trans (expiryRow_notDue hm)
  case expires =>
    have due : (s.job j).deadlineDue = true :=
      deadlineDue_iff.2 ⟨by rcases still with h | h <;> simp [JobSlot.pending, h], bounded, last⟩
    exact expiryRow_due hm due toCome
      (deadlineTick_expires due (by rcases still with h | h <;> simp [h]))
  case requests =>
    have due : (s.job j).deadlineDue = true :=
      deadlineDue_iff.2 ⟨by simp [JobSlot.pending, active], bounded, last⟩
    exact expiryRow_due hm due toCome (deadlineTick_requests due active)
  case returns =>
    have ahead : s.deadlineAhead j = false := by
      rw [← Bool.not_eq_true, deadlineAhead_iff, deadlineDue_iff]
      rintro ⟨⟨-, counts, ends⟩, apart'⟩
      rcases apart with h | h | h
      · exact counts h
      · exact h ends
      · exact apart' h
    exact expiryRow_due hm (by simp [State.retryDue, waiting, last, ahead]) toCome
      (retryTick_returns waiting (by omega) ahead)

end Sys2Proof.Machine
end

section
/-!
PROOFS. The local bit period (R40, R42; log entries 4 and 28).
-/

namespace Sys2Proof.Machine

/-- The shares of a tick leave the phase and the stamp as the boundary has set them (R40). -/
theorem tickBoundary_stamp (s : State) (order : List TickShare) (b : Bool) :
    (s.tickBoundary order b).ticks.phase = 0 ∧ (s.tickBoundary order b).ticks.stamp = s.ticks.stamp + 1 := by
  refine takeShares_induct (P := fun t => t.ticks.phase = 0 ∧ t.ticks.stamp = s.ticks.stamp + 1)
    (fun t x h => ?_) _ s.advanceStamp ⟨rfl, rfl⟩
  by_cases taken : x ∈ t.ticks.taken
  · rw [takeShare_taken b taken]
    exact h
  · rw [takeShare_toCome b taken]
    simpa [State.markTaken] using h

/-- Settles O2: the two branches of a bit period, on the phase. -/
theorem idleStepIsOneBitPeriod : Obligations.IdleStepIsOneBitPeriod := by
  intro s idle
  have row : step s = .next s.bitPeriod := by rw [step, idle]
  refine ⟨fun held => ?held, fun hm between => ?between, fun hm last => ?boundary⟩
  case held => rw [row, State.bitPeriod, if_pos held]
  case between =>
    rw [row, State.bitPeriod, if_neg (not_not.2 hm), if_neg between]
    rfl
  case boundary =>
    have tick : s.bitPeriod = s.tickBoundary [] (s.link.dominance == .exceeded) := by
      rw [State.bitPeriod, if_neg (not_not.2 hm), if_pos last]
    have boundary := whenRunning_running (·.tickBoundary [] (s.link.dominance == .exceeded)) hm
    exact ⟨row.trans ((congrArg _ tick).trans boundary.symm), _, row.trans (congrArg _ tick),
      tickBoundary_stamp s _ _⟩

end Sys2Proof.Machine
end

section
/-!
SUPPORT. A tick under way: which countdowns have stepped so far, and what the part is then. Each share adds its own
step, so that at the end every countdown has stepped once (R40).
-/

namespace Sys2Proof.Machine

/-! ### What a tick finds (R31, R57, R69, R125, R129) -/

/-- The share has not been taken before the tick (log entry 5). -/
abbrev State.toCome (s : State) (x : TickShare) : Prop := x ∉ s.ticks.taken

abbrev State.recovers (s : State) (stuck : Bool) : Prop :=
  s.toCome .recovery ∧ s.link.state = .faulted ∧ stuck = false ∧ s.link.recoveryTimer = 1 ∧
    s.cfg.autoRecover = true

abbrev State.lapses (s : State) (p : Page) : Prop :=
  s.toCome (.lease p) ∧ (s.page p).holder.remote = true ∧ (s.page p).lease = 1 ∧ s.inFlight p = false

abbrev State.ages (s : State) (p : Page) : Prop :=
  s.toCome (.freshness p) ∧ (s.page p).mode = .deferred ∧ (s.page p).freshness ≠ .stale ∧
    ((s.page p).freshness = .requested ∨ p ∉ s.ticks.spared)

abbrev State.runs (s : State) (j : Slot) : Prop :=
  s.toCome (.deadline j) ∧ (s.job j).pending = true ∧ (s.job j).deadline ≠ 0

abbrev State.expires (s : State) (j : Slot) : Prop :=
  s.runs j ∧ (s.job j).state ≠ .active ∧ (s.job j).deadlineRemaining = 1

abbrev State.waits (s : State) (j : Slot) : Prop := s.toCome (.retry j) ∧ (s.job j).state = .waiting

abbrev State.returns (s : State) (j : Slot) : Prop :=
  s.waits j ∧ (s.job j).retryCountdown ≤ 1 ∧ ¬s.expires j

/-- The job's deadline takes it out of the list of priority `pr` (R132). -/
abbrev State.leavesList (s : State) (pr : BitVec 2) (j : Slot) : Prop :=
  s.expires j ∧ (s.job j).priority = pr

/-! ### What it leaves, once the shares in `done` are taken -/

/-- The notice a share posts (R32, R69). -/
def State.tickNotice (s : State) (stuck : Bool) : TickShare → Option Notice
  | .recovery =>
    if s.recovers stuck then
      some ⟨.linkState, LinkState.syncing.code, s.cfg.address.setWidth 8, Cause.recovery.code⟩
    else none
  | .lease p => if s.lapses p then some ⟨.claimExpired, byte p.val, (s.page p).holder.code, 1⟩ else none
  | .freshness _ | .deadline _ | .retry _ => none

/-- The completion record a share posts (R129, R132). -/
def State.tickRecord (s : State) : TickShare → Option CompletionRecord
  | .deadline j =>
    if s.expires j then some ⟨jobTag j (s.job j).generation, .expired, (s.job j).attempts, 0,
      (s.job j).busyResponses, (s.job j).lastResponse, s.ticks.stamp + 1⟩
    else none
  | .recovery | .lease _ | .freshness _ | .retry _ => none

/-- The job a share returns to its list (R125). -/
def State.tickReturned (s : State) : TickShare → Option Slot
  | .retry j => if s.returns j then some j else none
  | .recovery | .lease _ | .freshness _ | .deadline _ => none

/-- The link after the recovery timer's share (R31, R32). -/
def State.tickedLink (s : State) (stuck : Bool) : LinkEngine :=
  if s.link.state ≠ .faulted then s.link
  else if stuck then { s.link with dominance := .exceeded, recoveryTimer := 64 }
  else if s.link.recoveryTimer = 1 ∧ s.cfg.autoRecover = true then
    ⟨.syncing, .idle, [], .running, .running, 0, 0, some .recovery⟩
  else { s.link with dominance := .running, recoveryTimer := s.link.recoveryTimer - 1 }

def State.tickedPage (s : State) (done : List TickShare) (p : Page) : PageEntry :=
  { s.page p with
    holder := if .lease p ∈ done ∧ s.lapses p then .none else (s.page p).holder
    lease := if .lease p ∈ done ∧ (s.page p).holder.remote = true then (s.page p).lease - 1
      else (s.page p).lease
    freshness := if .freshness p ∈ done ∧ s.ages p ∧ (s.page p).countdown = 1 then .stale
      else (s.page p).freshness
    countdown := if .freshness p ∈ done ∧ s.ages p then (s.page p).countdown - 1 else (s.page p).countdown }

/-- A retry countdown of a job that expires at the tick is left where it cannot return the job (R129). -/
def State.tickedJob (s : State) (done : List TickShare) (j : Slot) : JobSlot :=
  if .deadline j ∈ done ∧ s.expires j then { s.job j with
    state := .complete, deadlineRemaining := 0, retryCountdown := 0, result := .expired, bytesDone := 0
    unread := true }
  else { s.job j with
    state := if .retry j ∈ done ∧ s.returns j then .queued else (s.job j).state
    deadlineRemaining := if .deadline j ∈ done ∧ s.runs j then (s.job j).deadlineRemaining - 1
      else (s.job j).deadlineRemaining
    expiryRequested := if .deadline j ∈ done ∧ s.runs j ∧ (s.job j).deadlineRemaining = 1 then true
      else (s.job j).expiryRequested
    retryCountdown := if .retry j ∈ done ∧ s.waits j ∧ ¬((s.job j).retryCountdown ≤ 1 ∧ s.expires j) then
      (s.job j).retryCountdown - 1 else (s.job j).retryCountdown }

def State.tickedList (s : State) (done : List TickShare) (pr : BitVec 2) : List Slot :=
  ((s.list pr).filter fun j => ¬(.deadline j ∈ done ∧ s.leavesList pr j)) ++
    (done.filterMap s.tickReturned).filter fun j => (s.job j).priority = pr

/-- The tick of `s` has come to `u`, with the shares in `done` taken in that order. -/
structure State.Ticking (s : State) (stuck : Bool) (done : List TickShare) (u : State) : Prop where
  ticks : u.ticks = ⟨0, s.ticks.stamp + 1, done.reverse ++ s.ticks.taken, s.ticks.spared⟩
  cfg : u.cfg = s.cfg
  responder : u.responder = s.responder
  link : u.link = if .recovery ∈ done then s.tickedLink stuck else s.link
  page : ∀ p, u.page p = s.tickedPage done p
  job : ∀ j, u.job j = s.tickedJob done j
  list : ∀ pr, u.list pr = s.tickedList done pr
  submission : u.submission = s.submission.filter fun j => ¬(.deadline j ∈ done ∧ s.expires j)
  completions : u.completions = { s.completions with
    records := s.completions.records ++ done.filterMap s.tickRecord }
  events : u.events =
    (done.filterMap (s.tickNotice stuck)).foldl (fun e n => e.post n (s.ticks.stamp + 1)) s.events

section
variable {s u : State} {stuck : Bool} {done : List TickShare} {x : TickShare}

theorem State.Ticking.start (s : State) (stuck : Bool) : s.Ticking stuck [] s.advanceStamp where
  ticks := rfl
  cfg := rfl
  responder := rfl
  link := rfl
  page := fun p => by simp [State.tickedPage]; rfl
  job := fun j => by simp [State.tickedJob]; rfl
  list := fun pr => by simp [State.tickedList]; rfl
  submission := by simp [State.advanceStamp]
  completions := by simp [State.advanceStamp]
  events := rfl

/-- A share that is not taken in `u` was to come at the tick, and is not among those taken since. -/
theorem State.Ticking.fresh (h : s.Ticking stuck done u) (hx : x ∉ u.ticks.taken) :
    x ∉ done ∧ s.toCome x := by
  rw [h.ticks] at hx
  simpa using hx

theorem State.Ticking.inFlight (h : s.Ticking stuck done u) (p : Page) : u.inFlight p = s.inFlight p :=
  inFlight_congr (by rw [h.responder]) p

/-! ### The link (R31, R32) -/

theorem State.Ticking.link_step (h : s.Ticking stuck done u) (hx : x ∉ u.ticks.taken) :
    (u.applyShare stuck x).link = if .recovery ∈ done ++ [x] then s.tickedLink stuck else s.link := by
  obtain ⟨new, -⟩ := h.fresh hx
  cases x with
  | recovery =>
    have link : u.link = s.link := by rw [h.link, if_neg new]
    rw [if_pos (by simp)]
    simp only [State.applyShare, State.recoveryTick, State.tickedLink, link, h.cfg]
    repeat' split
    · exact link
    all_goals rfl
  | lease | freshness | deadline | retry => simp [State.applyShare, h.link]

/-! ### A page (R57, R69, R70) -/

/-- One step of a page's lease (R69, R70). -/
def PageEntry.leaseTicked (e : PageEntry) (flight : Bool) : PageEntry :=
  { e with
    holder := if e.holder.remote = true ∧ e.lease = 1 ∧ flight = false then .none else e.holder
    lease := if e.holder.remote = true then e.lease - 1 else e.lease }

/-- A freshness countdown that the tick steps (R57, R58). -/
abbrev State.counts (u : State) (p : Page) : Prop :=
  (u.page p).mode = .deferred ∧ (u.page p).freshness ≠ .stale ∧
    ((u.page p).freshness = .requested ∨ p ∉ u.ticks.spared)

theorem setPage_self (u : State) (p : Page) : u.setPage p (u.page p) = u := by
  have same : u.pages.set p (u.page p) = u.pages := Vector.set_getElem_self ..
  rw [State.setPage, same]

theorem setJob_self (u : State) (j : Slot) : u.setJob j (u.job j) = u := by
  have same : u.jobs.set j (u.job j) = u.jobs := Vector.set_getElem_self ..
  rw [State.setJob, same]

/-- No claim whose lease could step. -/
theorem leaseTicked_still {e : PageEntry} (h : e.holder.remote = false ∨ e.lease = 0) (flight : Bool) :
    e.leaseTicked flight = e := by
  obtain ⟨⟩ := e
  rcases h with h | h <;> simp_all [PageEntry.leaseTicked]

theorem leaseTick_page (u : State) (p q : Page) : (u.leaseTick p).page q =
    if q = p then (u.page p).leaseTicked (u.inFlight p) else u.page q := by
  rw [← page_setPage]
  unfold State.leaseTick
  dsimp only
  split
  next unclaimed => rw [leaseTicked_still (.inl (by rw [unclaimed]; rfl)), setPage_self]
  next own => rw [leaseTicked_still (.inl (by rw [own]; rfl)), setPage_self]
  next a held =>
    have remote : (u.page p).holder.remote = true := by rw [held]; rfl
    split
    next out => rw [leaseTicked_still (.inr out), setPage_self]
    split
    next last =>
      cases flight : u.inFlight p
      · have step : (u.page p).leaseTicked false = { u.page p with holder := .none, lease := 0 } := by
          simp [PageEntry.leaseTicked, remote, last]
        rw [step]
        rfl
      · have step : (u.page p).leaseTicked true = { u.page p with lease := 0 } := by
          simp [PageEntry.leaseTicked, remote, last]
        rw [step]
        rfl
    next between =>
      have step : (u.page p).leaseTicked (u.inFlight p) = { u.page p with lease := (u.page p).lease - 1 } := by
        simp [PageEntry.leaseTicked, remote, between]
      rw [step]

theorem freshnessTick_eq (e : PageEntry) : e.freshnessTick = { e with
    freshness := if (e.mode = .deferred ∧ e.freshness ≠ .stale) ∧ e.countdown = 1 then .stale else e.freshness
    countdown := if e.mode = .deferred ∧ e.freshness ≠ .stale then e.countdown - 1 else e.countdown } := by
  unfold PageEntry.freshnessTick
  by_cases counts : e.mode = .deferred ∧ e.freshness ≠ .stale
  · simp only [counts, and_true, true_and, if_true, ne_eq, not_false_eq_true]
    obtain ⟨⟩ := e
    split
    · split <;> simp_all
    · simp_all
  · rw [if_neg fun h => counts ⟨h.1, h.2.1⟩]
    simp [counts]

/-- One step of a page's freshness countdown, where it counts (R57, R58). -/
theorem freshnessTick_page (u : State) (p q : Page) : (u.freshnessTick p).page q = if q = p then
    { u.page p with
      freshness := if u.counts p ∧ (u.page p).countdown = 1 then .stale else (u.page p).freshness
      countdown := if u.counts p then (u.page p).countdown - 1 else (u.page p).countdown }
    else u.page q := by
  rw [← page_setPage]
  have counts : u.counts p ↔ ((u.page p).mode = .deferred ∧ (u.page p).freshness ≠ .stale) ∧
      u.sparesPage p = false := by
    cases fresh : (u.page p).freshness <;> simp [State.counts, State.sparesPage, fresh]
  simp only [counts]
  unfold State.freshnessTick
  cases u.sparesPage p
  · simp only [freshnessTick_eq, Bool.false_eq_true, if_false, and_true]
  · simp only [Bool.true_eq_false, and_false, false_and, if_false, if_true]
    exact congrArg (State.page · q) (setPage_self u p).symm

theorem State.Ticking.page_step (h : s.Ticking stuck done u) (hx : x ∉ u.ticks.taken) (q : Page) :
    (u.applyShare stuck x).page q = s.tickedPage (done ++ [x]) q := by
  obtain ⟨new, toCome⟩ := h.fresh hx
  cases x with
  | lease p =>
    rw [State.applyShare, leaseTick_page]
    split
    next hq =>
      subst hq
      simp [h.page, h.inFlight, State.tickedPage, PageEntry.leaseTicked, State.lapses, State.toCome, new, toCome]
    next hq => simp [h.page, State.tickedPage, hq]
  | freshness p =>
    rw [State.applyShare, freshnessTick_page]
    split
    next hq =>
      subst hq
      have spared : u.ticks.spared = s.ticks.spared := by rw [h.ticks]
      simp [h.page, State.tickedPage, State.counts, State.ages, State.toCome, new, toCome, spared]
    next hq => simp [h.page, State.tickedPage, hq]
  | recovery | deadline | retry =>
    rw [page_congr (s := u) (by simp [State.applyShare]), h.page]
    simp [State.tickedPage]

/-! ### A job (R125, R129) -/

/-- One step of a job's deadline that does not complete it (R129). -/
def JobSlot.deadlineTicked (job : JobSlot) : JobSlot :=
  { job with
    deadlineRemaining := if job.pending = true ∧ job.deadline ≠ 0 then job.deadlineRemaining - 1
      else job.deadlineRemaining
    expiryRequested := if job.pending = true ∧ job.deadline ≠ 0 ∧ job.deadlineRemaining = 1 then true
      else job.expiryRequested }

/-- One step of a job's retry countdown that does not return it (R125). -/
def JobSlot.retryTicked (job : JobSlot) : JobSlot :=
  { job with
    retryCountdown := if job.state = .waiting ∧ 1 < job.retryCountdown then job.retryCountdown - 1
      else job.retryCountdown }

theorem deadlineRuns_iff {job : JobSlot} : job.deadlineRuns = true ↔
    (job.pending = true ∧ job.deadline ≠ 0) ∧ job.deadlineRemaining ≠ 0 := by
  simp [JobSlot.deadlineRuns, JobSlot.pending]

theorem deadlineTicked_still {job : JobSlot}
    (h : ¬((job.pending = true ∧ job.deadline ≠ 0) ∧ job.deadlineRemaining ≠ 0)) : job.deadlineTicked = job := by
  have stopped : job.pending = true ∧ job.deadline ≠ 0 → job.deadlineRemaining = 0 :=
    fun counts => by_contra fun between => h ⟨counts, between⟩
  have notLast : ¬(job.pending = true ∧ job.deadline ≠ 0 ∧ job.deadlineRemaining = 1) := by
    rintro ⟨pending, bounded, last⟩
    have := stopped ⟨pending, bounded⟩
    omega
  rw [JobSlot.deadlineTicked, if_neg notLast]
  split
  next counts => rw [stopped counts, Nat.zero_sub, ← stopped counts]
  next => rfl

theorem retryTicked_still {job : JobSlot} (h : ¬(job.state = .waiting ∧ 1 < job.retryCountdown)) :
    job.retryTicked = job := by
  rw [JobSlot.retryTicked, if_neg h]

theorem deadlineTick_counts {j : Slot} (h : (u.job j).deadlineDue = true → (u.job j).state = .active) :
    u.deadlineTick j = u.setJob j (u.job j).deadlineTicked := by
  by_cases due : (u.job j).deadlineDue = true
  · obtain ⟨pending, bounded, last⟩ := deadlineDue_iff.1 due
    rw [deadlineTick_requests due (h due), State.setJob]
    simp [JobSlot.deadlineTicked, pending, bounded, last]
  by_cases runs : (u.job j).deadlineRuns = true
  · obtain ⟨counts, between⟩ := deadlineRuns_iff.1 runs
    have notLast : ¬((u.job j).pending = true ∧ (u.job j).deadline ≠ 0 ∧ (u.job j).deadlineRemaining = 1) :=
      deadlineDue_iff.not.1 due
    simp only [State.deadlineTick, runs, due, JobSlot.deadlineTicked, if_neg notLast, if_pos counts]
    rfl
  · have stopped : ¬(((u.job j).pending = true ∧ (u.job j).deadline ≠ 0) ∧ (u.job j).deadlineRemaining ≠ 0) :=
      deadlineRuns_iff.not.1 runs
    rw [deadlineTicked_still stopped, setJob_self, State.deadlineTick]
    simp only [runs]
    rfl

theorem retryTick_counts {j : Slot}
    (h : (u.job j).state = .waiting → (u.job j).retryCountdown ≤ 1 → u.deadlineAhead j = true) :
    u.retryTick j = u.setJob j (u.job j).retryTicked := by
  unfold State.retryTick
  dsimp only
  split
  next other => rw [retryTicked_still fun h => other h.1, setJob_self]
  next waiting =>
    split
    next between => simp [JobSlot.retryTicked, not_not.1 waiting, between]
    next last =>
      rw [retryTicked_still fun h => last h.2, setJob_self, h (not_not.1 waiting) (by omega)]
      rfl

/-- The tick finds the job as `s` has it, but for its retry countdown and a return to its list. -/
theorem State.Ticking.untimed (h : s.Ticking stuck done u) {j : Slot} (new : .deadline j ∉ done) :
    u.job j = { s.job j with
      state := if .retry j ∈ done ∧ s.returns j then .queued else (s.job j).state
      retryCountdown := (u.job j).retryCountdown } := by
  simp [h.job, State.tickedJob, new]

theorem State.Ticking.untimed_pending (h : s.Ticking stuck done u) {j : Slot} (new : .deadline j ∉ done) :
    (u.job j).pending = (s.job j).pending ∧ ((u.job j).state = .active ↔ (s.job j).state = .active) := by
  rw [h.untimed new]
  by_cases back : .retry j ∈ done ∧ s.returns j
  · have waiting : (s.job j).state = .waiting := back.2.1.2
    rw [if_pos back]
    simp [JobSlot.pending, waiting]
  · rw [if_neg back]
    simp [JobSlot.pending]

/-- The deadline's share of a job: it completes the job EXPIRED, or it steps the deadline (R129). -/
theorem State.Ticking.deadline_cases (h : s.Ticking stuck done u) {j : Slot} (hx : .deadline j ∉ u.ticks.taken) :
    s.expires j ∧ u.deadlineTick j =
        State.completeJob (u.setJob j { u.job j with deadlineRemaining := 0 }) j .expired ∨
      ¬s.expires j ∧ u.deadlineTick j = u.setJob j (u.job j).deadlineTicked := by
  obtain ⟨new, toCome⟩ := h.fresh hx
  obtain ⟨pending, active⟩ := h.untimed_pending new
  have due : (u.job j).deadlineDue = true ↔
      (s.job j).pending = true ∧ (s.job j).deadline ≠ 0 ∧ (s.job j).deadlineRemaining = 1 := by
    rw [deadlineDue_iff, pending, h.untimed new]
  by_cases ends : s.expires j
  · have ⟨⟨_, counts, bounded⟩, still, last⟩ := ends
    exact .inl ⟨ends, deadlineTick_expires (due.2 ⟨counts, bounded, last⟩) (active.not.2 still)⟩
  · refine .inr ⟨ends, deadlineTick_counts fun h => by_contra fun still => ends ?_⟩
    obtain ⟨counts, bounded, last⟩ := due.1 h
    exact ⟨⟨toCome, counts, bounded⟩, active.not.1 still, last⟩

/-- The retry countdown's share of a job: it returns the job to its list, or it steps the countdown; a job that
expires at the tick stays (R125, R129). -/
theorem State.Ticking.retry_cases (h : s.Ticking stuck done u) {j : Slot} (hx : .retry j ∉ u.ticks.taken) :
    s.returns j ∧ u.retryTick j = u.requeueTail j ∨
      ¬s.returns j ∧ u.retryTick j = u.setJob j (u.job j).retryTicked := by
  obtain ⟨new, toCome⟩ := h.fresh hx
  by_cases gone : .deadline j ∈ done ∧ s.expires j
  · have complete : (u.job j).state = .complete := by rw [h.job, State.tickedJob, if_pos gone]
    exact .inr ⟨fun back => back.2.2 gone.2, retryTick_counts fun waiting => by simp [complete] at waiting⟩
  have same : u.job j = { s.job j with
      deadlineRemaining := (u.job j).deadlineRemaining, expiryRequested := (u.job j).expiryRequested } := by
    rw [h.job, State.tickedJob, if_neg gone]
    simp [new]
  have ahead : (s.job j).state = .waiting → (u.deadlineAhead j = true ↔ s.expires j) := by
    intro waiting
    rw [deadlineAhead_iff]
    constructor
    · rintro ⟨due, hd⟩
      obtain ⟨new, toCome⟩ := h.fresh hd
      rw [deadlineDue_iff, (h.untimed_pending new).1, h.untimed new] at due
      obtain ⟨pending, bounded, last⟩ := due
      exact ⟨⟨toCome, pending, bounded⟩, by simp [waiting], last⟩
    · intro ends
      have ⟨⟨toCome, pending, bounded⟩, _, last⟩ := ends
      have new : .deadline j ∉ done := fun hd => gone ⟨hd, ends⟩
      rw [deadlineDue_iff, (h.untimed_pending new).1, h.untimed new, h.ticks]
      exact ⟨⟨pending, bounded, last⟩, by simpa using ⟨new, toCome⟩⟩
  have returns : (u.job j).state = .waiting → (u.job j).retryCountdown ≤ 1 →
      (s.returns j ↔ u.deadlineAhead j = false) := by
    rw [same]
    intro waiting last
    rw [← Bool.not_eq_true, ahead waiting]
    exact ⟨fun back => back.2.2, fun free => ⟨⟨toCome, waiting⟩, last, free⟩⟩
  by_cases back : s.returns j
  · have ⟨⟨_, waiting⟩, last, _⟩ := back
    have waiting' : (u.job j).state = .waiting := by rw [same, waiting]
    have last' : (u.job j).retryCountdown ≤ 1 := by rw [same]; exact last
    exact .inl ⟨back, retryTick_returns waiting' last' ((returns waiting' last').1 back)⟩
  · exact .inr ⟨back, retryTick_counts fun waiting last =>
      Bool.not_eq_false _ ▸ (returns waiting last).not.1 back⟩

/-- The share of job `j`'s deadline or retry countdown. -/
def concernsJob (j : Slot) : TickShare → Prop
  | .deadline i | .retry i => i = j
  | .recovery | .lease _ | .freshness _ => False

theorem applyShare_job_other {j : Slot} (hx : ¬concernsJob j x) : (u.applyShare stuck x).job j = u.job j := by
  cases x with
  | deadline i =>
    have hj : j ≠ i := fun h => hx h.symm
    simp only [State.applyShare, State.deadlineTick]
    repeat' split
    · rfl
    all_goals simp [completeJob_job, job_setJob, hj]
  | retry i =>
    have hj : j ≠ i := fun h => hx h.symm
    simp only [State.applyShare, State.retryTick]
    repeat' split
    any_goals rfl
    all_goals simp [requeueTail_job, job_setJob, hj]
  | recovery | lease | freshness => exact job_congr (by simp [State.applyShare]) j

theorem tickedJob_other {j : Slot} (hx : ¬concernsJob j x) : s.tickedJob (done ++ [x]) j = s.tickedJob done j := by
  have deadline : .deadline j ∈ done ++ [x] ↔ .deadline j ∈ done := by
    simp only [List.mem_append, List.mem_singleton, or_iff_left_iff_imp]
    rintro rfl
    exact absurd rfl hx
  have retry : .retry j ∈ done ++ [x] ↔ .retry j ∈ done := by
    simp only [List.mem_append, List.mem_singleton, or_iff_left_iff_imp]
    rintro rfl
    exact absurd rfl hx
  simp only [State.tickedJob, deadline, retry]

theorem State.Ticking.job_step (h : s.Ticking stuck done u) (hx : x ∉ u.ticks.taken) (j : Slot) :
    (u.applyShare stuck x).job j = s.tickedJob (done ++ [x]) j := by
  by_cases hj : concernsJob j x
  case neg => rw [applyShare_job_other hj, tickedJob_other hj, h.job]
  obtain ⟨new, toCome⟩ := h.fresh hx
  cases x with
  | deadline i =>
    obtain rfl : i = j := hj
    rw [State.applyShare]
    rcases h.deadline_cases hx with ⟨ends, tick⟩ | ⟨goes, tick⟩
    · rw [tick, completeJob_job, if_pos rfl, job_setJob_self, State.tickedJob, if_pos ⟨by simp, ends⟩,
        h.untimed new]
      rfl
    · rw [tick, job_setJob_self, State.tickedJob, if_neg fun h => goes h.2, JobSlot.deadlineTicked,
        (h.untimed_pending new).1, h.job, State.tickedJob, if_neg fun h => goes h.2]
      simp [State.runs, State.toCome, new, toCome, Bool.and_assoc]
  | retry i =>
    obtain rfl : i = j := hj
    rw [State.applyShare]
    have here : .retry i ∈ done ++ [.retry i] := by simp
    have kept : .deadline i ∈ done ++ [.retry i] ↔ .deadline i ∈ done := by simp
    rcases h.retry_cases hx with ⟨back, tick⟩ | ⟨stays, tick⟩
    · have going (l : List TickShare) : ¬(.deadline i ∈ l ∧ s.expires i) := fun h => back.2.2 h.2
      have counts : s.waits i ∧ ¬((s.job i).retryCountdown ≤ 1 ∧ s.expires i) := ⟨back.1, fun h => back.2.2 h.2⟩
      have zero : (s.job i).retryCountdown - 1 = 0 := Nat.sub_eq_zero_of_le back.2.1
      rw [tick, requeueTail_job, if_pos rfl, h.job, State.tickedJob, State.tickedJob, if_neg (going _),
        if_neg (going _), if_pos (And.intro here back), if_pos (And.intro here counts), zero]
      simp only [kept]
    · rw [tick, job_setJob_self, h.job]
      by_cases gone : .deadline i ∈ done ∧ s.expires i
      · rw [retryTicked_still (by simp [State.tickedJob, if_pos gone]), State.tickedJob, State.tickedJob,
          if_pos gone, if_pos ⟨kept.2 gone.1, gone.2⟩]
      · have old {q : Prop} : ¬(.retry i ∈ done ∧ q) := fun h => new h.1
        have unreturned : ¬(.retry i ∈ done ++ [.retry i] ∧ s.returns i) := fun h => stays h.2
        have steps : (s.job i).state = .waiting ∧ 1 < (s.job i).retryCountdown ↔
            .retry i ∈ done ++ [.retry i] ∧ s.waits i ∧ ¬((s.job i).retryCountdown ≤ 1 ∧ s.expires i) := by
          constructor
          · exact fun ⟨waiting, between⟩ => ⟨here, ⟨toCome, waiting⟩, fun h => by omega⟩
          · exact fun ⟨_, waits, apart⟩ => ⟨waits.2, by_contra fun last =>
              stays ⟨waits, by omega, fun ends => apart ⟨by omega, ends⟩⟩⟩
        rw [State.tickedJob, State.tickedJob, if_neg gone, if_neg (mt (And.imp_left kept.1) gone),
          JobSlot.retryTicked, if_neg old, if_neg old, if_neg unreturned]
        simp only [kept, steps]
  | recovery | lease | freshness => exact hj.elim

/-! ### The lists (R115, R125, R132) -/

theorem filterMap_concat {α β : Type} (f : α → Option β) (l : List α) (x : α) :
    (l ++ [x]).filterMap f = l.filterMap f ++ (f x).toList := by
  rw [List.filterMap_append]
  cases h : f x <;> simp [h]

theorem filter_remain {l : List Slot} {gone gone' : Slot → Prop} [DecidablePred gone]
    [DecidablePred gone'] (h : ∀ i, gone' i ↔ gone i) : (l.filter fun i => ¬gone i) = l.filter fun i => ¬gone' i :=
  List.filter_congr fun i _ => by simp [h]

/-- One more job leaves a list from which the jobs `gone` have left. -/
theorem filter_leave {l : List Slot} {j : Slot} {gone gone' : Slot → Prop} [DecidablePred gone]
    [DecidablePred gone'] (h : ∀ i, gone' i ↔ gone i ∨ i = j) :
    (l.filter fun i => ¬gone i).filter (· != j) = l.filter fun i => ¬gone' i := by
  rw [List.filter_filter]
  refine List.filter_congr fun i _ => ?_
  by_cases hi : i = j <;> simp [h, hi]

theorem leaves_concat_iff {q : Slot → Prop} {i j : Slot} : .deadline i ∈ done ++ [.deadline j] ∧ q i ↔
    (.deadline i ∈ done ∧ q i) ∨ (i = j ∧ q j) := by
  rw [List.mem_append, List.mem_singleton, TickShare.deadline.injEq, or_and_right]
  refine or_congr_right (and_congr_right ?_)
  rintro rfl
  rfl

theorem leaves_concat_of_not {q : Slot → Prop} {j : Slot} (stays : ¬q j) (i : Slot) :
    .deadline i ∈ done ++ [.deadline j] ∧ q i ↔ .deadline i ∈ done ∧ q i :=
  leaves_concat_iff.trans (or_iff_left fun h => stays h.2)

theorem leaves_concat {q : Slot → Prop} {j : Slot} (leaves : q j) (i : Slot) :
    .deadline i ∈ done ++ [.deadline j] ∧ q i ↔ (.deadline i ∈ done ∧ q i) ∨ i = j :=
  leaves_concat_iff.trans (or_congr_right (and_iff_left leaves))

/-- A job that returns does not expire. -/
theorem returned_ne {i j : Slot} (ends : s.expires j) (hi : i ∈ done.filterMap s.tickReturned) : i ≠ j := by
  obtain ⟨x, -, row⟩ := List.mem_filterMap.1 hi
  cases x with
  | retry k =>
    by_cases back : s.returns k
    · obtain rfl : k = i := Option.some.inj ((if_pos back).symm.trans row)
      exact fun same => back.2.2 (same ▸ ends)
    · exact absurd ((if_neg back).symm.trans row) (by simp)
  | recovery | lease | freshness | deadline => exact absurd row (by simp [State.tickReturned])

theorem State.Ticking.priority (h : s.Ticking stuck done u) (j : Slot) :
    (u.job j).priority = (s.job j).priority := by
  rw [h.job, State.tickedJob]
  split <;> rfl

theorem State.Ticking.list_step (h : s.Ticking stuck done u) (hx : x ∉ u.ticks.taken) (pr : BitVec 2) :
    (u.applyShare stuck x).list pr = s.tickedList (done ++ [x]) pr := by
  obtain ⟨new, -⟩ := h.fresh hx
  cases x with
  | deadline j =>
    rw [State.applyShare, State.tickedList, filterMap_concat, State.tickReturned, Option.toList_none, List.append_nil]
    rcases h.deadline_cases hx with ⟨ends, tick⟩ | ⟨goes, tick⟩
    · rw [tick, completeJob_list, job_setJob_self, list_congr (s := u) (setJob_lists ..), h.list, h.priority]
      by_cases hp : (s.job j).priority = pr
      · have others : ∀ i ∈ (done.filterMap s.tickReturned).filter fun i => (s.job i).priority = pr,
            (i != j) = true :=
          fun i hi => bne_iff_ne.2 (returned_ne ends (List.mem_of_mem_filter hi))
        rw [if_pos hp.symm, State.tickedList, List.filter_append, List.filter_eq_self.2 others]
        exact congrArg (· ++ _) (filter_leave (leaves_concat (q := s.leavesList pr) ⟨ends, hp⟩))
      · rw [if_neg (Ne.symm hp)]
        exact congrArg (· ++ _) (filter_remain (leaves_concat_of_not (q := s.leavesList pr) fun h => hp h.2))
    · rw [tick, list_congr (s := u) (setJob_lists ..), h.list]
      exact congrArg (· ++ _) (filter_remain (leaves_concat_of_not (q := s.leavesList pr) fun h => goes h.1))
  | retry j =>
    have kept (i : Slot) : .deadline i ∈ done ++ [.retry j] ↔ .deadline i ∈ done := by simp
    rw [State.applyShare, State.tickedList, filterMap_concat]
    simp only [kept]
    rcases h.retry_cases hx with ⟨back, tick⟩ | ⟨stays, tick⟩
    · have row : s.tickReturned (.retry j) = some j := if_pos back
      rw [tick, requeueTail_list, h.list, h.priority, row, Option.toList_some, List.filter_append,
        ← List.append_assoc]
      by_cases hp : (s.job j).priority = pr
      · rw [if_pos hp.symm, List.filter_singleton]
        simp [hp, State.tickedList]
      · simp [hp, Ne.symm hp, State.tickedList]
    · have row : s.tickReturned (.retry j) = none := if_neg stays
      rw [tick, list_congr (s := u) (setJob_lists ..), h.list, row, Option.toList_none, List.append_nil]
      rfl
  | recovery | lease | freshness =>
    rw [list_congr (s := u) (by simp [State.applyShare]), h.list]
    simp [State.tickedList, State.tickReturned]

theorem State.Ticking.submission_step (h : s.Ticking stuck done u) (hx : x ∉ u.ticks.taken) :
    (u.applyShare stuck x).submission =
      s.submission.filter fun j => ¬(.deadline j ∈ done ++ [x] ∧ s.expires j) := by
  obtain ⟨new, -⟩ := h.fresh hx
  cases x with
  | deadline j =>
    rw [State.applyShare]
    rcases h.deadline_cases hx with ⟨ends, tick⟩ | ⟨goes, tick⟩
    · rw [tick, completeJob_submission, setJob_submission, h.submission]
      exact filter_leave (leaves_concat (q := s.expires) ends)
    · rw [tick, setJob_submission, h.submission]
      exact filter_remain (leaves_concat_of_not (q := s.expires) goes)
  | recovery | lease | freshness | retry => simp [State.applyShare, h.submission]

/-! ### What it posts (R32, R69, R129) -/

theorem State.Ticking.completions_step (h : s.Ticking stuck done u) (hx : x ∉ u.ticks.taken) :
    (u.applyShare stuck x).completions = { s.completions with
      records := s.completions.records ++ (done ++ [x]).filterMap s.tickRecord } := by
  obtain ⟨new, -⟩ := h.fresh hx
  rw [filterMap_concat, ← List.append_assoc]
  cases x with
  | deadline j =>
    rw [State.applyShare]
    rcases h.deadline_cases hx with ⟨ends, tick⟩ | ⟨goes, tick⟩
    · have row : s.tickRecord (.deadline j) = some _ := if_pos ends
      rw [tick, completeJob_completions, setJob_completions, setJob_ticks, job_setJob_self, h.completions, h.untimed new,
        h.ticks, row]
      rfl
    · have row : s.tickRecord (.deadline j) = none := if_neg goes
      rw [tick, setJob_completions, h.completions, row, Option.toList_none, List.append_nil]
  | recovery | lease | freshness | retry => simp [State.applyShare, h.completions, State.tickRecord]

theorem recoveryTick_events : (u.recoveryTick stuck).events =
    (if u.link.state = .faulted ∧ stuck = false ∧ u.link.recoveryTimer = 1 ∧ u.cfg.autoRecover = true then
      some ⟨.linkState, LinkState.syncing.code, u.cfg.address.setWidth 8, Cause.recovery.code⟩
      else none : Option Notice).toList.foldl (fun e n => e.post n u.ticks.stamp) u.events := by
  by_cases last : u.link.state = .faulted ∧ stuck = false ∧ u.link.recoveryTimer = 1 ∧ u.cfg.autoRecover = true
  · obtain ⟨faulted, rfl, timer, auto⟩ := last
    simp [recoveryTick_last, faulted, timer, auto]
  · rw [if_neg last]
    unfold State.recoveryTick
    dsimp only
    split
    next => rfl
    next faulted =>
      split
      next => rfl
      next free =>
        rw [if_neg fun h => last ⟨not_not.1 faulted, by simpa using free, h.1, h.2⟩]
        rfl

theorem leaseTick_events (p : Page) : (u.leaseTick p).events =
    (if (u.page p).holder.remote = true ∧ (u.page p).lease = 1 ∧ u.inFlight p = false then
      some ⟨.claimExpired, byte p.val, (u.page p).holder.code, 1⟩
      else none : Option Notice).toList.foldl (fun e n => e.post n u.ticks.stamp) u.events := by
  unfold State.leaseTick
  dsimp only
  split
  next unclaimed => simp [unclaimed, Holder.remote]
  next own => simp [own, Holder.remote]
  next a held =>
    split
    next out => simp [out]
    split
    next last =>
      cases flight : u.inFlight p
      · simp [held, last, Holder.remote, Holder.code]
        rfl
      · simp
    next between => simp [between]

theorem State.Ticking.events_step (h : s.Ticking stuck done u) (hx : x ∉ u.ticks.taken) :
    (u.applyShare stuck x).events = ((done ++ [x]).filterMap (s.tickNotice stuck)).foldl
      (fun e n => e.post n (s.ticks.stamp + 1)) s.events := by
  obtain ⟨new, toCome⟩ := h.fresh hx
  have stamp : u.ticks.stamp = s.ticks.stamp + 1 := by rw [h.ticks]
  rw [filterMap_concat, List.foldl_append, ← h.events, ← stamp]
  cases x with
  | recovery =>
    have link : u.link = s.link := by rw [h.link, if_neg new]
    rw [State.applyShare, recoveryTick_events, link, h.cfg, State.tickNotice]
    exact congrArg (fun posted : Option Notice => posted.toList.foldl _ _)
      (if_congr (and_iff_right toCome).symm rfl rfl)
  | lease p =>
    have holder : (u.page p).holder = (s.page p).holder := by simp [h.page, State.tickedPage, new]
    have lease : (u.page p).lease = (s.page p).lease := by simp [h.page, State.tickedPage, new]
    rw [State.applyShare, leaseTick_events, h.inFlight, holder, lease, State.tickNotice]
    exact congrArg (fun posted : Option Notice => posted.toList.foldl _ _)
      (if_congr (and_iff_right toCome).symm rfl rfl)
  | freshness | deadline | retry => simp [State.applyShare, State.tickNotice]

theorem State.Ticking.step (h : s.Ticking stuck done u) (hx : x ∉ u.ticks.taken) :
    s.Ticking stuck (done ++ [x]) ((u.applyShare stuck x).markTaken x) where
  ticks := by simp [State.markTaken, h.ticks]
  cfg := by simp [State.markTaken, h.cfg]
  responder := by simp [State.markTaken, h.responder]
  link := h.link_step hx
  page := h.page_step hx
  job := h.job_step hx
  list := h.list_step hx
  submission := h.submission_step hx
  completions := h.completions_step hx
  events := h.events_step hx

/-! ### Every share, once (R40) -/

theorem mem_allShares (x : TickShare) : x ∈ allShares := by
  cases x <;> simp [allShares]

/-- The shares of a list, one after the other: each that is still to come takes its step. -/
theorem State.Ticking.takeShares (shares : List TickShare) : ∀ {done : List TickShare} {u : State},
    s.Ticking stuck done u → done.Nodup → ∃ done', s.Ticking stuck done' (u.takeShares stuck shares) ∧
      done'.Nodup ∧ ∀ x, x ∈ done' ↔ x ∈ done ∨ x ∈ shares ∧ s.toCome x := by
  induction shares with
  | nil => exact fun h once => ⟨_, h, once, fun x => by simp⟩
  | cons y rest ih =>
    intro done u h once
    have row : u.takeShares stuck (y :: rest) = (u.takeShare stuck y).takeShares stuck rest := rfl
    rw [row]
    by_cases taken : y ∈ u.ticks.taken
    · rw [takeShare_taken stuck taken]
      obtain ⟨done', h', once', mem⟩ := ih h once
      refine ⟨done', h', once', fun x => (mem x).trans ?_⟩
      have before : y ∈ done ∨ ¬s.toCome y := by simpa [h.ticks] using taken
      by_cases same : x = y
      · subst same
        rcases before with old | gone
        · simp [old]
        · simp [State.toCome, not_not.1 gone]
      · simp [same]
    · rw [takeShare_toCome stuck taken]
      obtain ⟨new, toCome⟩ := h.fresh taken
      have once₁ : (done ++ [y]).Nodup := List.nodup_append.2 ⟨once, List.nodup_singleton y, by
        rintro a ha b hb rfl
        exact new (List.mem_singleton.1 hb ▸ ha)⟩
      obtain ⟨done', h', once', mem⟩ := ih (h.step taken) once₁
      refine ⟨done', h', once', fun x => (mem x).trans ?_⟩
      by_cases same : x = y
      · subst same
        simp [State.toCome, toCome]
      · simp [same]

/-- A whole tick: every share to come has taken its step, once. -/
theorem tickBoundary_ticking (s : State) (order : List TickShare) (stuck : Bool) : ∃ done u,
    s.Ticking stuck done u ∧ s.tickBoundary order stuck = u.clearTaken ∧ done.Nodup ∧
      ∀ x, x ∈ done ↔ s.toCome x := by
  obtain ⟨done, h, once, mem⟩ := (State.Ticking.start s stuck).takeShares (order ++ allShares) List.nodup_nil
  exact ⟨done, _, h, rfl, once, fun x => (mem x).trans (by simp [mem_allShares])⟩

/-! ### When all have (R40) -/

theorem State.Ticking.link_all (h : s.Ticking stuck done u) (all : ∀ x, x ∈ done ↔ s.toCome x) :
    u.link = if ¬s.toCome .recovery ∨ s.link.state ≠ .faulted then s.link
      else if stuck then { s.link with dominance := .exceeded, recoveryTimer := 64 }
      else if s.recovers stuck then ⟨.syncing, .idle, [], .running, .running, 0, 0, some .recovery⟩
      else { s.link with dominance := .running, recoveryTimer := s.link.recoveryTimer - 1 } := by
  rw [h.link]
  by_cases toCome : s.toCome .recovery
  · rw [if_pos ((all _).2 toCome), State.tickedLink, if_congr (or_iff_right (not_not.2 toCome)) rfl rfl]
    by_cases faulted : s.link.state = .faulted
    · cases stuck
      · simp [State.recovers, State.toCome, toCome, faulted]
      · rfl
    · rw [if_pos faulted, if_pos faulted]
  · rw [if_neg ((all _).not.2 toCome), if_pos (.inl toCome)]

theorem State.Ticking.page_all (h : s.Ticking stuck done u) (all : ∀ x, x ∈ done ↔ s.toCome x) (p : Page) :
    u.page p = { s.page p with
      holder := if s.lapses p then .none else (s.page p).holder
      lease := if s.toCome (.lease p) ∧ (s.page p).holder.remote = true then (s.page p).lease - 1
        else (s.page p).lease
      freshness := if s.ages p ∧ (s.page p).countdown = 1 then .stale else (s.page p).freshness
      countdown := if s.ages p then (s.page p).countdown - 1 else (s.page p).countdown } := by
  simp only [h.page, State.tickedPage, all, State.lapses, State.ages, and_assoc, and_self_left]

theorem State.Ticking.job_all (h : s.Ticking stuck done u) (all : ∀ x, x ∈ done ↔ s.toCome x) (j : Slot) :
    u.job j = if s.expires j then { s.job j with
        state := .complete, deadlineRemaining := 0, retryCountdown := 0, result := .expired
        bytesDone := 0, unread := true }
      else { s.job j with
        state := if s.returns j then .queued else (s.job j).state
        deadlineRemaining := if s.runs j then (s.job j).deadlineRemaining - 1
          else (s.job j).deadlineRemaining
        expiryRequested := if s.runs j ∧ (s.job j).deadlineRemaining = 1 then true
          else (s.job j).expiryRequested
        retryCountdown := if s.waits j then (s.job j).retryCountdown - 1
          else (s.job j).retryCountdown } := by
  have ends : .deadline j ∈ done ∧ s.expires j ↔ s.expires j := and_iff_right_of_imp fun e => (all _).2 e.1.1
  rw [h.job, State.tickedJob]
  by_cases e : s.expires j
  · rw [if_pos (ends.2 e), if_pos e]
  · rw [if_neg (ends.not.2 e), if_neg e]
    have returns : .retry j ∈ done ∧ s.returns j ↔ s.returns j := and_iff_right_of_imp fun b => (all _).2 b.1.1
    have runs : .deadline j ∈ done ∧ s.runs j ↔ s.runs j := and_iff_right_of_imp fun r => (all _).2 r.1
    have runsOut : .deadline j ∈ done ∧ s.runs j ∧ (s.job j).deadlineRemaining = 1 ↔
        s.runs j ∧ (s.job j).deadlineRemaining = 1 := and_iff_right_of_imp fun r => (all _).2 r.1.1
    have waits : .retry j ∈ done ∧ s.waits j ∧ ¬((s.job j).retryCountdown ≤ 1 ∧ s.expires j) ↔ s.waits j :=
      ⟨fun w => w.2.1, fun w => ⟨(all _).2 w.1, w, fun h => e h.2⟩⟩
    rw [if_congr returns rfl rfl, if_congr runs rfl rfl, if_congr runsOut rfl rfl, if_congr waits rfl rfl]

theorem State.Ticking.list_all (h : s.Ticking stuck done u) (all : ∀ x, x ∈ done ↔ s.toCome x) (pr : BitVec 2) :
    u.list pr = ((s.list pr).filter fun j => ¬(s.expires j ∧ (s.job j).priority = pr)) ++
      (done.filterMap s.tickReturned).filter fun j => (s.job j).priority = pr := by
  rw [h.list]
  exact congrArg (· ++ _) (filter_remain fun j => (and_iff_right_of_imp fun e => (all _).2 e.1.1.1).symm)

theorem State.Ticking.submission_all (h : s.Ticking stuck done u) (all : ∀ x, x ∈ done ↔ s.toCome x) :
    u.submission = s.submission.filter fun j => ¬s.expires j := by
  rw [h.submission]
  exact filter_remain fun j => (and_iff_right_of_imp fun e => (all _).2 e.1.1).symm

end

end Sys2Proof.Machine
end

section
/-!
PROOFS. The tick (R31 to R33, R40, R57, R58, R69, R70, R125, R129, R132; log entries 5, 6 and 28).
-/

namespace Sys2Proof.Machine

/-! ### A commit and then the tick (R58) -/

/-- What a tick leaves of a page's freshness. -/
theorem tickBoundary_freshness (s : State) (order : List TickShare) (stuck : Bool) (p : Page) :
    ((s.tickBoundary order stuck).page p).freshness =
        (if s.ages p ∧ (s.page p).countdown = 1 then .stale else (s.page p).freshness) ∧
      ((s.tickBoundary order stuck).page p).countdown =
        if s.ages p then (s.page p).countdown - 1 else (s.page p).countdown := by
  obtain ⟨done, u, h, boundary, -, all⟩ := tickBoundary_ticking s order stuck
  have page : (s.tickBoundary order stuck).page p = u.page p := by rw [boundary]; rfl
  rw [page, h.page_all all]
  exact ⟨rfl, rfl⟩

/-- A tick right after a commit steps the new countdown unless the commit replaced a last one (R58). -/
theorem commitPage_ages {s : State} {pg : Page} (deferred : (s.page pg).mode = .deferred)
    (toCome : .freshness pg ∉ s.ticks.taken) (free : pg ∉ s.ticks.spared) :
    (s.commitPage pg).ages pg ↔ (s.page pg).replacesLast = false := by
  have page : (s.commitPage pg).page pg = (s.page pg).committed := page_setPage_self s pg _
  simp only [State.ages, State.toCome, page]
  cases last : (s.page pg).replacesLast <;>
    simp [State.commitPage, TickGenerator.sparing, PageEntry.committed, deferred, toCome, free, last]

theorem commit_tick {s : State} {pg : Page} (deferred : (s.page pg).mode = .deferred)
    (toCome : .freshness pg ∉ s.ticks.taken) (free : pg ∉ s.ticks.spared) (port : LocalPort)
    (order : List TickShare) (stuck : Bool) :
    ((({ s.commitPage pg with port := port }.tickBoundary order stuck).page pg).freshness =
        if (s.page pg).replacesLast = false ∧ (s.page pg).lifetime = 1 then .stale else .fresh) ∧
      ((({ s.commitPage pg with port := port }.tickBoundary order stuck).page pg).countdown =
        if (s.page pg).replacesLast = false then (s.page pg).lifetime - 1 else (s.page pg).lifetime) := by
  obtain ⟨freshness, countdown⟩ := tickBoundary_freshness { s.commitPage pg with port := port } order stuck pg
  have ages : State.ages { s.commitPage pg with port := port } pg ↔ (s.page pg).replacesLast = false :=
    commitPage_ages deferred toCome free
  have page : State.page { s.commitPage pg with port := port } pg = (s.page pg).committed := page_setPage_self s pg _
  simp only [page, PageEntry.committed, deferred, if_true, ages] at freshness countdown
  exact ⟨freshness, countdown⟩

/-! ### A telegram's moments are after every commit (log entry 28) -/

/-- A row of the link ends what a commit has spared, and touches the tick generator no further. -/
theorem onLink_spares {s t : State} {f : State → State} (hm : s.mode = .running) (h : s.onLink f = .next t)
    (hf : (f s.momentOver).ticks = s.momentOver.ticks) : t.ticks = { s.ticks with spared := [] } := by
  rcases onLink_next h with ⟨held, -⟩ | ⟨-, rfl⟩
  · exact absurd hm held
  · exact hf

/-- Settles O59: the tick is followed share by share (State.Ticking), a commit right before it adds to what the tick
finds, and each row of the link goes on from State.momentOver. -/
theorem tickTakesOneStepOfEveryCountdown : Obligations.TickTakesOneStepOfEveryCountdown := by
  refine ⟨?commit, ?moment, ?tick⟩
  case commit =>
    intro s p pg order stuck hp hpg e deferred grounded mayCommit expected toCome free
    have opened : e.mode ≠ .closed := by simp [deferred]
    have claim : ¬(e.holder.remote = true ∧ p[1].getLsbD 0 = false) := by
      rintro ⟨held, unforced⟩
      rcases mayCommit with h | h
      · exact absurd (h.symm.trans held) (by decide)
      · exact absurd (h.symm.trans unforced) (by decide)
    have conflict : ¬(p[1].getLsbD 1 = true ∧ e.sequence ≠ p[2]) := by
      rintro ⟨asked, other⟩
      rcases expected with h | h
      · exact absurd (h.symm.trans asked) (by decide)
      · exact other h
    have effect : pageCommitEffect p s = (s.commitPage pg).finish .ok [e.sequence + 1] := by
      rw [pageCommitEffect_eq hpg, if_neg opened, if_neg (by simp [grounded]), if_neg claim, if_neg conflict]
    obtain ⟨freshness, countdown⟩ := commit_tick deferred toCome free
      ((s.commitPage pg).port.finished .ok [e.sequence + 1]) order stuck
    refine ⟨_, _, completing_finish hp effect, whenRunning_running (·.tickBoundary order stuck) hp.1,
      fun requested last => ?_, fun fresh long => ?_, fun fresh short last => ?_⟩
    · have replaces : ¬e.replacesLast = false := by simp [PageEntry.replacesLast, deferred, requested, last]
      exact ⟨freshness.trans (if_neg fun h => replaces h.1), countdown.trans (if_neg replaces)⟩
    · have steps : e.replacesLast = false := by simp [PageEntry.replacesLast, fresh, long.ne']
      exact ⟨freshness.trans (if_neg fun h => long.ne' h.2), countdown.trans (if_pos steps)⟩
    · have replaces : ¬e.replacesLast = false := by simp [PageEntry.replacesLast, deferred, fresh, short, last]
      exact freshness.trans (if_neg fun h => replaces h.1)
  case moment =>
    intro s t i hm hi h
    simp only [List.mem_cons, List.not_mem_nil, or_false] at hi
    rcases hi with (rfl | rfl | rfl | rfl | rfl | rfl | rfl | rfl | rfl | rfl) | ⟨part, rfl⟩ | ⟨data, check, x, y, rfl⟩
    · exact onLink_spares (f := State.joinLink) hm h (by simp)
    · exact onLink_spares (f := State.offerLink) hm h (by simp)
    · exact onLink_spares (f := State.recogniseStart) hm h (by simp)
    · exact onLink_spares (f := State.loseArbitration) hm h (by simp)
    · exact onLink_spares (f := State.fifthNak) hm h (by simp)
    · refine onLink_spares hm h ?_
      split
      · simp
      · rfl
    · exact onLink_spares (f := State.loseSync) hm h (by simp)
    · exact onLink_spares (f := State.reachEnd) hm h (by simp)
    · exact onLink_spares (f := State.meetStuck) hm h (by simp)
    · exact onLink_spares (f := State.restartGap) hm h (by simp)
    · exact onLink_spares (f := (·.takeHeaderPart part)) hm h (by simp)
    · exact onLink_spares (f := (·.takeBlock data check x y)) hm h (by simp)
  case tick =>
    intro s order stuck hm toCome stamp recovers lapses ages runs expires waits returns notice record returned
    have posts : notice = s.tickNotice stuck := by funext x; cases x <;> rfl
    have records : record = s.tickRecord := by funext x; cases x <;> rfl
    have back : returned = s.tickReturned := by funext x; cases x <;> rfl
    obtain ⟨done, u, h, boundary, once, all⟩ := tickBoundary_ticking s order stuck
    have row : exec (.tick order stuck) s = .next u.clearTaken :=
      (whenRunning_running (·.tickBoundary order stuck) hm).trans (congrArg _ boundary)
    have frame := tickBoundary_keeps s order stuck
    rw [boundary] at frame
    obtain ⟨pending, mode, port, lastRead, cfg, groups, pageMem, responder, inbound, pool, initiator, peers⟩ := frame
    refine ⟨done, once, all, u.clearTaken, row, ?frame, h.page_all all, h.job_all all, back ▸ h.list_all all⟩
    have events : u.events = (done.filterMap notice).foldl (fun u n => u.post n stamp) s.events := posts ▸ h.events
    have completions : u.completions = { s.completions with
        records := s.completions.records ++ done.filterMap record } := records ▸ h.completions
    have ticks : u.clearTaken.ticks = ⟨0, stamp, [], []⟩ := by rw [State.clearTaken, h.ticks]
    exact (State.mk.injEq ..).mpr ⟨pending, mode, port, lastRead, cfg, groups, h.link_all all, ticks, rfl, pageMem,
      responder, inbound, rfl, pool, rfl, h.submission_all all, completions, initiator, peers, events⟩

end Sys2Proof.Machine
end
